-- ==== Sys2Proof/Word.lean ====
section
/-! DEFINITION. The word types of Mladtar 1 and the plainest arithmetic on them (R4, R25).
A register is 64 bits, a vector register is 32 lanes of 32 bits, an instruction is one 64-bit word. -/

namespace Sys2Proof

abbrev Word := BitVec 64
abbrev Byte := BitVec 8
abbrev Half := BitVec 16
abbrev W32 := BitVec 32

/-- A vector register: lane i, 0 to 31 (R25). -/
abbrev Lanes := Vector W32 32

/-- Numbers of X and V registers. -/
abbrev Reg := BitVec 5

end Sys2Proof
end

