-- ==== Sys2Proof/Syntax.lean ====
section
/-! DEFINITION. The instructions of Mladtar 1 and the steps of the SJ9, one constructor for each row of the
opcode table. An encoded instruction carries the fields of its format (R39, R40); which values of the fields
the instruction accepts is `Instr.wf` (WellFormed.lean). A step of the device has no instruction word (the last
88 constructors); where it happens, and the data it brings, stand in the state (`Machine.State.ev`). -/

namespace Sys2Proof

/-- The format F-R3 (R40); `mod` is the modifier [18:0]. -/
structure R3 where
  sel : BitVec 3
  neg : BitVec 1
  d : BitVec 6
  a : BitVec 6
  am : BitVec 1
  b : BitVec 6
  bm : BitVec 1
  c : BitVec 6
  cm : BitVec 1
  mod : BitVec 19
  deriving DecidableEq, Repr

/-- The format F-RI (R40). -/
structure RI where
  sel : BitVec 3
  neg : BitVec 1
  d : BitVec 6
  a : BitVec 6
  am : BitVec 1
  imm : BitVec 33
  deriving DecidableEq, Repr

/-- The format F-M (R40); `idx` is the index register, or store or atomic data. -/
structure FM where
  sel : BitVec 3
  neg : BitVec 1
  d : BitVec 6
  base : BitVec 6
  bm : BitVec 1
  idx : BitVec 6
  im : BitVec 1
  scale : BitVec 2
  hint : BitVec 3
  scope : BitVec 2
  off : BitVec 19
  deriving DecidableEq, Repr

/-- The format F-B (R40). -/
structure FB where
  sel : BitVec 3
  neg : BitVec 1
  d : BitVec 6
  a : BitVec 6
  am : BitVec 1
  b : BitVec 6
  bm : BitVec 1
  cond : BitVec 4
  off : BitVec 22
  deriving DecidableEq, Repr

/-- The format F-L (R40). -/
structure FL where
  sel : BitVec 3
  neg : BitVec 1
  d : BitVec 6
  imm : BitVec 40
  deriving DecidableEq, Repr

/-- The format F-Q (R40); `q` is the queue number that stands in the destination's place. -/
structure FQ where
  sel : BitVec 3
  neg : BitVec 1
  q : BitVec 6
  a : BitVec 6
  am : BitVec 1
  b : BitVec 6
  bm : BitVec 1
  c : BitVec 6
  cm : BitVec 1
  guard : BitVec 3
  guarded : BitVec 1
  cmd : BitVec 15
  deriving DecidableEq, Repr

/-- The format F-S (R40, R312). -/
structure FS where
  sel : BitVec 3
  neg : BitVec 1
  d : BitVec 6
  code : BitVec 12
  rsv : BitVec 28
  deriving DecidableEq, Repr

/-- The instructions (R43) and the device's steps. -/
inductive Instr where
  /-- `ADD` (R85). Adds two X registers at the chosen integer type, wrapping or saturating. -/
  | add (r : R3)
  /-- `SUB` (R85). Subtracts Xb from Xa at the chosen integer type, wrapping or saturating. -/
  | sub (r : R3)
  /-- `MUL` (R85). Multiplies two X registers and keeps the low bits, or saturates. -/
  | mul (r : R3)
  /-- `MULH` (R85). Writes the high half of the exact product of two X registers. -/
  | mulh (r : R3)
  /-- `DIV` (R85). Long-latency integer division toward zero, with defined results for zero and overflow. -/
  | div (r : R3)
  /-- `REM` (R85). Long-latency integer remainder with the sign of the dividend. -/
  | rem (r : R3)
  /-- `AND` (R85). Bitwise AND of two X registers. -/
  | and (r : R3)
  /-- `OR` (R85). Bitwise OR of two X registers. -/
  | or (r : R3)
  /-- `XOR` (R85). Bitwise XOR of two X registers. -/
  | xor (r : R3)
  /-- `ANDN` (R85). Xa AND NOT Xb. -/
  | andn (r : R3)
  /-- `SHL` (R85). Shifts left by Xb modulo the width. -/
  | shl (r : R3)
  /-- `SHR` (R85). Shifts right logically by Xb modulo the width. -/
  | shr (r : R3)
  /-- `SRA` (R85). Shifts right arithmetically by Xb modulo the width. -/
  | sra (r : R3)
  /-- `ROT` (R85). Rotates left by Xb modulo the width. -/
  | rot (r : R3)
  /-- `CLZ` (R85). Counts leading zeros of the typed value. -/
  | clz (r : R3)
  /-- `POPC` (R85). Counts the one bits of the typed value. -/
  | popc (r : R3)
  /-- `MIN` (R85). Writes the lesser of two typed integers. -/
  | min (r : R3)
  /-- `MAX` (R85). Writes the greater of two typed integers. -/
  | max (r : R3)
  /-- `SEL` (R85). Selects Xa when Xc is nonzero, else Xb. -/
  | sel (r : R3)
  /-- `CMP` (R84). Compares two X registers under a condition and writes 1 or 0. -/
  | cmp (r : R3)
  /-- `ADDI` (R86). Adds a sign-extended 33-bit immediate to Xa modulo 2^64. -/
  | addi (r : RI)
  /-- `AND_IMM` (R86). Bitwise AND of Xa with an immediate. -/
  | andImm (r : RI)
  /-- `OR_IMM` (R86). Bitwise OR of Xa with an immediate. -/
  | orImm (r : RI)
  /-- `XOR_IMM` (R86). Bitwise XOR of Xa with an immediate. -/
  | xorImm (r : RI)
  /-- `SHL_IMM` (R86). Shifts Xa left by an immediate count. -/
  | shlImm (r : RI)
  /-- `SHR_IMM` (R86). Shifts Xa right logically by an immediate count. -/
  | shrImm (r : RI)
  /-- `SRA_IMM` (R86). Shifts Xa right arithmetically by an immediate count. -/
  | sraImm (r : RI)
  /-- `ROT_IMM` (R86). Rotates Xa left by an immediate count. -/
  | rotImm (r : RI)
  /-- `LEA` (R87). Computes an effective address without accessing or translating it. -/
  | lea (r : FM)
  /-- `EXTR` (R88). Extracts a bit field, zero- or sign-extended. -/
  | extr (r : R3)
  /-- `INS` (R88). Inserts the low bits of Xa into a field of Xb. -/
  | ins (r : R3)
  /-- `FADD` (R91). Scalar floating addition with one rounding. -/
  | fadd (r : R3)
  /-- `FSUB` (R91). Scalar floating subtraction with one rounding. -/
  | fsub (r : R3)
  /-- `FMUL` (R91). Scalar floating multiplication with one rounding. -/
  | fmul (r : R3)
  /-- `FFMA` (R91). Fused multiply-add with a single rounding. -/
  | ffma (r : R3)
  /-- `FDIV` (R91). Long-latency scalar floating division. -/
  | fdiv (r : R3)
  /-- `FSQRT` (R91). Long-latency scalar floating square root. -/
  | fsqrt (r : R3)
  /-- `FMIN` (R91). Scalar floating minimum per minimumNumber. -/
  | fmin (r : R3)
  /-- `FMAX` (R91). Scalar floating maximum per maximumNumber. -/
  | fmax (r : R3)
  /-- `FCMP` (R92). Floating comparison writing 1 or 0, with NV per condition. -/
  | fcmp (r : R3)
  /-- `FCVT` (R93). Converts Xa between float and integer types. -/
  | fcvt (r : R3)
  /-- `FCLASS` (R92). Writes a one-hot class mask of a floating value. -/
  | fclass (r : R3)
  /-- `BR` (R94). Branches when the comparison of two X registers holds. -/
  | br (r : FB)
  /-- `BRP` (R94). Branches on a predicate-register condition. -/
  | brp (r : FB)
  /-- `JMP` (R95). Unconditional PC-relative jump. -/
  | jmp (r : FB)
  /-- `CALL` (R95). Writes the link register and jumps PC-relative. -/
  | call (r : FB)
  /-- `RET` (R95). Jumps to the address in the return register. -/
  | ret (r : FB)
  /-- `BRX` (R95). Indirect jump to Xa plus an immediate, with an optional link. -/
  | brx (r : RI)
  /-- `MOVI` (R89). Loads a sign-extended 40-bit immediate into Xd. -/
  | movi (r : FL)
  /-- `MOVHI` (R89). Replaces bits 63:40 of Xd with a 24-bit immediate. -/
  | movhi (r : FL)
  /-- `VADD` (R98). Per-element vector integer addition. -/
  | vadd (r : R3)
  /-- `VSUB` (R98). Per-element vector integer subtraction. -/
  | vsub (r : R3)
  /-- `VMUL` (R98). Per-element vector integer multiplication. -/
  | vmul (r : R3)
  /-- `VMULH` (R98). Per-element high half of the vector integer product. -/
  | vmulh (r : R3)
  /-- `VMAD` (R98). Per-element A times B plus C, wrapped or clamped once. -/
  | vmad (r : R3)
  /-- `VMIN` (R98). Per-element vector integer minimum. -/
  | vmin (r : R3)
  /-- `VMAX` (R98). Per-element vector integer maximum. -/
  | vmax (r : R3)
  /-- `VABS` (R98). Per-element absolute value of signed integers. -/
  | vabs (r : R3)
  /-- `VAND` (R97). Bitwise AND of vector lanes. -/
  | vand (r : R3)
  /-- `VOR` (R97). Bitwise OR of vector lanes. -/
  | vor (r : R3)
  /-- `VXOR` (R97). Bitwise XOR of vector lanes. -/
  | vxor (r : R3)
  /-- `VANDN` (R97). Bitwise AND NOT of vector lanes. -/
  | vandn (r : R3)
  /-- `VSHL` (R97). Per-element left shift by B modulo the width. -/
  | vshl (r : R3)
  /-- `VSHR` (R97). Per-element logical right shift. -/
  | vshr (r : R3)
  /-- `VSRA` (R97). Per-element arithmetic right shift. -/
  | vsra (r : R3)
  /-- `VCMP` (R99). Compares vector lanes and writes predicate bits. -/
  | vcmp (r : R3)
  /-- `VFADD` (R100). Per-element vector floating addition. -/
  | vfadd (r : R3)
  /-- `VFSUB` (R100). Per-element vector floating subtraction. -/
  | vfsub (r : R3)
  /-- `VFMUL` (R100). Per-element vector floating multiplication. -/
  | vfmul (r : R3)
  /-- `VFFMA` (R100). Per-element fused multiply-add. -/
  | vffma (r : R3)
  /-- `VFDIV` (R100). Long-latency per-element vector floating division. -/
  | vfdiv (r : R3)
  /-- `VFSQRT` (R100). Long-latency per-element square root. -/
  | vfsqrt (r : R3)
  /-- `VFRSQ` (R100). Long-latency per-element reciprocal square root, correctly rounded. -/
  | vfrsq (r : R3)
  /-- `VFMIN` (R100). Per-element floating minimum. -/
  | vfmin (r : R3)
  /-- `VFMAX` (R100). Per-element floating maximum. -/
  | vfmax (r : R3)
  /-- `VFCMP` (R100). Per-lane floating comparison into a predicate register. -/
  | vfcmp (r : R3)
  /-- `VFEXP2` (R101). Per-lane 2^A, correctly rounded. -/
  | vfexp2 (r : R3)
  /-- `VFTBL` (R102). Per-lane linear interpolation in a 32-knot table. -/
  | vftbl (r : R3)
  /-- `VFCVT` (R104). Converts one part of a vector between element types. -/
  | vfcvt (r : R3)
  /-- `VQNT` (R105). Quantises 32 FP32 lanes into one block with its E8M0 scale. -/
  | vqnt (r : R3)
  /-- `VDQNT` (R106). Decodes one block and its scale into 32 FP32 lanes. -/
  | vdqnt (r : R3)
  /-- `VPACK` (R107). Narrows two vectors of 32-bit lanes into 16- or 8-bit elements. -/
  | vpack (r : R3)
  /-- `VBCAST` (R109). Broadcasts the low bits of Xa into every element. -/
  | vbcast (r : R3)
  /-- `VPERM` (R109). Permutes lanes from one or two sources by an index vector. -/
  | vperm (r : R3)
  /-- `VROT` (R109). Rotates the lanes of a vector by Xb. -/
  | vrot (r : R3)
  /-- `VEXPAND` (R109). Spreads consecutive source lanes into the selected lanes. -/
  | vexpand (r : R3)
  /-- `VRED` (R110). Reduces the selected lanes along the fixed tree into Xd. -/
  | vred (r : R3)
  /-- `VSCAN` (R110). Inclusive or exclusive scan along the fixed tree. -/
  | vscan (r : R3)
  /-- `VMOVX` (R111). Moves one vector lane into an X register. -/
  | vmovx (r : R3)
  /-- `VINS` (R111). Writes Xa into one selected lane of a vector. -/
  | vins (r : R3)
  /-- `VCMPT` (R134). Compacts lanes passing a threshold, with indices, count and sums. -/
  | vcmpt (r : R3)
  /-- `VTOPK` (R135). Returns the k highest-ranking candidates and their lane indices. -/
  | vtopk (r : R3)
  /-- `VSORT` (R136). Stably sorts candidate lanes by key with their payload. -/
  | vsort (r : R3)
  /-- `PSET` (R113). Sets predicate bits from Xa or as a first-n mask. -/
  | pset (r : R3)
  /-- `PAND` (R113). Bitwise AND of predicate registers. -/
  | pand (r : R3)
  /-- `POR` (R113). Bitwise OR of predicate registers. -/
  | por (r : R3)
  /-- `PXOR` (R113). Bitwise XOR of predicate registers. -/
  | pxor (r : R3)
  /-- `PANDN` (R113). Pa AND NOT Pb on predicate registers. -/
  | pandn (r : R3)
  /-- `PCNT` (R113). Counts set predicate bits in selected lanes. -/
  | pcnt (r : R3)
  /-- `PFFS` (R113). Finds the lowest set predicate bit in selected lanes. -/
  | pffs (r : R3)
  /-- `LD` (R181). Loads a byte, half, word or dword, zero-extended, into Xd. -/
  | ld (size : BitVec 2) (r : FM)
  /-- `LDA` (R181). Loads as an acquire at the named scope. -/
  | lda (size : BitVec 1) (r : FM)
  /-- `ST` (R181). Posts a store of the low bits of Xb. -/
  | st (size : BitVec 2) (r : FM)
  /-- `STL` (R181). Stores as a release at the named scope. -/
  | stl (size : BitVec 1) (r : FM)
  /-- `LDV` (R181). Loads 32 consecutive words into a vector. -/
  | ldv (r : FM)
  /-- `STV` (R181). Stores the selected lanes to consecutive words. -/
  | stv (r : FM)
  /-- `LDVS` (R181). Strided vector load. -/
  | ldvs (r : FM)
  /-- `STVS` (R181). Strided vector store. -/
  | stvs (r : FM)
  /-- `LDVX` (R181). Indexed vector gather load. -/
  | ldvx (r : FM)
  /-- `STVX` (R181). Indexed vector scatter store, highest lane winning. -/
  | stvx (r : FM)
  /-- `AMO` (R191). Indivisible read-modify-write of a word or dword, returning the old value. -/
  | amo (fn : BitVec 7) (r : FM)
  /-- `AMOV` (R192). Per-lane 32-bit atomics at vector addresses. -/
  | amov (fn : BitVec 6) (r : FM)
  /-- `RED` (R193). Posts a reduction contribution to a location, returning nothing. -/
  | red (fn : BitVec 6) (r : FM)
  /-- `FENCE_ACQ` (R189). Orders earlier loads before later accesses at a scope. -/
  | fenceAcq (r : FM)
  /-- `FENCE_REL` (R189). Waits until earlier stores are visible at a scope and reports failed remote stores. -/
  | fenceRel (r : FM)
  /-- `FENCE_FULL` (R189). Orders all earlier accesses before all later ones at a scope. -/
  | fenceFull (r : FM)
  /-- `ICSYNC` (R190). Acquire fence that discards fetched instruction words. -/
  | icsync (r : FM)
  /-- `WAITEV` (R195). Acquire-loads a location and sleeps while it equals Xb. -/
  | waitev (r : FM)
  /-- `PREF` (R196). Requests a line into the level its scope names, never faulting. -/
  | pref (r : FM)
  /-- `SPCLAIM` (R170). Pins and zero-fills L1 ways as scratchpad for the context. -/
  | spclaim (r : RI)
  /-- `SPREL` (R171). Releases the most recently claimed scratchpad ways. -/
  | sprel (r : RI)
  /-- `RETAIN` (R176). Reserves L2 ways on the home die for a physical range. -/
  | retain (r : FM)
  /-- `UNPIN` (R177). Releases a retention register. -/
  | unpin (r : FM)
  /-- `FEWAIT` (R197). Waits until no masked register is empty-pending; traps on empty-idle. -/
  | fewait (r : RI)
  /-- `FESET` (R197). Marks masked registers full. -/
  | feset (r : RI)
  /-- `FECLR` (R197). Marks masked registers empty-idle. -/
  | feclr (r : RI)
  /-- `TILEDEF` (R208). Declares a tile from a shape record, mirrored to every die. -/
  | tiledef (r : FM)
  /-- `TILEREL` (R209). Releases a declared tile of the thread's address space. -/
  | tilerel (r : RI)
  /-- `TXB` (R211). Begins or nests a transaction, taking a checkpoint. -/
  | txb (r : FB)
  /-- `TXE` (R215). Lowers nesting or commits the transaction through prepare and commit. -/
  | txe (r : RI)
  /-- `TXA` (R217). Aborts the transaction explicitly with a code. -/
  | txa (r : RI)
  /-- `TXQ` (R218). Writes TXSTAT to Xd. -/
  | txq (r : RI)
  /-- `TXQ_CLR` (R218). Writes TXSTAT to Xd and clears its retained fields. -/
  | txqClr (r : RI)
  /-- `TXRED` (R216). Adds a speculative reduction contribution inside a transaction. -/
  | txred (r : FM)
  /-- `QW` (R229). Issues the major 0x1D word held in Xa as a command. -/
  | qw (r : FQ)
  /-- `QR` (R230). Pops one element of a queue view into a register. -/
  | qr (r : RI)
  /-- `QSTAT` (R231). Writes a snapshot of a queue view. -/
  | qstat (r : RI)
  /-- `GSET` (R232). Resolves a guard true or false and releases commands held on it. -/
  | gset (r : RI)
  /-- `GCLR` (R232). Makes a guard pending. -/
  | gclr (r : RI)
  /-- `GQ` (R232). Reads a guard's state. -/
  | gq (r : RI)
  /-- `CPY` (R235). Pushes a linear copy command to the copy engine. -/
  | cpy (r : FQ)
  /-- `CPY2D` (R235). Pushes a two-dimensional copy command. -/
  | cpy2d (r : FQ)
  /-- `SCAT` (R236). Pushes a word scatter from scratchpad to memory. -/
  | scat (r : FQ)
  /-- `KICK` (R243). Offers a buffer to another context as a notice. -/
  | kick (r : FQ)
  /-- `KACK` (R245). Acknowledges a landed notice and posts the ack to its sender. -/
  | kack (r : FQ)
  /-- `KACK_OPEN` (R245). Opens the context's landing ring. -/
  | kackOpen (r : FQ)
  /-- `KACK_CLOSE` (R245). Waits for all notices to be acknowledged, then closes the ring. -/
  | kackClose (r : FQ)
  /-- `GATH` (R237). Pushes an indexed gather served by the home slices into Q5. -/
  | gath (r : FQ)
  /-- `GATH_SEL` (R237). Pushes a threshold select returning passing indices. -/
  | gathSel (r : FQ)
  /-- `MERGE` (R238). Sends a merge descriptor to the half-die merge tree. -/
  | merge (r : FQ)
  /-- `MCLAIM` (R123). Claims the matrix unit, waiting while another context owns it. -/
  | mclaim (r : FQ)
  /-- `MCLAIM_TRY` (R123). Claims the matrix unit if free, else completes BUSY. -/
  | mclaimTry (r : FQ)
  /-- `MCLAIM_REL` (R123). Releases the matrix unit. -/
  | mclaimRel (r : FQ)
  /-- `MLOADW` (R124). Latches a weight tile and its format. -/
  | mloadw (r : FQ)
  /-- `MLOADT` (R124). Loads the 257-knot activation table and its range. -/
  | mloadt (r : FQ)
  /-- `MLOADT_BIAS` (R124). Loads the 32 column biases. -/
  | mloadtBias (r : FQ)
  /-- `MSTREAM` (R125). Streams activation rows into accumulator rows. -/
  | mstream (r : FQ)
  /-- `MSTREAM_RING` (R127). Streams tiles around the configured ring for n steps. -/
  | mstreamRing (r : FQ)
  /-- `MDRAIN` (R128). Drains accumulator rows through bias, activation and scale to scratchpad. -/
  | mdrain (r : FQ)
  /-- `MRING` (R126). Sets or removes the core's ring size. -/
  | mring (r : FQ)
  /-- `NSEND` (R251). Pushes a send or tagged send to the transport engine. -/
  | nsend (r : FQ)
  /-- `NWRITE` (R251). Pushes an RMA write to a remote buffer. -/
  | nwrite (r : FQ)
  /-- `NPOST` (R254). Installs a posted receive buffer or RMA window. -/
  | npost (r : FQ)
  /-- `NCQ_FENCE` (R253). Posts an element once all earlier transport commands have completed. -/
  | ncqFence (r : FQ)
  /-- `NCQ_UNPOST` (R253). Retires a posted buffer. -/
  | ncqUnpost (r : FQ)
  /-- `FOPEN` (R241). Opens a fibre over coordinate and value arrays. -/
  | fopen (r : R3)
  /-- `FADV` (R241). Advances a fibre's position by a count. -/
  | fadv (r : R3)
  /-- `FADV_TO` (R241). Advances a fibre to the first coordinate at or above a target. -/
  | fadvTo (r : R3)
  /-- `FTEND` (R241). Sets a predicate when the fibre is at its end. -/
  | ftend (r : R3)
  /-- `FCLOSE` (R241). Closes a fibre. -/
  | fclose (r : R3)
  /-- `FLDC` (R241). Long-latency read of fibre coordinates. -/
  | fldc (r : R3)
  /-- `FLDV` (R241). Long-latency read of fibre values. -/
  | fldv (r : R3)
  /-- `LAUNCH_Q` (R279). Appends a launch header to a launch queue of the own address space. -/
  | launchQ (r : R3)
  /-- `LAUNCH_CORE` (R279). Hands every task of a header to one core's inbox. -/
  | launchCore (r : R3)
  /-- `FORK` (R280). Pushes a child task record at the bottom of the core's deque. -/
  | fork (r : R3)
  /-- `JOIN` (R281). Decrements a join counter and continues or ends the thread. -/
  | join (r : R3)
  /-- `TEND` (R282). Ends the thread, releasing its resources and counting toward retirement. -/
  | tend (r : R3)
  /-- `YIELD` (R283). Passes the context's next issue turn. -/
  | yield (r : R3)
  /-- `YIELD_SWAP` (R283). Yields and moves the context out when a queued record needs a slot. -/
  | yieldSwap (r : R3)
  /-- `TRIG` (R283). Releases at package scope and records the early-launch trigger. -/
  | trig (r : R3)
  /-- `WID` (R284). Extracts a field of a work identifier. -/
  | wid (r : R3)
  /-- `BARINIT` (R286). Takes a free barrier object with an expected count. -/
  | barinit (r : R3)
  /-- `BARARR` (R287). Arrives at an open barrier phase as a release. -/
  | bararr (r : R3)
  /-- `BARWAIT` (R288). Waits for a barrier phase to complete, or tests it with .try. -/
  | barwait (r : R3)
  /-- `BARFREE` (R286). Frees an idle barrier object. -/
  | barfree (r : R3)
  /-- `BARQ` (R287). Pushes a barrier arrival into the copy-engine queue. -/
  | barq (r : R3)
  /-- `HTCLAIM` (R154). Claims L1 ways as an inkwell table from a header. -/
  | htclaim (r : R3)
  /-- `HTREL` (R155). Writes back the header and releases an inkwell table. -/
  | htrel (r : R3)
  /-- `HTINS` (R156). Inserts or updates keyed values in an inkwell table. -/
  | htins (r : R3)
  /-- `HTPRB` (R156). Probes keys in an inkwell table. -/
  | htprb (r : R3)
  /-- `HTDEL` (R156). Deletes keys, leaving tombstones. -/
  | htdel (r : R3)
  /-- `HTACC` (R156). Accumulates values by key with add, min or max, spilling when full. -/
  | htacc (r : R3)
  /-- `HTDRN` (R158). Drains occupied entries in table order from a cursor. -/
  | htdrn (r : R3)
  /-- `GBADD` (R140). Adds or subtracts a message into a joint. -/
  | gbadd (r : R3)
  /-- `GBELIM` (R142). Eliminates masked variables from a joint by Cholesky. -/
  | gbelim (r : R3)
  /-- `GBDAMP` (R141). Blends a new message with an old one by beta. -/
  | gbdamp (r : R3)
  /-- `GBPOST` (R145). Sends a message to a mailbox slot on any core. -/
  | gbpost (r : R3)
  /-- `GBTAKE` (R147). Takes a message out of a local mailbox slot. -/
  | gbtake (r : R3)
  /-- `PSCHK` (R163). Checks a palimpsest entry and on a hit advances its tag and copies the output. -/
  | pschk (r : R3)
  /-- `PSPUT` (R164). Stores a put record into a palimpsest entry after a die release. -/
  | psput (r : R3)
  /-- `PSINV` (R165). Clears VALID in a range of palimpsest entries. -/
  | psinv (r : R3)
  /-- `TRAP` (R313). Delivers a SOFTWARE trap with the code. -/
  | trap (r : FS)
  /-- `SYSCALL` (R313). Parks the thread with KIND 4 and its code. -/
  | syscall (r : FS)
  /-- `ERET` (R314). Returns from the trap handler to TRAPPC. -/
  | eret (r : FS)
  /-- `ERET_NEXT` (R314). Returns from the trap handler to TRAPPC plus 8. -/
  | eretNext (r : FS)
  /-- `MFS` (R315). Reads a system register into Xd. -/
  | mfs (r : FS)
  /-- `MTS` (R315). Privileged write of a system register. -/
  | mts (r : FS)
  /-- `HALT` (R313). Parks the thread with KIND 5. -/
  | halt (r : FS)
  /-- `TLBINV_PAGE` (R317). Invalidates translations of one page of an ASID. -/
  | tlbinvPage (r : FS)
  /-- `TLBINV_ASID` (R317). Invalidates every translation of an ASID. -/
  | tlbinvAsid (r : FS)
  /-- `TLBINV_ALL` (R317). Invalidates every translation. -/
  | tlbinvAll (r : FS)
  /-- `REPLAY` (R305). Makes every resumable parked thread ready and clears fault tables and buffers. -/
  | replay (r : FS)
  /-- `REPLAY_ASID` (R305). Replays the parked threads of one ASID. -/
  | replayAsid (r : FS)
  /-- `REPLAY_DROP` (R318). Ends every parked thread of an ASID. -/
  | replayDrop (r : FS)
  /-- `RDEV` (R316). Reads a die event counter. -/
  | rdev (r : FS)
  /-- `CTXSAVE` (R319). Writes the issuing context's image to a frame. -/
  | ctxsave (r : FS)
  /-- `CTXLOAD` (R320). Checks an image, ends the issuing thread and restores the image in its slot. -/
  | ctxload (r : FS)
  /-- `LONG_LATENCY_RESULT` (R28), a step of the device. A long-latency producer writes its destination, which becomes full. -/
  | longLatencyResult
  /-- `LOAD_RETURN` (R180), a step of the device. Data of a missing load returns and fills the destination, or poison makes it empty-idle. -/
  | loadReturn
  /-- `PAGE_WALK_COMPLETE` (R299), a step of the device. A cluster page walk finishes, filling the TLB or raising a fault. -/
  | pageWalkComplete
  /-- `REMOTE_SCRATCH_ACCESS` (R169), a step of the device. A remote-window access arrives at the target core and is checked and performed. -/
  | remoteScratchAccess
  /-- `LEASE_REQUEST` (R205), a step of the device. A lease request reaches the tile home and is granted. -/
  | leaseRequest
  /-- `EXCLUSIVE_REQUEST` (R205), a step of the device. An exclusive request reaches the tile home. -/
  | exclusiveRequest
  /-- `EXCLUSIVE_GRANT` (R203), a step of the device. After leases expire plus the guard band, the home grants the tile exclusive. -/
  | exclusiveGrant
  /-- `REDUCTION_PARTIAL` (R205), a step of the device. A RED or committed TXRED partial reaches the tile home. -/
  | reductionPartial
  /-- `OWNER_WRITEBACK` (R205), a step of the device. An owner writes back and gives up a tile. -/
  | ownerWriteback
  /-- `HOME_ACCESS` (R205), a step of the device. An uncached or write-combining access is performed at the home. -/
  | homeAccess
  /-- `HOME_LEASE_EXPIRY` (R205), a step of the device. GT passes LEXP plus 32 and the home state leaves L or O. -/
  | homeLeaseExpiry
  /-- `L1_LEASE_EXPIRY` (R206), a step of the device. An L1 lease reaches its expiry and stops serving loads. -/
  | l1LeaseExpiry
  /-- `RECALL_FOR_LEASE` (R206), a step of the device. An owning L1 supplies dirty lines and moves to O. -/
  | recallForLease
  /-- `RECALL_FOR_EXCLUSIVE` (R206), a step of the device. An owning L1 writes back and becomes invalid. -/
  | recallForExclusive
  /-- `PARTIAL_RECALL` (R194), a step of the device. The home recalls and combines U partials before answering an access. -/
  | partialRecall
  /-- `RELEASE_COMPLETE` (R204), a step of the device. A waiting release completes once GT reaches the largest visibility time. -/
  | releaseComplete
  /-- `WAITEV_WAKE` (R195), a step of the device. A waiting WAITEV wakes on a write, a timeout of 65,536 cycles or a core wake. -/
  | waitevWake
  /-- `TX_REGISTRATION` (R213), a step of the device. A transactional registration reaches a directory and is arbitrated by age. -/
  | txRegistration
  /-- `TX_ABORT` (R217), a step of the device. An abort reaches the core and restores the checkpoint, resuming at the handler. -/
  | txAbort
  /-- `PREPARE` (R215), a step of the device. A directory answers PREPARE or REFUSED for a committing transaction. -/
  | prepare
  /-- `COMMIT` (R215), a step of the device. A directory receives COMMIT with Tc. -/
  | commit
  /-- `TX_COMMIT_COMPLETE` (R215), a step of the device. GT reaches Tc and the committing TXE completes. -/
  | txCommitComplete
  /-- `TOKEN_GRANT` (R221), a step of the device. A die grants its irrevocable token to the next queued requester in turn. -/
  | tokenGrant
  /-- `ENGINE_COMMAND_START` (R224), a step of the device. An engine serves the head command of a view in round robin. -/
  | engineCommandStart
  /-- `ENGINE_COMMAND_COMPLETE` (R233), a step of the device. A copy-engine command completes and posts its element. -/
  | engineCommandComplete
  /-- `QUEUE_POP_DELIVER` (R226), a step of the device. An element reaches a waiting pop, or the last owing command ends it empty. -/
  | queuePopDeliver
  /-- `GATHER_EXECUTE` (R237), a step of the device. Slices read gather elements and post packed lines and a trailer. -/
  | gatherExecute
  /-- `MERGE_EXECUTE` (R239), a step of the device. A merge tree merges fibres into the output and posts to Q7. -/
  | mergeExecute
  /-- `MATRIX_COMMAND_EXECUTE` (R118), a step of the device. The matrix unit executes the owner's next command and may post to Q1. -/
  | matrixCommandExecute
  /-- `RING_HANDOVER` (R127), a step of the device. A tile arrives from the ring predecessor into the operand latch. -/
  | ringHandover
  /-- `RING_TIMEOUT` (R127), a step of the device. A ring hand-over waits 2^20 cycles and ends the command. -/
  | ringTimeout
  /-- `PALIMPSEST_COPY` (R163), a step of the device. The copy engine copies a hit entry's output to the destination. -/
  | palimpsestCopy
  /-- `BARQ_ARRIVAL` (R287), a step of the device. The copy engine performs a queued barrier arrival. -/
  | barqArrival
  /-- `BARWAIT_WAKE` (R288), a step of the device. A waiting BARWAIT returns on completion, timeout or wake. -/
  | barwaitWake
  /-- `POST_ARRIVAL` (R145), a step of the device. A posted message arrives at its slot and is checked and written. -/
  | postArrival
  /-- `POST_OUTCOME` (R145), a step of the device. The outcome of a post returns to the sender's Xd. -/
  | postOutcome
  /-- `KICK_ARRIVAL` (R243), a step of the device. A kicked notice arrives at the target core's inbox or overflow. -/
  | kickArrival
  /-- `NOTICE_FETCH` (R245), a step of the device. The copy engine fetches a notice's data into the landing ring. -/
  | noticeFetch
  /-- `NOTICE_LANDED` (R246), a step of the device. Lines are filled and the token goes to Q10 or a handler start. -/
  | noticeLanded
  /-- `HANDLER_START` (R246), a step of the device. A waiting notice or completion gets a free slot and starts its handler. -/
  | handlerStart
  /-- `KICK_ACK` (R245), a step of the device. An acknowledgement arrives in the sender's Q3. -/
  | kickAck
  /-- `PACKET_ARRIVAL` (R256), a step of the device. A transport packet arrives, is matched and checked, and its payload placed. -/
  | packetArrival
  /-- `CWORD_ADD` (R257), a step of the device. Once placed bytes are visible the OTE adds their count to CWORD. -/
  | cwordAdd
  /-- `MESSAGE_COMPLETE` (R257), a step of the device. The last counted byte triggers barrier arrival, Q9 record and handler start. -/
  | messageComplete
  /-- `TRANSMIT_ACK` (R252), a step of the device. The remote acknowledges every packet and the transmit command completes. -/
  | transmitAck
  /-- `REMOTE_ERROR_TIMEOUT` (R252), a step of the device. After 1,000,000 ns of retries a send completes with REMOTE_ERROR. -/
  | remoteErrorTimeout
  /-- `RETRANSMISSION_TIMEOUT` (R253), a step of the device. The retransmission limit completes a command with TIMEOUT. -/
  | retransmissionTimeout
  /-- `CONGESTION_UPDATE` (R258), a step of the device. The OTE updates a congestion table entry under its version protocol. -/
  | congestionUpdate
  /-- `HOST_KICK_WRITE` (R260), a step of the device. A host or store write of a launch-queue TAIL register. -/
  | hostKickWrite
  /-- `HOST_BAR4_WRITE` (R261), a step of the device. A host write through BAR4 performed at the line's home. -/
  | hostBar4Write
  /-- `HOST_BAR4_READ` (R261), a step of the device. A host read through BAR4, verified at exit. -/
  | hostBar4Read
  /-- `MSIXRAISE` (R262), a step of the device. A privileged store raises an MSI-X vector 16 to 2047. -/
  | msixraise
  /-- `FAULT_ENTRY_FREE` (R303), a step of the device. A write of 0 to a fault-buffer entry frees it. -/
  | faultEntryFree
  /-- `FAULTSTAT_WRITE` (R304), a step of the device. Writing DROPPED clears it and DROPCOUNT. -/
  | faultstatWrite
  /-- `HOTNESS_ENTRY_CLEAR` (R178), a step of the device. A write of an entry's first dword clears a page hotness entry. -/
  | hotnessEntryClear
  /-- `LEASECFG_WRITE` (R201), a step of the device. A write of LEASECFG stores each field clamped to its bounds. -/
  | leasecfgWrite
  /-- `ASID_INVALIDATE` (R311), a step of the device. Clearing VALID of an address-space block tears down its state. -/
  | asidInvalidate
  /-- `HOLD` (R308), a step of the device. Setting HOLD stops dispatch of an ASID and moves its contexts out. -/
  | hold
  /-- `PARTITION_WRITE` (R293), a step of the device. A write of a partition entry, discarded when invalid. -/
  | partitionWrite
  /-- `DEVICE_REGISTER_WRITE` (R16), a step of the device. A write of a device-control register or table without behaviour of its own. -/
  | deviceRegisterWrite
  /-- `STARTREQ_COLD` (R330), a step of the device. A STARTREQ write with GO and not WARM stops the package and starts it cold. -/
  | startreqCold
  /-- `STARTREQ_WARM` (R330), a step of the device. A STARTREQ write with GO and WARM flushes and starts the package warm. -/
  | startreqWarm
  /-- `RECOVCMD` (R334), a step of the device. A recovery command checks the staged image and flashes it and starts cold. -/
  | recovcmd
  /-- `POWER_ON` (R330), a step of the device. At power-on the RMC performs a cold start by itself. -/
  | powerOn
  /-- `COLD_START` (R331), a step of the device. Verifies firmware, calibrates, zeroes memory, clears tables, starts GT and sets READY. -/
  | coldStart
  /-- `WARM_START` (R331), a step of the device. Verifies firmware, reuses or redoes calibration, zeroes failed partitions and sets READY. -/
  | warmStart
  /-- `GT_TICK` (R19), a step of the device. The reference GT counter advances by one nanosecond. -/
  | gtTick
  /-- `GT_DRIFT` (R20), a step of the device. A die whose GT leaves the guard band or stops is declared dead. -/
  | gtDrift
  /-- `HEARTBEAT_TIMEOUT` (R326), a step of the device. An agent's heartbeat missing for 8,000 ns makes it dead. -/
  | heartbeatTimeout
  /-- `FATAL_ERROR_REPORT` (R326), a step of the device. An agent reports an uncorrectable fatal error and is declared dead. -/
  | fatalErrorReport
  /-- `LINK_FAILURE` (R10), a step of the device. A die-to-die link fails retraining or its retry limit, declaring the cut-off agents dead. -/
  | linkFailure
  /-- `SCRUB` (R323), a step of the device. Background scrubbing reads every line within 24 hours, correcting or poisoning. -/
  | scrub
  /-- `THERMAL_ALERT` (R21), a step of the device. A die reaching 95 °C sets the thermal alert and raises an interrupt. -/
  | thermalAlert
  /-- `THERMAL_ALERT_CLEAR` (R21), a step of the device. After 1,000,000 ns with every die below 90 °C the RMC clears the alert. -/
  | thermalAlertClear
  /-- `THERMAL_TRIP` (R21), a step of the device. A die reaching 110 °C stops all clocks and sets READY 0. -/
  | thermalTrip
  /-- `SUPPLY_FAULT` (R332), a step of the device. A supply fault on a rail stops the package with its cause. -/
  | supplyFault
  /-- `DISPATCH_TURN` (R267), a step of the device. The package dispatcher serves the highest ready queue with a batch or a graph node. -/
  | dispatchTurn
  /-- `STARVATION_TICK` (R267), a step of the device. Each 1,000,000 ns a ready unserved queue's effective priority rises. -/
  | starvationTick
  /-- `DIE_DISPATCH_PLACE` (R268), a step of the device. A die dispatcher writes a task record into a core inbox with room. -/
  | dieDispatchPlace
  /-- `LAUNCH_RETIRE` (R265), a step of the device. A launch retires once its tasks and descendants have ended. -/
  | launchRetire
  /-- `SPECULATIVE_DECISION` (R272), a step of the device. When the producer retires, the winner commits and the loser aborts. -/
  | speculativeDecision
  /-- `FILL_SLOT` (R275), a step of the device. A core fills a free resident slot by restore, deque, inbox or steal. -/
  | fillSlot
  /-- `STEAL_REQUEST` (R274), a step of the device. A victim answers a steal request with its top record or EMPTY. -/
  | stealRequest
  /-- `STEAL_BACKOFF_EXPIRY` (R275), a step of the device. The steal backoff wait ends and slot filling retries. -/
  | stealBackoffExpiry
  /-- `WAIT_SWAP` (R277), a step of the device. With all contexts waiting and a record queued, the longest waiter moves out. -/
  | waitSwap
  /-- `CONTEXT_STREAM` (R308), a step of the device. A shadow slot streams a context image to or from its frame. -/
  | contextStream
  /-- `RETRANSMISSION` (R252), a step of the device. The OTE resends an unacknowledged packet of a message, or retries a send that the receiver reported as having no matching buffer, after a backoff. -/
  | retransmission
  /-- `MANAGEMENT_WINDOW_WRITE` (R259), a step of the device. A host write in the BAR0 management window, other than STARTREQ or RECOVCMD, such as the BAR4 window bases or the MSI-X table and its masks. -/
  | managementWindowWrite
  deriving DecidableEq, Repr

end Sys2Proof
end

