-- ==== Sys2Proof/Machine/Forms.lean ====
section
/-! DEFINITION. The word of every instruction and the values its fields accept (R25, R39 to R44 and the field
tables of the families). `Instr.form` is the one table: `illegal` is what R44 sends to ILLEGAL_OP, `reserved`
what it sends to RESERVED_FIELD. WellFormed.lean and Decode.lean both read it. -/

namespace Sys2Proof

/-! ### Words of the formats (R39, R40) -/

/-- The word of an F-R3 instruction. -/
def R3.word (maj : BitVec 6) (fn : BitVec 8) (r : R3) : Word :=
  maj ++ fn ++ r.sel ++ r.neg ++ r.d ++ r.a ++ r.am ++ r.b ++ r.bm ++ r.c ++ r.cm ++ r.mod

/-- The word of an F-RI instruction. -/
def RI.word (maj : BitVec 6) (fn : BitVec 8) (r : RI) : Word :=
  maj ++ fn ++ r.sel ++ r.neg ++ r.d ++ r.a ++ r.am ++ r.imm

/-- The word of an F-M instruction. -/
def FM.word (maj : BitVec 6) (fn : BitVec 8) (r : FM) : Word :=
  maj ++ fn ++ r.sel ++ r.neg ++ r.d ++ r.base ++ r.bm ++ r.idx ++ r.im ++ r.scale ++ r.hint ++ r.scope ++ r.off

/-- The word of an F-B instruction. -/
def FB.word (maj : BitVec 6) (fn : BitVec 8) (r : FB) : Word :=
  maj ++ fn ++ r.sel ++ r.neg ++ r.d ++ r.a ++ r.am ++ r.b ++ r.bm ++ r.cond ++ r.off

/-- The word of an F-L instruction. -/
def FL.word (maj : BitVec 6) (fn : BitVec 8) (r : FL) : Word :=
  maj ++ fn ++ r.sel ++ r.neg ++ r.d ++ r.imm

/-- The word of an F-Q instruction. -/
def FQ.word (maj : BitVec 6) (fn : BitVec 8) (r : FQ) : Word :=
  maj ++ fn ++ r.sel ++ r.neg ++ r.q ++ r.a ++ r.am ++ r.b ++ r.bm ++ r.c ++ r.cm ++ r.guard ++ r.guarded ++ r.cmd

/-- The word of an F-S instruction. -/
def FS.word (maj : BitVec 6) (fn : BitVec 8) (r : FS) : Word :=
  maj ++ fn ++ r.sel ++ r.neg ++ r.d ++ r.code ++ r.rsv

/-- The fields of an F-R3 word. -/
def R3.ofWord (w : Word) : R3 :=
  ⟨w.extractLsb' 47 3, w.extractLsb' 46 1, w.extractLsb' 40 6, w.extractLsb' 34 6, w.extractLsb' 33 1,
   w.extractLsb' 27 6, w.extractLsb' 26 1, w.extractLsb' 20 6, w.extractLsb' 19 1, w.extractLsb' 0 19⟩

/-- The fields of an F-RI word. -/
def RI.ofWord (w : Word) : RI :=
  ⟨w.extractLsb' 47 3, w.extractLsb' 46 1, w.extractLsb' 40 6, w.extractLsb' 34 6, w.extractLsb' 33 1,
   w.extractLsb' 0 33⟩

/-- The fields of an F-M word. -/
def FM.ofWord (w : Word) : FM :=
  ⟨w.extractLsb' 47 3, w.extractLsb' 46 1, w.extractLsb' 40 6, w.extractLsb' 34 6, w.extractLsb' 33 1,
   w.extractLsb' 27 6, w.extractLsb' 26 1, w.extractLsb' 24 2, w.extractLsb' 21 3, w.extractLsb' 19 2,
   w.extractLsb' 0 19⟩

/-- The fields of an F-B word. -/
def FB.ofWord (w : Word) : FB :=
  ⟨w.extractLsb' 47 3, w.extractLsb' 46 1, w.extractLsb' 40 6, w.extractLsb' 34 6, w.extractLsb' 33 1,
   w.extractLsb' 27 6, w.extractLsb' 26 1, w.extractLsb' 22 4, w.extractLsb' 0 22⟩

/-- The fields of an F-L word. -/
def FL.ofWord (w : Word) : FL :=
  ⟨w.extractLsb' 47 3, w.extractLsb' 46 1, w.extractLsb' 40 6, w.extractLsb' 0 40⟩

/-- The fields of an F-Q word. -/
def FQ.ofWord (w : Word) : FQ :=
  ⟨w.extractLsb' 47 3, w.extractLsb' 46 1, w.extractLsb' 40 6, w.extractLsb' 34 6, w.extractLsb' 33 1,
   w.extractLsb' 27 6, w.extractLsb' 26 1, w.extractLsb' 20 6, w.extractLsb' 19 1, w.extractLsb' 16 3,
   w.extractLsb' 15 1, w.extractLsb' 0 15⟩

/-- The fields of an F-S word. -/
def FS.ofWord (w : Word) : FS :=
  ⟨w.extractLsb' 47 3, w.extractLsb' 46 1, w.extractLsb' 40 6, w.extractLsb' 28 12, w.extractLsb' 0 28⟩

/-! ### Sub-fields of the modifier (R41) -/

def R3.typ (r : R3) : BitVec 5 := r.mod.extractLsb' 14 5
def R3.rnd (r : R3) : BitVec 3 := r.mod.extractLsb' 11 3
def R3.sat (r : R3) : Bool := r.mod.getLsbD 10
def R3.nsat (r : R3) : Bool := r.mod.getLsbD 9
def R3.sub (r : R3) : BitVec 9 := r.mod.extractLsb' 0 9

/-- Width in bits of the elements of a type code (R42, R58); 0 for a code that names none. -/
def typeWidth (t : BitVec 5) : Nat :=
  match t.toNat with
  | 0x01 | 0x05 | 0x0F | 0x10 | 0x11 => 8
  | 0x02 | 0x06 | 0x0D | 0x0E => 16
  | 0x03 | 0x07 | 0x0C => 32
  | 0x04 | 0x08 => 64
  | 0x09 | 0x12 | 0x13 => 4
  | _ => 0

/-- The type codes R42 names reserved. -/
def typeReserved (t : BitVec 5) : Bool := t = 0x0A || t = 0x0B || 0x14 ≤ t.toNat

/-! ### Operand classes (R25, R29, R40) -/

/-- What a register field names. `v2`, `v3`, `x2` are the first register of a group that must lie inside the
class; `vg` is a group of eight that starts at a multiple of 8 (R137); `x2` is written only. -/
inductive Cls where
  | none | x | v | v2 | v3 | vg | x2 | p | f
  deriving DecidableEq, Repr

/-- A register field and its mode bit break R25, R29 or R40. -/
def Cls.bad (c : Cls) (r : BitVec 6) (m : BitVec 1) : Bool :=
  match c with
  | .none => r ≠ 0 || m ≠ 0
  | .x | .v => 31 < r.toNat
  | .v2 => 30 < r.toNat
  | .v3 => 29 < r.toNat
  | .vg => 31 < r.toNat || r.toNat % 8 ≠ 0
  | .x2 => r.toNat = 0 || 30 < r.toNat || m ≠ 0
  | .p | .f => 7 < r.toNat || m ≠ 0

/-! ### Forms -/

structure Form where
  word : Word
  illegal : Bool
  reserved : Bool
  deriving DecidableEq, Repr

/-- What an F-R3 instruction with the modifier of R41 accepts beside its operands. -/
structure R3Opts where
  types : List Nat := [0]
  rounds : Bool := false
  sat : Bool := false
  nsat : Bool := false
  sub : BitVec 9 := 0
  ill : Bool := false
  rsv : Bool := false

def Form.r3 (maj : BitVec 6) (fn : BitVec 8) (r : R3) (d a b c : Cls) (o : R3Opts) : Form where
  word := r.word maj fn
  illegal := o.ill || (!typeReserved r.typ && !o.types.contains r.typ.toNat)
    || (!o.rounds && r.rnd ≠ 0 && r.rnd.toNat < 6)
    || (r.sat && !o.sat) || (r.nsat && !o.nsat) || (r.sat && r.nsat)
  reserved := o.rsv || typeReserved r.typ || 6 ≤ r.rnd.toNat || r.sub &&& ~~~o.sub ≠ 0
    || d.bad r.d 0 || a.bad r.a r.am || b.bad r.b r.bm || c.bad r.c r.cm

/-- F-R3 with a modifier of its own: `mask` are the defined bits (R41). -/
def Form.r3m (maj : BitVec 6) (fn : BitVec 8) (r : R3) (d a b c : Cls) (mask : BitVec 19) (ill rsv : Bool) : Form where
  word := r.word maj fn
  illegal := ill
  reserved := rsv || r.mod &&& ~~~mask ≠ 0
    || d.bad r.d 0 || a.bad r.a r.am || b.bad r.b r.bm || c.bad r.c r.cm

/-- F-RI; `mask` are the defined bits of the immediate. -/
def Form.ri (maj : BitVec 6) (fn : BitVec 8) (r : RI) (d a : Cls) (mask : BitVec 33) (ill : Bool := false)
    (rsv : Bool := false) : Form where
  word := r.word maj fn
  illegal := ill
  reserved := rsv || r.imm &&& ~~~mask ≠ 0 || d.bad r.d 0 || a.bad r.a r.am

/-- F-M; the flags say whether scale, hint and scope are used (R175, R179). -/
def Form.fm (maj : BitVec 6) (fn : BitVec 8) (r : FM) (d base idx : Cls) (scale hint scope off : Bool)
    (ill : Bool := false) (rsv : Bool := false) : Form where
  word := r.word maj fn
  illegal := ill
  reserved := rsv || (!scale && r.scale ≠ 0) || 5 ≤ r.hint.toNat || (!hint && r.hint ≠ 0)
    || (!scope && r.scope ≠ 0) || (!off && r.off ≠ 0)
    || d.bad r.d 0 || base.bad r.base r.bm || idx.bad r.idx r.im

/-- F-B; `conds` is the number of conditions the instruction has (R42). -/
def Form.fb (maj : BitVec 6) (fn : BitVec 8) (r : FB) (d a b : Cls) (conds : Nat) (off : Bool)
    (ill : Bool := false) (rsv : Bool := false) : Form where
  word := r.word maj fn
  illegal := ill
  reserved := rsv || conds ≤ r.cond.toNat || (!off && r.off ≠ 0)
    || d.bad r.d 0 || a.bad r.a r.am || b.bad r.b r.bm

/-- F-Q: the queue must be the one R43 gives the function; `mask` are the defined bits of cmd. -/
def Form.fq (fn : BitVec 8) (q : BitVec 6) (r : FQ) (a b c : Cls) (mask : BitVec 15)
    (ill : Bool := false) (rsv : Bool := false) : Form where
  word := r.word 0x1D fn
  illegal := ill || r.q ≠ q
  reserved := rsv || r.cmd &&& ~~~mask ≠ 0 || (r.guarded = 0 && r.guard ≠ 0)
    || a.bad r.a r.am || b.bad r.b r.bm || c.bad r.c r.cm

/-- F-S: not predicated, and [27:0] is reserved (R31, R312). -/
def Form.fs (fn : BitVec 8) (r : FS) (d : Cls) (codeOk : Bool) : Form where
  word := r.word 0x30 fn
  illegal := !codeOk
  reserved := r.sel ≠ 0 || r.neg ≠ 0 || r.rsv ≠ 0 || d.bad r.d 0

/-! ### Types accepted -/

def intTypes : List Nat := [0, 1, 2, 3, 4, 5, 6, 7, 8]
def floatTypes : List Nat := [0, 0x0C, 0x0D, 0x0E]
def vintTypes : List Nat := [0, 1, 2, 3, 5, 6, 7]
def vsintTypes : List Nat := [0, 1, 2, 3]
def selTypes : List Nat := [0, 3, 7, 0x0C]
def blockTypes : List Nat := [0x11, 0x12, 0x13, 0x09]
/-- The types FCVT converts between (R93). -/
def cvtTypes : List Nat := [0x0C, 0x0D, 0x0E, 0x0F, 0x10, 1, 2, 3, 4, 5, 6, 7, 8]
/-- The types VFCVT converts between (R104). -/
def vcvtTypes : List Nat := [0x0C, 0x0D, 0x0E, 0x0F, 0x10, 1, 2, 3, 5, 6, 7]
/-- The types of weight and activation tiles (R115). -/
def tileTypes : List Nat := [0x12, 0x13, 0x0F, 0x10, 0x11, 0x0D, 0x0E, 0x0C, 0x09, 0x01]

def isIntType (t : BitVec 5) : Bool := 1 ≤ t.toNat && t.toNat ≤ 8

/-- FCVT and VFCVT: a source or destination not in the list, two integer types, or `.nsat` with another
destination than an 8-bit float (R93, R104). (DEDUCED: log entry 13.) -/
def cvtIll (types : List Nat) (r : R3) : Bool :=
  let s := r.sub.extractLsb' 0 5
  (!typeReserved s && !types.contains s.toNat) || (isIntType s && isIntType r.typ)
    || (r.nsat && r.typ ≠ 0x0F && r.typ ≠ 0x10)

/-- A part number at or above 32/w (R103). -/
def partIll (t : BitVec 5) (part : Nat) : Bool := typeWidth t ≠ 0 && 32 / typeWidth t ≤ part

def vfcvtIll (r : R3) : Bool :=
  cvtIll vcvtTypes r || (vcvtTypes.contains r.typ.toNat && partIll r.typ (r.sub.extractLsb' 7 2).toNat)
    || (vcvtTypes.contains (r.sub.extractLsb' 0 5).toNat
        && partIll (r.sub.extractLsb' 0 5) (r.sub.extractLsb' 5 2).toNat)

def blockPartIll (r : R3) : Bool :=
  blockTypes.contains r.typ.toNat && partIll r.typ (r.sub.extractLsb' 0 3).toNat

/-- VRED and VSCAN (R110). -/
def redIll (r : R3) : Bool :=
  let o := (r.sub.extractLsb' 0 3).toNat
  6 ≤ o || (3 ≤ o && r.typ = 0x0C) || (r.rnd ≠ 0 && r.rnd.toNat < 6 && !(o = 0 && r.typ = 0x0C))
    || (r.sat && (o ≠ 0 || r.typ = 0x0C))

/-- EXTR and INS: a field that ends above bit 63 (R88). -/
def fieldIll (r : R3) : Bool := 63 < (r.mod.extractLsb' 13 6).toNat + (r.mod.extractLsb' 7 6).toNat

/-- Two ranges of registers share one. -/
def regsMeet (r : BitVec 6) (n : Nat) (r' : BitVec 6) (n' : Nat) : Bool :=
  r.toNat < r'.toNat + n' && r'.toNat < r.toNat + n

/-- Two X operands name one register other than X0 (R138). -/
def xMeet (r : BitVec 6) (n : Nat) (r' : BitVec 6) (n' : Nat) : Bool :=
  r ≠ 0 && r' ≠ 0 && regsMeet r n r' n'

/-- The predicate field of majors 0x18 and 0x30 (R31). -/
def predSet (sel : BitVec 3) (neg : BitVec 1) : Bool := sel ≠ 0 || neg ≠ 0

/-- Numbers of the system registers (R32). -/
def sysregExists (n : BitVec 12) : Bool := n.toNat ≤ 0x00B || (0x100 ≤ n.toNat && n.toNat ≤ 0x107)
/-- The system registers that MTS may write (R32). -/
def sysregWritable (n : BitVec 12) : Bool :=
  (0x003 ≤ n.toNat && n.toNat ≤ 0x007) || (0x100 ≤ n.toNat && n.toNat ≤ 0x107)
/-- The events of R316. -/
def rdevExists (n : BitVec 10) : Bool :=
  [0x10, 0x11, 0x20, 0x21, 0x22, 0x30, 0x31, 0x32, 0x60, 0x61, 0x62].contains n.toNat
    || (0x40 ≤ n.toNat && n.toNat ≤ 0x4F)

def pushQueue (n : Nat) : Bool := n = 0 || n = 2 || n = 4 || n = 6 || n = 8

/-- A tile type of MLOADW or MSTREAM that R115 does not list: "an undefined value traps ILLEGAL_OP" (R122). -/
def tileIll (t : BitVec 5) : Bool := !tileTypes.contains t.toNat

/-! ### The table (R43) -/

/-- The word of an instruction and the verdict of R44 on its fields; a step of the device has no word.
(DEDUCED: log entry 14.) -/
def Instr.form : Instr → Option Form
  | .add r => some (.r3 0x01 0x00 r .x .x .x .none { types := intTypes, sat := true })
  | .sub r => some (.r3 0x01 0x01 r .x .x .x .none { types := intTypes, sat := true })
  | .mul r => some (.r3 0x01 0x02 r .x .x .x .none { types := intTypes, sat := true })
  | .mulh r => some (.r3 0x01 0x03 r .x .x .x .none { types := intTypes })
  | .div r => some (.r3 0x01 0x04 r .x .x .x .none { types := intTypes })
  | .rem r => some (.r3 0x01 0x05 r .x .x .x .none { types := intTypes })
  | .and r => some (.r3 0x01 0x06 r .x .x .x .none { types := intTypes })
  | .or r => some (.r3 0x01 0x07 r .x .x .x .none { types := intTypes })
  | .xor r => some (.r3 0x01 0x08 r .x .x .x .none { types := intTypes })
  | .andn r => some (.r3 0x01 0x09 r .x .x .x .none { types := intTypes })
  | .shl r => some (.r3 0x01 0x0A r .x .x .x .none { types := intTypes })
  | .shr r => some (.r3 0x01 0x0B r .x .x .x .none { types := intTypes })
  | .sra r => some (.r3 0x01 0x0C r .x .x .x .none { types := intTypes })
  | .rot r => some (.r3 0x01 0x0D r .x .x .x .none { types := intTypes })
  | .clz r => some (.r3 0x01 0x0E r .x .x .none .none { types := intTypes })
  | .popc r => some (.r3 0x01 0x0F r .x .x .none .none { types := intTypes })
  | .min r => some (.r3 0x01 0x10 r .x .x .x .none { types := intTypes })
  | .max r => some (.r3 0x01 0x11 r .x .x .x .none { types := intTypes })
  | .sel r => some (.r3 0x01 0x12 r .x .x .x .x { types := intTypes })
  | .cmp r => some (.r3 0x01 0x13 r .x .x .x .none
      { types := [0, 1, 2, 3, 4], sub := 7, rsv := 6 ≤ (r.sub.extractLsb' 0 3).toNat })
  | .addi r => some (.ri 0x02 0x00 r .x .x (-1))
  | .andImm r => some (.ri 0x02 0x06 r .x .x (-1))
  | .orImm r => some (.ri 0x02 0x07 r .x .x (-1))
  | .xorImm r => some (.ri 0x02 0x08 r .x .x (-1))
  | .shlImm r => some (.ri 0x02 0x0A r .x .x 0x3F)
  | .shrImm r => some (.ri 0x02 0x0B r .x .x 0x3F)
  | .sraImm r => some (.ri 0x02 0x0C r .x .x 0x3F)
  | .rotImm r => some (.ri 0x02 0x0D r .x .x 0x3F)
  | .lea r => some (.fm 0x03 0x00 r .x .x .x true true false true (ill := 1 ≤ r.hint.toNat && r.hint.toNat ≤ 4))
  | .extr r => some (.r3m 0x03 0x01 r .x .x .none .none 0x7FFC0 (fieldIll r) false)
  | .ins r => some (.r3m 0x03 0x02 r .x .x .x .none 0x7FFC0 (fieldIll r || r.mod.getLsbD 6) false)
  | .fadd r => some (.r3 0x04 0x00 r .x .x .x .none { types := floatTypes, rounds := true })
  | .fsub r => some (.r3 0x04 0x01 r .x .x .x .none { types := floatTypes, rounds := true })
  | .fmul r => some (.r3 0x04 0x02 r .x .x .x .none { types := floatTypes, rounds := true })
  | .ffma r => some (.r3 0x04 0x03 r .x .x .x .x { types := floatTypes, rounds := true })
  | .fdiv r => some (.r3 0x04 0x04 r .x .x .x .none { types := floatTypes, rounds := true })
  | .fsqrt r => some (.r3 0x04 0x05 r .x .x .none .none { types := floatTypes, rounds := true })
  | .fmin r => some (.r3 0x04 0x06 r .x .x .x .none { types := floatTypes })
  | .fmax r => some (.r3 0x04 0x07 r .x .x .x .none { types := floatTypes })
  | .fcmp r => some (.r3 0x04 0x08 r .x .x .x .none
      { types := floatTypes, sub := 7, ill := 6 ≤ (r.sub.extractLsb' 0 3).toNat })
  | .fcvt r => some (.r3 0x04 0x09 r .x .x .none .none
      { types := cvtTypes, rounds := true, nsat := true, sub := 0x1F, ill := cvtIll cvtTypes r,
        rsv := typeReserved (r.sub.extractLsb' 0 5) })
  | .fclass r => some (.r3 0x04 0x0A r .x .x .none .none { types := floatTypes })
  | .br r => some (.fb 0x05 0x00 r .none .x .x 6 true)
  | .brp r => some (.fb 0x05 0x01 r .none .p .none 4 true)
  | .jmp r => some (.fb 0x06 0x00 r .none .none .none 1 true)
  | .call r => some (.fb 0x06 0x01 r .x .none .none 1 true)
  | .ret r => some (.fb 0x06 0x02 r .none .x .none 1 false)
  | .brx r => some (.ri 0x06 0x03 r .x .x (-1))
  | .movi r => some ⟨r.word 0x07 0x00, false, Cls.x.bad r.d 0⟩
  | .movhi r => some ⟨r.word 0x07 0x01, false, Cls.x.bad r.d 0 || r.imm.extractLsb' 24 16 ≠ 0⟩
  | .vadd r => some (.r3 0x08 0x00 r .v .v .v .none { types := vintTypes, sat := true })
  | .vsub r => some (.r3 0x08 0x01 r .v .v .v .none { types := vintTypes, sat := true })
  | .vmul r => some (.r3 0x08 0x02 r .v .v .v .none { types := vintTypes, sat := true })
  | .vmulh r => some (.r3 0x08 0x03 r .v .v .v .none { types := vintTypes })
  | .vmad r => some (.r3 0x08 0x04 r .v .v .v .v { types := vintTypes, sat := true })
  | .vmin r => some (.r3 0x08 0x05 r .v .v .v .none { types := vintTypes })
  | .vmax r => some (.r3 0x08 0x06 r .v .v .v .none { types := vintTypes })
  | .vabs r => some (.r3 0x08 0x07 r .v .v .none .none { types := vsintTypes, sat := true })
  | .vand r => some (.r3 0x08 0x08 r .v .v .v .none {})
  | .vor r => some (.r3 0x08 0x09 r .v .v .v .none {})
  | .vxor r => some (.r3 0x08 0x0A r .v .v .v .none {})
  | .vandn r => some (.r3 0x08 0x0B r .v .v .v .none {})
  | .vshl r => some (.r3 0x08 0x0C r .v .v .v .none { types := vintTypes })
  | .vshr r => some (.r3 0x08 0x0D r .v .v .v .none { types := vintTypes })
  | .vsra r => some (.r3 0x08 0x0E r .v .v .v .none { types := vsintTypes })
  | .vcmp r => some (.r3 0x08 0x0F r .p .v .v .none
      { types := [0, 3, 7], sub := 7, ill := 6 ≤ (r.sub.extractLsb' 0 3).toNat })
  | .vfadd r => some (.r3 0x09 0x00 r .v .v .v .none { types := floatTypes, rounds := true })
  | .vfsub r => some (.r3 0x09 0x01 r .v .v .v .none { types := floatTypes, rounds := true })
  | .vfmul r => some (.r3 0x09 0x02 r .v .v .v .none { types := floatTypes, rounds := true })
  | .vffma r => some (.r3 0x09 0x03 r .v .v .v .v { types := floatTypes, rounds := true })
  | .vfdiv r => some (.r3 0x09 0x04 r .v .v .v .none { types := floatTypes, rounds := true })
  | .vfsqrt r => some (.r3 0x09 0x05 r .v .v .none .none { types := floatTypes, rounds := true })
  | .vfrsq r => some (.r3 0x09 0x06 r .v .v .none .none { types := floatTypes, rounds := true })
  | .vfmin r => some (.r3 0x09 0x07 r .v .v .v .none { types := floatTypes })
  | .vfmax r => some (.r3 0x09 0x08 r .v .v .v .none { types := floatTypes })
  | .vfcmp r => some (.r3 0x09 0x09 r .p .v .v .none
      { types := [0, 0x0C], sub := 7, ill := 6 ≤ (r.sub.extractLsb' 0 3).toNat })
  | .vfexp2 r => some (.r3 0x09 0x0A r .v .v .none .none { types := [0, 0x0C], rounds := true })
  | .vftbl r => some (.r3 0x09 0x0B r .v .v .v .none { types := [0, 0x0C], rounds := true })
  | .vfcvt r => some (.r3 0x0A 0x00 r .v .v .none .none
      { types := vcvtTypes, rounds := true, nsat := true, sub := 0x1FF, ill := vfcvtIll r,
        rsv := typeReserved (r.sub.extractLsb' 0 5) })
  | .vqnt r => some (.r3 0x0A 0x01 r .v2 .v .none .none
      { types := blockTypes, rounds := true, sub := 7,
        ill := blockPartIll r || (r.typ = 0x13 && r.rnd ≠ 0 && r.rnd.toNat < 6) })
  | .vdqnt r => some (.r3 0x0A 0x02 r .v .v .x .none
      { types := blockTypes, rounds := true, sub := 7, ill := blockPartIll r })
  | .vpack r => some (.r3 0x0A 0x03 r .v .v .v .none
      { types := [2, 6, 1, 5], sat := true, sub := 1, rsv := r.sub.getLsbD 0 && typeWidth r.typ = 16 })
  | .vbcast r => some (.r3 0x0B 0x00 r .v .x .none .none { types := [0, 3, 2, 1] })
  | .vperm r => some (.r3 0x0B 0x01 r .v .v .v (if r.sub.getLsbD 0 then .v else .none) { sub := 1 })
  | .vrot r => some (.r3 0x0B 0x02 r .v .v .x .none {})
  | .vexpand r => some (.r3 0x0B 0x03 r .v .v .none .none {})
  | .vred r => some (.r3 0x0B 0x04 r .x .v .none .none
      { types := selTypes, rounds := true, sat := true, sub := 7, ill := redIll r })
  | .vscan r => some (.r3 0x0B 0x05 r .v .v .none .none
      { types := selTypes, rounds := true, sat := true, sub := 0xF, ill := redIll r })
  | .vmovx r => some (.r3 0x0B 0x06 r .x .v .x .none { types := [0, 3, 7] })
  | .vins r => some (.r3 0x0B 0x07 r .v .x .x .none {})
  | .vcmpt r => some (.r3 0x0B 0x10 r .v2 .v .x .x2
      { types := selTypes, sub := 3, ill := r.sub.getLsbD 0 && r.typ = 7 })
  | .vtopk r => some (.r3 0x0B 0x11 r .v2 .v .none .none
      { types := selTypes, sub := 0x3F, ill := r.sub.getLsbD 5 && r.typ = 7 })
  | .vsort r => some (.r3 0x0B 0x12 r .v2 .v (if r.sub.getLsbD 1 then .v else .none) .none
      { types := selTypes, sub := 3 })
  | .pset r => some (.r3 0x0C 0x00 r .p .x .none .none { sub := 1 })
  | .pand r => some (.r3 0x0C 0x01 r .p .p .p .none {})
  | .por r => some (.r3 0x0C 0x02 r .p .p .p .none {})
  | .pxor r => some (.r3 0x0C 0x03 r .p .p .p .none {})
  | .pandn r => some (.r3 0x0C 0x04 r .p .p .p .none {})
  | .pcnt r => some (.r3 0x0C 0x05 r .x .p .none .none {})
  | .pffs r => some (.r3 0x0C 0x06 r .x .p .none .none {})
  | .ld z r => some (.fm 0x10 (z.zeroExtend 8) r .x .x .x true true false true)
  | .lda z r => some (.fm 0x10 (0x06 ||| z.zeroExtend 8) r .x .x .x true true true true)
  | .st z r => some (.fm 0x11 (z.zeroExtend 8) r .none .x .x false true false true)
  | .stl z r => some (.fm 0x11 (0x06 ||| z.zeroExtend 8) r .none .x .x false true true true)
  | .ldv r => some (.fm 0x12 0x00 r .v .x .x true true false true)
  | .stv r => some (.fm 0x12 0x01 r .none .x .v false true false true)
  | .ldvs r => some (.fm 0x12 0x02 r .v .x .x true true false true)
  | .stvs r => some (.fm 0x12 0x03 r .v .x .x true true false true)
  | .ldvx r => some (.fm 0x12 0x04 r .v .x .v true true false true)
  | .stvx r => some (.fm 0x12 0x05 r .v .x .v true true false true)
  | .amo fn r => some (.fm 0x13 (fn.zeroExtend 8) r .x .x .x false true true true
      (ill := 10 ≤ (fn.extractLsb' 0 4).toNat))
  | .amov fn r => some (.fm 0x13 (0x80 ||| fn.zeroExtend 8) r .v .x .v true true true true
      (ill := 8 ≤ (fn.extractLsb' 0 4).toNat))
  | .red fn r => some (.fm 0x13 (0xC0 ||| fn.zeroExtend 8) r .none .x .x false true true true
      (ill := 6 ≤ (fn.extractLsb' 0 4).toNat || (fn.extractLsb' 0 4 = 1 && fn.getLsbD 4)))
  | .fenceAcq r => some (.fm 0x14 0x00 r .none .none .none false false true false)
  | .fenceRel r => some (.fm 0x14 0x01 r .none .none .none false false true false)
  | .fenceFull r => some (.fm 0x14 0x02 r .none .none .none false false true false)
  | .icsync r => some (.fm 0x14 0x04 r .none .none .none false false true false)
  | .waitev r => some (.fm 0x14 0x05 r .x .x .x true true true true
      (ill := r.scale.toNat < 2 || (1 ≤ r.hint.toNat && r.hint.toNat ≤ 4)))
  | .pref r => some (.fm 0x14 0x08 r .none .x .x true true true true)
  | .spclaim r => some (.ri 0x14 0x0C r .x .none 7 (ill := r.imm.extractLsb' 0 3 = 0))
  | .sprel r => some (.ri 0x14 0x0D r .x .none 7 (ill := r.imm.extractLsb' 0 3 = 0))
  | .retain r => some (.fm 0x14 0x10 r .x .x .x false false false true)
  | .unpin r => some (.fm 0x14 0x11 r .x .x .none false false false true)
  | .fewait r => some (.ri 0x15 0x00 r .none .none (-1) (rsv := !r.imm.getLsbD 32 && r.imm.getLsbD 0))
  | .feset r => some (.ri 0x15 0x01 r .none .none (-1) (rsv := !r.imm.getLsbD 32 && r.imm.getLsbD 0))
  | .feclr r => some (.ri 0x15 0x02 r .none .none (-1) (rsv := !r.imm.getLsbD 32 && r.imm.getLsbD 0))
  | .tiledef r => some (.fm 0x18 0x00 r .x .x .none false false false true (rsv := predSet r.sel r.neg))
  | .tilerel r => some (.ri 0x18 0x01 r .x .x 0 (rsv := predSet r.sel r.neg))
  | .txb r => some (.fb 0x18 0x02 r .none .none .none 16 true (ill := 2 ≤ r.cond.toNat)
      (rsv := predSet r.sel r.neg))
  | .txe r => some (.ri 0x18 0x03 r .none .none 0 (rsv := predSet r.sel r.neg))
  | .txa r => some (.ri 0x18 0x04 r .none .none 0xFF (rsv := predSet r.sel r.neg))
  | .txq r => some (.ri 0x18 0x05 r .x .none 0 (rsv := predSet r.sel r.neg))
  | .txqClr r => some (.ri 0x18 0x05 r .x .none 1 (rsv := predSet r.sel r.neg || !r.imm.getLsbD 0))
  | .txred r => some (.fm 0x18 0x06 r .x .x .x false false false true
      (ill := 6 ≤ (r.d.extractLsb' 0 3).toNat || (r.d.extractLsb' 0 3 = 1 && r.d.getLsbD 3))
      (rsv := predSet r.sel r.neg))
  | .qw r => some
      { word := r.word 0x1C 0x00
        illegal := r.q.toNat < 12 && !pushQueue r.q.toNat
        reserved := 12 ≤ r.q.toNat || r.guard ≠ 0 || r.guarded ≠ 0 || r.cmd ≠ 0
          || Cls.x.bad r.a r.am || Cls.none.bad r.b r.bm || Cls.none.bad r.c r.cm }
  | .qr r => some (.ri 0x1C 0x01 r .x .none 0x1F
      (ill := (r.imm.extractLsb' 0 4).toNat < 12 &&
        (pushQueue (r.imm.extractLsb' 0 4).toNat || (r.imm.extractLsb' 0 4 = 5) != r.imm.getLsbD 4))
      (rsv := 12 ≤ (r.imm.extractLsb' 0 4).toNat))
  | .qstat r => some (.ri 0x1C 0x02 r .x .none 0xF (rsv := 12 ≤ (r.imm.extractLsb' 0 4).toNat))
  | .gset r => some (.ri 0x1C 0x04 r .none .x 7)
  | .gclr r => some (.ri 0x1C 0x05 r .none .none 7)
  | .gq r => some (.ri 0x1C 0x06 r .x .none 7)
  | .cpy r => some (.fq 0x00 2 r .x .x .x 0x7003)
  | .cpy2d r => some (.fq 0x01 2 r .x .x .x 0x7003)
  | .scat r => some (.fq 0x02 2 r .x .x .x 0x7FFF)
  | .kick r => some (.fq 0x03 2 r .x .x .x 0x3000)
  | .kack r => some (.fq 0x04 2 r .x .none .none 0x00FF)
  | .kackOpen r => some (.fq 0x04 2 r .x .x .none 0x04FF (rsv := r.cmd.extractLsb' 10 2 ≠ 1))
  | .kackClose r => some (.fq 0x04 2 r .none .none .none 0x08FF (rsv := r.cmd.extractLsb' 10 2 ≠ 2))
  | .gath r => some (.fq 0x08 4 r .x .x .x 0x3700 (ill := 6 ≤ (r.cmd.extractLsb' 8 3).toNat))
  | .gathSel r => some (.fq 0x08 4 r .x .x .x 0x3F80
      (ill := r.cmd.extractLsb' 9 2 = 3 || (r.cmd.getLsbD 8 && r.cmd.extractLsb' 9 2 = 1))
      (rsv := !r.cmd.getLsbD 11))
  | .merge r => some (.fq 0x09 6 r .x .none .none 0x7000)
  | .mclaim r => some (.fq 0x10 0 r .none .none .none 0)
  | .mclaimTry r => some (.fq 0x10 0 r .none .none .none 1 (rsv := !r.cmd.getLsbD 0))
  | .mclaimRel r => some (.fq 0x10 0 r .none .none .none 2 (rsv := !r.cmd.getLsbD 1))
  | .mloadw r => some (.fq 0x11 0 r .x .none .none 0x401F (ill := tileIll (r.cmd.extractLsb' 0 5)))
  | .mloadt r => some (.fq 0x12 0 r .x .x .x 0x4000)
  | .mloadtBias r => some (.fq 0x12 0 r .x .none .none 0x4001 (rsv := !r.cmd.getLsbD 0))
  | .mstream r => some (.fq 0x13 0 r .x .x .none 0x6FC0
      (ill := tileIll (r.cmd.extractLsb' 6 5) || r.cmd.getLsbD 11))
  | .mstreamRing r => some (.fq 0x13 0 r .x .x .x 0x7FC0 (ill := tileIll (r.cmd.extractLsb' 6 5))
      (rsv := !r.cmd.getLsbD 12))
  | .mdrain r => some (.fq 0x14 0 r .x (if r.cmd.getLsbD 11 then .x else .none) .x 0x7FFF
      (ill := r.cmd.extractLsb' 8 3 = 6 && r.cmd.extractLsb' 11 3 ≠ 0)
      (rsv := r.cmd.extractLsb' 8 3 = 7))
  | .mring r => some (.fq 0x15 0 r .none .none .none 0x4007 (rsv := 6 ≤ (r.cmd.extractLsb' 0 3).toNat))
  | .nsend r => some (.fq 0x18 8 r .x .x (if r.cmd.getLsbD 0 then .x else .none) 0x7003)
  | .nwrite r => some (.fq 0x19 8 r .x .x .x 0x7002)
  | .npost r => some (.fq 0x1A 8 r .x .x .none 0x7000)
  | .ncqFence r => some (.fq 0x1B 8 r .none .none .none 0)
  | .ncqUnpost r => some (.fq 0x1B 8 r .none .x .none 0x0400 (rsv := !r.cmd.getLsbD 10))
  | .fopen r => some (.r3 0x20 0x00 r .f .x .x .x {})
  | .fadv r => some (.r3 0x20 0x01 r .f .x .none .none {})
  | .fadvTo r => some (.r3 0x20 0x01 r .f .x .none .none { sub := 1, rsv := !r.sub.getLsbD 0 })
  | .ftend r => some (.r3 0x20 0x02 r .p .f .none .none {})
  | .fclose r => some (.r3 0x20 0x03 r .f .none .none .none {})
  | .fldc r => some (.r3 0x20 0x04 r .x .f .none .none { sub := 3 })
  | .fldv r => some (.r3 0x20 0x05 r .x .f .none .none { sub := 3 })
  | .launchQ r => some (.r3m 0x24 0x00 r .x .x .x .none 0 false false)
  | .launchCore r => some (.r3m 0x24 0x00 r .x .x .x .none 1 false (!r.mod.getLsbD 0))
  | .fork r => some (.r3m 0x24 0x01 r .x .x .x .x 0 false false)
  | .join r => some (.r3m 0x24 0x02 r .none .x .none .none 0 false false)
  | .tend r => some (.r3m 0x24 0x03 r .none .none .none .none 0 false false)
  | .yield r => some (.r3m 0x24 0x04 r .none .none .none .none 0 false false)
  | .yieldSwap r => some (.r3m 0x24 0x04 r .none .none .none .none 1 false (!r.mod.getLsbD 0))
  | .trig r => some (.r3m 0x24 0x05 r .none .none .none .none 0 false false)
  | .wid r => some (.r3m 0x24 0x06 r .x .x .x .none 7 (6 ≤ (r.mod.extractLsb' 0 3).toNat) false)
  | .barinit r => some (.r3m 0x25 0x00 r .x .x .none .none 0 false false)
  | .bararr r => some (.r3m 0x25 0x01 r .none .x .x .none 0 false false)
  | .barwait r => some (.r3m 0x25 0x02 r .x .x .x .none 1 false false)
  | .barfree r => some (.r3m 0x25 0x03 r .x .x .none .none 0 false false)
  | .barq r => some (.r3m 0x25 0x04 r .none .x .x .none 3 false false)
  | .htclaim r => some (.r3 0x28 0x00 r .x .x .none .none { sub := 3, ill := r.sub.extractLsb' 0 2 = 3 })
  | .htrel r => some (.r3 0x28 0x01 r .none .x .none .none {})
  | .htins r => some (.r3 0x28 0x02 r .v .v .v .x {})
  | .htprb r => some (.r3 0x28 0x03 r .v2 .v .none .x {})
  | .htdel r => some (.r3 0x28 0x04 r .v .v .none .x {})
  | .htacc r => some (.r3 0x28 0x05 r .v .v .v .x { types := selTypes, sub := 3, ill := r.sub.extractLsb' 0 2 = 3 })
  | .htdrn r => some (.r3 0x28 0x06 r .v2 .x .none .x { sub := 1 })
  | .gbadd r => some (.r3 0x2C 0x00 r .vg .v .v3 .none
      { sub := 0xFF, ill := 15 < (r.sub.extractLsb' 0 4).toNat + (r.sub.extractLsb' 4 3).toNat,
        rsv := regsMeet r.d 8 r.a 1 || regsMeet r.d 8 r.b 3 || regsMeet r.a 1 r.b 3 })
  | .gbelim r => some (.r3 0x2C 0x01 r .v3 .vg .v .p
      { sub := 0xFF,
        rsv := regsMeet r.d 3 r.a 8 || regsMeet r.d 3 r.b 1 || regsMeet r.a 8 r.b 1
          || (!r.sub.getLsbD 4 && r.sub.extractLsb' 5 3 ≠ 0)
          || (r.sub.getLsbD 4 && (r.sub.extractLsb' 5 3).toNat = r.c.toNat) })
  | .gbdamp r => some (.r3 0x2C 0x02 r .v3 .v3 .x .none { rsv := regsMeet r.d 3 r.a 3 })
  | .gbpost r => some (.r3 0x2C 0x03 r .x .v3 .x .x
      { rsv := xMeet r.d 1 r.b 1 || xMeet r.d 1 r.c 1 || xMeet r.b 1 r.c 1 })
  | .gbtake r => some (.r3 0x2C 0x04 r .v3 .x .x .x2
      { rsv := xMeet r.a 1 r.b 1 || xMeet r.a 1 r.c 2 || xMeet r.b 1 r.c 2 })
  | .pschk r => some (.r3 0x2E 0x00 r .p .x .x .x
      { rsv := r.c = 0 || 30 < r.c.toNat || r.cm ≠ 0 })
  | .psput r => some (.r3 0x2E 0x01 r .x .x .none .x {})
  | .psinv r => some (.r3 0x2E 0x02 r .x .x .x .none { sub := 1 })
  | .trap r => some (.fs 0x00 r .none true)
  | .syscall r => some (.fs 0x01 r .none true)
  | .eret r => some (.fs 0x02 r .none (r.code = 0))
  | .eretNext r => some (.fs 0x02 r .none (r.code = 1))
  | .mfs r => some (.fs 0x03 r .x (sysregExists r.code))
  | .mts r => some (.fs 0x04 r .x (sysregWritable r.code))
  | .halt r => some (.fs 0x05 r .none (r.code = 0))
  | .tlbinvPage r => some (.fs 0x06 r .x (r.code = 0))
  | .tlbinvAsid r => some (.fs 0x06 r .x (r.code = 1))
  | .tlbinvAll r => some (.fs 0x06 r .none (r.code = 2))
  | .replay r => some (.fs 0x07 r .none (r.code = 0))
  | .replayAsid r => some (.fs 0x07 r .x (r.code = 1))
  | .replayDrop r => some (.fs 0x07 r .x (r.code = 2))
  | .rdev r => some (.fs 0x08 r .x (rdevExists (r.code.extractLsb' 0 10)))
  | .ctxsave r => some (.fs 0x09 r .x (r.code = 0))
  | .ctxload r => some (.fs 0x0A r .x (r.code = 0))
  | .longLatencyResult | .loadReturn | .pageWalkComplete | .remoteScratchAccess | .leaseRequest | .exclusiveRequest
  | .exclusiveGrant | .reductionPartial | .ownerWriteback | .homeAccess | .homeLeaseExpiry | .l1LeaseExpiry
  | .recallForLease | .recallForExclusive | .partialRecall | .releaseComplete | .waitevWake | .txRegistration
  | .txAbort | .prepare | .commit | .txCommitComplete | .tokenGrant | .engineCommandStart | .engineCommandComplete
  | .queuePopDeliver | .gatherExecute | .mergeExecute | .matrixCommandExecute | .ringHandover | .ringTimeout
  | .palimpsestCopy | .barqArrival | .barwaitWake | .postArrival | .postOutcome | .kickArrival | .noticeFetch
  | .noticeLanded | .handlerStart | .kickAck | .packetArrival | .cwordAdd | .messageComplete | .transmitAck
  | .remoteErrorTimeout | .retransmissionTimeout | .congestionUpdate | .hostKickWrite | .hostBar4Write
  | .hostBar4Read | .msixraise | .faultEntryFree | .faultstatWrite | .hotnessEntryClear | .leasecfgWrite
  | .asidInvalidate | .hold | .partitionWrite | .deviceRegisterWrite | .startreqCold | .startreqWarm | .recovcmd
  | .powerOn | .coldStart | .warmStart | .gtTick | .gtDrift | .heartbeatTimeout | .fatalErrorReport | .linkFailure
  | .scrub | .thermalAlert | .thermalAlertClear | .thermalTrip | .supplyFault | .dispatchTurn | .starvationTick
  | .dieDispatchPlace | .launchRetire | .speculativeDecision | .fillSlot | .stealRequest | .stealBackoffExpiry
  | .waitSwap | .contextStream | .retransmission | .managementWindowWrite => none

end Sys2Proof
end

