-- ==== Sys2Proof/WellFormed.lean ====
section
/-! DEFINITION. Which instructions are well formed: every field of the word holds a value that the instruction
accepts (R44). A step of the device has no fields. -/

namespace Sys2Proof

/-- An instruction whose word decodes to it, or a step of the device. -/
def Instr.wf (i : Instr) : Bool :=
  match i.form with
  | some f => !f.illegal && !f.reserved
  | none => true

end Sys2Proof
end

