-- ==== Sys2Proof/Decode.lean ====
section
/-! DEFINITION. Decoding (R43, R44), total on the 2^64 words, and the encoder. A word is first matched to the
instruction that its major, function and variant bits name; then the fields are judged by `Instr.form`, and of
the two verdicts ILLEGAL_OP stands before RESERVED_FIELD. -/

namespace Sys2Proof

/-- The major opcode, [63:58] (R39). -/
def majorOf (w : Word) : BitVec 6 := w.extractLsb' 58 6
/-- The function, [57:50] (R39). -/
def functionOf (w : Word) : BitVec 8 := w.extractLsb' 50 8

/-- The instruction that a word of major 0x01 names (R43). -/
def candidate01 (w : Word) : Option Instr :=
  match (functionOf w).toNat with
  | 0x00 => some (.add (R3.ofWord w))
  | 0x01 => some (.sub (R3.ofWord w))
  | 0x02 => some (.mul (R3.ofWord w))
  | 0x03 => some (.mulh (R3.ofWord w))
  | 0x04 => some (.div (R3.ofWord w))
  | 0x05 => some (.rem (R3.ofWord w))
  | 0x06 => some (.and (R3.ofWord w))
  | 0x07 => some (.or (R3.ofWord w))
  | 0x08 => some (.xor (R3.ofWord w))
  | 0x09 => some (.andn (R3.ofWord w))
  | 0x0A => some (.shl (R3.ofWord w))
  | 0x0B => some (.shr (R3.ofWord w))
  | 0x0C => some (.sra (R3.ofWord w))
  | 0x0D => some (.rot (R3.ofWord w))
  | 0x0E => some (.clz (R3.ofWord w))
  | 0x0F => some (.popc (R3.ofWord w))
  | 0x10 => some (.min (R3.ofWord w))
  | 0x11 => some (.max (R3.ofWord w))
  | 0x12 => some (.sel (R3.ofWord w))
  | 0x13 => some (.cmp (R3.ofWord w))
  | _ => none

/-- The instruction that a word of major 0x02 names (R43). -/
def candidate02 (w : Word) : Option Instr :=
  match (functionOf w).toNat with
  | 0x00 => some (.addi (RI.ofWord w))
  | 0x06 => some (.andImm (RI.ofWord w))
  | 0x07 => some (.orImm (RI.ofWord w))
  | 0x08 => some (.xorImm (RI.ofWord w))
  | 0x0A => some (.shlImm (RI.ofWord w))
  | 0x0B => some (.shrImm (RI.ofWord w))
  | 0x0C => some (.sraImm (RI.ofWord w))
  | 0x0D => some (.rotImm (RI.ofWord w))
  | _ => none

/-- The instruction that a word of major 0x03 names (R43). -/
def candidate03 (w : Word) : Option Instr :=
  match (functionOf w).toNat with
  | 0x00 => some (.lea (FM.ofWord w))
  | 0x01 => some (.extr (R3.ofWord w))
  | 0x02 => some (.ins (R3.ofWord w))
  | _ => none

/-- The instruction that a word of major 0x04 names (R43). -/
def candidate04 (w : Word) : Option Instr :=
  match (functionOf w).toNat with
  | 0x00 => some (.fadd (R3.ofWord w))
  | 0x01 => some (.fsub (R3.ofWord w))
  | 0x02 => some (.fmul (R3.ofWord w))
  | 0x03 => some (.ffma (R3.ofWord w))
  | 0x04 => some (.fdiv (R3.ofWord w))
  | 0x05 => some (.fsqrt (R3.ofWord w))
  | 0x06 => some (.fmin (R3.ofWord w))
  | 0x07 => some (.fmax (R3.ofWord w))
  | 0x08 => some (.fcmp (R3.ofWord w))
  | 0x09 => some (.fcvt (R3.ofWord w))
  | 0x0A => some (.fclass (R3.ofWord w))
  | _ => none

/-- The instruction that a word of major 0x05 names (R43). -/
def candidate05 (w : Word) : Option Instr :=
  match (functionOf w).toNat with
  | 0x00 => some (.br (FB.ofWord w))
  | 0x01 => some (.brp (FB.ofWord w))
  | _ => none

/-- The instruction that a word of major 0x06 names (R43). -/
def candidate06 (w : Word) : Option Instr :=
  match (functionOf w).toNat with
  | 0x00 => some (.jmp (FB.ofWord w))
  | 0x01 => some (.call (FB.ofWord w))
  | 0x02 => some (.ret (FB.ofWord w))
  | 0x03 => some (.brx (RI.ofWord w))
  | _ => none

/-- The instruction that a word of major 0x07 names (R43). -/
def candidate07 (w : Word) : Option Instr :=
  match (functionOf w).toNat with
  | 0x00 => some (.movi (FL.ofWord w))
  | 0x01 => some (.movhi (FL.ofWord w))
  | _ => none

/-- The instruction that a word of major 0x08 names (R43). -/
def candidate08 (w : Word) : Option Instr :=
  match (functionOf w).toNat with
  | 0x00 => some (.vadd (R3.ofWord w))
  | 0x01 => some (.vsub (R3.ofWord w))
  | 0x02 => some (.vmul (R3.ofWord w))
  | 0x03 => some (.vmulh (R3.ofWord w))
  | 0x04 => some (.vmad (R3.ofWord w))
  | 0x05 => some (.vmin (R3.ofWord w))
  | 0x06 => some (.vmax (R3.ofWord w))
  | 0x07 => some (.vabs (R3.ofWord w))
  | 0x08 => some (.vand (R3.ofWord w))
  | 0x09 => some (.vor (R3.ofWord w))
  | 0x0A => some (.vxor (R3.ofWord w))
  | 0x0B => some (.vandn (R3.ofWord w))
  | 0x0C => some (.vshl (R3.ofWord w))
  | 0x0D => some (.vshr (R3.ofWord w))
  | 0x0E => some (.vsra (R3.ofWord w))
  | 0x0F => some (.vcmp (R3.ofWord w))
  | _ => none

/-- The instruction that a word of major 0x09 names (R43). -/
def candidate09 (w : Word) : Option Instr :=
  match (functionOf w).toNat with
  | 0x00 => some (.vfadd (R3.ofWord w))
  | 0x01 => some (.vfsub (R3.ofWord w))
  | 0x02 => some (.vfmul (R3.ofWord w))
  | 0x03 => some (.vffma (R3.ofWord w))
  | 0x04 => some (.vfdiv (R3.ofWord w))
  | 0x05 => some (.vfsqrt (R3.ofWord w))
  | 0x06 => some (.vfrsq (R3.ofWord w))
  | 0x07 => some (.vfmin (R3.ofWord w))
  | 0x08 => some (.vfmax (R3.ofWord w))
  | 0x09 => some (.vfcmp (R3.ofWord w))
  | 0x0A => some (.vfexp2 (R3.ofWord w))
  | 0x0B => some (.vftbl (R3.ofWord w))
  | _ => none

/-- The instruction that a word of major 0x0A names (R43). -/
def candidate0A (w : Word) : Option Instr :=
  match (functionOf w).toNat with
  | 0x00 => some (.vfcvt (R3.ofWord w))
  | 0x01 => some (.vqnt (R3.ofWord w))
  | 0x02 => some (.vdqnt (R3.ofWord w))
  | 0x03 => some (.vpack (R3.ofWord w))
  | _ => none

/-- The instruction that a word of major 0x0B names (R43). -/
def candidate0B (w : Word) : Option Instr :=
  match (functionOf w).toNat with
  | 0x00 => some (.vbcast (R3.ofWord w))
  | 0x01 => some (.vperm (R3.ofWord w))
  | 0x02 => some (.vrot (R3.ofWord w))
  | 0x03 => some (.vexpand (R3.ofWord w))
  | 0x04 => some (.vred (R3.ofWord w))
  | 0x05 => some (.vscan (R3.ofWord w))
  | 0x06 => some (.vmovx (R3.ofWord w))
  | 0x07 => some (.vins (R3.ofWord w))
  | 0x10 => some (.vcmpt (R3.ofWord w))
  | 0x11 => some (.vtopk (R3.ofWord w))
  | 0x12 => some (.vsort (R3.ofWord w))
  | _ => none

/-- The instruction that a word of major 0x0C names (R43). -/
def candidate0C (w : Word) : Option Instr :=
  match (functionOf w).toNat with
  | 0x00 => some (.pset (R3.ofWord w))
  | 0x01 => some (.pand (R3.ofWord w))
  | 0x02 => some (.por (R3.ofWord w))
  | 0x03 => some (.pxor (R3.ofWord w))
  | 0x04 => some (.pandn (R3.ofWord w))
  | 0x05 => some (.pcnt (R3.ofWord w))
  | 0x06 => some (.pffs (R3.ofWord w))
  | _ => none

/-- The instruction that a word of major 0x10 names (R43). -/
def candidate10 (w : Word) : Option Instr :=
  match (functionOf w).toNat with
  | 0x00 => some (.ld 0 (FM.ofWord w))
  | 0x01 => some (.ld 1 (FM.ofWord w))
  | 0x02 => some (.ld 2 (FM.ofWord w))
  | 0x03 => some (.ld 3 (FM.ofWord w))
  | 0x06 => some (.lda 0 (FM.ofWord w))
  | 0x07 => some (.lda 1 (FM.ofWord w))
  | _ => none

/-- The instruction that a word of major 0x11 names (R43). -/
def candidate11 (w : Word) : Option Instr :=
  match (functionOf w).toNat with
  | 0x00 => some (.st 0 (FM.ofWord w))
  | 0x01 => some (.st 1 (FM.ofWord w))
  | 0x02 => some (.st 2 (FM.ofWord w))
  | 0x03 => some (.st 3 (FM.ofWord w))
  | 0x06 => some (.stl 0 (FM.ofWord w))
  | 0x07 => some (.stl 1 (FM.ofWord w))
  | _ => none

/-- The instruction that a word of major 0x12 names (R43). -/
def candidate12 (w : Word) : Option Instr :=
  match (functionOf w).toNat with
  | 0x00 => some (.ldv (FM.ofWord w))
  | 0x01 => some (.stv (FM.ofWord w))
  | 0x02 => some (.ldvs (FM.ofWord w))
  | 0x03 => some (.stvs (FM.ofWord w))
  | 0x04 => some (.ldvx (FM.ofWord w))
  | 0x05 => some (.stvx (FM.ofWord w))
  | _ => none

/-- The instruction that a word of major 0x13 names (R43). -/
def candidate13 (w : Word) : Option Instr :=
  if (functionOf w).getLsbD 7 = false then some (.amo ((functionOf w).extractLsb' 0 7) (FM.ofWord w))
  else if (functionOf w).getLsbD 6 = false then some (.amov ((functionOf w).extractLsb' 0 6) (FM.ofWord w))
  else some (.red ((functionOf w).extractLsb' 0 6) (FM.ofWord w))

/-- The instruction that a word of major 0x14 names (R43). -/
def candidate14 (w : Word) : Option Instr :=
  match (functionOf w).toNat with
  | 0x00 => some (.fenceAcq (FM.ofWord w))
  | 0x01 => some (.fenceRel (FM.ofWord w))
  | 0x02 => some (.fenceFull (FM.ofWord w))
  | 0x04 => some (.icsync (FM.ofWord w))
  | 0x05 => some (.waitev (FM.ofWord w))
  | 0x08 => some (.pref (FM.ofWord w))
  | 0x0C => some (.spclaim (RI.ofWord w))
  | 0x0D => some (.sprel (RI.ofWord w))
  | 0x10 => some (.retain (FM.ofWord w))
  | 0x11 => some (.unpin (FM.ofWord w))
  | _ => none

/-- The instruction that a word of major 0x15 names (R43). -/
def candidate15 (w : Word) : Option Instr :=
  match (functionOf w).toNat with
  | 0x00 => some (.fewait (RI.ofWord w))
  | 0x01 => some (.feset (RI.ofWord w))
  | 0x02 => some (.feclr (RI.ofWord w))
  | _ => none

/-- The instruction that a word of major 0x18 names (R43). -/
def candidate18 (w : Word) : Option Instr :=
  match (functionOf w).toNat with
  | 0x00 => some (.tiledef (FM.ofWord w))
  | 0x01 => some (.tilerel (RI.ofWord w))
  | 0x02 => some (.txb (FB.ofWord w))
  | 0x03 => some (.txe (RI.ofWord w))
  | 0x04 => some (.txa (RI.ofWord w))
  | 0x05 =>
      if (RI.ofWord w).imm.getLsbD 0 then some (.txqClr (RI.ofWord w)) else some (.txq (RI.ofWord w))
  | 0x06 => some (.txred (FM.ofWord w))
  | _ => none

/-- The instruction that a word of major 0x1C names (R43). -/
def candidate1C (w : Word) : Option Instr :=
  match (functionOf w).toNat with
  | 0x00 => some (.qw (FQ.ofWord w))
  | 0x01 => some (.qr (RI.ofWord w))
  | 0x02 => some (.qstat (RI.ofWord w))
  | 0x04 => some (.gset (RI.ofWord w))
  | 0x05 => some (.gclr (RI.ofWord w))
  | 0x06 => some (.gq (RI.ofWord w))
  | _ => none

/-- The instruction that a word of major 0x1D names (R43). -/
def candidate1D (w : Word) : Option Instr :=
  match (functionOf w).toNat with
  | 0x00 => some (.cpy (FQ.ofWord w))
  | 0x01 => some (.cpy2d (FQ.ofWord w))
  | 0x02 => some (.scat (FQ.ofWord w))
  | 0x03 => some (.kick (FQ.ofWord w))
  | 0x04 =>
      if (FQ.ofWord w).cmd.extractLsb' 10 2 = 0 then some (.kack (FQ.ofWord w)) else if (FQ.ofWord w).cmd.extractLsb' 10 2 = 1 then some (.kackOpen (FQ.ofWord w))
      else if (FQ.ofWord w).cmd.extractLsb' 10 2 = 2 then some (.kackClose (FQ.ofWord w)) else none
  | 0x08 =>
      if (FQ.ofWord w).cmd.getLsbD 11 then some (.gathSel (FQ.ofWord w)) else some (.gath (FQ.ofWord w))
  | 0x09 => some (.merge (FQ.ofWord w))
  | 0x10 =>
      if (FQ.ofWord w).cmd.extractLsb' 0 2 = 0 then some (.mclaim (FQ.ofWord w)) else if (FQ.ofWord w).cmd.extractLsb' 0 2 = 1 then some (.mclaimTry (FQ.ofWord w))
      else if (FQ.ofWord w).cmd.extractLsb' 0 2 = 2 then some (.mclaimRel (FQ.ofWord w)) else none
  | 0x11 => some (.mloadw (FQ.ofWord w))
  | 0x12 =>
      if (FQ.ofWord w).cmd.getLsbD 0 then some (.mloadtBias (FQ.ofWord w)) else some (.mloadt (FQ.ofWord w))
  | 0x13 =>
      if (FQ.ofWord w).cmd.getLsbD 12 then some (.mstreamRing (FQ.ofWord w)) else some (.mstream (FQ.ofWord w))
  | 0x14 => some (.mdrain (FQ.ofWord w))
  | 0x15 => some (.mring (FQ.ofWord w))
  | 0x18 => some (.nsend (FQ.ofWord w))
  | 0x19 => some (.nwrite (FQ.ofWord w))
  | 0x1A => some (.npost (FQ.ofWord w))
  | 0x1B =>
      if (FQ.ofWord w).cmd.extractLsb' 10 2 = 0 then some (.ncqFence (FQ.ofWord w)) else if (FQ.ofWord w).cmd.extractLsb' 10 2 = 1 then some (.ncqUnpost (FQ.ofWord w)) else none
  | _ => none

/-- The instruction that a word of major 0x20 names (R43). -/
def candidate20 (w : Word) : Option Instr :=
  match (functionOf w).toNat with
  | 0x00 => some (.fopen (R3.ofWord w))
  | 0x01 =>
      if (R3.ofWord w).sub.getLsbD 0 then some (.fadvTo (R3.ofWord w)) else some (.fadv (R3.ofWord w))
  | 0x02 => some (.ftend (R3.ofWord w))
  | 0x03 => some (.fclose (R3.ofWord w))
  | 0x04 => some (.fldc (R3.ofWord w))
  | 0x05 => some (.fldv (R3.ofWord w))
  | _ => none

/-- The instruction that a word of major 0x24 names (R43). -/
def candidate24 (w : Word) : Option Instr :=
  match (functionOf w).toNat with
  | 0x00 =>
      if (R3.ofWord w).mod.getLsbD 0 then some (.launchCore (R3.ofWord w)) else some (.launchQ (R3.ofWord w))
  | 0x01 => some (.fork (R3.ofWord w))
  | 0x02 => some (.join (R3.ofWord w))
  | 0x03 => some (.tend (R3.ofWord w))
  | 0x04 =>
      if (R3.ofWord w).mod.getLsbD 0 then some (.yieldSwap (R3.ofWord w)) else some (.yield (R3.ofWord w))
  | 0x05 => some (.trig (R3.ofWord w))
  | 0x06 => some (.wid (R3.ofWord w))
  | _ => none

/-- The instruction that a word of major 0x25 names (R43). -/
def candidate25 (w : Word) : Option Instr :=
  match (functionOf w).toNat with
  | 0x00 => some (.barinit (R3.ofWord w))
  | 0x01 => some (.bararr (R3.ofWord w))
  | 0x02 => some (.barwait (R3.ofWord w))
  | 0x03 => some (.barfree (R3.ofWord w))
  | 0x04 => some (.barq (R3.ofWord w))
  | _ => none

/-- The instruction that a word of major 0x28 names (R43). -/
def candidate28 (w : Word) : Option Instr :=
  match (functionOf w).toNat with
  | 0x00 => some (.htclaim (R3.ofWord w))
  | 0x01 => some (.htrel (R3.ofWord w))
  | 0x02 => some (.htins (R3.ofWord w))
  | 0x03 => some (.htprb (R3.ofWord w))
  | 0x04 => some (.htdel (R3.ofWord w))
  | 0x05 => some (.htacc (R3.ofWord w))
  | 0x06 => some (.htdrn (R3.ofWord w))
  | _ => none

/-- The instruction that a word of major 0x2C names (R43). -/
def candidate2C (w : Word) : Option Instr :=
  match (functionOf w).toNat with
  | 0x00 => some (.gbadd (R3.ofWord w))
  | 0x01 => some (.gbelim (R3.ofWord w))
  | 0x02 => some (.gbdamp (R3.ofWord w))
  | 0x03 => some (.gbpost (R3.ofWord w))
  | 0x04 => some (.gbtake (R3.ofWord w))
  | _ => none

/-- The instruction that a word of major 0x2E names (R43). -/
def candidate2E (w : Word) : Option Instr :=
  match (functionOf w).toNat with
  | 0x00 => some (.pschk (R3.ofWord w))
  | 0x01 => some (.psput (R3.ofWord w))
  | 0x02 => some (.psinv (R3.ofWord w))
  | _ => none

/-- The instruction that a word of major 0x30 names (R43). -/
def candidate30 (w : Word) : Option Instr :=
  match (functionOf w).toNat with
  | 0x00 => some (.trap (FS.ofWord w))
  | 0x01 => some (.syscall (FS.ofWord w))
  | 0x02 =>
      if (FS.ofWord w).code = 0 then some (.eret (FS.ofWord w)) else if (FS.ofWord w).code = 1 then some (.eretNext (FS.ofWord w)) else none
  | 0x03 => some (.mfs (FS.ofWord w))
  | 0x04 => some (.mts (FS.ofWord w))
  | 0x05 => some (.halt (FS.ofWord w))
  | 0x06 =>
      if (FS.ofWord w).code = 0 then some (.tlbinvPage (FS.ofWord w)) else if (FS.ofWord w).code = 1 then some (.tlbinvAsid (FS.ofWord w))
      else if (FS.ofWord w).code = 2 then some (.tlbinvAll (FS.ofWord w)) else none
  | 0x07 =>
      if (FS.ofWord w).code = 0 then some (.replay (FS.ofWord w)) else if (FS.ofWord w).code = 1 then some (.replayAsid (FS.ofWord w))
      else if (FS.ofWord w).code = 2 then some (.replayDrop (FS.ofWord w)) else none
  | 0x08 => some (.rdev (FS.ofWord w))
  | 0x09 => some (.ctxsave (FS.ofWord w))
  | 0x0A => some (.ctxload (FS.ofWord w))
  | _ => none

/-- The instruction that a word's major, function and variant bits name; none where R43 lists none. -/
def candidate (w : Word) : Option Instr :=
  match (majorOf w).toNat with
  | 0x01 => candidate01 w
  | 0x02 => candidate02 w
  | 0x03 => candidate03 w
  | 0x04 => candidate04 w
  | 0x05 => candidate05 w
  | 0x06 => candidate06 w
  | 0x07 => candidate07 w
  | 0x08 => candidate08 w
  | 0x09 => candidate09 w
  | 0x0A => candidate0A w
  | 0x0B => candidate0B w
  | 0x0C => candidate0C w
  | 0x10 => candidate10 w
  | 0x11 => candidate11 w
  | 0x12 => candidate12 w
  | 0x13 => candidate13 w
  | 0x14 => candidate14 w
  | 0x15 => candidate15 w
  | 0x18 => candidate18 w
  | 0x1C => candidate1C w
  | 0x1D => candidate1D w
  | 0x20 => candidate20 w
  | 0x24 => candidate24 w
  | 0x25 => candidate25 w
  | 0x28 => candidate28 w
  | 0x2C => candidate2C w
  | 0x2E => candidate2E w
  | 0x30 => candidate30 w
  | _ => none

/-- The fate of a word (R44). -/
inductive Decoded where
  | instr (i : Instr)
  | illegalOp
  | reservedField
  deriving DecidableEq, Repr

/-- The verdict on the fields of an instruction. -/
def judge (i : Instr) : Decoded :=
  match i.form with
  | none => .illegalOp
  | some f => if f.illegal then .illegalOp else if f.reserved then .reservedField else .instr i

/-- The decoder (R44). The word of 64 zeros is ILLEGAL_OP: its major is in no row of R43. -/
def decode (w : Word) : Decoded :=
  match candidate w with
  | none => .illegalOp
  | some i => judge i

/-- The word of an instruction; a step of the device has none, and 0 stands for it. -/
def encode (i : Instr) : Word :=
  match i.form with
  | some f => f.word
  | none => 0

/-- The 64-bit word of a list of bytes, the first at the lowest address (R4, R39). -/
def wordOfBytes (bs : List Byte) : Word :=
  bs.foldr (fun b acc => (acc <<< 8) ||| b.zeroExtend 64) 0

/-- The bytes of a word, the lowest address first (R4, R39). -/
def bytesOfWord (w : Word) : List Byte :=
  (List.range 8).map fun i => w.extractLsb' (8 * i) 8

/-- The instruction that the decoder reads from the bits w, laid out as the machine stores a word. -/
def decodeTableWord (_nbits w : Nat) : Option Instr :=
  match decode (wordOfBytes (bytesOfWord (BitVec.ofNat 64 w))) with
  | .instr i => some i
  | _ => none

end Sys2Proof
end

