-- ==== Sys2Proof/Config.lean ====
section
/-! DEFINITION. What the manual leaves to the part: the stepping identifier, the verdicts that need the fused keys and the sets
of the caches; and the free values. Each is a constant without a body, so a statement holds for every value. -/

namespace Sys2Proof.Config

/-- The stepping identifier of the part (R24, R34). (DESIGN CHOICE: log entry 21.) -/
opaque stepping : BitVec 16

/-- Whether a firmware image carries a valid RSA-3072 signature under the fused key (R333). -/
opaque rsaVerifies : List Byte → Bool

/-- Whether a firmware image carries a valid SLH-DSA signature under the fused key (R333). -/
opaque slhVerifies : List Byte → Bool

/-- Whether the flash can be read and the image is well formed (R332, cause 0x0008). -/
opaque imageReadable : List Byte → Bool

/-- The security version that an image carries (R333). -/
opaque imageVersion : List Byte → BitVec 32

/-- The minimum security version fused in the I/O die (R333). -/
opaque fusedMinimum : BitVec 32

/-- The set of an L1 in which a line of an address space lies (R172, R299): the manual gives none. (DESIGN CHOICE:
log entry 115.) -/
opaque l1Set : Nat → Nat → Nat

/-- The set of an L2 slice in which a physical line lies (R13): the manual gives none. (DESIGN CHOICE: log entry 115.) -/
opaque sliceSet : Nat → Nat

/-- The set of a cluster's TLB in which a page of some size lies (R299): the manual gives none. (DESIGN CHOICE: log
entry 115.) -/
opaque tlbSet : Nat → Nat → Nat

/-- What a byte of memory reads as whose last value was lost in an array that lost its supply (R21). (DESIGN CHOICE:
log entry 92.) -/
opaque lostByte : Nat → Nat → BitVec 8

/-- Which of the free barrier objects of a die `BARINIT` takes, as a function of those that are free (R2, R286). (DESIGN
CHOICE: log entry 22.) -/
opaque freeBarrier : List Nat → Nat

/-- INFO of the element that `NCQ` posts, as a function of the command's operation, its operand and the status (R2, R253).
(DESIGN CHOICE: log entry 23.) -/
opaque ncqInfo : Nat → Nat → Nat → Nat

end Sys2Proof.Config
end

