-- ==== Sys2Proof/Machine/Table.lean ====
section
/-! DEFINITION. Sparse tables with numbered entries, as plain data, and the memory of bytes in its canonical form. -/

namespace Sys2Proof.Machine

/-- A sparse table: numbered entries in rising order, at most one for a number. -/
abbrev Tbl (α : Type) := List (Nat × α)

namespace Tbl

/-- The entry of a number, if it is listed. -/
def get? {α : Type} : Tbl α → Nat → Option α
  | [], _ => none
  | (a, v) :: t, k => if a = k then some v else get? t k

/-- The entry of a number, or the value that an unlisted number has. -/
def getD {α : Type} (t : Tbl α) (k : Nat) (d : α) : α := (get? t k).getD d

/-- Lists an entry, in rising order. -/
def set {α : Type} : Tbl α → Nat → α → Tbl α
  | [], k, v => [(k, v)]
  | (a, w) :: t, k, v =>
    if k < a then (k, v) :: (a, w) :: t else if k = a then (k, v) :: t else (a, w) :: set t k v

/-- Unlists a number. -/
def erase {α : Type} (t : Tbl α) (k : Nat) : Tbl α := t.filter fun e => e.1 ≠ k

/-- The listed entries that pass a test. -/
def keep {α : Type} (t : Tbl α) (p : Nat → α → Bool) : Tbl α := t.filter fun e => p e.1 e.2

/-- Applies a function to every listed entry. -/
def mapV {α : Type} (t : Tbl α) (f : Nat → α → α) : Tbl α := t.map fun e => (e.1, f e.1 e.2)

end Tbl

/-- Memory: the bytes that differ from what an unlisted address reads as, addresses strictly rising. -/
abbrev Mem := List Host.Cell

namespace Mem

/-- What an address that is not listed reads as: the zero that a cold start leaves in HBM4, the quires and the
DDR5 tier (R14, R331), and that a claim leaves in scratchpad (R170). -/
def unlisted : Byte := 0

/-- The byte at an address. -/
def read (m : Mem) (a : Nat) : Byte := Tbl.getD m a unlisted

/-- Writes the byte at an address; the value that an unlisted address reads as removes the entry. -/
def write (m : Mem) (a : Nat) (b : Byte) : Mem := if b = unlisted then Tbl.erase m a else Tbl.set m a b

/-- Writes bytes at rising addresses. -/
def writeBytes (m : Mem) (a : Nat) : List Byte → Mem
  | [] => m
  | b :: bs => writeBytes (write m a b) (a + 1) bs

/-- Writes a list of (address, byte) pairs, the first first. -/
def writeAll (m : Mem) (ws : List (Nat × Byte)) : Mem := ws.foldl (fun m w => write m w.1 w.2) m

/-- The n bytes from an address up. -/
def readBytes (m : Mem) (a : Nat) : Nat → List Byte
  | 0 => []
  | n + 1 => read m a :: readBytes m (a + 1) n

/-- Makes the bytes from an address up to another read as unlisted. -/
def clear (m : Mem) (lo hi : Nat) : Mem := m.filter fun e => !(lo ≤ e.1 && e.1 < hi)

/-- The canonical form: addresses strictly rising, and no entry equal to what an unlisted address reads as. -/
def wf : Mem → Bool
  | [] => true
  | (_, b) :: [] => b ≠ unlisted
  | (a, b) :: (a', b') :: t => b ≠ unlisted && a < a' && wf ((a', b') :: t)

end Mem

/-- The number that a list of bytes holds, the first at the lowest bits (R4). -/
def natOfBytes : List Byte → Nat
  | [] => 0
  | b :: bs => b.toNat + 256 * natOfBytes bs

/-- The n low bytes of a number, the lowest first (R4). -/
def bytesOfNat : Nat → Nat → List Byte
  | 0, _ => []
  | n + 1, v => BitVec.ofNat 8 v :: bytesOfNat n (v / 256)

end Sys2Proof.Machine
end

