-- ==== Sys2Proof/Machine/State.lean ====
section
/-! DEFINITION. The state of the SJ9 as plain data, the reasons a step can stop, and the state after reset. -/

namespace Sys2Proof.Machine

/-! ### Why a step can stop -/

/-- Raised by `step` alone. -/
inductive Fault where
  /-- The scheduler's oracle names a context that the package does not have (R22: 4096 cores with 8 resident
  contexts). Safe: the hardware never issues for such a context, so the model stops where nothing happens. -/
  | noSuchContext
  deriving DecidableEq, Repr

/-- Why an instruction is not run. -/
inductive Refusal where
  /-- Raised by an arm of `exec` whose instruction has no meaning yet. Safe: the model stops where the hardware goes on. -/
  | notModelled (mnemonic : String)
  deriving DecidableEq, Repr

/-! ### What steps of the device act on -/

/-- The agents that can be declared dead (R326), with the numbers of R327. -/
inductive Agent where
  | core (c : Nat)
  | slice (i : Nat)
  | quire (q : Nat)
  | stack (q : Nat)
  | folio (d : Nat)
  | ote
  deriving DecidableEq, Repr

/-- The die-to-die links (R10). -/
inductive Link where
  | quire (q : Nat)
  | row (d : Nat)
  | io
  deriving DecidableEq, Repr

/-- What an access to a stored line, or a scrub of it, finds: its code words clean, a single-bit error, a double-bit error
(R321, R323), or a check value that does not match its bytes (R324). -/
inductive ScrubOutcome where
  | clean
  | corrected
  | uncorrectable
  | mismatch
  deriving DecidableEq, Repr

/-- What an arriving transport packet asks for (R249, R255). -/
inductive PacketKind where
  | send
  | taggedSend (tag : BitVec 64)
  | write (rbuf : BitVec 12) (offset : BitVec 40)
  | unsupported
  deriving DecidableEq, Repr

/-- One arriving packet (R18, R249, R255, R256): the port, the packet delivery context with its mode and the number of the
message in it, the message it belongs to, the address space it is addressed to and the job that it comes from, the message's
length, this packet's offset and bytes, and what the check of its CRC-32C finds. -/
structure Packet where
  port : Nat
  pdc : Nat
  rod : Bool
  seq : Nat
  msg : Nat
  asid : BitVec 12
  job : BitVec 24
  kind : PacketKind
  total : Nat
  offset : Nat
  bytes : List (BitVec 8)
  crcOk : Bool
  deriving DecidableEq, Repr

/-- The fields of a congestion table entry that the OTE writes (R258). -/
structure CongestionFields where
  cwnd : BitVec 32
  srtt : BitVec 32
  ecnfrac : BitVec 16
  credit : BitVec 32
  weights : BitVec 64
  deriving DecidableEq, Repr

/-- The tag of a line in an L1 (R299): the address space, the virtual line and the rights of its page. -/
structure VTag where
  asid : BitVec 12
  vline : Nat
  rd : Bool
  w : Bool
  x : Bool
  deriving DecidableEq, Repr

def VTag.none : VTag := ⟨0, 0, false, false, false⟩

/-- Where a step of the device happens and what it brings: the context, the core, the die or the address space it
acts on; the number of a thing in flight, of an entry or of a slot; a physical line; an address and a value; and
for the steps that bring more, the bytes, the packet, the agent, the link, what a scrub found, the fields of a
congestion entry, the cluster mask, the L1 tag of a line that is asked for. A step uses the fields that its meaning names. -/
structure Ev where
  k : Nat := 0
  core : Nat := 0
  die : Nat := 0
  asid : Nat := 0
  id : Nat := 0
  q : Nat := 0
  n : Nat := 0
  line : Nat := 0
  addr : Nat := 0
  value : Word := 0
  bytes : List Byte := []
  packet : Packet := ⟨0, 0, false, 0, 0, 0, 0, .unsupported, 0, 0, [], true⟩
  agent : Agent := .ote
  link : Link := .io
  found : ScrubOutcome := .clean
  fields : CongestionFields := ⟨0, 0, 0, 0, 0⟩
  clusters : BitVec 256 := 0
  tag : VTag := VTag.none
  deriving DecidableEq, Repr

/-- A step of the device and where it happens. -/
structure Due where
  i : Instr
  ev : Ev
  deriving DecidableEq, Repr

/-- Who moves next: a thread, which issues its instruction; a thread that issues the word that it fetched before for its
pc, if it has one (R190); a thread that performs one lane of its `AMOV` (R192); or a step of the device. -/
inductive Move where
  | thread (k : Nat)
  | stale (k : Nat)
  | part (k : Nat)
  | event (d : Due)
  deriving DecidableEq, Repr

/-- How the thread whose turn it is issues. -/
inductive How where
  | whole
  | stale
  | part
  deriving DecidableEq, Repr

/-! ### Registers of a thread (R25 to R28, R34) -/

/-- The full/empty state of a register (R28). -/
inductive Fe where
  | full
  | pending
  | idle
  deriving DecidableEq, Repr

/-- A guard (R232). -/
inductive Guard where
  | no
  | yes
  | pending
  deriving DecidableEq, Repr

/-- The state of a fibre register (R34, R241). -/
inductive FibreState where
  | closed
  | opened
  | atEnd
  deriving DecidableEq, Repr

/-- A fibre register with the widths of the fibre record (R34); the base pointers are bits [47:2]. -/
structure Fibre where
  state : FibreState
  vfmt : BitVec 4
  cwidth : BitVec 2
  pos : BitVec 22
  len : BitVec 22
  vptr : BitVec 46
  cptr : BitVec 46
  deriving DecidableEq, Repr

def Fibre.closedOne : Fibre := ⟨.closed, 0, 0, 0, 0, 0, 0⟩

/-- The registers that a transaction checkpoints (R211). `x` 0 and `p` 0 are never read (R25). -/
structure Regs where
  x : Vector Word 32
  v : Vector Lanes 32
  p : Vector W32 8
  xfe : Vector Fe 32
  vfe : Vector Fe 32
  guards : Vector Guard 8
  fibres : Vector Fibre 8
  fpstat : Word
  stochseed : W32
  deriving DecidableEq, Repr

def zeroLanes : Lanes := Vector.replicate 32 0

/-- The registers with which a task becomes a thread (R27), the stochastic state as given. -/
def Regs.start (seed : W32) : Regs where
  x := Vector.replicate 32 0
  v := Vector.replicate 32 zeroLanes
  p := Vector.replicate 8 0
  xfe := Vector.replicate 32 .full
  vfe := Vector.replicate 32 .full
  guards := Vector.replicate 8 .no
  fibres := Vector.replicate 8 Fibre.closedOne
  fpstat := 0
  stochseed := seed

/-! ### Traps and faults (R302, R306) -/

/-- The trap causes (R306). -/
inductive Cause where
  | illegalOp | reservedField | privileged | emptyRead | misalignedPc | misalignedData | badVaddr | scratchRange
  | dataPoison | software | badImage | guardDeadlock | queueUnderrun | txState | singularBlock | gaussOperand
  | inkwellOperand | palimpsestOperand | fibreOperand | kickOperand | taskOperand | barrierAhead
  | barrierOperand | imageBusy
  deriving DecidableEq, Repr

/-- The kinds of a translation fault (R302). -/
inductive FaultKind where
  | notPresent | permission | badPte
  deriving DecidableEq, Repr

/-- What an access is, for permissions (R297) and the fault buffer (R302). `walk` is a load made for TILEDEF or
RETAIN, `red` a RED. -/
inductive Access where
  | load | store | atomic | fetch
  deriving DecidableEq, Repr

/-- How a page is mapped (R296). -/
inductive Policy where
  | cached | uncached | combining
  deriving DecidableEq, Repr

/-! ### What a thread has in flight -/

/-- A result on its way to registers (R28): the registers' new contents, `none` where the register becomes
empty-idle, the flags that are raised with it, the scratchpad ways that `SPREL` gives up as it arrives (R171), and the
stores that an inkwell instruction performs before its result (R159), and the table that such an instruction uses (R155). -/
structure Result where
  id : Nat
  xs : List (Nat × Option Word)
  vs : List (Nat × Option Lanes)
  flags : BitVec 5
  ways : Nat
  after : List Nat
  table : Option Nat
  deriving DecidableEq, Repr

/-- Where loaded data goes. -/
inductive LoadDst where
  | x (r : Nat)
  | v (r : Nat)
  deriving DecidableEq, Repr

/-- Where a lane of a load has its data from: a physical address under a mapping, or a value that is already here,
none where it is poisoned. -/
inductive Source where
  | phys (pa : Nat) (policy : Policy)
  | here (val : Option Word)
  deriving DecidableEq, Repr

/-- One lane of a load: the lane it fills, the address as the thread names it and where the data is. -/
structure Piece where
  lane : Nat
  va : Word
  src : Source
  deriving DecidableEq, Repr

/-- A load that missed (R180): the physical lines that have not answered yet are `wanted`; `acq` says that later
accesses wait for it (R184). -/
structure PendingLoad where
  id : Nat
  dst : LoadDst
  size : Nat
  pieces : List Piece
  wanted : List Nat
  acq : Bool
  deriving DecidableEq, Repr

/-- A posted store to one physical line, with the tag and the hint with which it came (R175, R180, R188, R299); `clean` says
that it leaves the line with valid check bits (R159). -/
structure PendingStore where
  id : Nat
  line : Nat
  bytes : List (Nat × Byte)
  policy : Policy
  tag : VTag
  hint : Nat
  clean : Bool
  deriving DecidableEq, Repr

/-- Where the partials of a contribution first gather (R193). -/
inductive Gather where
  | l1
  | slice
  | home
  deriving DecidableEq, Repr

/-- A contribution of RED or TXRED (R193, R216): who made it, the resident context whose place it has in the tree of
R131, in which order, where it gathers, its location and what. -/
structure Partial where
  id : Nat
  k : Nat
  place : Nat
  gather : Gather
  pa : Nat
  dword : Bool
  op : Nat
  det : Bool
  val : Word
  deriving DecidableEq, Repr

/-- A pop that waits for its element (R226), since a GT (R277). -/
structure Pop where
  q : Nat
  dst : LoadDst
  since : Word
  deriving DecidableEq, Repr

/-- What comes back from another core's scratchpad (R169, R325, R328): the values by lane, the effective address of
the first location whose check fails, or of the first that is poisoned, or that the core is lost. -/
inductive Answer where
  | values (vs : List (Nat × Word))
  | failed (ea : Word)
  | poisoned (ea : Word)
  | lost
  deriving DecidableEq, Repr

/-- Where an access goes. -/
inductive Place where
  | own (byte : Nat)
  | remote (core slot a : Nat)
  | phys (pa : Nat) (policy : Policy)
  deriving DecidableEq, Repr

/-- One location of an access that has passed the checks. -/
structure Loc where
  lane : Nat
  va : Word
  place : Place
  deriving DecidableEq, Repr

/-- An `AMOV` that has performed some of its lanes (R192): the lanes that are left, how many of them are being performed
together now, and the old values of the others. -/
structure Lanewise where
  left : List Loc
  now : Nat
  old : List (Nat × Option Word)
  deriving DecidableEq, Repr

/-- A page walk in flight (R299). -/
structure Walk where
  va : Word
  acc : Access
  deriving DecidableEq, Repr

/-- An operation on memory (R191 to R193); `join` takes 1 from a dword that is not 0 (R281). -/
inductive RmwOp where
  | add | and | or | xor | min | max | minn | maxn | swap | cas | fadd | join
  deriving DecidableEq, Repr

/-! ### Engine commands (R224 to R238, R122, R251) -/

/-- What a command is bound to (R232); `dropped` marks one that an abort discards, which never had a line pending (R220). -/
inductive Binding where
  | free
  | heldOn (g : Nat)
  | discarded
  | dropped
  deriving DecidableEq, Repr

/-- A command in a view: the function of major 0x1D (`barq` marks function 0x04 of major 0x25), its cmd field and
the operand values read at issue; `reg` is the status register of KICK. `held` marks a command that a
transaction holds (R220); `started`, `done` and `tally` tell how far the engine is. -/
structure Cmd where
  id : Nat
  fn : Nat
  barq : Bool
  cmd : BitVec 15
  a : Word
  b : Word
  c : Word
  reg : Nat
  bound : Binding
  held : Bool
  started : Bool
  done : Nat
  tally : List Nat
  deriving DecidableEq, Repr

/-- A line of Q5 (R237) and whether it carries poison. -/
structure LineElem where
  lanes : Lanes
  poisoned : Bool
  deriving DecidableEq, Repr

/-- A message of GBPOST (R145): the context and register that its outcome goes to, the sender as [14:0] of the slot
header names it, target, slot, notice handler, header fields and the 72 words. -/
structure Post where
  k : Nat
  reg : Nat
  sender : Nat
  asid : BitVec 12
  core : Nat
  ctx : Nat
  slot : Nat
  handler : Word
  beta : Half
  dim : Nat
  m0 : Lanes
  m1 : Lanes
  m2 : Lanes
  deriving DecidableEq, Repr

/-- What a transaction holds until it commits (R220). -/
inductive Held where
  | cmd (q : Nat) (id : Nat)
  | post (p : Post)
  deriving DecidableEq, Repr

/-! ### Transactions (R210 to R221) -/

/-- The fields of TXSTAT (R210). -/
structure TxStat where
  expcode : BitVec 8
  aborts : BitVec 8
  capcount : BitVec 4
  cause : BitVec 4
  keepage : Bool
  irrev : Bool
  depth : BitVec 3
  deriving DecidableEq, Repr

def TxStat.none : TxStat := ⟨0, 0, 0, 0, false, false, 0⟩

/-- How far a commit is (R215): the directories that have not answered PREPARE and the largest LEXP returned, or
the commit time and the directories that have not received COMMIT. -/
inductive TxPhase where
  | live
  | preparing (left : List Nat) (lexp : Word)
  | committing (tc : Word) (left : List Nat)
  deriving DecidableEq, Repr

/-- A live transaction: the abort handler, none for a speculative task (R270); the checkpoint; the registered
tiles, those that it reduces with their operation; speculative bytes by physical address, and the lines that one
store wrote whole (R180); contributions; held commands in issue order. -/
structure Tx where
  handler : Option Word
  ckpt : Regs
  reads : List Nat
  writes : List Nat
  reds : List (Nat × Nat)
  spec : Tbl Byte
  full : List Nat
  partials : List Partial
  held : List Held
  phase : TxPhase
  deriving DecidableEq, Repr

/-- What follows an abort (R217, R307, R313, R322): the handler, a trap, a park with the fault or with one of the kinds 4 to 7,
a pre-emption, a halt in HALTED_BLOT, or the end of the thread. -/
inductive After where
  | handler
  | trap (cause : Cause) (val : Word)
  | park (kind : FaultKind) (acc : Access) (va : Word)
  | stop (kind code : Nat) (va : Word)
  | leave
  | halted
  | ended
  deriving DecidableEq, Repr

/-- An abort that waits for the thread's long-latency producers (R217). -/
structure AbortReq where
  cause : BitVec 4
  code : BitVec 8
  after : After
  deriving DecidableEq, Repr

/-! ### Tasks (R269) -/

/-- A task record (R269); `born` is the model's mark of the time at which `FORK` pushed it, 0 for the dispatcher's. -/
structure TaskRec where
  entry : Word
  workid : Word
  arg : Word
  joinctr : Word
  ctl : Word
  widshape : Word
  launch : BitVec 16
  born : Nat
  deriving DecidableEq, Repr

/-- What a context holds beside its image: identifiers (R32), the record it was bound from or that stands for it (R247;
none after CTXLOAD, R320), PSCOUNT (R166), whether it has recorded its trigger (R283), and the
landed notice that a handler acknowledges at its end (R245: the ring's context and the token). -/
structure Meta where
  workid : Word
  taskarg : Word
  task : Option TaskRec
  pscount : Word
  triggered : Bool
  notice : Option (Nat × Word)
  deriving DecidableEq, Repr

def Meta.none : Meta := ⟨0, 0, .none, 0, false, .none⟩

/-! ### Landing rings and notices (R243 to R246) -/

/-- A notice (R243, R244): the address space that its source is read in, where the data lies, its length and tag, the
sender as [14:0] of the notice names it, the sender's context and its command, the target context, the handler,
and whether its data is being fetched. -/
structure Notice where
  id : Nat
  src : Word
  len : Nat
  tag : Half
  sender : Nat
  k : Nat
  asid : BitVec 12
  ctx : Nat
  handler : Word
  fetching : Bool
  deriving DecidableEq, Repr

/-- Lines of a landing ring taken by one notice: first ring line, number of lines, the token once landed, the notice, and
whether it has been acknowledged. -/
structure Alloc where
  line : Nat
  lines : Nat
  token : Option Word
  notice : Notice
  acked : Bool
  deriving DecidableEq, Repr

/-- A landing ring: local address and size in bytes, the line of its allocation point, allocations from the oldest (R245). -/
structure Ring where
  base : Nat
  size : Nat
  point : Nat
  allocs : List Alloc
  deriving DecidableEq, Repr

/-- A handler thread that waits for a slot (R246, R257). -/
structure HandlerWait where
  pc : Word
  x1 : Word
  x2 : Word
  asid : BitVec 12
  notice : Option (Nat × Word)
  deriving DecidableEq, Repr

/-! ### The matrix unit -/

/-- A tile on a ring link, with its tag (R127). -/
structure RingTile where
  rows : Nat
  fmt : BitVec 5
  steps : Nat
  size : Nat
  bytes : List Byte
  deriving DecidableEq, Repr

/-- A ring stream that is running: the step it stands at, the tile it computes with, whether it has handed the tile on,
and the core cycle since which it waits (R127). -/
structure RingRun where
  step : Nat
  tile : RingTile
  sent : Bool
  since : Word
  deriving DecidableEq, Repr

/-- The matrix unit of a core (R38, R114, R123, R126). -/
structure Matrix where
  owner : Option Nat
  acc : Vector Lanes 256
  dirty0 : Bool
  dirty1 : Bool
  wfmt : Option (BitVec 5)
  weights : List Byte
  bias : Lanes
  knots : Option (List Half)
  lo : W32
  hi : W32
  s : W32
  ringSize : Nat
  wsrc : Word
  claimers : List Nat
  latch : List RingTile
  running : Option RingRun
  deriving DecidableEq, Repr

def Matrix.idle : Matrix where
  owner := none
  acc := Vector.replicate 256 zeroLanes
  dirty0 := false
  dirty1 := false
  wfmt := none
  weights := []
  bias := zeroLanes
  knots := none
  lo := 0
  hi := 0
  s := 0
  ringSize := 0
  wsrc := 0
  claimers := []
  latch := []
  running := none

/-! ### Contexts -/

/-- What a context does. `vacant`: no thread. `running`: it issues when its turn comes. The waiting states are
left by the event that the rule names. `parked` holds the KIND of R303. -/
inductive Run where
  | vacant
  | running
  | release
  | walking
  | remote
  | waitev (line : Nat)
  | barwait (die : Nat) (obj : Nat) (phase : W32)
  | token
  | aborting
  | committing
  | decision
  | checking (loader : Nat)
  | parked (kind : Nat)
  | blot
  deriving DecidableEq, Repr

/-- Why a context leaves, or has left, its resident slot (R308), and `ready` once `REPLAY` lets it come back. -/
inductive Left where
  | swapped
  | hold
  | parked (kind : Nat)
  | blot
  | ready
  deriving DecidableEq, Repr

/-- A context: image (R34), transaction, queue views (R224), and what is in flight. `fence` is set while a `FENCE.rel` has
issued that holds later stores back: the number below which what the thread had in flight was made before it (R184, R189);
`words` are the instruction words that the thread has fetched, by physical address (R190); `amov` an `AMOV` that has
performed some of its lanes (R192); `palGen` the generation count that the `PSCHK` at the pc has sampled (R163). `waitSince` is the GT at which its
wait began (R277), `woken` that the wait of a `WAITEV` or `BARWAIT` at the pc is over, `blocked` that its last issue
waited, `joined` that the `JOIN` at the pc has counted and only the end of the thread is left (R281), or that the `CTXSAVE` or
`CTXLOAD` there has read or written its image and has only to complete (R319, R320). `leftAt` is the GT
at which it left its resident slot, `entry` the slot of the fault buffer entry that names it as its first thread,
`mxSaved` the matrix state that waits for its return (R309). -/
structure Ctx where
  run : Run
  asid : BitVec 12
  pc : Word
  r : Regs
  trapcause : Word
  trappc : Word
  trapval : Word
  intrap : Bool
  txstat : TxStat
  txage : Word
  tx : Option Tx
  abort : Option AbortReq
  info : Meta
  results : List Result
  loads : List PendingLoad
  stores : List PendingStore
  reds : List Partial
  pops : List Pop
  visible : Word
  fence : Option Nat
  remoteFail : Option (Nat × Word)
  answer : Option Answer
  words : Tbl Word
  amov : Option Lanewise
  palGen : Option Nat
  poison : Option Word
  claim : List Nat
  ring : Option Ring
  walk : Option Walk
  cmds : Vector (List Cmd) 12
  elems : Vector (List Word) 12
  lines : List LineElem
  waitSince : Option Word
  woken : Bool
  blocked : Bool
  joined : Bool
  why : Option Left
  leftAt : Word
  entry : Option Nat
  mxSaved : Option Matrix
  deriving DecidableEq, Repr

/-- A context that holds no thread. Its registers are those of a thread's start, the identifiers 0.
(DESIGN CHOICE: log entry 3.) -/
def Ctx.vacantOne : Ctx where
  run := .vacant
  asid := 0
  pc := 0
  r := Regs.start 1
  trapcause := 0
  trappc := 0
  trapval := 0
  intrap := false
  txstat := TxStat.none
  txage := 0
  tx := none
  abort := none
  info := Meta.none
  results := []
  loads := []
  stores := []
  reds := []
  pops := []
  visible := 0
  fence := none
  remoteFail := none
  answer := none
  words := []
  amov := none
  palGen := none
  poison := none
  claim := []
  ring := none
  walk := none
  cmds := Vector.replicate 12 []
  elems := Vector.replicate 12 []
  lines := []
  waitSince := none
  woken := false
  blocked := false
  joined := false
  why := none
  leftAt := 0
  entry := none
  mxSaved := none

/-! ### Cores -/

/-- What an L1 way is used for (R150, R170). -/
inductive WayUse where
  | cache
  | scratch (ctx : Nat)
  | ink (t : Nat)
  deriving DecidableEq, Repr

/-- The state of a tile in an L1 (R206); `l` with the expiry. -/
inductive L1State where
  | i
  | l (expiry : Word)
  | e
  | m
  | o
  | u
  deriving DecidableEq, Repr

/-- A tile in an L1: its state, its dirty physical lines, and the GT before which no store into the copy is performed: the
bound of the grant that made it exclusive (R204). The lines held are those of `Core.lines`. -/
structure L1Tile where
  st : L1State
  dirty : List Nat
  bound : Word
  deriving DecidableEq, Repr

def L1Tile.absent : L1Tile := ⟨.i, [], 0⟩

/-- Which line of a set is replaced first (R175). -/
inductive Victim where
  | first
  | normal
  | last
  deriving DecidableEq, Repr

/-- A line in an L1 (R172, R299): its tag, the physical line, the way, its rank as a victim, the context whose
speculative copy it is (R212), and its poison bit (R324). -/
structure L1Line where
  tag : VTag
  line : Nat
  way : Nat
  rank : Victim
  spec : Option Nat
  bad : Bool
  deriving DecidableEq, Repr

/-- A line in an L2 slice (R13, R173): the way, its rank as a victim, whether it differs from what lies behind the slice,
the context whose speculative line it is, in the versioned area (R212), and its poison bit (R324). -/
structure SliceLine where
  line : Nat
  way : Nat
  rank : Victim
  dirty : Bool
  spec : Option Nat
  bad : Bool
  deriving DecidableEq, Repr

/-- A line in a quire (R14): the way, whether it differs from what its stack holds, and its poison bit (R324). -/
structure QuireLine where
  line : Nat
  way : Nat
  dirty : Bool
  bad : Bool
  deriving DecidableEq, Repr

/-- An inkwell table (R150 to R152). `entries` lists position 16·bucket + entry, key and value; an unlisted
position is empty. -/
structure InkTable where
  owner : Nat
  asid : BitVec 12
  ways : List Nat
  entries : Tbl (W32 × W32)
  header : Word
  spillbase : Word
  spillcap : Nat
  spillcount : Nat
  overflow : Bool
  spillfault : Bool
  deriving DecidableEq, Repr

/-- An entry of a core's out-list (R301): the frame, the number by which messages name the context meanwhile, and what
the device keeps beside the image. -/
structure OutEntry where
  asid : BitVec 12
  frame : Nat
  key : Nat
  why : Left
  leftAt : Word
  info : Meta
  remoteFail : Option (Nat × Word)
  poison : Option Word
  entry : Option Nat
  deriving DecidableEq, Repr

/-- A core (R12, R22). `lines` are the lines of the L1, the most recently used first. The last record of `deque` is its bottom; `spilled` lists the contexts whose spill areas hold
records, in the order of the records from the top (R273). -/
structure Core where
  ways : Vector WayUse 8
  l1 : Tbl L1Tile
  lines : List L1Line
  ink : Vector (Option InkTable) 4
  mx : Matrix
  deque : List TaskRec
  inbox : List TaskRec
  spill : Vector (List TaskRec) 8
  spilled : List Nat
  notices : List Notice
  overflow : List Notice
  handlers : List HandlerWait
  lfsr : BitVec 16
  backoff : Nat
  stealing : Option Nat
  outlist : List OutEntry
  mximage : Word
  turns : Vector Nat 12
  deriving DecidableEq, Repr

/-- Core c as it starts: nothing pinned, the steal LFSR at the core's index, 0x1000 for core 0 (R12, R274). -/
def Core.start (c : Nat) : Core where
  ways := Vector.replicate 8 .cache
  l1 := []
  lines := []
  ink := Vector.replicate 4 none
  mx := Matrix.idle
  deque := []
  inbox := []
  spill := Vector.replicate 8 []
  spilled := []
  notices := []
  overflow := []
  handlers := []
  lfsr := if c = 0 then 0x1000 else BitVec.ofNat 16 c
  backoff := 64
  stealing := none
  outlist := []
  mximage := 0
  turns := Vector.replicate 12 9

/-! ### Clusters (R298 to R302) -/

/-- A translation in a cluster's TLB: pages of `bits` address bits (12, 16, 21 or 30). -/
structure TlbEntry where
  asid : BitVec 12
  vpage : Nat
  bits : Nat
  ppage : Nat
  rd : Bool
  w : Bool
  x : Bool
  policy : Policy
  deriving DecidableEq, Repr

/-- A table pointer in a cluster's walk cache (R299): the table that serves the level below `level` for the
addresses with this prefix. -/
structure WalkEntry where
  asid : BitVec 12
  level : Nat
  vprefix : Nat
  table : Nat
  deriving DecidableEq, Repr

/-- A key of a cluster's fault table, and the buffer slot of its entry: none when it was dropped or freed (R302, R304). -/
structure FaultKey where
  asid : BitVec 12
  granule : Nat
  kind : FaultKind
  acc : Access
  slot : Option Nat
  dropped : Bool
  deriving DecidableEq, Repr

structure Cluster where
  tlb : List TlbEntry
  wcache : List WalkEntry
  faults : List FaultKey
  deriving DecidableEq, Repr

def Cluster.empty : Cluster := ⟨[], [], []⟩

/-! ### Tiles, leases and directories (R198 to R214) -/

/-- A declared tile (R55, R199): shape, address space, the physical lines that it covers and the bounds of the pages through
which they were translated (R200). -/
structure TileEntry where
  asid : BitVec 12
  base : Word
  rows : Nat
  rowbytes : Nat
  pitch : Nat
  home : Nat
  lines : List Nat
  pages : List (Nat × Nat)
  deriving DecidableEq, Repr

/-- The state of a tile at its home (R205). -/
inductive HomeState where
  | i | l | e | m | o | u
  deriving DecidableEq, Repr

/-- A directory entry (R205, R213). `leases` are the leases granted directly on the tile, by core or by 4096 + die·64 + slice
of a requester slice, with the latest expiry of each, and `past` the latest expiry of those that are no longer listed: LEXP is
the largest (R202, R204). `waiting` are the cores whose
exclusive requests have reached the home, in order, and 8192 + context for writes that the home performs (R203); `many` is the oldest age of the readers that did not fit in
the slots: TXAGE and context. -/
structure Dir where
  st : HomeState
  leases : Tbl Word
  past : Word
  owner : Nat
  waiting : List Nat
  partials : List Partial
  readers : List Nat
  many : Option (Word × Nat)
  writer : Option Nat
  redop : Option Nat
  reducers : List Nat
  deriving DecidableEq, Repr

def Dir.invalid : Dir := ⟨.i, [], 0, 0, [], [], [], none, none, none, []⟩

/-! ### Dies -/

/-- An entry of a fault buffer (R303). -/
structure FaultEntry where
  va : BitVec 48
  acc : BitVec 4
  kind : BitVec 4
  asid : BitVec 12
  cluster : BitVec 8
  ctx : BitVec 3
  core : BitVec 12
  threads : Half
  frame : Half
  code : Half
  gt : Word
  deriving DecidableEq, Repr

/-- A barrier object (R285). -/
structure Barrier where
  asid : BitVec 12
  e : Nat
  p : W32
  a : Vector Nat 4
  deriving DecidableEq, Repr

/-- A palimpsest entry (R161); `gen` is its generation count. -/
structure PalEntry where
  valid : Bool
  asid : BitVec 12
  block : W32
  tag : W32
  inptr : BitVec 48
  inlen : BitVec 17
  outptr : BitVec 48
  outbytes : BitVec 21
  gen : Nat
  deriving DecidableEq, Repr

def PalEntry.free : PalEntry := ⟨false, 0, 0, 0, 0, 0, 0, 0, 0⟩

/-- An active retention register (R176, R177), with the ways that every slice of the die reserves. -/
structure Retention where
  asid : BitVec 12
  base : Nat
  len : Nat
  ways : List Nat
  deriving DecidableEq, Repr

/-- A page hotness entry (R178). -/
structure HotEntry where
  valid : Bool
  granule : BitVec 34
  total : Half
  q : Vector Byte 16
  deriving DecidableEq, Repr

def HotEntry.cleared : HotEntry := ⟨false, 0, 0, Vector.replicate 16 0⟩

/-- What a die error log records (R16, R264, R290, R293, R301, R321, R324). The manual gives no layout.
(DESIGN CHOICE: log entry 95.) -/
inductive ErrEntry where
  | badWrite (pa : Nat)
  | badQueue (asid : Nat) (q : Nat)
  | badKick (asid : Nat) (q : Nat) (value : Word)
  | badBlock (asid : Nat) (off : Nat) (value : Word)
  | badPartition (p : Nat)
  | badPool (asid : Nat)
  | corrected (line : Nat)
  | uncorrected (line : Nat)
  | mismatch (pa : Nat)
  | correctedArray (core : Nat) (line : Nat)
  | uncorrectedArray (core : Nat) (line : Nat)
  | correctedEntry (table : Nat) (i : Nat)
  | uncorrectedEntry (table : Nat) (i : Nat)
  deriving DecidableEq, Repr

/-- The event counts of a die that are 64 bits wide (R316). -/
structure Counts where
  offered : Word
  dropped : Word
  resumed : Word
  commits : Word
  aborts : Word
  grants : Word
  swaps : Word
  steals : Word
  held : Word
  deriving DecidableEq, Repr

def Counts.zero : Counts := ⟨0, 0, 0, 0, 0, 0, 0, 0, 0⟩

/-- A merge command in a tree's order of arrival: the context and the command's number (R238). -/
structure MergeTurn where
  k : Nat
  id : Nat
  deriving DecidableEq, Repr

/-- A die (R11 to R13, R19). `steady` counts the nanoseconds since its copy of GT last took a step of another length;
`sliceLease` are the leases of its requester slices by 64·tile + slice, `slices` the lines of its L2 slices, the most
recently used first (R202, R173); `rethit` and `retmiss` the counters of its retention registers, `retAsid` whose each was last (R177, R316). `placing` are the records that its dispatcher has still to place (R268). -/
structure Die where
  gt : Word
  steady : Nat
  sliceLease : Tbl Word
  slices : Tbl (List SliceLine)
  hot : Tbl HotEntry
  barriers : Tbl Barrier
  faults : Vector (Option FaultEntry) 8
  dropped : Bool
  dropcount : W32
  retention : Vector (Option Retention) 8
  rethit : Vector Word 8
  retmiss : Vector Word 8
  retAsid : Vector (BitVec 12) 8
  pal : Tbl PalEntry
  pshit : W32
  psmiss : W32
  counts : Counts
  tokenq : List Nat
  lastCore : Nat
  placing : List TaskRec
  errlog : List ErrEntry
  merge0 : List MergeTurn
  merge1 : List MergeTurn
  deriving DecidableEq, Repr

def Die.start : Die where
  gt := 0
  steady := 0
  sliceLease := []
  slices := []
  hot := []
  barriers := []
  faults := Vector.replicate 8 none
  dropped := false
  dropcount := 0
  retention := Vector.replicate 8 none
  rethit := Vector.replicate 8 0
  retmiss := Vector.replicate 8 0
  retAsid := Vector.replicate 8 0
  pal := []
  pshit := 0
  psmiss := 0
  counts := Counts.zero
  tokenq := []
  lastCore := 1023
  placing := []
  errlog := []
  merge0 := []
  merge1 := []

/-! ### Address spaces, partitions, launches (R263 to R272, R290, R293) -/

/-- An address-space block (R290); RESIDENT and PARKED are counted from the contexts. -/
structure Space where
  valid : Bool
  hold : Bool
  partition : BitVec 4
  ptbase : Word
  leasecfg : Word
  trapvec : Word
  ctxframe : Word
  deriving DecidableEq, Repr

/-- LEASECFG at each start: SLICELEASE 2,000 and L1LEASE 256 (R201). -/
def leasecfgDefault : Word := (2000#32 : W32) ++ (256#32 : W32)

def Space.absent : Space := ⟨false, false, 0, 0, leasecfgDefault, 0, 0⟩

/-- A partition entry (R293). -/
structure Partition where
  clusters : BitVec 256
  l2mask : Half
  qmask : Half
  deriving DecidableEq, Repr

/-- A launch queue's control block (R264); `rsv` lists the offsets of reserved bytes last written with a value that
is not 0; `since` is the GT from which it has been ready without being served, `waited` the whole 1,000,000 ns of it
that its priority counts (R267). -/
structure Queue where
  ring : Word
  size : W32
  ctl : Byte
  rsv : List Nat
  head : W32
  tail : W32
  lasterr : W32
  since : Option Word
  waited : Nat
  deriving DecidableEq, Repr

def Queue.off : Queue := ⟨0, 0, 0, [], 0, 0, 0, none, 0⟩

/-- A launch header (R56). -/
structure Header where
  ctl : Word
  entry : Word
  arg : Word
  joinctr : Word
  widshape : Word
  ext : Vector Word 6
  graph : Word
  deriving DecidableEq, Repr

/-- One die's share of a kernel (R268): the tasks from `next` up to `stop` go to this die. -/
structure Share where
  die : Nat
  next : Nat
  stop : Nat
  deriving DecidableEq, Repr

/-- A branch of a graph (R271, R272): at a node; in a kernel, with the successor; at a speculative node, with the launch
slots of the producer and of the two sides, and the winner once decided; or a kernel from which nothing follows and whose
tasks have still to retire. -/
inductive Branch where
  | node (n : Nat)
  | kernel (slot : Nat) (succ : Nat)
  | tail (slot : Nat)
  | spec (n : Nat) (p : Nat) (s0 : Nat) (s1 : Nat) (won : Option Bool)
  deriving DecidableEq, Repr

/-- A graph that runs (R271): its branches, join arrivals and loop counts by node, and whether it has met a
bad node. -/
structure GraphRun where
  branches : List Branch
  joins : Tbl Nat
  loops : Tbl Nat
  bad : Bool
  deriving DecidableEq, Repr

/-- A launch in progress. `queue` is none for `launch.core` and for a kernel inside a graph; `core` is the target
of `launch.core`; `index` is the ring index of its entry. `live` counts its records and threads that have not ended,
`untriggered` those that have neither triggered nor ended (R265). `side` is the SPECTAG of a speculative kernel;
`stopped` marks a side that has stopped, and `verdict` holds whether it has won (R272). `follow` says whether the next launch of the
queue is EARLY, once its header has been copied (R269). -/
structure Launch where
  asid : BitVec 12
  queue : Option Nat
  core : Option Nat
  hdr : Header
  index : W32
  started : Bool
  shares : List Share
  turn : Nat
  live : Nat
  untriggered : Nat
  side : Half
  stopped : Bool
  verdict : Option Bool
  graph : Option GraphRun
  follow : Option Bool
  deriving DecidableEq, Repr

/-- The package dispatcher (R267): the last queue served at each level, as ASID·64 + queue. -/
structure Dispatcher where
  last : Vector Nat 8
  launches : Tbl Launch
  deriving DecidableEq, Repr

/-! ### Transport (R249 to R258) -/

/-- A destination endpoint (R250). -/
structure Endpoint where
  valid : Bool
  rod : Bool
  addr : BitVec 128
  job : BitVec 24
  process : BitVec 12
  deriving DecidableEq, Repr

def Endpoint.absent : Endpoint := ⟨false, false, 0, 0, 0⟩

/-- A congestion table entry (R258). -/
structure Congestion where
  fields : CongestionFields
  updated : W32
  version : W32
  next : Word
  deriving DecidableEq, Repr

def Congestion.zero : Congestion := ⟨⟨0, 0, 0, 0, 0⟩, 0, 0, 0⟩

/-- A posted buffer (R254): the record's fields, the physical pages of the buffer (4 KiB each) and the physical address
of CWORD as they were translated, who posted it, its place in post order and the message that has taken it. -/
structure Buffer where
  base : Word
  len : Nat
  cword : Word
  tag : Word
  ignore : Word
  handler : Word
  barrier : BitVec 32
  hcore : Nat
  flags : Half
  pages : List Nat
  cwordPa : Nat
  poster : Nat
  order : Nat
  taken : Option Nat
  deriving DecidableEq, Repr

/-- A transmit that is not complete (R252), under its command's number: the context, the destination as ASID·4096 + DEST,
the job identifier of the endpoint that its packets carry (R249), whether it travels under ROD, the message's bytes as read, since
when its receiver reports no matching buffer, and how often a packet has been sent again. -/
structure Transmit where
  k : Nat
  dest : Nat
  job : BitVec 24
  rod : Bool
  bytes : List Byte
  since : Option Word
  resends : Nat
  deriving DecidableEq, Repr

/-- A packet delivery context of the OTE (R18, R249): its mode and, for ROD, the number of the message that begins next
(R252). -/
structure Pdc where
  rod : Bool
  begun : Nat
  deriving DecidableEq, Repr

/-- A message being received (R255 to R257): its packet delivery context and number there, its buffer as it was when the
message took it, length, placed packets, bytes placed and not yet counted, bytes counted, failures of packets by offset. -/
structure Receive where
  pdc : Nat
  rod : Bool
  seq : Nat
  msg : Nat
  asid : BitVec 12
  posted : Buffer
  buffer : Nat
  offset : Nat
  total : Nat
  placed : List Nat
  uncounted : List Nat
  counted : Nat
  failures : Tbl Nat
  failed : Bool
  done : Bool
  deriving DecidableEq, Repr

/-- Q9 receive records that the OTE holds for a context, and whether it has dropped some (R257). -/
structure HeldRecords where
  records : List Word
  dropped : Bool
  deriving DecidableEq, Repr

/-- The transport engine (R249 to R258). `pdcs` are the packet delivery contexts in use by number. -/
structure Ote where
  pdcs : Tbl Pdc
  endpoints : Tbl Endpoint
  congestion : Tbl Congestion
  buffers : Tbl Buffer
  transmits : Tbl Transmit
  receives : Tbl Receive
  held : Tbl HeldRecords
  answers : List (Nat × Byte)
  deriving DecidableEq, Repr

/-! ### Messages between cores -/

/-- What an access to another core's scratchpad does (R169). -/
inductive RemoteOp where
  | load
  | store
  | rmw (op : RmwOp) (cmp : Word)
  | red (op : RmwOp)
  deriving DecidableEq, Repr

/-- One location of such an access: the lane, the core, the slot, the local address there, the effective address
that reaches it and the datum. -/
structure RemoteLane where
  lane : Nat
  core : Nat
  slot : Nat
  a : Nat
  ea : Word
  val : Word
  deriving DecidableEq, Repr

/-- What travels between cores: posts (R145), outcomes for a register, kicks (R243), acknowledgements (R245) and
remote scratchpad accesses (R169). -/
inductive Msg where
  | post (p : Post)
  | outcome (k : Nat) (reg : Nat) (code : Nat)
  | kick (reg : Nat) (core : Nat) (n : Notice)
  | ack (k : Nat) (id : Nat) (elem : Word)
  | remote (k : Nat) (asid : BitVec 12) (size : Nat) (lanes : List RemoteLane) (op : RemoteOp)
  deriving DecidableEq, Repr

/-- A palimpsest copy that the copy engine still owes a thread (R163): its place in program order, destination and source of each 128-byte line, as
a byte of the L1 arrays (true) or a physical address. -/
structure PalCopy where
  id : Nat
  k : Nat
  lines : List ((Bool × Nat) × (Bool × Nat))
  deriving DecidableEq, Repr

/-! ### Management (R21, R259 to R262, R327, R330 to R334) -/

/-- An entry of the dead-agent log (R327). -/
structure DeadEntry where
  agent : Agent
  reason : Nat
  gt : Word
  deriving DecidableEq, Repr

/-- The management controller and the host window (R259, R262, R330). `starting` holds whether the start in progress is a
warm one, `unmasked` the vectors whose mask bit is clear, `msixTable` the message addresses and data of the MSI-X table
by BAR0 offset, `raised` the interrupts raised, `windows` the bases of BAR4's windows, `modules` the capacities of the
DDR5 modules in GiB, `hostData` what the last host read returned, a poisoned byte as none; `coolSince` since when every die
has been below 90 °C while the thermal alert is set (R21), `calib` the temperatures of the dies at the last calibration, as
the flash keeps them (R331), `mailIn` and `mailOut` what the host and the controller have posted in the mailbox (R259). -/
structure Mgmt where
  ready : Bool
  lastWarm : Bool
  recovery : Bool
  stopclean : Bool
  thermal : Bool
  starting : Option Bool
  warmfails : Byte
  cause : Half
  partmem : Tbl (Nat × Nat)
  staging : Mem
  flash : List Byte
  deadlog : List DeadEntry
  failedParts : List Nat
  unmasked : List Nat
  msixTable : Mem
  pending : List Nat
  raised : List Nat
  windows : Vector Word 64
  modules : Vector Nat 16
  hostData : List (Option Byte)
  coolSince : Option Word
  calib : Option (List Nat)
  mailIn : List (List Byte)
  mailOut : List (List Byte)
  deriving DecidableEq, Repr

/-! ### Poison (R324, R328) -/

/-- Many lines at once: those homed on an agent have become poison with its death (R328), or a range of addresses has been
set to zero by a start (R331). -/
inductive PoisonBase where
  | agent (a : Agent)
  | zeroed (lo hi : Nat)
  deriving DecidableEq, Repr

/-! ### The state -/

/-- The SJ9. Contexts are numbered core·8 + slot in the resident slots and 32768 + core·2 + slot in the shadow slots.
`mem` holds the bytes of HBM4 and the DDR5 tier that are visible to every agent; a line is poison in its stack or in the DDR5
tier where `poison` lists it and `poisonBase`, the newest first, does not poison it, or the reverse; `scratch` the L1 arrays used as
scratchpad (core·2^18 + byte of the array); `quires` the lines of the quires by 2^20·quire + set (R14); `scratchPoison` and `scratchPending` list lines; `tiles` and `dirs`
are the tile table and the tile homes; `tokenHolder`, `tokenTurn` the irrevocable token. `cur`, `choices`, `due`, `ev`,
`how`, `stalled` and `nextId` are the model's own: whose turn it is, who moves next, device steps that have been caused and
have not happened, where the device step that moves now happens, how the thread that moves now issues, whether the last issue waited, and the next number for a
thing in flight. (DESIGN CHOICE: log entries 1 and 2.) -/
structure State where
  ctxs : Tbl Ctx
  cores : Tbl Core
  clusters : Tbl Cluster
  dies : Vector Die 4
  quires : Tbl (List QuireLine)
  gt : Word
  cycles : Word
  mem : Mem
  scratch : Mem
  poison : List Nat
  poisonBase : List PoisonBase
  scratchPoison : List Nat
  scratchPending : List Nat
  tiles : Tbl TileEntry
  dirs : Tbl Dir
  tokenHolder : Option Nat
  tokenTurn : Nat
  spaces : Tbl Space
  parts : Vector Partition 16
  queues : Tbl Queue
  disp : Dispatcher
  ote : Ote
  msgs : Tbl Msg
  palCopies : List PalCopy
  mgmt : Mgmt
  dead : List Agent
  cur : Nat
  choices : List Move
  due : List Due
  ev : Ev
  how : How
  stalled : Bool
  nextId : Nat
  deriving DecidableEq, Repr

/-- ASID 0, the only address space that is VALID at start (R290). -/
def Space.system : Space := { Space.absent with valid := true }

/-- The partitions at start: partition 0 holds every cluster with both masks 0xFFFF, the others none (R293).
(DESIGN CHOICE: log entry 96.) -/
def startParts : Vector Partition 16 :=
  (Vector.replicate 16 ⟨0, 0xFFFF, 0xFFFF⟩).set 0 ⟨BitVec.allOnes 256, 0xFFFF, 0xFFFF⟩

/-- The management controller after a successful cold start (R331, R332). (DESIGN CHOICE: log entry 4.) -/
def Mgmt.started : Mgmt where
  ready := true
  lastWarm := false
  recovery := false
  stopclean := false
  thermal := false
  starting := none
  warmfails := 0
  cause := 0
  partmem := []
  staging := []
  flash := []
  deadlog := []
  failedParts := []
  unmasked := []
  msixTable := []
  pending := []
  raised := []
  windows := Vector.replicate 64 0
  modules := Vector.replicate 16 64
  hostData := []
  coolSince := none
  calib := none
  mailIn := []
  mailOut := []

/-- The package when its power-on cold start has completed (R331): READY is 1, GT is 0, memory is zero, the
device's tables are clear, ASID 0 is VALID in partition 0, and no context holds a thread.
Registers without a reset value in the manual hold what log entry 3 names. (DESIGN CHOICE: log entries 3, 4 and 96;
PRESUMED: log entry 89.) -/
def State.reset : State where
  ctxs := []
  cores := []
  clusters := []
  dies := Vector.replicate 4 Die.start
  quires := []
  gt := 0
  cycles := 0
  mem := []
  scratch := []
  poison := []
  poisonBase := []
  scratchPoison := []
  scratchPending := []
  tiles := []
  dirs := []
  tokenHolder := none
  tokenTurn := 0
  spaces := [(0, Space.system)]
  parts := startParts
  queues := []
  disp := ⟨Vector.replicate 8 (4095 * 64 + 63), []⟩
  ote := ⟨[], [], [], [], [], [], [], []⟩
  msgs := []
  palCopies := []
  mgmt := Mgmt.started
  dead := []
  cur := 0
  choices := []
  due := []
  ev := {}
  how := .whole
  stalled := false
  nextId := 0

end Sys2Proof.Machine
end

