-- ==== Sys2Proof/Machine/Ops.lean ====
section
/-! DEFINITION. The named operations over the state: places, registers, things in flight, full/empty checks,
taking a trap (R307), parking a thread (R301 to R304), aborting a transaction (R217) and the frame in which every
instruction issues (R29 to R31, R45). -/

namespace Sys2Proof.Machine

abbrev Out := Host.Outcome State Fault Refusal

def b2n (b : Bool) : Nat := if b then 1 else 0

/-! ### Vectors by number -/

/-- The entry at a number, taken modulo the length. -/
def vat {α : Type} {n : Nat} [NeZero n] (v : Vector α n) (i : Nat) : α :=
  v[i % n]'(Nat.mod_lt _ (Nat.pos_of_ne_zero (NeZero.ne n)))

/-- Replaces the entry at a number, taken modulo the length. -/
def vput {α : Type} {n : Nat} [NeZero n] (v : Vector α n) (i : Nat) (a : α) : Vector α n :=
  v.set (i % n) a (Nat.mod_lt _ (Nat.pos_of_ne_zero (NeZero.ne n)))

/-! ### Places (R12, R13, R22) -/

/-- The core of a context: of a resident or shadow slot, of a thread that has ended (from 65536 up), or of the core that
moved a context to a frame (from 131072 up). -/
def coreOf (k : Nat) : Nat := if k < 32768 then k / 8 else if k < 65536 then (k - 32768) / 2 else k % 4096
/-- The resident context number, [14:12] of CTXID. -/
def slotOf (k : Nat) : Nat := k % 8
def keyOf (core slot : Nat) : Nat := core * 8 + slot
def shadowKey (core j : Nat) : Nat := 32768 + core * 2 + j
def dieOf (core : Nat) : Nat := core / 1024
/-- The package cluster of a core (R12). -/
def clusterOf (core : Nat) : Nat := core / 1024 * 64 + core % 1024 / 32 / 4 * 8 + core % 32 / 4
/-- The package quadrant of a core (R12). -/
def quadrantOf (core : Nat) : Nat := core / 1024 * 4 + core % 1024 / 32 / 16 * 2 + core % 32 / 16

/-! ### Parts of the state -/

def State.ctx (s : State) (k : Nat) : Ctx := Tbl.getD s.ctxs k Ctx.vacantOne
def State.setCtx (s : State) (k : Nat) (c : Ctx) : State := { s with ctxs := Tbl.set s.ctxs k c }
def State.updCtx (s : State) (k : Nat) (f : Ctx → Ctx) : State := s.setCtx k (f (s.ctx k))
/-- The thread whose turn it is. -/
def State.th (s : State) : Ctx := s.ctx s.cur
def State.setTh (s : State) (c : Ctx) : State := s.setCtx s.cur c
def State.updTh (s : State) (f : Ctx → Ctx) : State := s.setTh (f s.th)
def State.core (s : State) (c : Nat) : Core := Tbl.getD s.cores c (Core.start c)
def State.setCore (s : State) (c : Nat) (v : Core) : State := { s with cores := Tbl.set s.cores c v }
def State.updCore (s : State) (c : Nat) (f : Core → Core) : State := s.setCore c (f (s.core c))
/-- The core of the thread whose turn it is. -/
def State.myCore (s : State) : Nat := coreOf s.cur
def State.die (s : State) (d : Nat) : Die := vat s.dies d
def State.setDie (s : State) (d : Nat) (v : Die) : State := { s with dies := vput s.dies d v }
def State.updDie (s : State) (d : Nat) (f : Die → Die) : State := s.setDie d (f (s.die d))
def State.myDie (s : State) : Nat := dieOf s.myCore
def State.cluster (s : State) (c : Nat) : Cluster := Tbl.getD s.clusters c Cluster.empty
def State.setCluster (s : State) (c : Nat) (v : Cluster) : State := { s with clusters := Tbl.set s.clusters c v }
def State.updCluster (s : State) (c : Nat) (f : Cluster → Cluster) : State := s.setCluster c (f (s.cluster c))
def State.space (s : State) (a : Nat) : Space := Tbl.getD s.spaces a Space.absent
def State.setSpace (s : State) (a : Nat) (v : Space) : State := { s with spaces := Tbl.set s.spaces a v }
def State.updSpace (s : State) (a : Nat) (f : Space → Space) : State := s.setSpace a (f (s.space a))
def State.queue (s : State) (a q : Nat) : Queue := Tbl.getD s.queues (a * 64 + q) Queue.off
def State.setQueue (s : State) (a q : Nat) (v : Queue) : State := { s with queues := Tbl.set s.queues (a * 64 + q) v }
def State.dir (s : State) (t : Nat) : Dir := Tbl.getD s.dirs t Dir.invalid
def State.setDir (s : State) (t : Nat) (v : Dir) : State := { s with dirs := Tbl.set s.dirs t v }
def State.updDir (s : State) (t : Nat) (f : Dir → Dir) : State := s.setDir t (f (s.dir t))
def State.updMgmt (s : State) (f : Mgmt → Mgmt) : State := { s with mgmt := f s.mgmt }
def State.updOte (s : State) (f : Ote → Ote) : State := { s with ote := f s.ote }
def State.log (s : State) (d : Nat) (e : ErrEntry) : State := s.updDie d fun v => { v with errlog := v.errlog ++ [e] }
def State.launch? (s : State) (n : Nat) : Option Launch := Tbl.get? s.disp.launches n
def State.setLaunch (s : State) (n : Nat) (l : Launch) : State :=
  { s with disp := { s.disp with launches := Tbl.set s.disp.launches n l } }
def State.updLaunch (s : State) (n : Nat) (f : Launch → Launch) : State :=
  match s.launch? n with
  | some l => s.setLaunch n (f l)
  | none => s

/-- A number joins a list that does not hold it. -/
def insertNew (l : List Nat) (n : Nat) : List Nat := if l.contains n then l else l ++ [n]

/-- Causes a device step: it happens when it comes up. (DESIGN CHOICE: log entry 8.) -/
def State.cause (s : State) (i : Instr) (ev : Ev) : State := { s with due := s.due ++ [⟨i, ev⟩] }
/-- Causes a device step unless it is already due. -/
def State.causeOnce (s : State) (i : Instr) (ev : Ev) : State :=
  if s.due.contains ⟨i, ev⟩ then s else s.cause i ev
/-- A device step that is not yet possible comes up again after time has passed. -/
def State.later (s : State) (i : Instr) : State := { s with due := s.due ++ [⟨.gtTick, {}⟩, ⟨i, s.ev⟩] }
/-- A number for a thing in flight. -/
def State.newId (s : State) : State := { s with nextId := s.nextId + 1 }

/-- GT as a die reads it (R19). -/
def State.gtOf (s : State) (d : Nat) : Word := (s.die d).gt

/-- An agent has been declared dead (R326). -/
def State.isDead (s : State) (a : Agent) : Bool := s.dead.contains a
/-- A core is lost: itself or its folio is dead (R328). -/
def State.coreLost (s : State) (c : Nat) : Bool := s.isDead (.core c) || s.isDead (.folio (dieOf c))

/-- Raises an MSI-X vector, or sets its pending bit while it is masked (R262). (DEDUCED: log entry 112.) -/
def State.raise (s : State) (v : Nat) : State :=
  s.updMgmt fun m =>
    if m.unmasked.contains v then { m with raised := m.raised ++ [v] }
    else { m with pending := if m.pending.contains v then m.pending else m.pending ++ [v] }

/-! ### Registers (R25, R28) -/

/-- A register with a full/empty bit. -/
inductive RegRef where
  | x (n : Nat)
  | v (n : Nat)
  deriving DecidableEq, Repr

/-- DEDUCED: log entry 29. -/
def RegRef.num : RegRef → Nat
  | .x n => n
  | .v n => n

/-- X0 reads 0. -/
def Regs.getX (r : Regs) (n : Nat) : Word := if n = 0 then 0 else vat r.x n
/-- Writes to X0 are discarded; a written register is full. -/
def Regs.setX (r : Regs) (n : Nat) (w : Word) : Regs :=
  if n = 0 then r else { r with x := vput r.x n w, xfe := vput r.xfe n .full }
def Regs.getV (r : Regs) (n : Nat) : Lanes := vat r.v n
def Regs.setV (r : Regs) (n : Nat) (l : Lanes) : Regs := { r with v := vput r.v n l, vfe := vput r.vfe n .full }
/-- P0 reads ones. -/
def Regs.getP (r : Regs) (n : Nat) : W32 := if n = 0 then BitVec.allOnes 32 else vat r.p n
/-- Writes to P0 are discarded. -/
def Regs.setP (r : Regs) (n : Nat) (w : W32) : Regs := if n = 0 then r else { r with p := vput r.p n w }

/-- X0 is always full. -/
def Regs.fe (r : Regs) : RegRef → Fe
  | .x n => if n = 0 then .full else vat r.xfe n
  | .v n => vat r.vfe n
def Regs.setFe (r : Regs) (f : Fe) : RegRef → Regs
  | .x n => if n = 0 then r else { r with xfe := vput r.xfe n f }
  | .v n => { r with vfe := vput r.vfe n f }

def Ctx.getX (c : Ctx) (n : Nat) : Word := c.r.getX n
def Ctx.setX (c : Ctx) (n : Nat) (w : Word) : Ctx := { c with r := c.r.setX n w }
def Ctx.getV (c : Ctx) (n : Nat) : Lanes := c.r.getV n
def Ctx.setV (c : Ctx) (n : Nat) (l : Lanes) : Ctx := { c with r := c.r.setV n l }
def Ctx.getP (c : Ctx) (n : Nat) : W32 := c.r.getP n
def Ctx.setP (c : Ctx) (n : Nat) (w : W32) : Ctx := { c with r := c.r.setP n w }

def State.x (s : State) (n : BitVec 6) : Word := s.th.getX n.toNat
def State.v (s : State) (n : BitVec 6) : Lanes := s.th.getV n.toNat
def State.p (s : State) (n : BitVec 6) : W32 := s.th.getP n.toNat
def State.setX (s : State) (n : BitVec 6) (w : Word) : State := s.updTh (·.setX n.toNat w)
def State.setV (s : State) (n : BitVec 6) (l : Lanes) : State := s.updTh (·.setV n.toNat l)
def State.setP (s : State) (n : BitVec 6) (w : W32) : State := s.updTh (·.setP n.toNat w)

/-- The low half of a predicate selection (R31, R81): the selected lanes. -/
def State.mask (s : State) (sel : BitVec 3) (neg : BitVec 1) : W32 :=
  let p := s.th.getP sel.toNat
  if neg = 1 then ~~~p else p

/-- Raises sticky flags in FPSTAT (R70). -/
def Regs.raise (r : Regs) (flags : BitVec 5) : Regs := { r with fpstat := r.fpstat ||| flags.zeroExtend 64 }

/-! ### Results on their way (R28) -/

/-- Applies a result: registers become full, or empty-idle where there is no value. -/
def Regs.apply (r : Regs) (q : Result) : Regs :=
  let r := q.xs.foldl (fun r e => match e.2 with
    | some w => r.setX e.1 w
    | none => r.setFe .idle (.x e.1)) r
  let r := q.vs.foldl (fun r e => match e.2 with
    | some l => r.setV e.1 l
    | none => r.setFe .idle (.v e.1)) r
  r.raise q.flags

/-- Marks registers empty-pending. -/
def Regs.makePending (r : Regs) (ds : List RegRef) : Regs := ds.foldl (fun r d => r.setFe .pending d) r

/-- A result sets out for its registers, which become empty-pending (R28). -/
def State.produceOne (s : State) (k : Nat) (xs : List (Nat × Option Word)) (vs : List (Nat × Option Lanes))
    (flags : BitVec 5) (after : List Nat) (table : Option Nat) : State :=
  let id := s.nextId
  let s := s.newId.updCtx k fun c =>
    { c with r := c.r.makePending (xs.map (fun e => .x e.1) ++ vs.map (fun e => .v e.1))
             results := c.results ++ [⟨id, xs, vs, flags, 0, after, table⟩] }
  s.cause .longLatencyResult { k := k, id := id }

/-- A long-latency producer issues: its destinations become empty-pending and their results are on their way, each register
with a result of its own; the flags come with the first (R28). The results come after the stores `after` (R159), for an
instruction on inkwell table `table`. -/
def State.produce (s : State) (k : Nat) (xs : List (Nat × Option Word)) (vs : List (Nat × Option Lanes))
    (flags : BitVec 5) (after : List Nat := []) (table : Option Nat := none) : State :=
  match (xs.map fun e => ([e], [])) ++ (vs.map fun e => ([], [e])) with
  | [] => s.produceOne k [] [] flags after table
  | p :: ps => ps.foldl (fun s q => s.produceOne k q.1 q.2 0 after table) (s.produceOne k p.1 p.2 flags after table)

/-- Nothing of the thread's long-latency producers is in flight (R211, R217). -/
def Ctx.settled (c : Ctx) : Bool := c.results.isEmpty && c.loads.isEmpty && c.pops.isEmpty

/-- The accesses whose thread waits for an answer. -/
def RemoteOp.answers : RemoteOp → Bool
  | .load => true
  | .rmw _ _ => true
  | .store => false
  | .red _ => false

/-- The same, with what has travelled to another core's scratchpad and is to be answered (R169, R217). -/
def State.settled (s : State) (k : Nat) : Bool :=
  (s.ctx k).settled && !(s.msgs.any fun m => match m.2 with
    | .remote j _ _ _ op => j = k && op.answers
    | _ => false)

/-- A speculative transaction is live: DEPTH above 0 without the token (R210, R221). -/
def Ctx.speculative (c : Ctx) : Bool := c.txstat.depth ≠ 0 && !c.txstat.irrev

/-! ### Counts of the queue views (R224) -/

def pushOf : Nat → Nat
  | 1 => 0 | 3 => 2 | 5 => 4 | 7 => 6 | 9 => 8 | q => q

/-- The count of a view (R224). -/
def Ctx.count (c : Ctx) (q : Nat) : Nat :=
  match q with
  | 0 | 2 | 4 | 6 | 8 => (vat c.cmds q).length
  | 5 => c.lines.length + (vat c.cmds 4).length
  | 10 => (match c.ring with
    | none => 0
    | some r => (r.allocs.filter fun a => a.token.isNone && a.notice.handler = 0).length) + (vat c.elems 10).length
  | 11 => (vat c.elems 11).length + (c.pops.filter fun p => p.q = 11).length
  | q => (vat c.elems q).length + (vat c.cmds (pushOf q)).length

/-- Every count is 0 (R36). -/
def Ctx.queuesEmpty (c : Ctx) : Bool := (List.range 12).all fun q => c.count q = 0

/-! ### Memory by physical address -/

def State.readMem (s : State) (pa n : Nat) : List Byte := Mem.readBytes s.mem pa n
def State.writeMem (s : State) (pa : Nat) (bs : List Byte) : State := { s with mem := Mem.writeBytes s.mem pa bs }
def State.memNat (s : State) (pa n : Nat) : Nat := natOfBytes (s.readMem pa n)

/-! ### The trap codes (R306) and fault codes (R302, R303) -/

def Cause.code : Cause → BitVec 8
  | .illegalOp => 0x01 | .reservedField => 0x02 | .privileged => 0x03 | .emptyRead => 0x04
  | .misalignedPc => 0x05 | .misalignedData => 0x06 | .badVaddr => 0x07 | .scratchRange => 0x08
  | .dataPoison => 0x09 | .software => 0x0A | .badImage => 0x0B | .guardDeadlock => 0x0C
  | .queueUnderrun => 0x0D | .txState => 0x0E | .singularBlock => 0x0F | .gaussOperand => 0x10
  | .inkwellOperand => 0x11 | .palimpsestOperand => 0x12 | .fibreOperand => 0x13 | .kickOperand => 0x14
  | .taskOperand => 0x15 | .barrierAhead => 0x16 | .barrierOperand => 0x17 | .imageBusy => 0x18

def FaultKind.code : FaultKind → Nat
  | .notPresent => 1 | .permission => 2 | .badPte => 3

def Access.code : Access → Nat
  | .load => 0 | .store => 1 | .atomic => 2 | .fetch => 3

/-! ### The fault buffer (R302 to R304) -/

/-- The lowest slot of a fault buffer whose VALID is 0 (R303). -/
def freeSlot (f : Vector (Option FaultEntry) 8) : Option Nat :=
  (List.range 8).find? fun i => (vat f i).isNone

/-- Offers an entry to a die's fault buffer: the lowest free slot takes it and the buffer raises its vector when it
becomes nonempty; a full buffer drops it (R303, R304). Answers the slot taken. -/
def State.offer (s : State) (d : Nat) (e : FaultEntry) : State × Option Nat :=
  let s := s.updDie d fun v => { v with counts := { v.counts with offered := v.counts.offered + 1 } }
  match freeSlot (s.die d).faults with
  | some i =>
    let wasEmpty := (s.die d).faults.toList.all Option.isNone
    let s := s.updDie d fun v => { v with faults := vput v.faults i (some e) }
    (if wasEmpty then s.raise d else s, some i)
  | none =>
    (s.updDie d fun v =>
      { v with dropped := true
               dropcount := if v.dropcount = BitVec.allOnes 32 then v.dropcount else v.dropcount + 1
               counts := { v.counts with dropped := v.counts.dropped + 1 } }, none)

/-- The entry that a park of context k offers (R303). -/
def State.faultEntry (s : State) (k : Nat) (kind acc : Nat) (va : Word) (code : Nat) : FaultEntry where
  va := va.extractLsb' 0 48
  acc := BitVec.ofNat 4 acc
  kind := BitVec.ofNat 4 kind
  asid := (s.ctx k).asid
  cluster := BitVec.ofNat 8 (clusterOf (coreOf k))
  ctx := BitVec.ofNat 3 (slotOf k)
  core := BitVec.ofNat 12 (coreOf k)
  threads := 1
  frame := 0
  code := BitVec.ofNat 16 code
  gt := s.gtOf (dieOf (coreOf k))

/-- Records a translation fault in the cluster's table and the die's buffer (R302): a key that is there is joined,
a new key takes a table entry while the table has room, and offers a buffer entry. -/
def State.recordFault (s : State) (k : Nat) (kind : FaultKind) (acc : Access) (va : Word) : State :=
  let cl := clusterOf (coreOf k)
  let d := dieOf (coreOf k)
  let asid := (s.ctx k).asid
  let granule := va.toNat % 2 ^ 48 / 65536
  match (s.cluster cl).faults.find? fun e =>
      e.asid = asid && e.granule = granule && e.kind = kind && e.acc = acc with
  | some e =>
    let s := s.updCtx k fun c => { c with entry := none }
    match e.slot with
    | some i => s.updDie d fun v => { v with faults := vput v.faults i ((vat v.faults i).map fun b =>
        { b with threads := if b.threads = 0xFFFF then b.threads else b.threads + 1 }) }
    | none => s
  | none =>
    let r := s.offer d (s.faultEntry k kind.code acc.code va 0)
    if (s.cluster cl).faults.length < 16 then
      (r.1.updCluster cl fun c =>
        { c with faults := c.faults ++ [⟨asid, granule, kind, acc, r.2, r.2.isNone⟩] }).updCtx k fun c => { c with entry := r.2 }
    else r.1.updCtx k fun c => { c with entry := r.2 }

/-- A context stops issuing until REPLAY (R301); where its image goes is decided when nothing of it is in
flight (`Instr.contextStream`). -/
def State.stopThread (s : State) (k : Nat) (kind : Nat) : State :=
  (s.updCtx k fun c => { c with run := .parked kind, why := some (.parked kind), walk := none, answer := none, palGen := none }).cause
    .contextStream { core := coreOf k }

/-- Parks on a translation fault (R301, R302). The instruction has no effect. -/
def State.parkFault (s : State) (k : Nat) (kind : FaultKind) (acc : Access) (va : Word) : State :=
  (s.recordFault k kind acc va).stopThread k kind.code

/-- Parks with one of the kinds 4 to 7: an own buffer entry with ACCESS 0 and VADDR the PC (R302). -/
def State.parkKind (s : State) (k : Nat) (kind : Nat) (code : Nat) (va : Word) : State :=
  let r := s.offer (dieOf (coreOf k)) (s.faultEntry k kind 0 va code)
  (r.1.updCtx k fun c => { c with entry := r.2 }).stopThread k kind

/-! ### Taking a trap (R307) -/

/-- Delivers a trap outside a speculative transaction: the thread parks with KIND 6 when there is no handler or it
runs one already; otherwise the cause, the pc and the value are saved, INTRAP is set and the pc goes to TRAPVEC. -/
def State.deliverNow (s : State) (k : Nat) (cause : Cause) (val pc : Word) : State :=
  let c := s.ctx k
  let vec := (s.space c.asid.toNat).trapvec
  if vec = 0 || c.intrap then s.parkKind k 6 cause.code.toNat pc
  else s.setCtx k
    { c with trapcause := cause.code.zeroExtend 64, trappc := pc, trapval := val, intrap := true, pc := vec
             run := .running, answer := none, amov := none, palGen := none, blocked := false, waitSince := none, joined := false }

/-! ### Tiles' directories, as an abort needs them (R213, R217) -/

/-- Clears the slots of a transaction at a directory. -/
def Dir.forget (d : Dir) (k : Nat) : Dir :=
  { d with readers := d.readers.filter (· ≠ k)
           reducers := d.reducers.filter (· ≠ k)
           writer := if d.writer = some k then none else d.writer
           redop := if (d.reducers.filter (· ≠ k)).isEmpty && d.many.isNone then none else d.redop }

def Tx.tiles (t : Tx) : List Nat := (t.reads ++ t.writes ++ t.reds.map (·.1)).eraseDups

/-- The age of a transaction: TXAGE, core, context; the first difference decides (R211). -/
def older (a b : Word × Nat) : Bool := a.1 < b.1 || (a.1 = b.1 && a.2 < b.2)

/-- The readers and reducers of a tile that the slots of its directory do not name, but for a context: context and age
(R213). -/
def State.unslotted (s : State) (t but : Nat) : List (Word × Nat) :=
  s.ctxs.filterMap fun e => match e.2.tx with
    | some x =>
      if e.1 ≠ but && (x.reads.contains t || x.reds.any fun r => r.1 = t) && !(s.dir t).readers.contains e.1 &&
          !(s.dir t).reducers.contains e.1 then some (e.2.txage, e.1) else none
    | none => none

/-- The MANY bit of a directory counts the live readers that did not fit, and holds the oldest age of those (R213, R222).
(DEDUCED: log entry 40.) -/
def State.refreshMany (s : State) (t but : Nat) : State :=
  let oldest := (s.unslotted t but).foldl (fun (m : Option (Word × Nat)) a => match m with
    | some b => if older a b then some a else some b
    | none => some a) none
  s.updDir t fun d => { d with many := oldest }

/-- DEDUCED: log entry 41. -/
def State.forgetTx (s : State) (k : Nat) (tiles : List Nat) : State :=
  tiles.foldl (fun s t => (s.refreshMany t k).updDir t (·.forget k)) s

/-- Halts a context in HALTED_BLOT: no buffer entry; a holder of the token releases it, and no transaction of the context is
left (R328, R329). -/
def State.halt (s : State) (k : Nat) : State :=
  let s := match (s.ctx k).tx with
    | some x =>
      (s.forgetTx k x.tiles).updCtx k fun c => { c with tx := none, abort := none, txstat := { c.txstat with irrev := false, depth := 0 } }
    | none => s
  let s := if s.tokenHolder = some k then { s with tokenHolder := none } else s
  let p := (s.space (s.ctx k).asid.toNat).partition.toNat
  let s := s.updMgmt fun m =>
    { m with failedParts := if m.failedParts.contains p then m.failedParts else m.failedParts ++ [p] }
  (s.updCtx k fun c => { c with run := .blot, why := some .blot, walk := none, answer := none, palGen := none }).cause
    .contextStream { core := coreOf k }

/-! ### Completion elements (R119, R233, R253) -/

/-- A completion element: status in [7:0], function in [23:16], the count or info above. -/
def elem (status fn info : Nat) : Word := BitVec.ofNat 64 (status % 256 + fn % 256 * 2 ^ 16 + info % 2 ^ 32 * 2 ^ 32)

def Ctx.postElem (c : Ctx) (q : Nat) (w : Word) : Ctx := { c with elems := vput c.elems q (vat c.elems q ++ [w]) }

/-- The pop view that a push view's commands post to (R26). -/
def popOf : Nat → Nat
  | 0 => 1 | 2 => 3 | 4 => 5 | 6 => 7 | _ => 9

/-- The trailer line of a gather (R237): count, status, function, indices written, lanes replaced and poisoned. -/
def trailer (count status written replaced poisoned : Nat) : Lanes :=
  vput (vput (vput (vput (vput (vput zeroLanes 0 (BitVec.ofNat 32 count)) 1 (BitVec.ofNat 32 status)) 2 0x08)
    3 (BitVec.ofNat 32 written)) 4 (BitVec.ofNat 32 replaced)) 5 (BitVec.ofNat 32 poisoned)

/-- The function code that a completion element carries (R119, R233, R287). -/
def Cmd.func (c : Cmd) : Nat := c.fn

/-- INFO of the element of a command of Q8 that does not run: of a post the buffer number, of a transmit 0 bytes acknowledged
(R253). -/
def Cmd.postInfo (c : Cmd) : Nat := if c.fn = 0x1A && !c.barq then c.b.toNat % 4096 else 0

/-- Posts what a command that never started posts: DISCARDED to its pop view, as a trailer line for Q4, or the
code 5 in the status register of KICK (R232, R233, R243). -/
def State.postDiscarded (s : State) (k q : Nat) (c : Cmd) : State :=
  if q = 2 && !c.barq && c.fn = 0x03 then
    s.updCtx k fun x => { x with r := x.r.setX c.reg 5 }
  else if q = 4 then s.updCtx k fun x => { x with lines := x.lines ++ [⟨trailer 0 1 0 0 0, false⟩] }
  else (s.updCtx k fun x => x.postElem (popOf q) (elem 1 c.func c.postInfo))

/-! ### Scratchpad lines (R170, R172, R234) -/

/-- The lines of a claim. -/
def claimLines (claim : List Nat) : Nat := 256 * claim.length

/-- The line of a core's L1 array that local line `l` of a claim is (R172), as core·2048 + way·256 + set. -/
def claimLine (core : Nat) (claim : List Nat) (l : Nat) : Nat :=
  core * 2048 + claim.getD (l / 256) 0 * 256 + l % 256

/-- The bytes of an output row of a drain (R128). -/
def drainRow (f : Nat) : Nat := match f with
  | 0 | 6 => 128
  | 1 => 64
  | 5 => 16
  | _ => 32

/-- The bytes that a drain writes (R128). -/
def Cmd.drainBytes (c : Cmd) : Nat :=
  let f := c.cmd.toNat / 2 ^ 8 % 8
  let n := c.cmd.toNat % 128 + 1
  n * drainRow f + if f = 5 then n else 0

/-- The destination lines of a copy (R234, R235) or a drain (R120) that writes scratchpad, so far as they lie inside the
claim. -/
def Cmd.destLines (core : Nat) (claim : List Nat) (c : Cmd) : List Nat :=
  let keep := fun (ls : List Nat) => ((ls.filter fun l => l / 256 < claim.length).eraseDups).map (claimLine core claim)
  if c.barq then []
  else if c.fn = 0x14 then
    if claimLines claim ≤ c.a.toNat / 128 then []
    else keep ((List.range ((c.a.toNat % 128 + c.drainBytes + 127) / 128)).map fun i => c.a.toNat / 128 + i)
  else if !c.cmd.getLsbD 1 then []
  else if c.fn = 0x00 then
    keep ((List.range ((c.a.toNat % 128 + c.c.toNat % 2 ^ 25 + 127) / 128)).map fun i => c.a.toNat / 128 + i)
  else if c.fn = 0x01 then
    let rows := (c.c.extractLsb' 0 16).toNat
    let rb := (c.c.extractLsb' 16 16).toNat
    let dp := 4 * (c.c.extractLsb' 32 16).toNat
    keep ((List.range rows).flatMap fun r =>
      (List.range (((c.a.toNat + r * dp) % 128 + rb + 127) / 128)).map fun i => (c.a.toNat + r * dp) / 128 + i)
  else []

/-- Lines become pending for one command or notice (R120, R234). -/
def State.addPending (s : State) (ls : List Nat) : State := { s with scratchPending := ls ++ s.scratchPending }

/-- The lines of one command or notice are no longer pending for it. -/
def State.clearPending (s : State) (ls : List Nat) : State :=
  { s with scratchPending := ls.foldl (fun ps l => ps.erase l) s.scratchPending }

/-- A line is pending for something beside the commands with the lines `own`. -/
def State.pendingBut (s : State) (own : List Nat) (l : Nat) : Bool := own.count l < s.scratchPending.count l

/-! ### Aborting a transaction (R217, R220) -/

/-- Discards what the transaction holds (R220): the status registers of KICK and GBPOST receive DISCARDED; every other
command comes to the head of its view as one that never starts. -/
def State.discardHeld (s : State) (k : Nat) : List Held → State
  | [] => s
  | .cmd q id :: hs =>
    match (vat (s.ctx k).cmds q).find? fun c => c.id = id with
    | some c =>
      if q = 2 && !c.barq && c.fn = 0x03 then
        (s.updCtx k fun x =>
          { x with r := x.r.setX c.reg 5
                   cmds := vput x.cmds q ((vat x.cmds q).filter fun c => c.id ≠ id) }).discardHeld k hs
      else
        ((s.updCtx k fun x =>
          { x with cmds := vput x.cmds q ((vat x.cmds q).map fun c =>
              if c.id = id then { c with held := false, bound := .dropped } else c) }).cause
          .engineCommandStart { k := k, q := q }).discardHeld k hs
    | none => s.discardHeld k hs
  | .post p :: hs => (s.updCtx k fun x => { x with r := x.r.setX p.reg 5 }).discardHeld k hs

/-- TXSTAT after an abort (R217): ABORTS saturates at 255 and CAPCOUNT at 15 (R210). -/
def TxStat.aborted (t : TxStat) (cause : BitVec 4) (code : BitVec 8) : TxStat :=
  { t with cause := cause
           aborts := if t.aborts = 255 then t.aborts else t.aborts + 1
           capcount := if cause = 2 && t.capcount ≠ 15 then t.capcount + 1 else t.capcount
           expcode := if cause = 3 then code else t.expcode
           keepage := true
           depth := 0 }

/-- The speculative lines of a context are discarded, in the L1 and in the versioned area (R217). -/
def State.dropSpec (s : State) (k : Nat) : State :=
  let c := coreOf k
  let s := s.updCore c fun v => { v with lines := v.lines.filter fun e => e.spec ≠ some k }
  s.updDie (dieOf c) fun v => { v with slices := (Tbl.mapV v.slices fun _ l => l.filter fun e => e.spec ≠ some k).filter fun e => !e.2.isEmpty }

/-- Restores the checkpoint, clears the transaction's slots and discards what it holds (R217). A transaction
without a handler is a speculative task's (R270): a conflict re-runs the task from its entry at its original
age, any other cause ends its part of the side (R272), for which `run` waits for the verdict of
`speculativeDecision`. -/
def State.rollBack (s : State) (k : Nat) (cause : BitVec 4) (code : BitVec 8) : State :=
  match (s.ctx k).tx with
  | none => s.updCtx k fun c => { c with abort := none }
  | some t =>
    let s := (s.forgetTx k t.tiles).dropSpec k
    let s := s.updDie (dieOf (coreOf k)) fun v => { v with counts := { v.counts with aborts := v.counts.aborts + 1 } }
    let s := s.updCtx k fun c =>
      let c := { c with amov := none, palGen := none, blocked := false, waitSince := none }
      match t.handler with
      | some h => { c with r := t.ckpt, txstat := c.txstat.aborted cause code, tx := none, abort := none
                           pc := h, run := .running, walk := none, answer := none }
      | none =>
        let st := c.txstat.aborted cause code
        if cause = 1 then
          { c with r := t.ckpt, txstat := { st with depth := 1, keepage := false }, abort := none
                   tx := some { t with reads := [], writes := [], reds := [], spec := [], full := [], partials := [], held := []
                                       phase := .live }
                   pc := match c.info.task with | some r => r.entry | none => c.pc
                   run := .running, walk := none, answer := none }
        else { c with r := t.ckpt, txstat := st, tx := none, abort := none, run := .decision, walk := none
                      answer := none }
    s.discardHeld k t.held

/-- Marks the whole side of a speculative task stopped (R272). -/
def State.stopSide (s : State) (k : Nat) : State :=
  match (s.ctx k).info.task with
  | some r => (s.updLaunch r.launch.toNat fun l => { l with stopped := true, shares := [] }).cause .launchRetire
      { n := r.launch.toNat }
  | none => s

/-- The abort, once nothing of the thread is in flight, and what follows it (R217, R307). -/
def State.abortNow (s : State) (k : Nat) (q : AbortReq) : State :=
  let spec := match (s.ctx k).tx with
    | some t => t.handler.isNone
    | none => false
  let s := s.rollBack k q.cause q.code
  if q.after = .halted then (if spec then s.stopSide k else s).halt k
  else if spec then
    if q.cause = 1 then s else s.stopSide k
  else
    match q.after with
    | .handler => s
    | .halted => s
    | .trap c v => s.deliverNow k c v (s.ctx k).pc
    | .park kind acc va => s.parkFault k kind acc va
    | .stop kind code va => s.parkKind k kind code va
    | .leave => s.cause .contextStream { core := coreOf k }
    | .ended => s

/-- Begins an abort: at once when nothing of the thread is in flight, else the thread waits for it (R217). One that has begun stays
as it is (R322). -/
def State.startAbort (s : State) (k : Nat) (q : AbortReq) : State :=
  if (s.ctx k).abort.isSome then s
  else if s.settled k then s.abortNow k q
  else (s.updCtx k fun c => { c with abort := some q, run := .aborting }).cause .txAbort { k := k }

/-- Delivers a trap (R307): a speculative transaction aborts first, with cause explicit and EXPCODE 0, and the
trap then names the abort handler. -/
def State.deliver (s : State) (k : Nat) (cause : Cause) (val pc : Word) : State :=
  if (s.ctx k).speculative then s.startAbort k ⟨3, 0, .trap cause val⟩
  else s.deliverNow k cause val pc

/-- A translation fault of an access (R301): inside a speculative transaction it aborts with cause fault and the
thread parks at the handler (R217). (DEDUCED: log entry 42.) -/
def State.takeFault (s : State) (k : Nat) (kind : FaultKind) (acc : Access) (va : Word) : State :=
  if (s.ctx k).speculative then s.startAbort k ⟨4, 0, .park kind acc va⟩
  else s.parkFault k kind acc va

/-! ### How an instruction ends -/

/-- The ways in which an instruction's meaning ends. -/
inductive Done where
  /-- It completes; the pc goes to the next word. -/
  | next (s : State)
  /-- It completes; the pc goes to an address. -/
  | goto (s : State) (pc : Word)
  /-- It waits and comes up to issue again. -/
  | stay (s : State)
  /-- It waits in a state that an event leaves. -/
  | wait (s : State) (run : Run)
  /-- It traps and has no other effect. -/
  | trap (cause : Cause) (val : Word)
  /-- Its access faults and it has no other effect. -/
  | fault (kind : FaultKind) (acc : Access) (va : Word)
  /-- Its transaction aborts. -/
  | abort (cause : BitVec 4) (code : BitVec 8)
  /-- Its access meets a dead agent (R328). -/
  | blot
  /-- The state is final as it stands. -/
  | final (s : State)

/-- The next word's address (R39). -/
def State.step8 (s : State) : State := s.updTh fun c => { c with pc := c.pc + 8, blocked := false, woken := false, joined := false, waitSince := none }

/-- What a meaning's end makes of the state s in which the instruction came up to issue. -/
def State.finish (s : State) : Done → Out
  | .next t => .next t.step8
  | .goto t pc => .next (t.updTh fun c => { c with pc := pc, blocked := false, woken := false, joined := false, waitSince := none })
  | .stay t => .next { t.updTh (fun c => { c with blocked := true }) with stalled := true }
  | .wait t run => .next { t.updTh (fun c => { c with run := run }) with stalled := true }
  | .trap c v => .next (s.deliver s.cur c v s.th.pc)
  | .fault kind acc va => .next (s.takeFault s.cur kind acc va)
  | .abort cause code => .next (s.startAbort s.cur ⟨cause, code, .handler⟩)
  | .blot => .next (if s.th.speculative then s.startAbort s.cur ⟨8, 0, .handler⟩ else s.halt s.cur)
  | .final t => .next t

/-! ### Coming up to issue (R29 to R31, R45) -/

/-- A source field: the register and its mode bit. -/
structure Src where
  reg : RegRef
  trap : Bool
  deriving DecidableEq, Repr

def sx (r : BitVec 6) (m : BitVec 1) : Src := ⟨.x r.toNat, m = 1⟩
def sv (r : BitVec 6) (m : BitVec 1) : Src := ⟨.v r.toNat, m = 1⟩
/-- A source without a mode bit is read under mode 0. -/
def sx0 (r : BitVec 6) : Src := ⟨.x r.toNat, false⟩
def sv0 (r : BitVec 6) : Src := ⟨.v r.toNat, false⟩
def dx (r : BitVec 6) : RegRef := .x r.toNat
def dv (r : BitVec 6) : RegRef := .v r.toNat
/-- n V registers from r. -/
def dvs (r : BitVec 6) (n : Nat) : List RegRef := (List.range n).map fun i => .v (r.toNat + i)
/-- n V registers from r, as sources under one mode bit. -/
def svs (r : BitVec 6) (n : Nat) (m : BitVec 1) : List Src := (List.range n).map fun i => ⟨.v (r.toNat + i), m = 1⟩
def svs0 (r : BitVec 6) (n : Nat) : List Src := (List.range n).map fun i => ⟨.v (r.toNat + i), false⟩

/-- The register waits for a command or post that the thread's own transaction holds, so nothing can fill it before
the commit (R220). (DEDUCED: log entry 43.) -/
def Ctx.heldReg (c : Ctx) (r : RegRef) : Bool :=
  match c.tx, r with
  | some t, .x n => t.held.any fun h => match h with
    | .cmd q id => (vat c.cmds q).any fun m => m.id = id && m.fn = 0x03 && !m.barq && m.reg = n
    | .post p => p.reg = n
  | _, _ => false

/-- The register that a load or a pop fills. -/
def LoadDst.reg : LoadDst → RegRef
  | .x r => .x r
  | .v r => .v r

/-- The thread waits for a register: where an outstanding pop fills it, since the pop was issued (R277). -/
def State.waitsFor (s : State) (r : RegRef) : State :=
  s.updTh fun c => { c with waitSince := (c.pops.find? fun p => p.dst.reg = r).map (·.since) }

/-- Applies R29 and R30, then the body. (DEDUCED: log entry 19.) -/
def State.gate (s : State) (srcs : List Src) (dsts : List RegRef) (body : State → Done) : Done :=
  let r := s.th.r
  match srcs.find? fun q => q.trap && r.fe q.reg ≠ .full with
  | some q => .trap .emptyRead (BitVec.ofNat 64 q.reg.num)
  | none =>
    match (srcs.map (·.reg)).find? fun q => r.fe q = .pending with
    | some q => if s.th.heldReg q then .trap .emptyRead (BitVec.ofNat 64 q.num) else .stay (s.waitsFor q)
    | none =>
      match (srcs.map (·.reg)).find? fun q => r.fe q = .idle with
      | some q => .trap .emptyRead (BitVec.ofNat 64 q.num)
      | none =>
        match dsts.find? fun q => r.fe q = .pending with
        | some q => if s.th.heldReg q then .trap .emptyRead (BitVec.ofNat 64 q.num) else .stay (s.waitsFor q)
        | none => body s

/-- An instruction of the scalar, memory, engine or system class: bit 0 of its predicate selects it whole (R31). -/
def State.whole (s : State) (sel : BitVec 3) (neg : BitVec 1) (srcs : List Src) (dsts : List RegRef)
    (body : State → Done) : Out :=
  s.finish (if (s.mask sel neg).getLsbD 0 then s.gate srcs dsts body else .next s)

/-- A vector instruction: its predicate selects lanes, and it is skipped when it selects none (R31). -/
def State.lanewise (s : State) (sel : BitVec 3) (neg : BitVec 1) (srcs : List Src) (dsts : List RegRef)
    (body : W32 → State → Done) : Out :=
  s.finish (if s.mask sel neg = 0 then .next s else s.gate srcs dsts (body (s.mask sel neg)))

/-- An instruction of majors 0x18 and 0x30, which are not predicated (R31). -/
def State.always (s : State) (srcs : List Src) (dsts : List RegRef) (body : State → Done) : Out :=
  s.finish (s.gate srcs dsts body)

/-- A privileged instruction traps PRIVILEGED before anything else when the thread is not in ASID 0 (R45, R291). -/
def State.privileged (s : State) (i : Instr) (rest : Out) : Out :=
  if s.th.asid = 0 then rest else s.finish (.trap .privileged (encode i))

/-! ### Lanes -/

/-- Makes a vector register of a function of the lane. -/
def lanesOf (f : Nat → W32) : Lanes := Vector.ofFn fun i => f i.val

/-- Selected lanes take the new value, the others keep the old (R81). -/
def blend (m : W32) (new old : Lanes) : Lanes := lanesOf fun i => if m.getLsbD i then vat new i else vat old i

/-- A word whose bit i is f i. -/
def bitsOf (f : Nat → Bool) : W32 := BitVec.ofNat 32 ((List.range 32).foldl (fun n i => n + if f i then 2 ^ i else 0) 0)

/-- Selected bits take the new value, the others keep the old (R81). -/
def blendBits (m new old : W32) : W32 := (new &&& m) ||| (old &&& ~~~m)

end Sys2Proof.Machine
end

