-- ==== Sys2Proof/Machine/Map.lean ====
section
/-! DEFINITION. Addresses: the physical map and home places (R16, R17, R174), the virtual map and the scratchpad
windows (R168 to R170), tiles and their homes (R198, R199). -/

namespace Sys2Proof.Machine

/-! ### The physical map (R16, R17, R174) -/

/-- What lies at a physical address. -/
inductive PaKind where
  | memory
  | absent
  | control
  deriving DecidableEq, Repr

def ddrBase : Nat := 0x40000000000
def controlBase : Nat := 0x3000000000000

/-- Installed bytes of the DDR5 tier: sixteen channels of one capacity (R15). -/
def State.ddrBytes (s : State) : Nat := 16 * vat s.mgmt.modules 0 * 2 ^ 30

def State.paKind (s : State) (pa : Nat) : PaKind :=
  if pa < 2 ^ 39 then .memory
  else if ddrBase ≤ pa && pa < ddrBase + s.ddrBytes then .memory
  else if controlBase ≤ pa then .control
  else .absent

/-- The home die of a physical address (R17). -/
def homeDie (pa : Nat) : Nat := if pa < 2 ^ 39 then pa / 2 ^ 36 / 2 else (pa - ddrBase) / 65536 % 4

/-- Five-bit chunks of an address from bit 7 up, combined by exclusive or (R174). -/
def chunkXor (pa : Nat) : Nat := (List.range 9).foldl (fun h k => h ^^^ (pa / 2 ^ (5 * k + 7) % 32)) 0

/-- The home slice of a physical address on its home die (R174). -/
def homeSlice (pa : Nat) : Nat :=
  32 * (if pa < 2 ^ 39 then pa / 2 ^ 36 % 2 else (pa - ddrBase) / 2 ^ 18 % 2) + chunkXor pa

/-! ### Virtual addresses (R168, R169) -/

def remoteBase : Nat := 0xFF0000000000
def reservedBase : Nat := 0xFF0200000000
def ownBase : Nat := 0xFFFF00000000

/-- The parts of the virtual space (R168). -/
inductive Region where
  | translated
  | remote (core slot a : Nat)
  | own (a : Nat)
  | bad
  deriving DecidableEq, Repr

def regionOf (va : Word) : Region :=
  let n := va.toNat
  if 2 ^ 48 ≤ n then .bad
  else if n < remoteBase then .translated
  else if n < reservedBase then .remote ((n - remoteBase) / 2 ^ 21) ((n - remoteBase) / 2 ^ 18 % 8) (n % 2 ^ 18)
  else if n < ownBase then .bad
  else .own (n - ownBase)

/-- The size of a claim in bytes (R170). -/
def claimBytes (claim : List Nat) : Nat := 32768 * claim.length

/-- The byte of the L1 arrays at local address a of a claim: core·2^18 + way·2^15 + byte of the way (R170). -/
def arrayByte (core : Nat) (claim : List Nat) (a : Nat) : Nat :=
  core * 2 ^ 18 + claim.getD (a / 32768) 0 * 32768 + a % 32768

/-! ### Tiles (R198, R199) -/

/-- The tile that a physical line belongs to: a declared tile's number, or 4096 + the number of its 512-byte block.
(DESIGN CHOICE: log entry 97.) -/
def State.tileOf (s : State) (line : Nat) : Nat :=
  match s.tiles.find? fun e => e.2.lines.contains line with
  | some e => e.1
  | none => 4096 + line / 4

/-- The slice that is a tile's home, as die·64 + slice (R199). -/
def State.tileHome (s : State) (t : Nat) : Nat :=
  if t < 4096 then match Tbl.get? s.tiles t with
    | some e => e.home
    | none => 0
  else homeDie ((t - 4096) * 512) * 64 + homeSlice ((t - 4096) * 512)

def State.tileDie (s : State) (t : Nat) : Nat := s.tileHome t / 64

/-! ### Poison bits of what is stored behind the arrays (R324, R328) -/

/-- A physical line is homed on an agent by its address: its home die, its home slice or that of its undeclared tile, its
quire or its stack (R17, R174, R199). -/
def Agent.homes (a : Agent) (line : Nat) : Bool :=
  let pa := line * 128
  match a with
  | .folio d => homeDie pa = d
  | .slice i => homeDie pa * 64 + homeSlice pa = i || homeDie pa * 64 + homeSlice (pa / 512 * 512) = i
  | .quire q => pa < 2 ^ 39 && pa / 2 ^ 36 = q
  | .stack q => pa < 2 ^ 39 && pa / 2 ^ 36 = q
  | .core _ => false
  | .ote => false

def PoisonBase.covers (p : PoisonBase) (line : Nat) : Bool := match p with
  | .agent a => a.homes line
  | .zeroed lo hi => lo ≤ line * 128 && line * 128 < hi

/-- The poison bit of a line as the newest of the bases that cover it has left it. -/
def State.baseBad (s : State) (line : Nat) : Bool := match s.poisonBase.find? fun p => p.covers line with
  | some (.agent _) => true
  | _ => false

/-- The poison bit of a line in its stack or in the DDR5 tier. -/
def State.storeBad (s : State) (line : Nat) : Bool := s.poison.contains line != s.baseBad line

/-- Sets or clears the poison bit of a line in its stack or in the DDR5 tier. -/
def State.setStoreBad (s : State) (line : Nat) (b : Bool) : State :=
  if s.storeBad line = b then s
  else { s with poison := if s.poison.contains line then s.poison.filter (· ≠ line) else s.poison ++ [line] }

end Sys2Proof.Machine
end

