-- ==== Sys2Proof/Machine/Cache.lean ====
section
/-! DEFINITION. The arrays that hold lines: the L1 of each core with its virtual tags (R172, R175, R299, R300), the L2
slices with retention and the versioned area (R13, R175 to R178, R212, R294), and the quires (R14). The arrays hold which
lines are where; the bytes are those of `State.mem`. -/

namespace Sys2Proof.Machine

/-! ### Replacement (R14, R175) -/

/-- The way that is given up among lines of a set, the most recently used first: the least recently used of the first
victims, else of the ordinary lines, else of the last victims (R175). -/
def victimWay (es : List (Nat × Victim)) : Option Nat :=
  let lru := fun r => ((es.filter fun e => e.2 = r).getLast?).map (·.1)
  ((lru .first).orElse fun _ => lru .normal).orElse fun _ => lru .last

/-- The way that a line takes among those it may take: one that holds no line of the set, else the victim's. (DEDUCED: log
entry 114.) -/
def chooseWay (ways : List Nat) (es : List (Nat × Victim)) : Option Nat :=
  (ways.find? fun w => !(es.any fun e => e.1 = w)).orElse fun _ => victimWay (es.filter fun e => ways.contains e.1)

/-- The rank that a hint gives a line in an L1 (R175). -/
def rankL1 (hint : Nat) : Victim := if hint = 1 || hint = 4 then .first else if hint = 3 then .last else .normal

/-- The rank that a hint gives a line in a slice (R175). -/
def rankL2 (hint : Nat) : Victim := if hint = 1 || hint = 2 || hint = 4 then .first else .normal

/-! ### Quires (R14, R294) -/

def quireOf (line : Nat) : Nat := line * 128 / 2 ^ 36
/-- The set of a line in its quire: bits [26:7] of its offset in the stack. -/
def quireSet (line : Nat) : Nat := line % 2 ^ 20
def quireKey (line : Nat) : Nat := quireOf line * 2 ^ 20 + quireSet line

/-- The ways of a mask. -/
def maskWays (m : Half) : List Nat := (List.range 16).filter fun w => m.getLsbD w

def State.partOf (s : State) (asid : BitVec 12) : Partition := vat s.parts (s.space asid.toNat).partition.toNat

/-- A core lies in the partition of an address space (R294). -/
def State.inPartition (s : State) (asid core : Nat) : Bool :=
  (vat s.parts (s.space asid).partition.toNat).clusters.getLsbD (clusterOf core)

/-- The lines of a quire that share a set with a line. -/
def State.quireLines (s : State) (line : Nat) : List QuireLine := Tbl.getD s.quires (quireKey line) []
def State.setQuire (s : State) (line : Nat) (l : List QuireLine) : State := { s with quires := Tbl.set s.quires (quireKey line) l }

/-- The copy of a line that its quire holds. -/
def State.quireCopy (s : State) (line : Nat) : Option QuireLine := (s.quireLines line).find? fun e => e.line = line

/-- An access of a line at its quire for an address space: a hit is served from any way, a miss replaces the least
recently used line among the ways of QMASK (R14). `write` is the poison bit of a line that a slice writes back, which the
quire keeps, and what it replaces goes to the stack with its own (R324). Lines of the DDR5 tier are in no quire. -/
def State.quireAccess (s : State) (line : Nat) (asid : BitVec 12) (write : Option Bool) : State :=
  let stored := match write with
    | some b => s.setStoreBad line b
    | none => s
  if 2 ^ 39 ≤ line * 128 then stored
  else
    let set := s.quireLines line
    match s.quireCopy line with
    | some e =>
      s.setQuire line ({ e with dirty := e.dirty || write.isSome, bad := write.getD e.bad } :: set.filter fun x => x.line ≠ line)
    | none =>
      match chooseWay (maskWays (s.partOf asid).qmask) (set.map fun e => (e.way, .normal)) with
      | some w =>
        let s' := (set.filter fun x => x.way = w && x.dirty).foldl (fun s x => s.setStoreBad x.line x.bad) s
        s'.setQuire line (⟨line, w, write.isSome, write.getD (s.storeBad line)⟩ :: set.filter fun x => x.way ≠ w)
      | none => stored

/-! ### Slices (R13, R173, R176, R294) -/

/-- The lines of slice sl of die d. -/
def State.slice (s : State) (d sl : Nat) : List SliceLine := Tbl.getD (s.die d).slices sl []
def State.setSlice (s : State) (d sl : Nat) (l : List SliceLine) : State :=
  s.updDie d fun v => { v with slices := if l.isEmpty then Tbl.erase v.slices sl else Tbl.set v.slices sl l }

/-- The lines of a slice that stand in the way of a line that may take some ways: those of its set, but while one of these ways
holds no line of the slice, whatever its set, all of them. (DESIGN CHOICE: log entry 115.) -/
def sliceSetOf (ls : List SliceLine) (ways : List Nat) (line : Nat) : List SliceLine :=
  if ways.any fun w => !(ls.any fun e => e.way = w) then ls
  else ls.filter fun e => Config.sliceSet e.line % 2048 = Config.sliceSet line % 2048

/-- The ways of a die's slices that retention reserves (R176). -/
def Die.reserved (v : Die) : List Nat := v.retention.toList.flatMap fun q => match q with
  | some x => x.ways
  | none => []

def Retention.holds (q : Retention) (line : Nat) : Bool := q.base ≤ line * 128 && line * 128 < q.base + q.len

/-- The ways that a line may take in a slice of a die for an address space: those that its retention register reserves, else
those of L2MASK that no register reserves (R176, R294). -/
def State.sliceWays (s : State) (d line : Nat) (asid : BitVec 12) : List Nat :=
  match (s.die d).retention.toList.findSome? fun q => q.bind fun x => if x.holds line then some x.ways else none with
  | some ws => ws
  | none => (maskWays (s.partOf asid).l2mask).filter fun w => !(s.die d).reserved.contains w

/-- A line leaves a slice for an access of an address space: one that was written goes to the quire with its poison bit.
(DEDUCED: log entry 134.) -/
def State.sliceOut (s : State) (e : SliceLine) (asid : BitVec 12) : State :=
  if e.dirty then s.quireAccess e.line asid (some e.bad) else s

/-- A new line of a slice takes a way; what it replaces leaves. None where it may take no way. -/
def State.sliceTake (s : State) (d sl : Nat) (ways : List Nat) (e : SliceLine) (asid : BitVec 12) : Option State :=
  let ls := s.slice d sl
  let set := sliceSetOf ls ways e.line
  let held := (set.filter fun x => x.spec.isSome).map (·.way)
  let plain := set.filter fun x => x.spec.isNone
  (chooseWay (ways.filter fun w => !held.contains w) (plain.map fun x => (x.way, x.rank))).map fun w =>
    match plain.find? fun x => x.way = w with
    | some v => (s.setSlice d sl ({ e with way := w } :: ls.erase v)).sliceOut v asid
    | none => s.setSlice d sl ({ e with way := w } :: ls)

/-- The copy of a line that a slice holds. -/
def State.sliceCopy (s : State) (d sl line : Nat) : Option SliceLine := (s.slice d sl).find? fun e => e.line = line && e.spec.isNone

/-- A line is put into a slice with a poison bit, or moves to the front of its set (R175). -/
def State.slicePut (s : State) (d sl line : Nat) (asid : BitVec 12) (rank : Victim) (dirty bad : Bool) : State :=
  match s.sliceCopy d sl line with
  | some e => s.setSlice d sl ({ e with rank := rank, dirty := e.dirty || dirty, bad := bad } ::
      (s.slice d sl).filter fun x => !(x.line = line && x.spec.isNone))
  | none => (s.sliceTake d sl (s.sliceWays d line asid) ⟨line, 0, rank, dirty, none, bad⟩ asid).getD s

/-- A slice holds a line. -/
def State.sliceHas (s : State) (d sl line : Nat) : Bool := (s.sliceCopy d sl line).isSome

/-! ### Poison bits of the arrays (R324) -/

/-- The copy of a line that its home slice holds. -/
def State.homeCopy (s : State) (line : Nat) : Option SliceLine := s.sliceCopy (homeDie (line * 128)) (homeSlice (line * 128)) line

/-- The poison bit with which a line comes from behind its home slice: that of the quire's copy, else of the stack's or the
DDR5 tier's. -/
def State.behindBad (s : State) (line : Nat) : Bool := match s.quireCopy line with
  | some e => e.bad
  | none => s.storeBad line

/-- The poison bit of a line at its home. -/
def State.lineBad (s : State) (line : Nat) : Bool := match s.homeCopy line with
  | some e => e.bad
  | none => s.behindBad line

/-- Changes the copies of a line in a slice. -/
def State.mapSlice (s : State) (d sl line : Nat) (f : SliceLine → SliceLine) : State :=
  s.setSlice d sl ((s.slice d sl).map fun e => if e.line = line && e.spec.isNone then f e else e)

/-- Sets or clears the poison bit of a line behind its home slice, as a write there (`wrote`) or as an error found there. -/
def State.setBehind (s : State) (line : Nat) (b wrote : Bool) : State := match s.quireCopy line with
  | some _ => s.setQuire line ((s.quireLines line).map fun e =>
      if e.line = line then { e with bad := b, dirty := e.dirty || wrote } else e)
  | none => s.setStoreBad line b

/-- The same at its home: in the slice that holds it, else behind it. -/
def State.markBad (s : State) (line : Nat) (b wrote : Bool) : State :=
  if s.lineBad line = b then s
  else match s.homeCopy line with
    | some _ => s.mapSlice (homeDie (line * 128)) (homeSlice (line * 128)) line fun e => { e with bad := b, dirty := e.dirty || wrote }
    | none => s.setBehind line b wrote

/-- A write of a line at its home sets or clears its poison bit. -/
def State.setBad (s : State) (line : Nat) (b : Bool) : State := s.markBad line b true

def State.poisonLines (s : State) (ls : List Nat) : State := ls.foldl (fun s l => s.setBad l true) s
def State.cleanLines (s : State) (ls : List Nat) : State := ls.foldl (fun s l => s.setBad l false) s

/-! ### Lookups at the home slice (R177, R178) -/

def satInc {n : Nat} (b : BitVec n) : BitVec n := if b = BitVec.allOnes n then b else b + 1

/-- The entry of a die's hotness table that a granule has or takes: its number and contents. -/
def hotEntry (hot : Tbl HotEntry) (g : Nat) : Nat × HotEntry :=
  let idx := (List.range 16).map fun i => g % 1024 * 16 + i
  let at' := fun i => Tbl.getD hot i HotEntry.cleared
  match idx.find? fun i => (at' i).valid && (at' i).granule.toNat = g with
  | some i => (i, at' i)
  | none =>
    let i := idx.foldl (fun b i => if (at' i).total < (at' b).total then i else b) (g % 1024 * 16)
    (i, { HotEntry.cleared with valid := true, granule := BitVec.ofNat 34 g })

/-- Counts a lookup of a line in the retention registers of its home die (R177). -/
def State.countRetained (s : State) (line : Nat) (hit : Bool) : State :=
  s.updDie (homeDie (line * 128)) fun v =>
    match (List.range 8).find? fun i => (vat v.retention i).any fun x => x.holds line with
    | some i =>
      if hit then { v with rethit := vput v.rethit i (vat v.rethit i + 1) }
      else { v with retmiss := vput v.retmiss i (vat v.retmiss i + 1) }
    | none => v

/-- Counts a miss of a line at its home slice in the hotness table, for a requester's quadrant where it has one (R178). -/
def State.countMiss (s : State) (line : Nat) (core : Option Nat) : State :=
  s.updDie (homeDie (line * 128)) fun v =>
    let e := hotEntry v.hot (line * 128 / 65536)
    let q := match core with
      | some c => vput e.2.q (quadrantOf c) (satInc (vat e.2.q (quadrantOf c)))
      | none => e.2.q
    { v with hot := Tbl.set v.hot e.1 { e.2 with total := satInc e.2.total, q := q } }

/-- A line is in its home slice. -/
def State.homeHas (s : State) (line : Nat) : Bool := (s.homeCopy line).isSome

/-- A lookup of a line at its home slice, for a core and an address space, with a hint, reading or writing the line: a miss
is counted, is answered by the quire or the backing store, and brings the line into the slice (R173, R175, R177, R178). -/
def State.lookup (s : State) (line : Nat) (core : Option Nat) (asid : BitVec 12) (hint : Nat) (write : Bool) : State :=
  let hit := s.homeHas line
  let s := s.countRetained line hit
  let s := if hit then s else (s.countMiss line core).quireAccess line asid none
  s.slicePut (homeDie (line * 128)) (homeSlice (line * 128)) line asid (rankL2 hint) write (s.lineBad line)

/-- Lookups of several lines. -/
def State.lookups (s : State) (lines : List Nat) (core : Option Nat) (asid : BitVec 12) (write : Bool) : State :=
  lines.foldl (fun s l => if s.paKind (l * 128) = .memory then s.lookup l core asid 0 write else s) s

/-! ### The L1 of a core (R172, R175, R206, R299, R300) -/

def State.l1 (s : State) (c t : Nat) : L1Tile := Tbl.getD (s.core c).l1 t L1Tile.absent
def State.updL1 (s : State) (c t : Nat) (f : L1Tile → L1Tile) : State :=
  s.updCore c fun v => { v with l1 := Tbl.set v.l1 t (f (Tbl.getD v.l1 t L1Tile.absent)) }

/-- The copy of a line that an L1 holds, but for speculative ones. -/
def Core.copyOf (c : Core) (line : Nat) : Option L1Line := c.lines.find? fun e => e.line = line && e.spec.isNone

/-- An L1 holds lines of a tile. -/
def State.holdsTile (s : State) (c t : Nat) : Bool := (s.core c).lines.any fun e => e.spec.isNone && s.tileOf e.line = t

/-- A core gives a tile up: its lines of the tile are invalid. -/
def State.dropL1 (s : State) (c t : Nat) : State :=
  let tileOf := s.tileOf
  s.updCore c fun v => { v with l1 := Tbl.erase v.l1 t, lines := v.lines.filter fun e => e.spec.isSome || tileOf e.line ≠ t }

/-- A core's state of a tile lets it serve loads of the lines that it holds (R206). -/
def State.l1Serves (s : State) (c t : Nat) : Bool :=
  match (s.l1 c t).st with
  | .l x => s.gtOf (dieOf c) < x
  | .e | .m | .o => true
  | .i | .u => false

/-- A load of a line hits in a core's L1 (R206). -/
def State.l1Hit (s : State) (c line : Nat) : Bool := ((s.core c).copyOf line).isSome && s.l1Serves c (s.tileOf line)

/-- The lease that slice sl of die d holds on tile t (R202). -/
def State.sliceLeaseOf (s : State) (d sl t : Nat) : Word := Tbl.getD (s.die d).sliceLease (t * 64 + sl) 0

/-- The requester slice of a line on core c's die holds it under a lease that runs (R202). -/
def State.sliceHolds (s : State) (c t line : Nat) : Bool :=
  let d := dieOf c
  let sl := homeSlice (line * 128)
  s.tileDie t ≠ d && s.gtOf d < s.sliceLeaseOf d sl t && s.sliceHas d sl line && !s.isDead (.slice (d * 64 + sl))

/-- A store of a line is performed in the core's L1 without its home (R206). -/
def State.l1Owns (s : State) (c line : Nat) : Bool :=
  match (s.l1 c (s.tileOf line)).st with
  | .e | .m => true
  | _ => false

def VTag.grants (t : VTag) : Access → Bool
  | .load => t.rd
  | .store => t.w
  | .atomic => t.rd && t.w
  | .fetch => t.x

/-- The line of an L1 that hits for an access by virtual address, its bits allowing it: such an access needs no
translation (R299). -/
def State.tagHit (s : State) (c : Nat) (asid : BitVec 12) (acc : Access) (va : Nat) : Option L1Line :=
  (s.core c).lines.find? fun e => e.spec.isNone && e.tag.asid = asid && e.tag.vline = va / 128 && e.tag.grants acc &&
    (match acc with
      | .load => s.l1Serves c (s.tileOf e.line)
      | .fetch => s.l1Serves c (s.tileOf e.line)
      | _ => s.l1Owns c e.line)

/-! ### Dead agents (R328) and the poison bits of copies (R324) -/

/-- The answer to an access of a line would come from a dead agent: its folio, home slice, quire or stack, its
tile's home, or a lost core that holds the line dirty. (DESIGN CHOICE: log entry 93.) -/
def State.lineDead (s : State) (line : Nat) : Bool :=
  !s.dead.isEmpty &&
    let pa := line * 128
    let t := s.tileOf line
    s.isDead (.folio (homeDie pa)) || s.isDead (.slice (homeDie pa * 64 + homeSlice pa)) ||
    (pa < 2 ^ 39 && (s.isDead (.quire (pa / 2 ^ 36)) || s.isDead (.stack (pa / 2 ^ 36)))) ||
    s.isDead (.folio (s.tileDie t)) || s.isDead (.slice (s.tileHome t)) ||
    (match (s.dir t).st with
      | .e | .m | .o => s.coreLost (s.dir t).owner && (s.l1 (s.dir t).owner t).dirty.contains line
      | _ => false)

/-- The poison bit of a line as a core's L1 receives it: from the requester slice that serves it, else from its home. -/
def State.comesBad (s : State) (c line : Nat) : Bool :=
  if s.sliceHolds c (s.tileOf line) line then (s.sliceCopy (dieOf c) (homeSlice (line * 128)) line).any (·.bad) else s.lineBad line

/-- The poison bit with which a core's load of a cached line meets it: that of the copy that hits, else that with which the line
comes. -/
def State.copyBad (s : State) (c line : Nat) : Bool := match (s.core c).copyOf line with
  | some e => if s.l1Serves c (s.tileOf line) then e.bad else s.comesBad c line
  | none => s.comesBad c line

/-- Stores into lines of a core's own copies write them whole: the copies lose their poison bits (R180, R324). -/
def State.cleanCopies (s : State) (c : Nat) (ls : List Nat) : State :=
  if ls.isEmpty then s
  else s.updCore c fun v => { v with lines := v.lines.map fun e => if e.spec.isNone && ls.contains e.line then { e with bad := false } else e }

/-- A dirty line of a core reaches its home with its poison bit, unless the home is dead (R324, R328). -/
def State.dirtyHome (s : State) (c line : Nat) : State := match (s.core c).copyOf line with
  | some e => if s.lineDead line then s else s.setBad line e.bad
  | none => s

/-- The ways of a core that are not pinned, ascending. -/
def Core.freeWays (c : Core) : List Nat := (List.range 8).filter fun w => vat c.ways w = .cache

/-- The lines of an L1 that share a set with a tag; while the L1 holds fewer lines than a set has unpinned ways, each of
its lines has a way of its own. (DESIGN CHOICE: log entry 115.) -/
def Core.setOf (c : Core) (t : VTag) : List L1Line :=
  if c.lines.length < c.freeWays.length then c.lines
  else c.lines.filter fun e => Config.l1Set e.tag.asid.toNat e.tag.vline % 256 = Config.l1Set t.asid.toNat t.vline % 256

/-- The slice that holds the versioned lines of a core: slice x in rows 0 to 15 and 32 + x below (R212). -/
def localSlice (core : Nat) : Nat := 32 * (core % 1024 / 32 / 16) + core % 32

/-- The speculative lines that share a slice's set with a line. -/
def versionedOf (ls : List SliceLine) (line : Nat) : List SliceLine :=
  let vs := ls.filter fun e => e.spec.isSome
  if vs.length < 4 then vs else vs.filter fun e => Config.sliceSet e.line % 2048 = Config.sliceSet line % 2048

/-- A speculative line moves to the versioned area, of at most 4 ways of a set, among the ways that the line may take
(R176, R212, R294); none where it has no room. -/
def State.toVersioned (s : State) (core k line : Nat) (bad : Bool) : Option State :=
  let d := dieOf core
  let sl := localSlice core
  if 4 ≤ (versionedOf (s.slice d sl) line).length then none
  else s.sliceTake d sl (s.sliceWays d line (s.ctx k).asid) ⟨line, 0, .normal, true, some k, bad⟩ (s.ctx k).asid

/-- The same, but where it has no room its transaction aborts with cause capacity (R212). -/
def State.keepVersioned (s : State) (core k line : Nat) (bad : Bool) : State :=
  match s.toVersioned core k line bad with
  | some t => t
  | none => if (s.ctx k).abort.isSome || !(s.ctx k).speculative then s else s.startAbort k ⟨2, 0, .handler⟩

/-- The copy of a line in the versioned area of a context. -/
def State.versionedCopy (s : State) (core k line : Nat) : Option SliceLine :=
  (s.slice (dieOf core) (localSlice core)).find? fun e => e.line = line && e.spec = some k

/-- A line of the versioned area comes back into the L1 (R212). -/
def State.fromVersioned (s : State) (core k line : Nat) : State :=
  if (s.versionedCopy core k line).isNone then s
  else s.setSlice (dieOf core) (localSlice core)
    ((s.slice (dieOf core) (localSlice core)).filter fun e => !(e.line = line && e.spec = some k))

/-- The poison bit of a context's speculative copy of a line, in the L1 or in the versioned area (R321, R324). -/
def State.specBad (s : State) (k line : Nat) : Bool :=
  ((s.core (coreOf k)).lines.any fun e => e.line = line && e.spec = some k && e.bad) ||
    (s.versionedCopy (coreOf k) k line).any (·.bad)

/-- Ways of every slice of a die are reserved: the lines of other addresses in them are written back and invalidated
(R176); a speculative one moves to another way. -/
def State.clearWays (s : State) (d : Nat) (ws : List Nat) (q : Retention) (asid : BitVec 12) : State :=
  (s.die d).slices.foldl (fun s e =>
    let out := e.2.filter fun x => ws.contains x.way && !q.holds x.line
    out.foldl (fun s x => match x.spec with
      | some k => s.keepVersioned (coreOf k) k x.line x.bad
      | none => s.sliceOut x asid) (if out.isEmpty then s else s.setSlice d e.1 (e.2.filter fun x => !out.contains x))) s

/-- A line leaves an L1: a speculative one moves to the versioned area, and its transaction aborts with cause capacity where
that is full (R170, R212); a dirty one goes to its home, and the last line of a tile that the core owns gives the tile up
(R206). -/
def State.evictLine (s : State) (core : Nat) (e : L1Line) : State :=
  let s := (if e.spec.isNone && (s.l1 core (s.tileOf e.line)).dirty.contains e.line then s.dirtyHome core e.line else s).updCore core fun v =>
    { v with lines := v.lines.erase e }
  match e.spec with
  | some k => s.keepVersioned core k e.line e.bad
  | none =>
    let t := s.tileOf e.line
    match (s.l1 core t).st with
    | .l _ => if s.holdsTile core t then s else s.dropL1 core t
    | .e | .m | .o =>
      if s.holdsTile core t then
        if (s.l1 core t).dirty.contains e.line then
          (s.lookup e.line (some core) e.tag.asid 0 true).updL1 core t fun v => { v with dirty := v.dirty.filter (· ≠ e.line) }
        else s
      else s.cause .ownerWriteback { core := core, line := e.line, tag := e.tag }
    | .i | .u => s

/-- The poison bit of a line that is new in an L1: of a speculative copy, that of the versioned area's. -/
def State.arrivesBad (s : State) (core line : Nat) : Option Nat → Bool
  | some k => (s.versionedCopy core k line).any (·.bad)
  | none => s.comesBad core line

/-- A line comes into an L1, or is used there: it is the most recently used, under the tag with which it was named last
(R175, R300). A speculative line that the versioned area holds comes from there (R212). -/
def State.bringL1 (s : State) (core line : Nat) (tag : VTag) (hint : Nat) (spec : Option Nat) : State :=
  let c := s.core core
  let rank := rankL1 hint
  match c.lines.find? fun e => e.line = line && e.spec = spec with
  | some e =>
    s.updCore core fun v => { v with lines := { e with tag := tag, rank := rank } :: v.lines.erase e }
  | none =>
    let set := c.setOf tag
    match chooseWay c.freeWays (set.map fun e => (e.way, e.rank)) with
    | none => s
    | some w =>
      let bad := s.arrivesBad core line spec
      let s := match spec with
        | some k => s.fromVersioned core k line
        | none => s
      let s := match set.find? fun e => e.way = w with
        | some v => s.evictLine core v
        | none => s
      s.updCore core fun v => { v with lines := ⟨tag, line, w, rank, spec, bad⟩ :: v.lines }

/-- A line that is in an L1 is used: it becomes the most recently used. -/
def State.useL1 (s : State) (core line : Nat) (tag : VTag) (hint : Nat) : State :=
  if ((s.core core).copyOf line).isSome then s.bringL1 core line tag hint none else s

end Sys2Proof.Machine
end

