-- ==== Sys2Proof/Machine/Flags.lean ====
section
/-! DEFINITION. Floating formats (R58, R59), exact values, the rounding modes (R63, R64), the results at the edges of
the formats (R66 to R69), the flags they raise (R70), conversions (R72), and the fixed trees (R76, R77). -/

namespace Sys2Proof.Machine

/-! ### Formats (R58) -/

inductive FmtKind where
  | ieee
  | e4m3
  | e2m1
  deriving DecidableEq, Repr

/-- A floating format: precision (mantissa bits + 1), exponent bits, bias. -/
structure Fmt where
  p : Nat
  eb : Nat
  bias : Nat
  kind : FmtKind
  deriving DecidableEq, Repr

def fmtF32 : Fmt := ⟨24, 8, 127, .ieee⟩
def fmtBF16 : Fmt := ⟨8, 8, 127, .ieee⟩
def fmtF16 : Fmt := ⟨11, 5, 15, .ieee⟩
def fmtE4M3 : Fmt := ⟨4, 4, 7, .e4m3⟩
def fmtE5M2 : Fmt := ⟨3, 5, 15, .ieee⟩
def fmtE2M1 : Fmt := ⟨2, 2, 1, .e2m1⟩

/-- The format of a type code (R42, R58). -/
def fmtOf (t : BitVec 5) : Fmt :=
  match t.toNat with
  | 0x0D => fmtBF16
  | 0x0E => fmtF16
  | 0x0F | 0x11 => fmtE4M3
  | 0x10 => fmtE5M2
  | 0x12 => fmtE2M1
  | _ => fmtF32

def Fmt.width (f : Fmt) : Nat := f.p + f.eb
def Fmt.man (f : Fmt) : Nat := f.p - 1
def Fmt.top (f : Fmt) : Nat := 2 ^ f.eb - 1
def Fmt.signBit (f : Fmt) (neg : Bool) : Nat := if neg then 2 ^ (f.width - 1) else 0
/-- The exponent of the unit of the subnormals. -/
def Fmt.qmin (f : Fmt) : Int := 1 - (f.bias : Int) - f.man
/-- The largest finite magnitude's exponent field. -/
def Fmt.maxField (f : Fmt) : Nat := if f.kind = .ieee then f.top - 1 else f.top
/-- The largest finite magnitude's significand. -/
def Fmt.maxSig (f : Fmt) : Nat := if f.kind = .e4m3 then 2 ^ f.p - 2 else 2 ^ f.p - 1
/-- The largest finite magnitude's code without its sign. -/
def Fmt.maxCode (f : Fmt) : Nat := f.maxField * 2 ^ f.man + (f.maxSig - 2 ^ f.man)
/-- The exponent of the unit of the largest finite magnitude. -/
def Fmt.maxUnit (f : Fmt) : Int := (f.maxField : Int) - f.bias - f.man

/-! ### Values -/

/-- A decoded value: a NaN with its sign, its payload in the 23 bits of FP32 and whether it is signalling; an
infinity; or the number (−1)^neg · m · 2^e. -/
inductive FVal where
  | nan (neg : Bool) (pay : Nat) (sig : Bool)
  | inf (neg : Bool)
  | fin (neg : Bool) (m : Nat) (e : Int)
  deriving DecidableEq, Repr

/-- The value of a code (R58, R59). -/
def Fmt.decode (f : Fmt) (n : Nat) : FVal :=
  let neg := n.testBit (f.width - 1)
  let e := n / 2 ^ f.man % 2 ^ f.eb
  let m := n % 2 ^ f.man
  if f.kind = .ieee && e = f.top then
    if m = 0 then .inf neg else .nan neg (m * 2 ^ (23 - f.man)) (!m.testBit (f.man - 1))
  else if f.kind = .e4m3 && e = f.top && m = 2 ^ f.man - 1 then .nan neg 0x400000 false
  else if e = 0 then .fin neg m f.qmin
  else .fin neg (2 ^ f.man + m) ((e : Int) - f.bias - f.man)

def FVal.isNan : FVal → Bool
  | .nan _ _ _ => true
  | _ => false
def FVal.isSig : FVal → Bool
  | .nan _ _ s => s
  | _ => false
def FVal.isInf : FVal → Bool
  | .inf _ => true
  | _ => false
def FVal.isZero : FVal → Bool
  | .fin _ 0 _ => true
  | _ => false
def FVal.neg : FVal → Bool
  | .nan s _ _ => s
  | .inf s => s
  | .fin s _ _ => s
def FVal.flip : FVal → FVal
  | .nan s p g => .nan (!s) p g
  | .inf s => .inf (!s)
  | .fin s m e => .fin (!s) m e

/-- The canonical positive NaN (R58). -/
def FVal.canon : FVal := .nan false 0x400000 false

/-- The code of a NaN in a format, quieted (R68 rules 1 to 4). -/
def Fmt.nanCode (f : Fmt) (neg : Bool) (pay : Nat) : Nat :=
  f.signBit neg +
    match f.kind with
    | .e4m3 => 0x7F
    | _ => if f.width = 8 then 0x7E
      else f.top * 2 ^ f.man + ((pay / 2 ^ (23 - f.man)) ||| 2 ^ (f.man - 1))

def Fmt.infCode (f : Fmt) (neg : Bool) : Nat := f.signBit neg + f.top * 2 ^ f.man

/-! ### Exact values and rounding (R63, R64) -/

/-- (−1)^neg · (m + θ) · 2^e, with 0 < θ < 1 exactly when `sticky` is set. -/
structure Exact where
  neg : Bool
  m : Nat
  e : Int
  sticky : Bool
  deriving DecidableEq, Repr

def bitLen (n : Nat) : Nat := if n = 0 then 0 else Nat.log2 n + 1

/-- The flags of FPSTAT [4:0] (R33). -/
def flagNV : BitVec 5 := 1
def flagDZ : BitVec 5 := 2
def flagOF : BitVec 5 := 4
def flagUF : BitVec 5 := 8
def flagNX : BitVec 5 := 16

/-- Whether the neighbour away from zero is chosen (R63, R64): the part of the magnitude below the unit is
rem / 2^sh, with more below it when `sticky`; `odd` is the last bit of the neighbour toward zero and u the random
draw. -/
def roundsUp (mode : Nat) (neg odd : Bool) (rem sh : Nat) (sticky : Bool) (u : Nat) : Bool :=
  if rem = 0 && !sticky then false
  else match mode with
    | 0 => 2 ^ sh < 2 * rem || (2 * rem = 2 ^ sh && (sticky || odd))
    | 1 => false
    | 2 => !neg
    | 3 => neg
    | _ => u < rem * 2 ^ 32 / 2 ^ sh

/-- Rounds a magnitude to a multiple of 2^q: the multiple, and whether it differs from the exact value. -/
def Exact.roundAt (x : Exact) (mode : Nat) (q : Int) (u : Nat) : Nat × Bool :=
  if q ≤ x.e then (x.m * 2 ^ (x.e - q).toNat, x.sticky)
  else
    let sh := (q - x.e).toNat
    let lo := x.m / 2 ^ sh
    let rem := x.m % 2 ^ sh
    (if roundsUp mode x.neg (lo % 2 = 1) rem sh x.sticky u then lo + 1 else lo, rem ≠ 0 || x.sticky)

/-- The unit of precision p for a magnitude, the exponent range unbounded. -/
def Exact.unit (x : Exact) (p : Nat) : Int := x.e + bitLen x.m - p

/-- a·2^i < b·2^j. -/
def ltScaled (a : Nat) (i : Int) (b : Nat) (j : Int) : Bool :=
  if i ≤ j then decide (a < b * 2 ^ (j - i).toNat) else decide (a * 2 ^ (i - j).toNat < b)

/-- The result of an overflow (R66). `hold` says that the destination saturates. -/
def Fmt.overflow (f : Fmt) (mode : Nat) (hold neg : Bool) : Nat :=
  let big := f.signBit neg + f.maxCode
  let out := if f.kind = .e4m3 then f.nanCode neg 0 else f.infCode neg
  if hold then big
  else match mode with
    | 1 => big
    | 2 => if neg then big else out
    | 3 => if neg then out else big
    | _ => out

/-- The code of q·2^unit, q below 2^(p+1) with q·2^unit representable. -/
def Fmt.pack (f : Fmt) (neg : Bool) (q : Nat) (unit : Int) : Nat :=
  let r := if q = 2 ^ f.p then (2 ^ f.man, unit + 1) else (q, unit)
  f.signBit neg +
    if r.1 < 2 ^ f.man then r.1
    else (r.2 + f.bias + f.man).toNat * 2 ^ f.man + (r.1 - 2 ^ f.man)

/-- Rounds an exact value into a format (R63, R66, R67): the code and the flags. (DEDUCED: log entry 11.) -/
def Fmt.round (f : Fmt) (mode : Nat) (hold : Bool) (x : Exact) (u : Nat) : Nat × BitVec 5 :=
  if x.m = 0 && !x.sticky then (f.signBit x.neg, 0)
  else
    let unit := x.unit f.p
    let free := x.roundAt mode unit u
    if ltScaled f.maxSig f.maxUnit free.1 unit then (f.overflow mode hold x.neg, flagOF ||| flagNX)
    else
      let unit := max unit f.qmin
      let r := x.roundAt mode unit u
      let tiny := ltScaled free.1 (x.unit f.p) (2 ^ f.man) f.qmin
      (f.pack x.neg r.1 unit, (if r.2 then flagNX else 0) ||| if r.2 && tiny then flagUF else 0)

/-- What an operation gives before it is put into its destination. -/
inductive FRes where
  | val (v : FVal) (fl : BitVec 5)
  | num (x : Exact) (fl : BitVec 5)
  deriving DecidableEq, Repr

/-- Whether a destination saturates: the 8-bit formats unless `.nsat`, and E2M1 (R66). -/
def Fmt.holds (f : Fmt) (nsat : Bool) : Bool := f.kind = .e2m1 || (f.width = 8 && !nsat)

/-- Puts a result into a format. An infinite value that goes to E4M3 under `.nsat` becomes NaN with OF and NX in every rounding
mode (R66). (DESIGN CHOICE: log entry 136.) -/
def FRes.put (f : Fmt) (mode : Nat) (nsat : Bool) (u : Nat) : FRes → Nat × BitVec 5
  | .val (.nan s p _) fl => (f.nanCode s p, fl)
  | .val (.inf s) fl =>
    if f.holds nsat then (f.signBit s + f.maxCode, fl ||| flagOF ||| flagNX)
    else if f.kind = .e4m3 then (f.nanCode s 0, fl ||| flagOF ||| flagNX)
    else (f.infCode s, fl)
  | .val (.fin s m e) fl =>
    let r := f.round mode (f.holds nsat) ⟨s, m, e, false⟩ u
    (r.1, fl ||| r.2)
  | .num x fl =>
    let r := f.round mode (f.holds nsat) x u
    (r.1, fl ||| r.2)

/-! ### The thread's rounding state -/

/-- STOCHSEED [31:0] and the flags raised so far. -/
structure Fp where
  seed : W32
  flags : BitVec 5
  deriving DecidableEq, Repr

/-- One step of the LFSR (R64). -/
def lfsrStep (s : W32) : W32 := if s.getLsbD 0 then (s >>> 1) ^^^ 0x80200003 else s >>> 1

/-- A result that is rounded in stochastic mode takes one step (R64). -/
def Fp.draw (e : Fp) (mode : Nat) : Fp := if mode = 4 then { e with seed := lfsrStep e.seed } else e

def Fp.raise (e : Fp) (fl : BitVec 5) : Fp := { e with flags := e.flags ||| fl }

/-- Rounds a result into a format. -/
def Fp.put (e : Fp) (f : Fmt) (mode : Nat) (nsat : Bool) (r : FRes) : Nat × Fp :=
  let e := e.draw mode
  let q := r.put f mode nsat e.seed.toNat
  (q.1, e.raise q.2)

/-- The rounding mode that a round field selects; 5 is FPSTAT.RM (R41, R63). -/
def State.mode (s : State) (rnd : BitVec 3) : Nat :=
  if rnd = 5 then (s.th.r.fpstat.extractLsb' 8 3).toNat else rnd.toNat

def State.fp (s : State) : Fp := ⟨s.th.r.stochseed, 0⟩

/-- The seed after an instruction, and its flags in FPSTAT (R64, R70). -/
def Ctx.withFp (c : Ctx) (e : Fp) : Ctx := { c with r := { c.r with stochseed := e.seed }.raise e.flags }

/-- The seed alone: the flags come with the result of a long-latency producer. -/
def Ctx.withSeed (c : Ctx) (e : Fp) : Ctx := { c with r := { c.r with stochseed := e.seed } }

/-! ### Operations (R68, R69, R91) -/

/-- NaN operands come first: the first of them, quieted, and NV for a signalling one (R68). -/
def withNans (ops : List FVal) (k : FRes) : FRes :=
  match ops.find? FVal.isNan with
  | some v => .val v (if ops.any FVal.isSig then flagNV else 0)
  | none => k

def invalid : FRes := .val .canon flagNV

/-- The exact sum of two numbers; an exact zero of opposite signs is −0 in RDN and else +0 (R67). -/
def addFin (mode : Nat) (s1 : Bool) (m1 : Nat) (e1 : Int) (s2 : Bool) (m2 : Nat) (e2 : Int) : Exact :=
  let e := min e1 e2
  let a := m1 * 2 ^ (e1 - e).toNat
  let b := m2 * 2 ^ (e2 - e).toNat
  if s1 = s2 then ⟨s1, a + b, e, false⟩
  else if a = b then ⟨mode = 3, 0, e, false⟩
  else if a < b then ⟨s2, b - a, e, false⟩ else ⟨s1, a - b, e, false⟩

def opAdd (mode : Nat) (a b : FVal) : FRes :=
  withNans [a, b] <|
    match a, b with
    | .inf s, .inf t => if s = t then .val a 0 else invalid
    | .inf _, _ => .val a 0
    | _, .inf _ => .val b 0
    | .fin s1 m1 e1, .fin s2 m2 e2 => .num (addFin mode s1 m1 e1 s2 m2 e2) 0
    | _, _ => invalid

def opSub (mode : Nat) (a b : FVal) : FRes :=
  if b.isNan then opAdd mode a b else opAdd mode a b.flip

def opMul (a b : FVal) : FRes :=
  withNans [a, b] <|
    match a, b with
    | .fin s1 m1 e1, .fin s2 m2 e2 => .num ⟨s1 != s2, m1 * m2, e1 + e2, false⟩ 0
    | _, _ => if a.isZero || b.isZero then invalid else .val (.inf (a.neg != b.neg)) 0

/-- A·B + C with one rounding. 0 × ∞ raises NV also when C is a quiet NaN (R70, R91). -/
def opFma (mode : Nat) (a b c : FVal) : FRes :=
  let bad := (a.isZero && b.isInf) || (a.isInf && b.isZero)
  match withNans [a, b, c] (if bad then invalid else
      match a, b, c with
      | .fin s1 m1 e1, .fin s2 m2 e2, .fin s3 m3 e3 =>
        .num (addFin mode (s1 != s2) (m1 * m2) (e1 + e2) s3 m3 e3) 0
      | .fin _ _ _, .fin _ _ _, _ => .val c 0
      | _, _, .inf t => if (a.neg != b.neg) = t then .val c 0 else invalid
      | _, _, _ => .val (.inf (a.neg != b.neg)) 0) with
  | .val v fl => .val v (if bad then fl ||| flagNV else fl)
  | r => r

/-- A / B (R70, R91). -/
def opDiv (a b : FVal) : FRes :=
  withNans [a, b] <|
    match a, b with
    | .inf _, .inf _ => invalid
    | .inf s, _ => .val (.inf (s != b.neg)) 0
    | .fin s _ _, .inf t => .num ⟨s != t, 0, 0, false⟩ 0
    | .fin s1 m1 e1, .fin s2 m2 e2 =>
      if m2 = 0 then if m1 = 0 then invalid else .val (.inf (s1 != s2)) flagDZ
      else .num ⟨s1 != s2, m1 * 2 ^ 128 / m2, e1 - e2 - 128, m1 * 2 ^ 128 % m2 ≠ 0⟩ 0
    | _, _ => invalid

/-- The integer square root, bit by bit from bit b - 1 down. -/
def isqrtFrom (n : Nat) : Nat → Nat → Nat
  | 0, r => r
  | b + 1, r => isqrtFrom n b (if (r + 2 ^ b) * (r + 2 ^ b) ≤ n then r + 2 ^ b else r)

def isqrt (n : Nat) : Nat := isqrtFrom n (bitLen n / 2 + 1) 0

/-- The square root; that of −0 is −0 (R91). -/
def opSqrt (a : FVal) : FRes :=
  withNans [a] <|
    match a with
    | .inf false => .val a 0
    | .fin s 0 _ => .num ⟨s, 0, 0, false⟩ 0
    | .fin false m e =>
      let odd := e % 2 = 1
      let n := (if odd then 2 * m else m) * 2 ^ 200
      let q := isqrt n
      .num ⟨false, q, ((if odd then e - 1 else e) - 200) / 2, q * q ≠ n⟩ 0
    | _ => invalid

/-- 1/√A (R100). -/
def opRsqrt (a : FVal) : FRes :=
  withNans [a] <|
    match a with
    | .inf false => .num ⟨false, 0, 0, false⟩ 0
    | .fin s 0 _ => .val (.inf s) flagDZ
    | .fin false m e =>
      let odd := e % 2 = 1
      let m := if odd then 2 * m else m
      let q := isqrt (2 ^ 256 / m)
      .num ⟨false, q, -((if odd then e - 1 else e) / 2) - 128, q * q * m ≠ 2 ^ 256⟩ 0
    | _ => invalid

/-- A < B for values that are no NaN; −0 equals +0. -/
def FVal.lt (a b : FVal) : Bool :=
  match a, b with
  | .inf s, .inf t => s && !t
  | .inf s, _ => s
  | _, .inf t => !t
  | .fin s1 m1 e1, .fin s2 m2 e2 =>
    if m1 = 0 && m2 = 0 then false
    else if m1 = 0 then !s2
    else if m2 = 0 then s1
    else if s1 != s2 then s1
    else if s1 then ltScaled m2 e2 m1 e1 else ltScaled m1 e1 m2 e2
  | _, _ => false

def FVal.same (a b : FVal) : Bool := !a.lt b && !b.lt a

/-- A is the lesser, with −0 below +0 (R69). -/
def FVal.lesser (a b : FVal) : Bool := a.lt b || (a.same b && a.neg && !b.neg)

/-- Minimum and maximum (R69): the value and the flags; nothing is rounded. -/
def opMinMax (wantMax : Bool) (a b : FVal) : FVal × BitVec 5 :=
  let fl := if a.isSig || b.isSig then flagNV else 0
  if a.isNan then if b.isNan then (a, fl) else (b, fl)
  else if b.isNan then (a, fl)
  else (if a.lesser b != wantMax then a else b, fl)

/-- The comparisons of `FCMP` and `VFCMP` (R92). -/
def opCmp (c : Nat) (a b : FVal) : Bool × BitVec 5 :=
  let un := a.isNan || b.isNan
  let sig := a.isSig || b.isSig
  let fl := if sig || (un && (c = 1 || c = 2)) then flagNV else 0
  (match c with
    | 0 => !un && a.same b
    | 1 | 4 => !un && a.lt b
    | 2 | 5 => !un && !b.lt a
    | _ => un, fl)

/-- The code of a value that the format holds. -/
def Fmt.code (f : Fmt) (v : FVal) : Nat := ((FRes.val v 0).put f 0 true 0).1

/-- The floor of a number. -/
def FVal.floor : FVal → Int
  | .fin s m e =>
    let v : Int := if s then -(m : Int) else m
    if 0 ≤ e then v * 2 ^ e.toNat else v / 2 ^ (-e).toNat
  | _ => 0

/-! ### 2^A (R101) -/

/-- The natural logarithm of 2, times 2^384, rounded down. -/
def ln2Fixed : Nat :=
  0xb17217f7d1cf79abc9e3b39803f2f6af40f343267298b62d8a0d175b8baafa2be7b876206debac98559552fb4afa1b10

/-- Sums the exponential series at t·2^-384 from term k on. -/
def expSeries (t : Nat) : Nat → Nat → Nat → Nat → Nat
  | 0, _, _, acc => acc
  | n + 1, k, term, acc =>
    let term := term * t / 2 ^ 384 / k
    expSeries t n (k + 1) term (acc + term)

/-- 2^(f·2^-384) · 2^320 for 0 < f < 2^384, rounded down. -/
def exp2Fixed (f : Nat) : Nat := expSeries (f * ln2Fixed / 2 ^ 384) 90 1 (2 ^ 384) (2 ^ 384) / 2 ^ 64

/-- 2^A. A power that is no integer power of two is never representable. -/
def opExp2 (a : FVal) : FRes :=
  withNans [a] <|
    match a with
    | .inf s => if s then .num ⟨false, 0, 0, false⟩ 0 else .val a 0
    | .fin s m e =>
      let n := a.floor
      if n < -200 then .num ⟨false, 1, -200, false⟩ 0
      else if 200 < n then .num ⟨false, 1, 200, false⟩ 0
      else if 0 ≤ e then .num ⟨false, 1, n, false⟩ 0
      else
        let v : Int := if s then -(m : Int) else m
        let f := ((v - n * 2 ^ (-e).toNat) * 2 ^ 384 / 2 ^ (-e).toNat).toNat
        if f = 0 then .num ⟨false, 1, n, false⟩ 0 else .num ⟨false, exp2Fixed f, n - 320, true⟩ 0
    | _ => invalid

/-! ### Integer types (R80, R71) -/

/-- The signed integer types. -/
def typeSigned (t : BitVec 5) : Bool := t.toNat ≤ 4 || t = 0x09

/-- A number's bits at a width, read as a type (R80). -/
def ivalOf (signed : Bool) (w n : Nat) : Int :=
  let n := n % 2 ^ w
  if signed && 2 ^ (w - 1) ≤ n then (n : Int) - 2 ^ w else n

/-- `ival` (R80). -/
def ival (x : Word) (t : BitVec 5) : Int := ivalOf (typeSigned t) (typeWidth t) x.toNat

/-- `ext` (R80). -/
def ext (v : Int) (t : BitVec 5) : Word :=
  BitVec.ofInt 64 (ivalOf (typeSigned t) (typeWidth t) (v % 2 ^ typeWidth t).toNat)

def minOf (signed : Bool) (w : Nat) : Int := if signed then -2 ^ (w - 1) else 0
def maxOf (signed : Bool) (w : Nat) : Int := if signed then 2 ^ (w - 1) - 1 else 2 ^ w - 1

/-- Clamps to the range of a type. -/
def clampTo (signed : Bool) (w : Nat) (v : Int) : Int := max (minOf signed w) (min (maxOf signed w) v)

/-! ### Conversions (R72, R93) -/

/-- A float's conversion to an integer type. -/
def toInteger (mode : Nat) (signed : Bool) (w : Nat) (v : FVal) (u : Nat) : Int × BitVec 5 :=
  match v with
  | .nan _ _ _ => (0, flagNV)
  | .inf s => (if s then minOf signed w else maxOf signed w, flagNV)
  | .fin s m e =>
    let r := (Exact.mk s m e false).roundAt mode 0 u
    let i : Int := if s then -(r.1 : Int) else r.1
    if i < minOf signed w || maxOf signed w < i then (if s then minOf signed w else maxOf signed w, flagNV)
    else (i, if r.2 then flagNX else 0)

def typeIsInt (t : BitVec 5) : Bool := t.toNat ≤ 9
def exactOfInt (v : Int) : Exact := ⟨v < 0, v.natAbs, 0, false⟩

/-- Converts a code of type S to type T, one of them a float: the bits of T and the rounding state (R72, R93, R104). A value
other than NaN that keeps its type is returned unchanged, without a flag, by VFCVT as by FCVT (R93). (DESIGN CHOICE: log entry
137.) -/
def convert (mode : Nat) (nsat : Bool) (src dst : BitVec 5) (n : Nat) (e : Fp) : Nat × Fp :=
  if typeIsInt src then
    e.put (fmtOf dst) mode nsat (.num (exactOfInt (ivalOf (typeSigned src) (typeWidth src) n)) 0)
  else
    let v := (fmtOf src).decode n
    if typeIsInt dst then
      let e := e.draw mode
      let r := toInteger mode (typeSigned dst) (typeWidth dst) v e.seed.toNat
      ((r.1 % 2 ^ typeWidth dst).toNat, e.raise r.2)
    else if src = dst && !v.isNan then (n % 2 ^ typeWidth dst, e.draw mode)
    else e.put (fmtOf dst) mode nsat (.val v (if v.isSig then flagNV else 0))

/-! ### Fixed trees (R76, R77) -/

/-- The nodes of the up-sweep, in order: the left input and the node's lane (R76). -/
def upNodes : List (Nat × Nat) :=
  (List.range 5).flatMap fun d =>
    (List.range (32 / 2 ^ (d + 1))).map fun j => ((j + 1) * 2 ^ (d + 1) - 1 - 2 ^ d, (j + 1) * 2 ^ (d + 1) - 1)

/-- The nodes of the down-sweep, in order (R77). -/
def downNodes : List (Nat × Nat) :=
  ([3, 2, 1, 0]).flatMap fun d =>
    ((List.range 32).map fun j => 3 * 2 ^ d - 1 + j * 2 ^ (d + 1)).filterMap fun k =>
      if k < 32 then some (k - 2 ^ d, k) else none

/-- Combines along nodes; an absent input passes the other through (R76). -/
def sweep {α : Type} (op : α → α → Fp → α × Fp) (nodes : List (Nat × Nat)) (v : Vector (Option α) 32) (e : Fp) :
    Vector (Option α) 32 × Fp :=
  nodes.foldl (fun (v, e) n =>
    match vat v n.1, vat v n.2 with
    | none, _ => (v, e)
    | some p, none => (vput v n.2 (some p), e)
    | some p, some q => let r := op p q e; (vput v n.2 (some r.1), r.2)) (v, e)

/-- `tree_reduce`; none when every lane is absent. -/
def treeReduce {α : Type} (op : α → α → Fp → α × Fp) (v : Vector (Option α) 32) (e : Fp) : Option α × Fp :=
  let r := sweep op upNodes v e
  (vat r.1 31, r.2)

/-- `tree_scan`, inclusive. -/
def treeScan {α : Type} (op : α → α → Fp → α × Fp) (v : Vector (Option α) 32) (e : Fp) : Vector (Option α) 32 × Fp :=
  let r := sweep op upNodes v e
  sweep op downNodes r.1 r.2

end Sys2Proof.Machine
end

