-- ==== Sys2Proof/Machine/Bytes.lean ====
section
/-! DEFINITION. Bytes as writes reach memory and scratchpad (R180, R324), and the contributions of RED and TXRED: their
operations (R191, R193) and the order in which they combine (R130, R131). -/

namespace Sys2Proof.Machine

/-! ### Bytes (R180, R324) -/

def wordOf (bs : List Byte) : Word := BitVec.ofNat 64 (natOfBytes bs)

/-- Whether a read of a physical address meets poison (R16, R324). -/
def State.paPoison (s : State) (pa : Nat) : Bool := s.paKind pa = .absent || s.lineBad (pa / 128)

/-- The lines of which writes name all 128 bytes. -/
def fullLines (ws : List (Nat × Byte)) : List Nat :=
  ((ws.map fun w => w.1 / 128).eraseDups).filter fun l => (List.range 128).all fun o => ws.any fun w => w.1 = l * 128 + o

/-- Writes of one line become visible: the bytes, and the poison bit is cleared when they are all 128 (R180, R324). -/
def State.landBytes (s : State) (ws : List (Nat × Byte)) : State :=
  { s with mem := Mem.writeAll s.mem ws }.cleanLines (fullLines ws)

/-- The same of a core's writes into its own copies, with the lines that one store covers whole: memory takes a poison bit
as the line reaches its home (R324). -/
def State.landOwned (s : State) (core : Nat) (ws : List (Nat × Byte)) (full : List Nat) : State :=
  { s with mem := Mem.writeAll s.mem ws }.cleanCopies core full

/-- The same in the L1 arrays. -/
def State.landScratch (s : State) (ws : List (Nat × Byte)) : State :=
  { s with scratch := Mem.writeAll s.scratch ws, scratchPoison := s.scratchPoison.filter fun l => !(fullLines ws).contains l }

/-- The (address, byte) pairs of a datum of some bytes. -/
def pairsAt (a size : Nat) (w : Word) : List (Nat × Byte) :=
  (bytesOfNat size w.toNat).zipIdx.map fun b => (a + b.2, b.1)

/-! ### Operations on a location (R191, R193) -/

/-- The operation of a `RED` function code [3:0], and of `TXRED`. -/
def redOp (n : Nat) : RmwOp :=
  match n with
  | 0 => .add | 1 => .fadd | 2 => .min | 3 => .max | 4 => .or | _ => .and

/-- The new value at a location of w bits (R191, R193); `fadd` rounds RNE and raises no flag. -/
def RmwOp.apply (op : RmwOp) (w old val cmp : Nat) : Nat :=
  let o := old % 2 ^ w
  let v := val % 2 ^ w
  match op with
  | .add => (o + v) % 2 ^ w
  | .and => o &&& v
  | .or => o ||| v
  | .xor => o ^^^ v
  | .min => if ivalOf true w v < ivalOf true w o then v else o
  | .max => if ivalOf true w o < ivalOf true w v then v else o
  | .minn => Nat.min o v
  | .maxn => Nat.max o v
  | .swap => v
  | .cas => if o = cmp % 2 ^ w then v else o
  | .join => o - 1
  | .fadd => ((opAdd 0 (fmtF32.decode o) (fmtF32.decode v)).put fmtF32 0 false 0).1

/-! ### Contributions (R130, R131) -/

/-- One level of the tree over numbered slots: neighbours 2i and 2i + 1 combine, a lone one passes up (R76, R131). -/
def treeLevel (f : Nat → Nat → Nat) : List (Nat × Nat) → List (Nat × Nat)
  | (i, a) :: (j, b) :: r =>
    if i / 2 = j / 2 then (i / 2, f a b) :: treeLevel f r else (i / 2, a) :: treeLevel f ((j, b) :: r)
  | [(i, a)] => [(i / 2, a)]
  | [] => []

/-- The value at the top of a tree of some levels over slots in rising order, if any is present. -/
def treeTop (f : Nat → Nat → Nat) : Nat → List (Nat × Nat) → Option Nat
  | 0, l => l.head?.map (·.2)
  | n + 1, l => treeTop f n (treeLevel f l)

def Partial.bits (p : Partial) : Nat := if p.dword then 64 else 32

/-- The contributions of each context in program order, combined serially: context and partial, rising. -/
def contextPartials (f : Nat → Nat → Nat) (ps : List Partial) : List (Nat × Nat) :=
  (ps.mergeSort fun a b => a.id ≤ b.id).foldl (fun t p => match Tbl.get? t p.place with
    | some v => Tbl.set t p.place (f v p.val.toNat)
    | none => Tbl.set t p.place (p.val.toNat % 2 ^ p.bits)) ([] : Tbl Nat)

/-- The tree of R131 over the `.det` contributions of one operation: contexts of a core, then cores. -/
def detTree (f : Nat → Nat → Nat) (ps : List Partial) : Option Nat :=
  let cs := contextPartials f ps
  let cores := (cs.map fun e => e.1 / 8).eraseDups
  let per := cores.filterMap fun c =>
    (treeTop f 3 ((cs.filter fun e => e.1 / 8 = c).map fun e => (e.1 % 8, e.2))).map fun v => (c, v)
  treeTop f 12 per

/-- The combined value of a location (R130, R131): the `.det` contributions form their tree where all contributions
carry one operation, and every other contribution is applied serially. -/
def combinePartials (w old : Nat) (ps : List Partial) : Nat :=
  let serial := fun (o : Nat) (qs : List Partial) => qs.foldl (fun o p => (redOp p.op).apply w o p.val.toNat 0) o
  match ps with
  | [] => old
  | p :: _ =>
    if ps.all fun q => q.op = p.op then
      let f := fun a b => (redOp p.op).apply w a b 0
      let o := match detTree f (ps.filter (·.det)) with
        | some v => f old v
        | none => old
      serial o (ps.filter fun q => !q.det)
    else serial old ps

/-- Combines every partial of a tile into memory; the contributions to a poisoned line are lost with it. -/
def State.combineAll (s : State) (ps : List Partial) : State :=
  let locs := (ps.map fun p => (p.pa, p.dword)).eraseDups
  locs.foldl (fun s l =>
    if s.paPoison l.1 then s
    else
      let size := if l.2 then 8 else 4
      let old := s.memNat l.1 size
      let v := combinePartials (8 * size) old (ps.filter fun p => (p.pa, p.dword) = l)
      s.landBytes (pairsAt l.1 size (BitVec.ofNat 64 v))) s

end Sys2Proof.Machine
end

