-- ==== Sys2Proof/Machine/Device.lean ====
section
/-! DEFINITION. Device control space (R16): its registers and tables as the rules lay them out (R178, R244, R250, R258,
R262, R264, R273, R290, R293, R303, R304), what a read of them returns and what a write does. -/

namespace Sys2Proof.Machine

/-! ### Counting contexts (R290) -/

/-- Contexts of an address space in resident or shadow slots; those of dead cores are lost (R328). -/
def State.resident (s : State) (asid : Nat) : Nat :=
  (s.ctxs.filter fun e => e.2.run ≠ .vacant && e.2.asid.toNat = asid && !s.coreLost (coreOf e.1)).length

/-- A context is parked: not one that `REPLAY` has made ready and that waits for a slot (R290, R305). -/
def Ctx.isParked (c : Ctx) : Bool := c.why ≠ some .ready && match c.run with
  | .parked _ => true
  | .blot => true
  | _ => false

/-- Threads of an address space that are parked, in slots or in frames. -/
def State.parkedCount (s : State) (asid : Nat) : Nat :=
  (s.ctxs.filter fun e => e.2.isParked && e.2.asid.toNat = asid && !s.coreLost (coreOf e.1)).length +
    (s.cores.foldl (fun n c => n + if s.coreLost c.1 then 0 else (c.2.outlist.filter fun o =>
      o.asid.toNat = asid && match o.why with
        | .parked _ => true
        | .blot => true
        | _ => false).length) 0)

/-! ### Address-space blocks (R201, R290) -/

/-- LEASECFG with each field clamped to its bounds (R201). -/
def clampLease (w : Word) : Word :=
  let l1 := min (max (w.toNat % 2 ^ 32) 64) 4096
  let sl := min (max (w.toNat / 2 ^ 32) 256) 65536
  BitVec.ofNat 64 (l1 + sl * 2 ^ 32)

def Space.ctl (p : Space) : Word :=
  BitVec.ofNat 64 (b2n p.valid + 2 * b2n p.hold + p.partition.toNat * 256)

/-- The eight dwords of an address space's block. -/
def State.spaceWords (s : State) (asid : Nat) : List Word :=
  let p := s.space asid
  [p.ctl, p.ptbase, p.leasecfg, p.trapvec, p.ctxframe,
    BitVec.ofNat 64 (s.resident asid % 2 ^ 32 + s.parkedCount asid % 2 ^ 32 * 2 ^ 32), 0, 0]

/-- The reserved bits of a block's dwords. -/
def spaceReserved (ws : List Word) : Bool :=
  let w := fun i => (ws.getD i 0).toNat
  (w 0 &&& 0xF03) ≠ w 0 || (w 1 &&& 0x3FFFFFFFFF001) ≠ w 1 || (w 3 &&& 0xFFFFFFFFFFF8) ≠ w 3 ||
    (w 4 &&& 0x3FFFFFFFFE001) ≠ w 4 || w 6 ≠ 0 || w 7 ≠ 0

/-- The cores with frames of an address space on their out-lists choose work for their slots again (R305). -/
def State.wakeFrames (s : State) (asid : Nat) : State :=
  s.cores.foldl (fun s c =>
    if c.2.outlist.any fun o => o.asid.toNat = asid then s.causeOnce .fillSlot { core := c.1 } else s) s

/-- Stores the dwords of a block (R290): a reserved bit discards the write; clearing VALID is refused while the address
space has contexts, and happens once its state is torn down (R311); setting HOLD moves its contexts out (R308).
(DEDUCED: log entry 25.) -/
def State.writeSpace (s : State) (d asid : Nat) (ws : List Word) : State :=
  let old := s.space asid
  let w := fun i => (ws.getD i 0)
  let valid := (w 0).getLsbD 0
  if spaceReserved ws then s.log d (.badBlock asid 0 (w 0))
  else if old.valid && !valid && (s.resident asid ≠ 0 || s.parkedCount asid ≠ 0) then s.log d (.badBlock asid 0 (w 0))
  else
    let hold := (w 0).getLsbD 1
    let s := s.setSpace asid
      ⟨old.valid || valid, hold, (w 0).extractLsb' 8 4, w 1, clampLease (w 2), w 3, w 4⟩
    let s := if old.valid && !valid then s.cause .asidInvalidate { asid := asid } else s
    if hold && !old.hold then s.cause .hold { asid := asid }
    else if !hold && old.hold then s.wakeFrames asid
    else s

/-! ### Partitions (R293) -/

def Partition.words (p : Partition) : List Word :=
  ((List.range 4).map fun i => p.clusters.extractLsb' (64 * i) 64) ++
    [BitVec.ofNat 64 (p.l2mask.toNat + p.qmask.toNat * 2 ^ 16), 0, 0, 0]

/-- Any address space of a partition has contexts. -/
def State.partitionBusy (s : State) (p : Nat) : Bool :=
  s.spaces.any fun e => e.2.partition.toNat = p && (s.resident e.1 ≠ 0 || s.parkedCount e.1 ≠ 0)

/-- An agent lies in one of a set of clusters. -/
def Agent.inClusters (a : Agent) (m : BitVec 256) : Bool := match a with
  | .core c => m.getLsbD (clusterOf c)
  | .folio d => m.extractLsb' (64 * d) 64 ≠ 0
  | _ => false

/-- The masks and clusters that a write gives partition p, kept or discarded (R293). A partition that takes a cluster of a dead
agent counts as failed (R331). -/
def State.writePartition (s : State) (d p : Nat) (q : Partition) (rsv : Bool) : State :=
  let old := vat s.parts p
  if rsv || q.l2mask = 0 || q.qmask = 0 ||
      ((List.range 16).any fun i => i ≠ p && (vat s.parts i).clusters &&& q.clusters ≠ 0) ||
      (q.clusters ≠ old.clusters && s.partitionBusy p) then s.log d (.badPartition p)
  else
    let s := { s with parts := vput s.parts p q }
    if s.dead.any fun a => a.inClusters q.clusters then s.updMgmt fun m => { m with failedParts := insertNew m.failedParts p } else s

def partitionOf (ws : List Word) : Partition × Bool :=
  let w := fun i => ws.getD i 0
  (⟨(w 3 ++ w 2 ++ w 1 ++ w 0 : BitVec 256), (w 4).extractLsb' 0 16, (w 4).extractLsb' 16 16⟩,
    (w 4).toNat / 2 ^ 32 ≠ 0 || w 5 ≠ 0 || w 6 ≠ 0 || w 7 ≠ 0)

/-! ### Launch queues (R260, R264) -/

/-- R264's conditions on a control block. -/
def Queue.invalid (q : Queue) : Bool :=
  let n := q.size.toNat
  !((List.range 16).any fun i => n = 2 ^ (i + 1)) || q.ring.toNat % 8 ≠ 0 || 2 ^ 48 ≤ q.ring.toNat ||
    32 ≤ q.ctl.toNat || !q.rsv.isEmpty

def Queue.enabled (q : Queue) : Bool := q.ctl.getLsbD 3
def Queue.prio (q : Queue) : Nat := q.ctl.toNat % 8
def Queue.earlyOk (q : Queue) : Bool := q.ctl.getLsbD 4

/-- The code and index of LASTERR. -/
def lastErr (code : Nat) (index : W32) : W32 := BitVec.ofNat 32 (code + index.toNat % 2 ^ 24 * 256)

/-- A write of TAIL (R264). -/
def State.kickQueue (s : State) (d asid q : Nat) (value : Word) : State :=
  let c := s.queue asid q
  let tail := value.extractLsb' 0 32
  let bad := s.log d (.badKick asid q value)
  if c.invalid || 2 ^ 32 ≤ value.toNat then bad
  else if c.size < tail - c.head || tail - c.head < c.tail - c.head then bad
  else (s.setQueue asid q { c with tail := tail }).causeOnce .dispatchTurn {}

def Queue.words (q : Queue) : List Word :=
  [q.ring, BitVec.ofNat 64 (q.size.toNat + q.ctl.toNat % 32 * 2 ^ 32),
    BitVec.ofNat 64 (q.head.toNat + q.tail.toNat * 2 ^ 32), BitVec.ofNat 64 q.lasterr.toNat, 0, 0, 0, 0]

/-- A write of bytes of a control block, by offset (R264); `b` is the block with the bytes laid over it. -/
def State.writeQueue (s : State) (d asid q : Nat) (ws : List (Nat × Byte)) (b : List Word) : State :=
  let old := s.queue asid q
  let touched := fun lo hi => ws.any fun w => lo ≤ w.1 && w.1 < hi
  let w := fun i => b.getD i 0
  let isRsv := fun o => (0x0D ≤ o && o < 0x10) || (0x1C ≤ o && o < 0x40)
  let rsv := (old.rsv.filter fun o => !ws.any fun w => w.1 = o) ++
    (ws.filter fun w => isRsv w.1 && w.2 ≠ 0).map (·.1)
  let ctl := match ws.find? fun w => w.1 = 0x0C with
    | some w => w.2
    | none => old.ctl
  let new : Queue := { old with ring := w 0, size := (w 1).extractLsb' 0 32, ctl := ctl, rsv := rsv
                                lasterr := if touched 0x18 0x1C then (w 3).extractLsb' 0 32 else old.lasterr }
  let s := if (List.range 0x40).any (fun o => touched o (o + 1) && !(0x14 ≤ o && o < 0x18)) then
      if new.invalid then
        (s.setQueue asid q { new with lasterr := lastErr 6 new.head }).log d (.badQueue asid q)
      else (s.setQueue asid q new).causeOnce .dispatchTurn {}
    else s
  if touched 0x14 0x18 then s.kickQueue d asid q ((w 2) >>> 32) else s

/-! ### Fault buffers (R303, R304) -/

def FaultEntry.words (e : FaultEntry) : List Word :=
  [BitVec.ofNat 64 (2 ^ 63 + e.va.toNat),
    BitVec.ofNat 64 (e.acc.toNat * 2 ^ 20 + e.kind.toNat * 2 ^ 16 + e.asid.toNat +
      (e.cluster.toNat * 2 ^ 16 + e.ctx.toNat * 2 ^ 12 + e.core.toNat) * 2 ^ 32),
    BitVec.ofNat 64 (e.threads.toNat + e.frame.toNat * 2 ^ 16 + e.code.toNat * 2 ^ 32), e.gt]

def State.faultWords (s : State) (d i : Nat) : List Word := match vat (s.die d).faults i with
  | some e => e.words
  | none => [0, 0, 0, 0]

/-- FAULTSTAT of a die (R304). -/
def Die.faultstat (v : Die) : Word :=
  BitVec.ofNat 64 ((v.faults.toList.filter Option.isSome).length + b2n v.dropped * 2 ^ 16 + v.dropcount.toNat * 2 ^ 32)

/-- Writing 1 to DROPPED clears it and DROPCOUNT. -/
def State.writeFaultstat (s : State) (d : Nat) (w : Word) : State :=
  if w.getLsbD 16 then s.updDie d fun v => { v with dropped := false, dropcount := 0 } else s

/-- The out-listed contexts of a core that an entry named are named by it no longer. -/
def Core.forgetEntry (c : Core) (i : Nat) : Core :=
  { c with outlist := c.outlist.map fun o => if o.entry = some i then { o with entry := none } else o }

/-- Frees a buffer entry; its key stays in the cluster table, and counts later joins nowhere (R302). -/
def State.freeFault (s : State) (d i : Nat) : State :=
  let s := s.updDie d fun v => { v with faults := vput v.faults i none }
  { s with clusters := Tbl.mapV s.clusters fun cl c =>
      if cl / 64 = d then { c with faults := c.faults.map fun e => if e.slot = some i then { e with slot := none } else e }
      else c,
           ctxs := Tbl.mapV s.ctxs fun k c => if dieOf (coreOf k) = d && c.entry = some i then { c with entry := none } else c,
           cores := Tbl.mapV s.cores fun n c => if dieOf n = d then c.forgetEntry i else c }

/-! ### Hotness, endpoints, congestion, notices, spilled records (R178, R244, R250, R258, R273) -/

def HotEntry.words (e : HotEntry) : List Word :=
  [BitVec.ofNat 64 (b2n e.valid * 2 ^ 63 + e.granule.toNat), BitVec.ofNat 64 e.total.toNat,
    wordOf (e.q.toList.take 8), wordOf (e.q.toList.drop 8)]

/-- DEDUCED: log entry 107. -/
def Endpoint.bytes (e : Endpoint) : List Byte :=
  bytesOfNat 4 (b2n e.valid + 2 * b2n e.rod) ++ bytesOfNat 16 e.addr.toNat ++ bytesOfNat 3 e.job.toNat ++
    bytesOfNat 9 e.process.toNat

def endpointOf (bs : List Byte) : Endpoint :=
  ⟨(bs.getD 0 0).getLsbD 0, (bs.getD 0 0).getLsbD 1, BitVec.ofNat 128 (natOfBytes ((bs.drop 4).take 16)),
    BitVec.ofNat 24 (natOfBytes ((bs.drop 20).take 3)), BitVec.ofNat 12 (natOfBytes ((bs.drop 23).take 2))⟩

def State.endpoint (s : State) (asid dest : Nat) : Endpoint := Tbl.getD s.ote.endpoints (asid * 4096 + dest) Endpoint.absent
def State.congestion (s : State) (asid dest : Nat) : Congestion :=
  Tbl.getD s.ote.congestion (asid * 4096 + dest) Congestion.zero

/-- A congestion entry reads as zeros without a VALID endpoint (R258). -/
def State.congestionWords (s : State) (asid dest : Nat) : List Word :=
  if (s.endpoint asid dest).valid then
    let c := s.congestion asid dest
    [BitVec.ofNat 64 (c.fields.cwnd.toNat + c.fields.srtt.toNat * 2 ^ 32),
      BitVec.ofNat 64 (c.fields.ecnfrac.toNat + c.fields.credit.toNat * 2 ^ 32), c.fields.weights,
      BitVec.ofNat 64 (c.updated.toNat + c.version.toNat * 2 ^ 32)]
  else [0, 0, 0, 0]

def Notice.words (n : Notice) : List Word :=
  [n.src, BitVec.ofNat 64 (n.len + n.tag.toNat * 2 ^ 32 + n.sender * 2 ^ 48), 0, n.handler]

def TaskRec.words (r : TaskRec) : List Word :=
  [r.entry, r.workid, r.arg, r.joinctr, r.ctl, r.widshape, BitVec.ofNat 64 r.launch.toNat, 0]

/-! ### Reading and writing (R16) -/

/-- The place of an address of device control space: the table and the offset in it. -/
inductive DevPlace where
  | hotness (d i off : Nat)
  | overflow (core i off : Nat)
  | congestion (asid dest off : Nat)
  | msix
  | endpoint (asid dest off : Nat)
  | queue (asid q off : Nat)
  | spill (core slot i off : Nat)
  | space (asid off : Nat)
  | partition (p off : Nat)
  | fault (d i off : Nat)
  | faultstat (d : Nat)
  | reserved
  deriving DecidableEq, Repr

/-- DEDUCED: log entry 108. -/
def devPlace (pa : Nat) : DevPlace :=
  let o := pa % 2 ^ 32
  match (pa - controlBase) / 2 ^ 32 with
  | 1 => if o < 4 * 0x800000 && o % 0x800000 < 0x80000 then .hotness (o / 0x800000) (o % 0x800000 / 32) (o % 32) else .reserved
  | 2 => if o < 4096 * 0x2000 then .overflow (o / 0x2000) (o % 0x2000 / 32) (o % 32) else .reserved
  | 3 => if o < 4096 * 0x20000 then .congestion (o / 0x20000) (o % 0x20000 / 32) (o % 32) else .reserved
  | 4 => if o < 8 then .msix else .reserved
  | 5 => if o < 4096 * 0x20000 then .endpoint (o / 0x20000) (o % 0x20000 / 32) (o % 32) else .reserved
  | 6 => if o < 4096 * 0x1000 then .queue (o / 0x1000) (o % 0x1000 / 64) (o % 64) else .reserved
  | 7 => if o < 4096 * 0x8000 then .spill (o / 0x8000) (o % 0x8000 / 0x1000) (o % 0x1000 / 64) (o % 64) else .reserved
  | 8 => if o < 4096 * 0x40 then .space (o / 0x40) (o % 0x40) else .reserved
  | 9 => if o < 16 * 64 then .partition (o / 64) (o % 64) else .reserved
  | 10 =>
    if o < 4 * 0x1000 && o % 0x1000 < 0x100 then .fault (o / 0x1000) (o % 0x1000 / 32) (o % 32)
    else if o < 4 * 0x1000 && o % 0x1000 / 8 = 0x20 then .faultstat (o / 0x1000) else .reserved
  | _ => .reserved

/-- The words of the record at a place, none where no rule lays one out. -/
def State.devWords (s : State) : DevPlace → Option (List Word)
  | .hotness d i _ => some (Tbl.getD (s.die d).hot i HotEntry.cleared).words
  | .overflow c i _ => some (match (s.core c).overflow[i]? with
    | some n => n.words
    | none => [0, 0, 0, 0])
  | .congestion a n _ => some (s.congestionWords a n)
  | .msix => some [0]
  | .endpoint a n _ => some ((List.range 4).map fun i => wordOf (((s.endpoint a n).bytes.drop (8 * i)).take 8))
  | .queue a q _ => some (s.queue a q).words
  | .spill c sl i _ => some (match (vat (s.core c).spill sl)[i]? with
    | some r => r.words
    | none => List.replicate 8 0)
  | .space a _ => some (s.spaceWords a)
  | .partition p _ => some (vat s.parts p).words
  | .fault d i _ => some (s.faultWords d i)
  | .faultstat d => some [(s.die d).faultstat]
  | .reserved => none

/-- The offset of a place in its record. -/
def DevPlace.off : DevPlace → Nat
  | .hotness _ _ o => o | .overflow _ _ o => o | .congestion _ _ o => o | .msix => 0 | .endpoint _ _ o => o
  | .queue _ _ o => o | .spill _ _ _ o => o | .space _ o => o | .partition _ o => o | .fault _ _ o => o
  | .faultstat _ => 0 | .reserved => 0

/-- A byte of device control space, none where no rule lays it out. -/
def State.devByte (s : State) (pa : Nat) : Option Byte :=
  let p := devPlace pa
  let o := match p with
    | .msix => pa % 8
    | .faultstat _ => pa % 8
    | _ => p.off
  (s.devWords p).map fun ws => (ws.getD (o / 8) 0).extractLsb' (8 * (o % 8)) 8

/-- A read of n bytes of device control space; an address that no rule lays out is reserved and reads as poison. -/
def State.devRead (s : State) (pa n : Nat) : Option Word :=
  ((List.range n).foldr (fun i acc => match acc, s.devByte (pa + i) with
    | some bs, some b => some (b :: bs)
    | _, _ => none) (some [])).map wordOf

/-- The agent that holds an address of device control space is dead (R328). -/
def State.devDead (s : State) (pa : Nat) : Bool :=
  !s.dead.isEmpty && match devPlace pa with
    | .hotness d _ _ => s.isDead (.folio d)
    | .fault d _ _ => s.isDead (.folio d)
    | .faultstat d => s.isDead (.folio d)
    | .overflow c _ _ => s.coreLost c
    | .spill c _ _ _ => s.coreLost c
    | .congestion _ _ _ => s.isDead .ote
    | .endpoint _ _ _ => s.isDead .ote
    | _ => false

/-- GT where the agent that holds an address of device control space performs an access: a die's copy for what the die
holds, the reference for what lies on the I/O die (R16). (DEDUCED: log entry 116.) -/
def State.devTime (s : State) (pa : Nat) : Word :=
  match devPlace pa with
  | .hotness d _ _ => s.gtOf d
  | .fault d _ _ => s.gtOf d
  | .faultstat d => s.gtOf d
  | .overflow c _ _ => s.gtOf (dieOf c)
  | .spill c _ _ _ => s.gtOf (dieOf c)
  | _ => s.gt

/-- Lays bytes over the words of a record, by offset. -/
def overlay (ws : List Word) (bs : List (Nat × Byte)) : List Word :=
  ws.zipIdx.map fun w => wordOf ((List.range 8).map fun i =>
    match bs.find? fun b => b.1 = 8 * w.2 + i with
    | some b => b.2
    | none => w.1.extractLsb' (8 * i) 8)

/-- A write of bytes of one record of device control space, by die d; `bs` are the bytes by offset in the record. A store into the
spill area of task records is discarded and recorded. (DESIGN CHOICE: log entry 139.) -/
def State.devStore (s : State) (d : Nat) (p : DevPlace) (pa : Nat) (bs : List (Nat × Byte)) : State :=
  let new := overlay ((s.devWords p).getD []) bs
  match p with
  | .hotness e i _ =>
    if bs.any fun b => b.1 < 8 then s.updDie e fun v => { v with hot := Tbl.erase v.hot i } else s
  | .msix =>
    let v := (overlay [0] bs).headD 0
    if 16 ≤ v.toNat && v.toNat ≤ 2047 then s.raise v.toNat else s
  | .endpoint a n _ =>
    let e := endpointOf (new.flatMap fun w => bytesOfNat 8 w.toNat)
    s.updOte fun o => { o with endpoints := Tbl.set o.endpoints (a * 4096 + n) e }
  | .queue a q _ => s.writeQueue d a q bs new
  | .space a _ => s.writeSpace d a new
  | .partition q _ => s.writePartition d q (partitionOf new).1 (partitionOf new).2
  | .fault e i _ =>
    if (bs.any fun b => b.1 < 8) && (new.headD 0) = 0 then s.freeFault e i else s
  | .faultstat e => s.writeFaultstat e ((overlay [0] bs).headD 0)
  | .overflow _ _ _ => s.log d (.badWrite pa)
  | .congestion _ _ _ => s.log d (.badWrite pa)
  | .spill _ _ _ _ => s.log d (.badWrite pa)
  | .reserved => s.log d (.badWrite pa)

/-- The address of the record that holds an address, as records do not share a 32-byte unit. -/
def devUnit (pa : Nat) : Nat := match devPlace pa with
  | .msix => pa / 8 * 8
  | .faultstat _ => pa / 8 * 8
  | .reserved => pa
  | p => pa - p.off

/-- A write of bytes to device control space, record by record in ascending order, made by die d. -/
def State.devWrite (s : State) (d : Nat) (ws : List (Nat × Byte)) : State :=
  ((ws.map fun w => devUnit w.1).eraseDups).foldl (fun s u =>
    s.devStore d (devPlace u) u ((ws.filter fun w => devUnit w.1 = u).map fun w => (w.1 - u, w.2))) s

end Sys2Proof.Machine
end

