-- ==== Sys2Proof/Machine/Home.lean ====
section
/-! DEFINITION. Tile homes: leases and LEXP (R202 to R204), what a home needs before it serves an access (R205), and the recalls
of owners and of partials (R194, R205, R206). -/

namespace Sys2Proof.Machine

/-! ### L1 and home states (R202, R203, R205, R206) -/

def maxWord (a b : Word) : Word := if a < b then b else a

/-- LEXP (R202). (DEDUCED: log entry 36.) -/
def Dir.lexp (d : Dir) : Word := d.leases.foldl (fun m e => maxWord m e.2) d.past

/-- The leases have ended: only LEXP is kept of them. -/
def Dir.endLeases (d : Dir) : Dir := { d with leases := [], past := d.lexp }

/-- The GT before which no write to tile t is performed: LEXP + 32, or 0 where no lease was ever granted (R204). -/
def State.writeFloor (s : State) (t : Nat) : Word := if (s.dir t).lexp = 0 then 0 else (s.dir t).lexp + 32

/-- The GT at which the home of a line performs a write (R204). -/
def State.homeTime (s : State) (line : Nat) : Word := maxWord (s.gtOf (homeDie (line * 128))) (s.writeFloor (s.tileOf line))

/-- The die of a grantee: a core, or a requester slice. -/
def granteeDie (n : Nat) : Nat := if n < 4096 then dieOf n else (n - 4096) / 64

/-- Every lease on a tile but a core's own has ended by the guard band: at the tile home, and by the reference where the
holder's die is dead (R20, R203, R328). -/
def State.leasesOver (s : State) (t c : Nat) : Bool :=
  (s.dir t).leases.all fun e => e.1 = c ||
    e.2 + 32 ≤ (if s.isDead (.folio (granteeDie e.1)) then s.gt else s.gtOf (s.tileDie t))

/-- What must happen at a tile home before it serves an access (R205). -/
inductive HomeNeed where
  | ready
  | recall (i : Instr)
  | leases
  deriving DecidableEq, Repr

/-- No core. -/
def noCore : Nat := 8192

/-- What the home of tile t needs before core c (`noCore` for a home-performed access) reads or writes (R205). A read that
the home performs leaves a tile as it is where its owner has no dirty line, and recalls the owner otherwise. -/
def State.homeNeed (s : State) (t c : Nat) (write : Bool) : HomeNeed :=
  let d := s.dir t
  match d.st with
  | .i | .l => if write && !s.leasesOver t c then .leases else .ready
  | .u => .recall .partialRecall
  | .e | .m =>
    if d.owner = c then .ready
    else if write then .recall .recallForExclusive
    else if c ≠ noCore then .recall .recallForLease
    else if (s.l1 d.owner t).dirty.isEmpty then .ready else .recall .recallForExclusive
  | .o =>
    if !write then .ready
    else if !s.leasesOver t c then .leases
    else if d.owner = c then .ready
    else .recall .recallForExclusive

/-- What the host and the OTE write is named by no context. -/
def hostKey : Nat := 262144

/-- What waits at a tile home still does: a core's exclusive request, or a write that the home performs for a context or for
the host (R203). -/
def State.stillWaits (s : State) (n : Nat) : Bool :=
  if n < 8192 then true
  else if n = 8192 + hostKey then s.due.any fun d => d.i = .hostBar4Write || d.i = .packetArrival || d.i = .cwordAdd
  else
    let c := s.ctx (n - 8192)
    c.blocked || !c.stores.isEmpty || !c.reds.isEmpty || c.cmds.toList.any fun l => !l.isEmpty

/-- Writes wait at the home of tile t: every new lease request waits behind them (R203). -/
def State.writeWaits (s : State) (t : Nat) : Bool := (s.dir t).waiting.any s.stillWaits

/-- A write that the home is to perform for context k waits at the home of tile t. -/
def State.awaitHome (s : State) (t k : Nat) : State :=
  s.updDir t fun d => { d with waiting := insertNew (d.waiting.filter s.stillWaits) (8192 + k) }

/-- The write that the home performs for context k is served. -/
def State.servedHome (s : State) (t k : Nat) : State :=
  if (s.dir t).waiting.contains (8192 + k) then s.updDir t fun d => { d with waiting := d.waiting.filter (· ≠ 8192 + k) } else s

/-- Serves a home access for context k once its needs are met; the step that asks for it comes up again otherwise. -/
def State.atHome (s : State) (i : Instr) (t c k : Nat) (write : Bool) (f : State → State) : State :=
  match s.homeNeed t c write with
  | .ready => f (s.servedHome t k)
  | .leases => (if c = noCore then s.awaitHome t k else s).later i
  | .recall j => { s with due := s.due ++ [⟨j, s.ev⟩, ⟨i, s.ev⟩] }

/-! ### Owners and partials that are recalled (R194, R205, R206) -/

/-- A core gives tile t up: its dirty lines go to their homes, for the address space of their tags, or for `asid` where the
lines have left the L1 (R205, R206). -/
def State.writeBack (s : State) (core t : Nat) (asid : BitVec 12) : State :=
  ((s.l1 core t).dirty.foldl (fun s l =>
    (s.dirtyHome core l).lookup l (some core) (((s.core core).copyOf l).elim asid fun e => e.tag.asid) 0 true) s).dropL1 core t

/-- An owner that holds no line of a tile any more gives it up: its dirty lines go home (R205, R206). Leases on a tile in O run
on, as on one in L. (DEDUCED: log entry 118.) -/
def State.ownerGives (s : State) (core t : Nat) (asid : BitVec 12) : State :=
  let d := s.dir t
  if d.owner = core && !s.holdsTile core t && (d.st matches .e | .m | .o) then
    (s.setDir t { d with st := if d.st = .o then .l else .i, owner := 0 }).writeBack core t asid
  else s

/-- The owner of a tile writes back and becomes I (R205, R206); a lost owner's dirty lines are poison (R328). -/
def State.recallOwner (s : State) (t : Nat) : State :=
  let d := s.dir t
  let lost := s.coreLost d.owner
  let s := if lost then s.poisonLines (s.l1 d.owner t).dirty else s
  let s := s.setDir t { d.endLeases with st := .i, owner := 0 }
  if lost then s.dropL1 d.owner t else s.writeBack d.owner t 0

/-- The L1s that hold partials of a tile send them, and become I (R206). -/
def State.partialsHome (s : State) (t : Nat) : State :=
  s.cores.foldl (fun s c => if (s.l1 c.1 t).st = .u then s.dropL1 c.1 t else s) s

/-- The home recalls every partial of a tile and combines them (R194, R205). -/
def State.recallPartials (s : State) (t : Nat) : State :=
  let d := s.dir t
  let lines := (d.partials.map fun p => p.pa / 128).eraseDups
  let p := d.partials.head?
  let s := (s.combineAll d.partials).lookups lines (p.map fun p => coreOf p.k) ((p.map fun p => (s.ctx p.k).asid).getD 0) true
  (s.partialsHome t).updDir t fun d => { d.endLeases with st := .i, partials := [] }

/-- What a read that the home of a line performs at once brings home first (R194, R205). -/
def State.homeRead (s : State) (line : Nat) : State :=
  let t := s.tileOf line
  match s.homeNeed t noCore false with
  | .recall .partialRecall => s.recallPartials t
  | .recall _ => s.recallOwner t
  | _ => s

end Sys2Proof.Machine
end

