-- ==== Sys2Proof/Machine/Memory.lean ====
section
/-! DEFINITION. Translation (R295 to R299), the checks of an access (R180), leases and homes (R202 to R206), what a thread
reads of its own stores (R187), and how a load and a store proceed. -/

namespace Sys2Proof.Machine

/-! ### Translation (R295 to R299) -/

/-- How a walk ends: at a leaf, with a fault, or at an entry whose line is poisoned (R16, R325). -/
inductive WalkEnd where
  | leaf (e : TlbEntry) (ptrs : List WalkEntry)
  | bad (k : FaultKind)
  | poison
  deriving DecidableEq, Repr

/-- Why a translation is not made: a fault, or poison in a table. -/
inductive XlateBad where
  | fault (k : FaultKind)
  | poison
  deriving DecidableEq, Repr

/-- A dword that the device reads at the home or the agent of a physical address, none where it is poison: a reserved address
is, and device control space that no rule lays out or that a dead agent holds (R16, R324, R328). -/
def State.dwordAt (s : State) (pa : Nat) : Option Nat := match s.paKind pa with
  | .memory => if s.lineBad (pa / 128) then none else some (s.memNat pa 8)
  | .control => if s.devDead pa then none else (s.devRead pa 8).map (·.toNat)
  | .absent => none

def policyOf (n : Nat) : Policy := if n = 0 then .cached else if n = 1 then .uncached else .combining

/-- Bits [hi:lo] of a number. -/
def bitsAt (n hi lo : Nat) : Nat := n / 2 ^ lo % 2 ^ (hi + 1 - lo)

def pteV (e : Nat) : Bool := e.testBit 0
def pteLeaf (e : Nat) : Bool := e.testBit 1
def ptePa (e : Nat) : Nat := bitsAt e 49 12 * 4096

/-- The conditions that every entry keeps (R296, R297): reserved bits clear and no W without RD. -/
def pteReserved (e : Nat) : Bool := bitsAt e 63 50 ≠ 0 || bitsAt e 11 8 ≠ 0

/-- A leaf that breaks R296 for a page of so many address bits. -/
def pteBadLeaf (e bits : Nat) : Bool :=
  pteReserved e || bitsAt e 7 6 = 3 || (e.testBit 3 && !e.testBit 2) || ptePa e % 2 ^ bits ≠ 0 ||
    (bits ≠ 12 && e.testBit 5)

/-- A table entry that breaks R296. (DEDUCED: log entry 32.) -/
def pteBadTable (e : Nat) : Bool := pteReserved e || bitsAt e 7 2 ≠ 0

/-- The 16 entries of the 128-byte line of level-0 table t that holds the entry of va (R298), none where one is poison. -/
def State.pteGroup (s : State) (t : Nat) (va : Nat) : Option (List Nat) :=
  (List.range 16).mapM fun i => s.dwordAt (t + bitsAt va 20 16 * 128 + 8 * i)

/-- Whether the present members of a CONTIG group map their places in one aligned range with one set of rights. -/
def contigOk (es : List Nat) : Bool :=
  let ps := es.zipIdx.filter fun e => pteV e.1
  match ps with
  | [] => true
  | p :: _ =>
    let base := ptePa p.1 - p.2 * 4096
    base % 65536 = 0 && ps.all fun e =>
      ptePa e.1 = base + e.2 * 4096 && bitsAt e.1 4 2 = bitsAt p.1 4 2 && bitsAt e.1 7 6 = bitsAt p.1 7 6

def tlbOf (asid : BitVec 12) (va bits e : Nat) : TlbEntry :=
  ⟨asid, va / 2 ^ bits, bits, ptePa e / 2 ^ bits, e.testBit 2, e.testBit 3, e.testBit 4, policyOf (bitsAt e 7 6)⟩

/-- The last step of a walk, at level 0 (R297, R298). -/
def State.walkLeaf (s : State) (asid : BitVec 12) (va t : Nat) (ptrs : List WalkEntry) : WalkEnd :=
  match s.pteGroup t va with
  | none => .poison
  | some es =>
    let e := es.getD (bitsAt va 15 12) 0
    let present := es.filter pteV
    if !pteV e then .bad .notPresent
    else if !pteLeaf e || pteBadLeaf e 12 then .bad .badPte
    else if !e.testBit 5 then .leaf (tlbOf asid va 12 e) ptrs
    else if !(present.all (·.testBit 5)) || !contigOk es then .bad .badPte
    else if present.length = 16 then .leaf (tlbOf asid va 16 e) ptrs
    else .leaf (tlbOf asid va 12 e) ptrs

/-- The address of the entry of a level that serves an address, in table t (R295). -/
def entryAt (t l va : Nat) : Nat := t + 8 * bitsAt va (20 + 9 * l) (12 + 9 * l)

/-- A read of a table entry at its home. -/
def State.walkRead (s : State) (core : Nat) (asid : BitVec 12) (pa : Nat) : State :=
  if s.paKind pa = .memory then (s.homeRead (pa / 128)).lookup (pa / 128) (some core) asid 0 false else s

/-- A walk from the table t of a level down (R295, R297). -/
def State.walkFrom (s : State) (asid : BitVec 12) (va : Nat) : Nat → Nat → List WalkEntry → WalkEnd
  | 0, t, ptrs => s.walkLeaf asid va t ptrs
  | l + 1, t, ptrs =>
    match s.dwordAt (entryAt t (l + 1) va) with
    | none => .poison
    | some e =>
      if !pteV e then .bad .notPresent
      else if pteLeaf e then
        if l = 2 || pteBadLeaf e (12 + 9 * (l + 1)) then .bad .badPte
        else .leaf (tlbOf asid va (12 + 9 * (l + 1)) e) ptrs
      else if pteBadTable e then .bad .badPte
      else s.walkFrom asid va l (ptePa e) (⟨asid, l, va / 2 ^ (21 + 9 * l), ptePa e⟩ :: ptrs)

/-- The reads that such a walk makes at the homes of its entries for a core, each once what the home must recall is there, and
a lookup of its line (R177, R178, R194, R295). -/
def State.walkReads (s : State) (core : Nat) (asid : BitVec 12) (va : Nat) : Nat → Nat → State
  | 0, t => s.walkRead core asid (entryAt t 0 va)
  | l + 1, t =>
    let s := s.walkRead core asid (entryAt t (l + 1) va)
    match s.dwordAt (entryAt t (l + 1) va) with
    | none => s
    | some e => if !pteV e || pteLeaf e || pteBadTable e then s else s.walkReads core asid va l (ptePa e)

/-- The lines of the entries that such a walk reads. -/
def State.walkLines (s : State) (va : Nat) : Nat → Nat → List Nat
  | 0, t => [entryAt t 0 va / 128]
  | l + 1, t =>
    entryAt t (l + 1) va / 128 :: match s.dwordAt (entryAt t (l + 1) va) with
      | none => []
      | some e => if !pteV e || pteLeaf e || pteBadTable e then [] else s.walkLines va l (ptePa e)

/-- Where a walk starts: the level and the table of the walk cache's deepest pointer, or the root that PTBASE names, none
while it is not VALID (R295, R299). -/
def State.walkStart (s : State) (cl : Nat) (asid : BitVec 12) (va : Nat) : Option (Nat × Nat) :=
  let pb := (s.space asid.toNat).ptbase.toNat
  let hit := fun l => (s.cluster cl).wcache.find? fun w =>
    w.asid = asid && w.level = l && w.vprefix = va / 2 ^ (21 + 9 * l)
  match [0, 1, 2].findSome? hit with
  | some w => some (w.level, w.table)
  | none => if !pb.testBit 0 then none else some (3, bitsAt pb 49 12 * 4096)

/-- A walk of the tables of an address space (R295, R299). -/
def State.walk (s : State) (cl : Nat) (asid : BitVec 12) (va : Nat) : WalkEnd :=
  match s.walkStart cl asid va with
  | some (l, t) => s.walkFrom asid va l t []
  | none => .bad .notPresent

/-- The reads of a walk for a core of the cluster. -/
def State.walked (s : State) (cl core : Nat) (asid : BitVec 12) (va : Nat) : State :=
  match s.walkStart cl asid va with
  | some (l, t) => s.walkReads core asid va l t
  | none => s

/-- An entry of a walk is held by a dead agent (R328). -/
def State.walkDead (s : State) (cl : Nat) (asid : BitVec 12) (va : Nat) : Bool :=
  match s.walkStart cl asid va with
  | some (l, t) => (s.walkLines va l t).any s.lineDead
  | none => false

/-- The translations that share a set of the TLB with one; while the TLB holds fewer than a set has ways, none is
replaced. (DESIGN CHOICE: log entry 115.) -/
def tlbSetOf (es : List TlbEntry) (e : TlbEntry) : List TlbEntry :=
  if es.length < 16 then es
  else es.filter fun x => Config.tlbSet x.bits x.vpage % 128 = Config.tlbSet e.bits e.vpage % 128

/-- A translation comes into a TLB of 128 sets of 16 ways: the oldest of a full set is replaced (R299).
(DEDUCED: log entry 31.) -/
def fillSet (es : List TlbEntry) (e : TlbEntry) : List TlbEntry :=
  let set := tlbSetOf es e
  if set.length < 16 then e :: es
  else match set.getLast? with
    | some v => e :: es.erase v
    | none => e :: es

/-- A finished walk fills the cluster's TLB and its walk cache, of 64 pointers (R299). (DEDUCED: log entry 31.) -/
def State.fillTlb (s : State) (cl : Nat) (e : TlbEntry) (ptrs : List WalkEntry) : State :=
  s.updCluster cl fun c =>
    { c with tlb := fillSet (c.tlb.filter (· ≠ e)) e
             wcache := (ptrs ++ c.wcache.filter fun w => !ptrs.contains w).take 64 }

def State.tlbHit (s : State) (cl : Nat) (asid : BitVec 12) (va : Nat) : Option TlbEntry :=
  (s.cluster cl).tlb.find? fun e => e.asid = asid && e.vpage = va / 2 ^ e.bits

/-- Whether a page grants an access (R297). -/
def TlbEntry.grants (e : TlbEntry) : Access → Bool
  | .load => e.rd
  | .store => e.w
  | .atomic => e.rd && e.w
  | .fetch => e.x

def TlbEntry.pa (e : TlbEntry) (va : Nat) : Nat := e.ppage * 2 ^ e.bits + va % 2 ^ e.bits

/-- A translation that an engine or a page-by-page instruction of a core makes: at once, filling the TLB. -/
def State.xlate (s : State) (core : Nat) (asid : BitVec 12) (acc : Access) (va : Word) :
    State × Except XlateBad (Nat × Policy) :=
  let cl := clusterOf core
  let use := fun (s : State) (e : TlbEntry) =>
    (s, if e.grants acc then Except.ok (e.pa va.toNat, e.policy) else Except.error (XlateBad.fault .permission))
  match s.tlbHit cl asid va.toNat with
  | some e => use s e
  | none =>
    let t := s.walked cl core asid va.toNat
    match t.walk cl asid va.toNat with
    | .leaf e ptrs => use (t.fillTlb cl e ptrs) e
    | .bad k => (t, .error (.fault k))
    | .poison => (t, .error .poison)

/-! ### The checks of an access (R180) -/

/-- What the checks of one location find. -/
inductive Look where
  | at (p : Place)
  | trap (c : Cause)
  | fault (k : FaultKind)
  | walk
  deriving DecidableEq, Repr

/-- The checks of R180 in order, for a context's access of an alignment. -/
def State.look (s : State) (k : Nat) (acc : Access) (align : Nat) (va : Word) : Look :=
  if va.toNat % align ≠ 0 then .trap .misalignedData
  else match regionOf va with
    | .bad => .trap .badVaddr
    | .own a =>
      if a < claimBytes (s.ctx k).claim then .at (.own (arrayByte (coreOf k) (s.ctx k).claim a)) else .trap .scratchRange
    | .remote c sl a => .at (.remote c sl a)
    | .translated =>
      match s.tagHit (coreOf k) (s.ctx k).asid acc va.toNat with
      | some e => .at (.phys (e.line * 128 + va.toNat % 128) .cached)
      | none =>
        match s.tlbHit (clusterOf (coreOf k)) (s.ctx k).asid va.toNat with
        | none => .walk
        | some e => if e.grants acc then .at (.phys (e.pa va.toNat) e.policy) else .fault .permission

/-- The tag with which a context's access of an address brings a line into the L1 (R299): that of the line that hits, else
the rights of the page's translation. -/
def State.tagFor (s : State) (k : Nat) (va : Word) : VTag :=
  let asid := (s.ctx k).asid
  let v := va.toNat / 128
  match (s.core (coreOf k)).lines.find? fun e => e.spec.isNone && e.tag.asid = asid && e.tag.vline = v with
  | some e => e.tag
  | none => match s.tlbHit (clusterOf (coreOf k)) asid va.toNat with
    | some e => ⟨asid, v, e.rd, e.w, e.x⟩
    | none => ⟨asid, v, false, false, false⟩

/-- The pages of the walks in flight in a cluster, by address space (R299). -/
def State.walkPages (s : State) (cl : Nat) : List (BitVec 12 × Nat) :=
  (s.ctxs.filterMap fun e =>
    if clusterOf (coreOf e.1) = cl && e.2.run = .walking then e.2.walk.map fun w => (e.2.asid, w.va.toNat / 4096) else none).eraseDups

/-- The thread waits for the translation of va: it joins the walk of its page that is in flight in the cluster, or starts one
while fewer than 16 are (R299). -/
def State.startWalk (s : State) (acc : Access) (va : Word) : Done :=
  let s' := s.updTh fun c => { c with walk := some ⟨va, acc⟩ }
  let ps := s.walkPages (clusterOf s.myCore)
  if ps.contains (s.th.asid, va.toNat / 4096) then .wait s' .walking
  else if 16 ≤ ps.length then .stay s
  else .wait (s'.cause .pageWalkComplete { k := s.cur }) .walking

/-! ### Transactions and plain accesses (R213, R214) -/

/-- The contexts whose live transactions hold a tile in one of the sets chosen. -/
def State.holders (s : State) (t : Nat) (sets : Tx → List Nat) : List Nat :=
  (s.ctxs.filter fun e => match e.2.tx with
    | some x => (sets x).contains t
    | none => false).map (·.1)

/-- Aborts a transaction with cause conflict, once. -/
def State.conflictAbort (s : State) (k : Nat) : State :=
  if (s.ctx k).abort.isSome then s else s.startAbort k ⟨1, 0, .handler⟩

/-- A transaction that no request aborts at a tile: the token holder's (R221), and one whose directory there has
answered PREPARE (R215). -/
def State.unabortable (s : State) (k t : Nat) : Bool :=
  (s.ctx k).txstat.irrev || match (s.ctx k).tx with
    | some x => match x.phase with
      | .live => false
      | .preparing left _ => !left.contains t
      | .committing _ _ => true
    | none => false

/-- The transactions that a non-transactional access of context k to a tile aborts (R214): a load those that write
it, a store or atomic those that hold it, a RED of an operation those that hold it but for that operation. -/
def State.plainConflicts (s : State) (k t : Nat) (write : Bool) (red : Option Nat) : List Nat :=
  let hs := if !write then s.holders t (·.writes)
    else match red with
      | some op => s.holders t fun x => x.writes ++ x.reads ++ (x.reds.filter fun e => e.2 ≠ op).map (·.1)
      | none => s.holders t Tx.tiles
  hs.filter (· ≠ k)

/-- Clears the way of a non-transactional access: false while a prepared transaction, a token holder or an abort
that is not over stands in it. -/
def State.clearPath (s : State) (k t : Nat) (write : Bool) (red : Option Nat) : State × Bool :=
  let hs := s.plainConflicts k t write red
  if hs.any fun h => s.unabortable h t then (s, false)
  else
    let s := hs.foldl State.conflictAbort s
    (s, (s.plainConflicts k t write red).isEmpty)

/-- A transaction that writes or reduces tile t has been prepared there: the commit waits for the leases that its directory
has answered with, and later lease requests wait behind it (R203, R215). -/
def State.commitWaits (s : State) (k t : Nat) : Bool :=
  (s.holders t fun x => x.writes ++ x.reds.map (·.1)).any fun h => h ≠ k && !(s.ctx h).txstat.irrev && s.unabortable h t

/-- The state in which an access waits for the transactions in its way, which are aborted, none when there are none. -/
def State.clearFor (s : State) (k t : Nat) (write : Bool) : Option State :=
  if (s.plainConflicts k t write none).isEmpty then none else some (s.clearPath k t write none).1

/-! ### Bytes (R181, R187) -/

/-- The last byte that a list of writes puts at an address. -/
def lastByte (ws : List (Nat × Byte)) (a : Nat) : Option Byte := (ws.reverse.find? fun w => w.1 = a).map (·.2)

/-- The thread's own latest byte for a physical address that is not yet visible, if there is one (R187, R219). -/
def Ctx.ownByte (c : Ctx) (a : Nat) : Option Byte :=
  match c.tx.bind fun x => Tbl.get? x.spec a with
  | some b => some b
  | none => lastByte (c.stores.flatMap (·.bytes)) a

/-- The byte that context k reads at a physical address. -/
def State.byteFor (s : State) (k a : Nat) : Byte := ((s.ctx k).ownByte a).getD (Mem.read s.mem a)

def State.bytesFor (s : State) (k a : Nat) : Nat → List Byte
  | 0 => []
  | n + 1 => s.byteFor k a :: s.bytesFor k (a + 1) n

/-- A posted store of the thread, or one of its transaction, has written the whole of a line (R187). -/
def Ctx.wroteWhole (c : Ctx) (line : Nat) : Bool :=
  (c.tx.any fun x => x.full.contains line) || c.stores.any fun q => q.line = line && (q.clean || (fullLines q.bytes).contains line)

/-- Whether a read of a physical address by context k meets poison: in the thread's own stores, where they hold the whole line,
else in its core's copy of a cached line, or at its home (R180, R187, R324). -/
def State.readBad (s : State) (k pa : Nat) (policy : Policy) : Bool :=
  if s.paKind pa = .memory then
    s.specBad k (pa / 128) || (!(s.ctx k).wroteWhole (pa / 128) &&
      (if policy = .cached then s.copyBad (coreOf k) (pa / 128) else s.lineBad (pa / 128)))
  else s.paPoison pa

/-! ### Speculative writes (R212, R213) -/

/-- A byte of a store to physical memory: its address, the mapping and the address of the lane that writes it. -/
structure PhysByte where
  pa : Nat
  byte : Byte
  policy : Policy
  va : Word
  deriving DecidableEq, Repr

/-- Adds speculative bytes (R212), and the lines that they cover whole. -/
def Ctx.specWrite (c : Ctx) (ws : List (Nat × Byte)) : Ctx :=
  let full := fullLines ws
  { c with tx := c.tx.map fun x =>
      { x with spec := ws.foldl (fun m w => Tbl.set m w.1 w.2) x.spec, full := full ++ x.full.filter fun l => !full.contains l } }

/-- A store of a transaction writes lines of its speculative copies whole: the copies lose their poison bits (R180, R324). -/
def State.cleanSpec (s : State) (k : Nat) (ls : List Nat) : State :=
  if ls.isEmpty then s
  else s.updCore (coreOf k) fun v =>
    { v with lines := v.lines.map fun e => if e.spec = some k && ls.contains e.line then { e with bad := false } else e }

/-- A transaction of context k writes bytes of memory: its core's L1 holds speculative copies of their lines (R212). -/
def State.specStore (s : State) (k : Nat) (ws : List PhysByte) (hint : Nat) : State :=
  let lines := ((ws.filter fun w => s.paKind w.pa = .memory).map fun w => w.pa / 128).eraseDups
  (lines.foldl (fun t l =>
    t.bringL1 (coreOf k) l (s.tagFor k (((ws.find? fun w => w.pa / 128 = l).map (·.va)).getD 0)) hint (some k))
    (s.updCtx k fun c => c.specWrite (ws.map fun w => (w.pa, w.byte)))).cleanSpec k (fullLines (ws.map fun w => (w.pa, w.byte)))

/-- The speculative partials of a tile become speculative writes (R213): each location is combined as its home would
(R130, R131). -/
def State.realise (s : State) (k t : Nat) : State :=
  match (s.ctx k).tx with
  | none => s
  | some x =>
    let ps := x.partials.filter fun p => s.tileOf (p.pa / 128) = t
    let s := s.updCtx k fun c => { c with tx := some { x with partials := x.partials.filter fun p => s.tileOf (p.pa / 128) ≠ t } }
    ((ps.map fun p => (p.pa, p.dword)).eraseDups).foldl (fun s l =>
      if s.paPoison l.1 then s
      else
        let size := if l.2 then 8 else 4
        let old := natOfBytes (s.bytesFor k l.1 size)
        let v := combinePartials (8 * size) old (ps.filter fun p => (p.pa, p.dword) = l)
        s.specStore k ((pairsAt l.1 size (BitVec.ofNat 64 v)).map fun w => ⟨w.1, w.2, .cached, BitVec.ofNat 64 (l.1 % 128)⟩) 0) s

/-! ### Registering tiles in a transaction (R212, R213) -/

/-- How an access registers its tile: reading, writing or reducing with an operation. -/
inductive TxKind where
  | read
  | write
  | reduce (op : Nat)
  deriving DecidableEq, Repr

/-- The number of a kind in an event. -/
def TxKind.code : TxKind → Nat
  | .read => 0
  | .write => 1
  | .reduce op => 2 + op

def TxKind.ofCode (n : Nat) : TxKind := if n = 0 then .read else if n = 1 then .write else .reduce (n - 2)

/-- A transaction holds a tile as a reducer. -/
def Tx.reduces (x : Tx) (t : Nat) : Bool := x.reds.any fun e => e.1 = t

/-- A transaction needs no further registration for an access of a tile. -/
def Tx.covers (x : Tx) (t : Nat) : TxKind → Bool
  | .read => x.writes.contains t || (x.reads.contains t && !x.reduces t)
  | .write => x.writes.contains t
  | .reduce op => x.writes.contains t || x.reds.contains (t, op)

/-- A transaction holds contributions of its own to a tile, which an access other than another contribution must find combined. -/
def Tx.owes (x : Tx) (ts : List Nat) (tileOf : Nat → Nat) : TxKind → Option Nat
  | .reduce _ => none
  | _ => ts.find? fun t => x.partials.any fun p => tileOf (p.pa / 128) = t

/-- Inside a transaction: goes on once every line's tile is registered, and waits for the first that is not. A
registration beyond the 256th tile aborts with cause capacity, but not under the token (R212, R221). The transaction's own
contributions to a tile are combined before it reads or writes there (R213, R216). -/
def State.touch (s : State) (kind : TxKind) (lines : List Nat) (f : Done) : Done :=
  match s.th.tx with
  | none => f
  | some x =>
    match lines.find? fun l => !x.covers (s.tileOf l) kind with
    | none => match x.owes (lines.map s.tileOf) s.tileOf kind with
      | some t => .stay (s.realise s.cur t)
      | none => f
    | some l =>
      if s.th.speculative && !x.tiles.contains (s.tileOf l) && 256 ≤ x.tiles.length then .abort 2 0
      else .stay (s.causeOnce .txRegistration { k := s.cur, line := l, n := kind.code })

/-! ### Accesses that have passed the checks -/

/-- The physical addresses of memory among the locations. -/
def State.linesOf (s : State) (ls : List Loc) : List Nat :=
  (ls.filterMap fun l => match l.place with
    | .phys pa _ => if s.paKind pa = .memory then some (pa / 128) else none
    | _ => none).eraseDups

/-- A location's line of the own scratchpad is pending (R234). -/
def State.ownPending (s : State) (ls : List Loc) : Bool :=
  ls.any fun l => match l.place with
    | .own b => s.scratchPending.contains (b / 128)
    | _ => false

/-- An own scratchpad location while a store of the thread to its own slot travels through the remote window (R187). -/
def State.ownEchoes (s : State) (ls : List Loc) : Bool :=
  (ls.any fun l => l.place matches .own _) && s.msgs.any fun e => match e.2 with
    | .remote k _ _ rs _ => k = s.cur && rs.any fun r => r.core * 8 + r.slot = s.cur
    | _ => false

/-- A remote store or RED of context k with a number below n is on its way. -/
def State.remoteStores (s : State) (k n : Nat) : Bool :=
  s.msgs.any fun e => e.1 < n && match e.2 with
    | .remote j _ _ _ .store => j = k
    | .remote j _ _ _ (.red _) => j = k
    | _ => false

/-- Every store that context k made with a number below n is visible (R204); a palimpsest copy is one of its stores (R163).
(DEDUCED: log entry 15.) -/
def State.storesDone (s : State) (k n : Nat) : Bool :=
  let c := s.ctx k
  !(c.stores.any fun q => q.id < n) && !(c.reds.any fun q => q.id < n) && !s.remoteStores k n &&
    !(s.palCopies.any fun p => p.k = k && p.id < n) && c.visible ≤ s.gtOf (dieOf (coreOf k))

/-- Every load that context k made with a number below n has returned, and every store is visible (R184). (DEDUCED: log
entry 17.) -/
def State.releasedTo (s : State) (k n : Nat) : Bool := !((s.ctx k).loads.any fun q => q.id < n) && s.storesDone k n

/-- Every earlier store of the thread is visible (R204). -/
def State.released (s : State) (k : Nat) : Bool := s.storesDone k s.nextId

/-- A `FENCE.rel` of the thread holds its later stores back: something that was made before it is not complete (R184, R189). -/
def State.fenceHolds (s : State) : Bool :=
  match s.th.fence with
  | some n => !s.releasedTo s.cur n
  | none => false

/-- A load of the thread in flight names a byte of the locations (R184, first row). -/
def Ctx.loadOverlaps (c : Ctx) (size : Nat) (ls : List Loc) : Bool :=
  ls.any fun l => match l.place with
    | .phys pa _ => c.loads.any fun q => q.pieces.any fun p => match p.src with
      | .phys pb _ => pa < pb + q.size && pb < pa + size
      | .here _ => false
    | _ => false

/-- A contribution of the thread that has not reached its home lies in a line of the locations (R194). -/
def Ctx.redOverlaps (c : Ctx) (ls : List Loc) : Bool :=
  ls.any fun l => match l.place with
    | .phys pa _ => c.reds.any fun r => r.pa / 128 = pa / 128
    | _ => false

/-- A palimpsest copy has still to write a line of memory (R163). -/
def State.palPending (s : State) (line : Nat) : Bool := s.palCopies.any fun p => p.lines.any fun q => q.1 = (false, line * 128)

/-- A location lies in a line that a palimpsest copy has still to write (R163). -/
def State.palHolds (s : State) (ls : List Loc) : Bool :=
  !s.palCopies.isEmpty && ls.any fun l => match l.place with
    | .phys pa _ => s.palPending (pa / 128)
    | _ => false

/-- What is ordered behind the thread's earlier accesses waits: anything behind an acquire in flight, and stores, contributions
and pushes behind a `FENCE.rel` whose earlier accesses are not complete (R184). -/
def State.heldBack (s : State) (store : Bool) : Bool := s.th.loads.any (·.acq) || (store && s.fenceHolds)

/-- The answer to an access of a location would come from a dead agent: not one that the L1, or a live requester slice under its
lease, gives (R328). -/
def State.answerDead (s : State) (acc : Access) (l : Loc) : Bool := match l.place with
  | .phys pa pol => match s.paKind pa with
    | .memory => s.lineDead (pa / 128) && !(pol = .cached &&
        (if acc = .load then s.l1Hit s.myCore (pa / 128) || s.sliceHolds s.myCore (s.tileOf (pa / 128)) (pa / 128)
          else s.l1Owns s.myCore (pa / 128)))
    | .control => s.devDead pa
    | .absent => false
  | .remote c _ _ => s.coreLost c
  | .own _ => false

/-- Applies the checks of R180 to the lanes in ascending order and goes on with their places. An acquire in flight
holds later accesses back (R184). -/
def State.access (s : State) (acc : Access) (align : Nat) (lanes : List (Nat × Word)) (f : List Loc → Done) : Done :=
  if s.heldBack (acc ≠ .load) then .stay s
  else
    match lanes.findSome? fun l => match s.look s.cur acc align l.2 with
        | .at _ => none
        | r => some (l.2, r) with
    | some (va, .trap c) => .trap c va
    | some (va, .fault k) => .fault k acc va
    | some (va, _) => s.startWalk acc va
    | none =>
      let ls := lanes.filterMap fun l => match s.look s.cur acc align l.2 with
        | .at p => some ⟨l.1, l.2, p⟩
        | _ => none
      if s.ownPending ls || s.ownEchoes ls || s.th.redOverlaps ls || s.palHolds ls then .stay s
      else if ls.any (s.answerDead acc) then .blot
      else f ls

def remoteLanes (ls : List Loc) (val : Nat → Word) : List RemoteLane :=
  ls.filterMap fun l => match l.place with
    | .remote c sl a => some ⟨l.lane, c, sl, a, l.va, val l.lane⟩
    | _ => none

/-- Sends an access to other cores' scratchpads (R169). -/
def State.sendRemote (s : State) (size : Nat) (lanes : List RemoteLane) (op : RemoteOp) : State :=
  let id := s.nextId
  ({ s.newId with msgs := Tbl.set s.msgs id (.remote s.cur s.th.asid size lanes op) }).cause .remoteScratchAccess
    { k := s.cur, id := id }

/-- Answers of other cores' scratchpads, where the locations ask for any; the thread waits for them (R169). -/
def State.withRemote (s : State) (size : Nat) (ls : List Loc) (val : Nat → Word) (op : RemoteOp)
    (f : State → List (Nat × Option Word) → Done) : Done :=
  match remoteLanes ls val with
  | [] => f s []
  | rs =>
    match s.th.answer with
    | none => .wait (s.sendRemote size rs op) .remote
    | some (.values vs) => f (s.updTh fun c => { c with answer := none }) (vs.map fun v => (v.1, some v.2))
    | some (.failed ea) => .trap .scratchRange ea
    | some (.poisoned ea) =>
      f (s.updTh fun c => { c with answer := none }) (rs.map fun r => (r.lane, if r.ea = ea then none else some 0))
    | some .lost => .blot

/-- The value of a lane, none where it is poisoned. -/
def State.pieceValue (s : State) (k size : Nat) (p : Piece) : Option Word :=
  match p.src with
  | .here v => v
  | .phys pa pol => if s.readBad k pa pol then none else some (wordOf (s.bytesFor k pa size))

/-- A load's values by lane reach its destination: poison empties the destination and is reported later (R180). -/
def Ctx.fill (c : Ctx) (dst : LoadDst) (ps : List (Nat × Word × Option Word)) : Ctx :=
  match ps.find? fun p => p.2.2.isNone with
  | some p =>
    { c with r := c.r.setFe .idle (match dst with | .x r => .x r | .v r => .v r)
             poison := some (c.poison.getD p.2.1) }
  | none =>
    match dst with
    | .x r => c.setX r ((ps.head?.bind fun p => p.2.2).getD 0)
    | .v r => c.setV r (ps.foldl (fun v p => vput v p.1 ((p.2.2.getD 0).setWidth 32)) (c.getV r))

/-- A line is asked for ahead of its use, with a hint: into the L1 (7), into the requester slice and the home slice (6), or into
the home slice and the quire (5). A line that cannot be translated or is not cached is left alone (R175, R196). -/
def State.prefetch (s : State) (va : Word) (level hint : Nat) : State :=
  match regionOf va with
  | .translated =>
    match s.xlate s.myCore s.th.asid .load va with
    | (t, .ok (pa, .cached)) =>
      if t.paKind pa = .memory then
        t.cause .leaseRequest { k := s.cur, core := s.myCore, line := pa / 128, id := s.nextId, n := level, q := hint, tag := t.tagFor s.cur va }
      else t
    | (t, _) => t
  | _ => s

/-- The 3 lines behind a line of virtual memory are prefetched into the L1, with the hint that asks for it (R175). (DEDUCED: log
entry 142.) -/
def State.streamOn (s : State) (v : Nat) : State :=
  [1, 2, 3].foldl (fun s i => s.prefetch (BitVec.ofNat 64 ((v + i) * 128)) 7 4) s

/-- A streaming access prefetches the 3 lines behind each line that it names (R175). -/
def State.streaming (s : State) (hint : Nat) (ls : List Loc) : State :=
  if hint ≠ 4 then s
  else ((ls.filterMap fun l => match l.place with
      | .phys _ .cached => some (l.va.toNat / 128)
      | _ => none).eraseDups).foldl State.streamOn s

/-- The cached memory lines among locations, with the address of the first location in each. -/
def State.cachedLines (s : State) (ls : List Loc) : List (Nat × Word) :=
  (ls.foldl (fun (t : List (Nat × Word)) l => match l.place with
    | .phys pa .cached => if s.paKind pa = .memory && !(t.any fun e => e.1 = pa / 128) then t ++ [(pa / 128, l.va)] else t
    | _ => t) [])

/-- A plain load that hits in a tile that the core owns meets the transactions that write it, which abort or are waited for
(R214, R221); none where there are none. -/
def State.ownedPath (s : State) (ls : List Loc) : Option State :=
  if s.th.tx.isSome then none
  else (s.cachedLines ls).findSome? fun e =>
    let t := s.tileOf e.1
    if s.l1Hit s.myCore e.1 && !((s.l1 s.myCore t).st matches .l _) then s.clearFor s.cur t false else none

/-- A location's bytes are all speculative stores of the thread's own transaction. -/
def Ctx.specHit (c : Ctx) (pa size : Nat) : Bool :=
  match c.tx with
  | some x => (List.range size).all fun i => (Tbl.get? x.spec (pa + i)).isSome
  | none => false

/-- The effect of a load whose locations are known (R180, R181). (DEDUCED: log entry 37.) -/
def State.loadLocs (s : State) (dst : LoadDst) (size : Nat) (acq : Bool) (hint : Nat) (ls : List Loc) : Done :=
  if s.th.loadOverlaps size ls then .stay s
  else s.withRemote size ls (fun _ => 0) .load fun s ans =>
    s.touch .read (s.linesOf ls) <|
      let pieces : List Piece := ls.map fun l => ⟨l.lane, l.va, match l.place with
        | .own b => .here (if s.scratchPoison.contains (b / 128) then none
            else some (wordOf (Mem.readBytes s.scratch b size)))
        | .remote _ _ _ => .here ((ans.find? fun a => a.1 = l.lane).bind (·.2))
        | .phys pa pol => .phys pa pol⟩
      let missing := (ls.filterMap fun l => match l.place with
        | .phys pa pol =>
          if (s.paKind pa = .memory && pol = .cached && s.l1Hit s.myCore (pa / 128)) || s.th.specHit pa size then none
          else some (pa / 128, decide (s.paKind pa = .memory ∧ pol = .cached))
        | _ => none).eraseDups
      if s.th.speculative && ls.any (fun l => match l.place with | .phys pa pol => s.readBad s.cur pa pol | _ => false) then .abort 8 0
      else match s.ownedPath ls with
      | some t => .stay t
      | none =>
        let s' := ((s.cachedLines ls).foldl (fun t e => t.useL1 s.myCore e.1 (s.tagFor s.cur e.2) hint) s).streaming hint ls
        if missing.isEmpty then
          .next (s'.updTh fun c => c.fill dst (pieces.map fun p => (p.lane, p.va, s.pieceValue s.cur size p)))
        else
          let id := s'.nextId
          let t := s'.newId.updTh fun c =>
            { c with r := c.r.makePending [match dst with | .x r => .x r | .v r => .v r]
                     loads := c.loads ++ [⟨id, dst, size, pieces, (missing.map (·.1)).eraseDups, acq⟩] }
          .next (missing.foldl (fun t m => t.cause (if m.2 then .leaseRequest else .homeAccess)
            { k := s.cur, core := s.myCore, id := id, line := m.1, q := hint
              tag := s.tagFor s.cur (((s.cachedLines ls).find? fun e => e.1 = m.1).elim 0 (·.2)) }) t)

/-- A load of lanes (R180, R181). -/
def State.load (s : State) (dst : LoadDst) (size : Nat) (acq : Bool) (hint : Nat) (lanes : List (Nat × Word)) : Done :=
  s.access .load size lanes (s.loadLocs dst size acq hint)

/-- Posts the bytes of a store of context k to one line. -/
def State.postStoreFor (s : State) (k line : Nat) (policy : Policy) (ws : List (Nat × Byte)) (tag : VTag) (hint : Nat)
    (clean : Bool) : State :=
  let id := s.nextId
  let ev : Ev := { k := k, core := coreOf k, id := id, line := line, n := 1, q := hint, tag := tag }
  let s := s.newId.updCtx k fun c => { c with stores := c.stores ++ [⟨id, line, ws, policy, tag, hint, clean⟩] }
  if policy = .cached && s.paKind (line * 128) = .memory then
    if s.l1Owns (coreOf k) line then s.cause .exclusiveGrant ev
    else (s.cause .exclusiveRequest ev).cause .exclusiveGrant ev
  else s.cause .homeAccess ev

/-- Posts a store's bytes to one line. -/
def State.postStore (s : State) (line : Nat) (policy : Policy) (ws : List (Nat × Byte)) (tag : VTag) (hint : Nat) : State :=
  s.postStoreFor s.cur line policy ws tag hint false

/-- A store's bytes by place. -/
def locPairs (ls : List Loc) (size : Nat) (val : Nat → Word) (f : Place → Option Nat) : List (Nat × Byte) :=
  ls.flatMap fun l => match f l.place with
    | some a => pairsAt a size (val l.lane)
    | none => []

def Place.ownAt : Place → Option Nat
  | .own b => some b
  | _ => none

/-- Of several bytes for one address the last remains (R181). -/
def lastBytes : List PhysByte → List PhysByte
  | [] => []
  | w :: ws => if ws.any fun x => x.pa = w.pa then lastBytes ws else w :: lastBytes ws

/-- The bytes that a store writes to physical memory, lane by lane: where lanes name one byte, the highest lane's. -/
def physBytes (ls : List Loc) (size : Nat) (val : Nat → Word) : List PhysByte :=
  lastBytes (ls.flatMap fun l => match l.place with
    | .phys pa pol => (pairsAt pa size (val l.lane)).map fun w => ⟨w.1, w.2, pol, l.va⟩
    | _ => [])

/-- The byte whose mapping the store of a line uses: the first cached one, else the first. (DESIGN CHOICE: log entry 143.) -/
def leadByte (ws : List PhysByte) : Option PhysByte := (ws.find? fun w => w.policy = .cached).orElse fun _ => ws.head?

/-- Posts physical writes line by line, so that a line's bytes become visible together, whatever mappings name them (R182,
R188). -/
def State.postLines (s : State) (hint : Nat) (ws : List PhysByte) : State :=
  ((ws.map fun w => w.pa / 128).eraseDups).foldl
    (fun s l =>
      let on := ws.filter fun w => w.pa / 128 = l
      match leadByte on with
      | some b => s.postStore l b.policy (on.map fun w => (w.pa, w.byte)) (s.tagFor s.cur b.va) hint
      | none => s) s

/-- Where a store's lanes name the own scratchpad both directly and through the remote window, all of them travel, so that
they are applied in their order (R181). -/
def State.sameWindow (s : State) (ls : List Loc) : List Loc :=
  let c := coreOf s.cur
  let sl := slotOf s.cur
  if (ls.any fun l => l.place matches .own _) && (ls.any fun l => match l.place with
      | .remote d t _ => d = c && t = sl
      | _ => false) then
    ls.map fun l => match l.place with
      | .own _ => { l with place := .remote c sl (l.va.toNat - ownBase) }
      | _ => l
  else ls

/-- The effect of a store whose locations are known (R180, R181, R219). -/
def State.storeLocs (s : State) (size : Nat) (val : Nat → Word) (hint : Nat) (ls : List Loc) : Done :=
  if s.th.loadOverlaps size ls then .stay s
  else s.touch .write (s.linesOf ls) <|
    let ls := s.sameWindow ls
    let s := s.landScratch (locPairs ls size val Place.ownAt)
    let s := match remoteLanes ls val with
      | [] => s
      | rs => s.sendRemote size rs .store
    let ws := physBytes ls size val
    let s := s.streaming hint ls
    .next (if s.th.speculative then s.specStore s.cur ws hint else s.postLines hint ws)

/-- A store of lanes (R180, R181). (DEDUCED: log entry 46.) -/
def State.store (s : State) (size hint : Nat) (lanes : List (Nat × Word)) (val : Nat → Word) : Done :=
  s.access .store size lanes (s.storeLocs size val hint)

/-! ### Releases (R189, R204) -/

/-- Reports the thread's first failed remote store, if there is one (R169). -/
def State.reportRemote (s : State) (f : Done) : Done :=
  match s.th.remoteFail with
  | some e => .final ((s.updTh fun c => { c with remoteFail := none }).deliver s.cur .scratchRange e.2 s.th.pc)
  | none => f

/-- Goes on once the thread's earlier accesses are complete and its stores visible, and waits otherwise (R184,
R189, R204). Inside a speculative transaction it orders the transaction's own accesses only (R219). -/
def State.drained? (s : State) (f : Done) : Done :=
  if s.th.speculative then
    if s.remoteStores s.cur s.nextId then .stay s else f
  else if !s.th.loads.isEmpty then .stay s
  else if s.released s.cur then f
  else .wait (s.causeOnce .releaseComplete { k := s.cur }) .release

/-- The same for a release that reports a failed remote store (R169). -/
def State.released? (s : State) (f : Done) : Done := s.drained? (s.reportRemote f)

end Sys2Proof.Machine
end

