-- ==== Sys2Proof/Machine/Operands.lean ====
section
/-! DEFINITION. Operand forms: the effective address of F-M (R168), the lane addresses of the vector forms (R181),
immediates and branch targets (R40), and what a memory form reads. -/

namespace Sys2Proof.Machine

/-- An F-M offset or an F-RI immediate, sign-extended to 64 bits (R40). -/
def sext {n : Nat} (b : BitVec n) : Word := b.signExtend 64

/-- The scale factor 1, 2, 4 or 8 (R168). -/
def scaleOf (sc : BitVec 2) : Word := BitVec.ofNat 64 (2 ^ sc.toNat)

/-- The effective address with an index register (R168). -/
def State.eaIndex (s : State) (f : FM) : Word := s.x f.base + s.x f.idx * scaleOf f.scale + sext f.off

/-- The effective address of a form whose index field carries data: the index term is 0 (R168). -/
def State.eaPlain (s : State) (f : FM) : Word := s.x f.base + sext f.off

/-- The selected lanes, ascending. -/
def lanesIn (m : W32) : List Nat := (List.range 32).filter fun i => m.getLsbD i

/-- The lane addresses of `LDV` and `STV` (R181). -/
def laneConsecutive (m : W32) (ea : Word) : List (Nat × Word) :=
  (lanesIn m).map fun i => (i, ea + BitVec.ofNat 64 (4 * i))

/-- The lane addresses of `LDVS` and `STVS` (R181). -/
def State.laneStride (s : State) (m : W32) (f : FM) : List (Nat × Word) :=
  (lanesIn m).map fun i => (i, s.eaPlain f + BitVec.ofNat 64 i * (s.x f.idx * scaleOf f.scale))

/-- The lane addresses of `LDVX`, `STVX` and `AMOV` (R181, R192). -/
def State.laneIndexed (s : State) (m : W32) (f : FM) : List (Nat × Word) :=
  (lanesIn m).map fun i => (i, s.eaPlain f + (vat (s.v f.idx) i).zeroExtend 64 * scaleOf f.scale)

end Sys2Proof.Machine

namespace Sys2Proof

open Machine

/-- The sources of a form with an index register. -/
def FM.srcsIndex (f : FM) : List Src := [sx f.base f.bm, sx f.idx f.im]

end Sys2Proof

namespace Sys2Proof.Machine

/-- A branch target: the address of the branch plus 8 × offset (R40). -/
def State.target (s : State) (off : BitVec 22) : Word := s.th.pc + sext off * 8

end Sys2Proof.Machine
end

