-- ==== Sys2Proof/Machine/Scalar.lean ====
section
/-! DEFINITION. Majors 0x01 to 0x07: scalar integer, immediates, addresses and bit fields, scalar float, branches,
jumps and long immediates (R84 to R96). -/

namespace Sys2Proof.Machine

/-! ### Scalar integer (R84, R85) -/

end Sys2Proof.Machine

namespace Sys2Proof

open Machine

/-- The integer type of a scalar instruction; 0x00 stands for `.i64` (R82). -/
def R3.itype (r : R3) : BitVec 5 := if r.typ = 0 then 4 else r.typ

def R3.iwidth (r : R3) : Nat := typeWidth r.itype

/-- The result of R85: clamped where `.sat` is given, then extended. -/
def R3.iresult (r : R3) (v : Int) : Word :=
  ext (if r.sat then clampTo (typeSigned r.itype) r.iwidth v else v) r.itype

end Sys2Proof

namespace Sys2Proof.Machine

/-- Two X sources as typed integers. -/
def State.int2 (s : State) (r : R3) (f : Int → Int → Int) : Out :=
  s.whole r.sel r.neg [sx r.a r.am, sx r.b r.bm] [dx r.d] fun s =>
    .next (s.setX r.d (r.iresult (f (ival (s.x r.a) r.itype) (ival (s.x r.b) r.itype))))

/-- The pattern of a word at a width. -/
def patOf (w : Nat) (x : Word) : Nat := x.toNat % 2 ^ w

/-- Two X sources as patterns of the type's width. -/
def State.pat2 (s : State) (r : R3) (f : Nat → Nat → Nat → Nat) : Out :=
  s.whole r.sel r.neg [sx r.a r.am, sx r.b r.bm] [dx r.d] fun s =>
    .next (s.setX r.d (ext (f r.iwidth (patOf r.iwidth (s.x r.a)) (patOf r.iwidth (s.x r.b))) r.itype))

/-- One X source as a pattern. -/
def State.pat1 (s : State) (r : R3) (f : Nat → Nat → Nat) : Out :=
  s.whole r.sel r.neg [sx r.a r.am] [dx r.d] fun s =>
    .next (s.setX r.d (ext (f r.iwidth (patOf r.iwidth (s.x r.a))) r.itype))

/-- A long-latency integer instruction (R78). -/
def State.intLong (s : State) (r : R3) (f : Int → Int → Int) : Out :=
  s.whole r.sel r.neg [sx r.a r.am, sx r.b r.bm] [dx r.d] fun s =>
    .next (s.produce s.cur
      [(r.d.toNat, some (r.iresult (f (ival (s.x r.a) r.itype) (ival (s.x r.b) r.itype))))] [] 0)

/-- Division toward zero; all ones for a divisor of 0 (R71). The minimum by −1 wraps to the minimum. -/
def quotient (signed : Bool) (w : Nat) (a b : Int) : Int :=
  if b = 0 then (if signed then -1 else 2 ^ w - 1) else a.tdiv b

/-- The remainder of a division toward zero; the dividend for a divisor of 0 (R71). -/
def remainder (a b : Int) : Int := if b = 0 then a else a.tmod b

def shiftLeft (_w a n : Nat) : Nat := a * 2 ^ n
def shiftRight (_w a n : Nat) : Nat := a / 2 ^ n
/-- An arithmetic shift of a pattern read as signed. -/
def shiftArith (w a n : Nat) : Nat := (ivalOf true w a / 2 ^ n % 2 ^ w).toNat
def rotateLeft (w a n : Nat) : Nat := a * 2 ^ n % 2 ^ w + a / 2 ^ (w - n)

/-- A shift by B mod w (R85). -/
def byCount (f : Nat → Nat → Nat → Nat) (w a b : Nat) : Nat := f w a (b % w)

def leadingZeros (w a : Nat) : Nat := w - bitLen a
def popCount (w a : Nat) : Nat := ((List.range w).filter a.testBit).length

def execAdd (r : R3) (s : State) : Out := s.int2 r (· + ·)
def execSub (r : R3) (s : State) : Out := s.int2 r (· - ·)
def execMul (r : R3) (s : State) : Out := s.int2 r (· * ·)
def execMulh (r : R3) (s : State) : Out := s.int2 r fun a b => a * b / 2 ^ r.iwidth
def execDiv (r : R3) (s : State) : Out := s.intLong r (quotient (typeSigned r.itype) r.iwidth)
def execRem (r : R3) (s : State) : Out := s.intLong r remainder
def execAnd (r : R3) (s : State) : Out := s.pat2 r fun _ a b => a &&& b
def execOr (r : R3) (s : State) : Out := s.pat2 r fun _ a b => a ||| b
def execXor (r : R3) (s : State) : Out := s.pat2 r fun _ a b => a ^^^ b
def execAndn (r : R3) (s : State) : Out := s.pat2 r fun w a b => a &&& (2 ^ w - 1 - b)
def execShl (r : R3) (s : State) : Out := s.pat2 r (byCount shiftLeft)
def execShr (r : R3) (s : State) : Out := s.pat2 r (byCount shiftRight)
def execSra (r : R3) (s : State) : Out := s.pat2 r (byCount shiftArith)
def execRot (r : R3) (s : State) : Out := s.pat2 r (byCount rotateLeft)
def execClz (r : R3) (s : State) : Out := s.pat1 r leadingZeros
def execPopc (r : R3) (s : State) : Out := s.pat1 r popCount
def execMin (r : R3) (s : State) : Out := s.int2 r min
def execMax (r : R3) (s : State) : Out := s.int2 r max

/-- `SEL` tests Xc on all 64 bits. -/
def execSel (r : R3) (s : State) : Out :=
  s.whole r.sel r.neg [sx r.a r.am, sx r.b r.bm, sx r.c r.cm] [dx r.d] fun s =>
    .next (s.setX r.d (ext (if s.x r.c ≠ 0 then ival (s.x r.a) r.itype else ival (s.x r.b) r.itype) r.itype))

/-- The conditions of `BR` and `CMP` (R42), on words read as integers of width w. -/
def condHolds (c w : Nat) (a b : Word) : Bool :=
  let sa := ivalOf true w a.toNat
  let sb := ivalOf true w b.toNat
  match c with
  | 0 => patOf w a = patOf w b
  | 1 => patOf w a ≠ patOf w b
  | 2 => sa < sb
  | 3 => sb ≤ sa
  | 4 => patOf w a < patOf w b
  | _ => patOf w b ≤ patOf w a

def boolWord (b : Bool) : Word := if b then 1 else 0

def execCmp (r : R3) (s : State) : Out :=
  s.whole r.sel r.neg [sx r.a r.am, sx r.b r.bm] [dx r.d] fun s =>
    .next (s.setX r.d (boolWord (condHolds (r.sub.toNat % 8) r.iwidth (s.x r.a) (s.x r.b))))

/-! ### Immediates (R86) -/

/-- One X source and the sign-extended immediate. -/
def State.imm2 (s : State) (r : RI) (f : Word → Word → Word) : Out :=
  s.whole r.sel r.neg [sx r.a r.am] [dx r.d] fun s => .next (s.setX r.d (f (s.x r.a) (sext r.imm)))

/-- A shift of 64 bits by imm[5:0]. -/
def State.immShift (s : State) (r : RI) (f : Nat → Nat → Nat → Nat) : Out :=
  s.whole r.sel r.neg [sx r.a r.am] [dx r.d] fun s =>
    .next (s.setX r.d (BitVec.ofNat 64 (f 64 (s.x r.a).toNat (r.imm.toNat % 64))))

def execAddi (r : RI) (s : State) : Out := s.imm2 r (· + ·)
def execAndImm (r : RI) (s : State) : Out := s.imm2 r (· &&& ·)
def execOrImm (r : RI) (s : State) : Out := s.imm2 r (· ||| ·)
def execXorImm (r : RI) (s : State) : Out := s.imm2 r (· ^^^ ·)
def execShlImm (r : RI) (s : State) : Out := s.immShift r shiftLeft
def execShrImm (r : RI) (s : State) : Out := s.immShift r shiftRight
def execSraImm (r : RI) (s : State) : Out := s.immShift r shiftArith
def execRotImm (r : RI) (s : State) : Out := s.immShift r rotateLeft

/-! ### Address and bit fields (R87, R88) -/

def execLea (r : FM) (s : State) : Out :=
  s.whole r.sel r.neg r.srcsIndex [dx r.d] fun s => .next (s.setX r.d (s.eaIndex r))

end Sys2Proof.Machine

namespace Sys2Proof

open Machine

def R3.pos (r : R3) : Nat := (r.mod.extractLsb' 13 6).toNat

def R3.len (r : R3) : Nat := (r.mod.extractLsb' 7 6).toNat + 1

def R3.signed (r : R3) : Bool := r.mod.getLsbD 6

end Sys2Proof

namespace Sys2Proof.Machine

def execExtr (r : R3) (s : State) : Out :=
  s.whole r.sel r.neg [sx r.a r.am] [dx r.d] fun s =>
    .next (s.setX r.d (BitVec.ofInt 64 (ivalOf r.signed r.len ((s.x r.a).toNat / 2 ^ r.pos))))

def execIns (r : R3) (s : State) : Out :=
  s.whole r.sel r.neg [sx r.a r.am, sx r.b r.bm] [dx r.d] fun s =>
    let m : Word := BitVec.ofNat 64 ((2 ^ r.len - 1) * 2 ^ r.pos)
    .next (s.setX r.d (((s.x r.a <<< r.pos) &&& m) ||| (s.x r.b &&& ~~~m)))

/-! ### Long immediates (R89) -/

def execMovi (r : FL) (s : State) : Out :=
  s.whole r.sel r.neg [] [dx r.d] fun s => .next (s.setX r.d (sext r.imm))

/-- `MOVHI` reads Xd under mode 0. -/
def execMovhi (r : FL) (s : State) : Out :=
  s.whole r.sel r.neg [sx0 r.d] [dx r.d] fun s =>
    .next (s.setX r.d (r.imm.extractLsb' 0 24 ++ (s.x r.d).extractLsb' 0 40))

/-! ### Scalar floating point (R90 to R93) -/

end Sys2Proof.Machine

namespace Sys2Proof

open Machine

def R3.ftype (r : R3) : BitVec 5 := if r.typ = 0 then 0x0C else r.typ

def R3.fmt (r : R3) : Fmt := fmtOf r.ftype

end Sys2Proof

namespace Sys2Proof.Machine

/-- `fval` (R80). -/
def State.fx (s : State) (r : R3) (n : BitVec 6) : FVal := r.fmt.decode ((s.x n).toNat % 2 ^ r.fmt.width)

/-- An arithmetic form that writes at once. -/
def State.fpNow (s : State) (r : R3) (srcs : List Src) (f : Nat → State → FRes) : Out :=
  s.whole r.sel r.neg srcs [dx r.d] fun s =>
    let q := s.fp.put r.fmt (s.mode r.rnd) false (f (s.mode r.rnd) s)
    .next (s.updTh fun c => (c.setX r.d.toNat (BitVec.ofNat 64 q.1)).withFp q.2)

/-- An arithmetic form that is a long-latency producer (R78). -/
def State.fpLong (s : State) (r : R3) (srcs : List Src) (f : State → FRes) : Out :=
  s.whole r.sel r.neg srcs [dx r.d] fun s =>
    let q := s.fp.put r.fmt (s.mode r.rnd) false (f s)
    .next ((s.updTh fun c => c.withSeed q.2).produce s.cur [(r.d.toNat, some (BitVec.ofNat 64 q.1))] [] q.2.flags)

end Sys2Proof.Machine

namespace Sys2Proof

open Machine

def R3.srcs1 (r : R3) : List Src := [sx r.a r.am]

def R3.srcs2 (r : R3) : List Src := [sx r.a r.am, sx r.b r.bm]

def R3.srcs3 (r : R3) : List Src := [sx r.a r.am, sx r.b r.bm, sx r.c r.cm]

end Sys2Proof

namespace Sys2Proof.Machine

def execFadd (r : R3) (s : State) : Out := s.fpNow r r.srcs2 fun m s => opAdd m (s.fx r r.a) (s.fx r r.b)
def execFsub (r : R3) (s : State) : Out := s.fpNow r r.srcs2 fun m s => opSub m (s.fx r r.a) (s.fx r r.b)
def execFmul (r : R3) (s : State) : Out := s.fpNow r r.srcs2 fun _ s => opMul (s.fx r r.a) (s.fx r r.b)
def execFfma (r : R3) (s : State) : Out :=
  s.fpNow r r.srcs3 fun m s => opFma m (s.fx r r.a) (s.fx r r.b) (s.fx r r.c)
def execFdiv (r : R3) (s : State) : Out := s.fpLong r r.srcs2 fun s => opDiv (s.fx r r.a) (s.fx r r.b)
def execFsqrt (r : R3) (s : State) : Out := s.fpLong r r.srcs1 fun s => opSqrt (s.fx r r.a)

/-- An instruction that rounds nothing: the word and the flags. -/
def State.fpExact (s : State) (r : R3) (srcs : List Src) (f : State → Word × BitVec 5) : Out :=
  s.whole r.sel r.neg srcs [dx r.d] fun s =>
    .next (s.updTh fun c => { c.setX r.d.toNat (f s).1 with r := (c.r.setX r.d.toNat (f s).1).raise (f s).2 })

/-- Minimum or maximum as a code of the format. -/
def minMaxCode (f : Fmt) (wantMax : Bool) (a b : FVal) : Nat × BitVec 5 :=
  let q := opMinMax wantMax a b
  (f.code q.1, q.2)

def execFmin (r : R3) (s : State) : Out := s.fpExact r r.srcs2 fun s =>
  let q := minMaxCode r.fmt false (s.fx r r.a) (s.fx r r.b)
  (BitVec.ofNat 64 q.1, q.2)

def execFmax (r : R3) (s : State) : Out := s.fpExact r r.srcs2 fun s =>
  let q := minMaxCode r.fmt true (s.fx r r.a) (s.fx r r.b)
  (BitVec.ofNat 64 q.1, q.2)

def execFcmp (r : R3) (s : State) : Out := s.fpExact r r.srcs2 fun s =>
  let q := opCmp (r.sub.toNat % 8) (s.fx r r.a) (s.fx r r.b)
  (boolWord q.1, q.2)

/-- The class bit of a value of a format (R92). -/
def classBit (f : Fmt) (v : FVal) : Nat :=
  match v with
  | .nan _ _ sig => if sig then 8 else 9
  | .inf s => if s then 0 else 7
  | .fin s m _ =>
    if m = 0 then if s then 3 else 4
    else if m < 2 ^ f.man then if s then 2 else 5
    else if s then 1 else 6

def execFclass (r : R3) (s : State) : Out := s.fpExact r r.srcs1 fun s =>
  (BitVec.ofNat 64 (2 ^ classBit r.fmt (s.fx r r.a)), 0)

/-- `FCVT` (R93): a float result is written with `fput`, an integer result with `ext`. -/
def execFcvt (r : R3) (s : State) : Out :=
  s.whole r.sel r.neg r.srcs1 [dx r.d] fun s =>
    let src : BitVec 5 := r.sub.extractLsb' 0 5
    let q := convert (s.mode r.rnd) r.nsat src r.typ ((s.x r.a).toNat % 2 ^ typeWidth src) s.fp
    let w : Word := if typeIsInt r.typ then ext q.1 r.typ else BitVec.ofNat 64 q.1
    .next (s.updTh fun c => (c.setX r.d.toNat w).withFp q.2)

/-! ### Branches, jumps, calls and returns (R94 to R96) -/

/-- A transfer: a misaligned target traps and the instruction has no effect (R96). -/
def jumpTo (s : State) (pc : Word) : Done := if pc.toNat % 8 ≠ 0 then .trap .misalignedPc 0 else .goto s pc

def execBr (r : FB) (s : State) : Out :=
  s.whole r.sel r.neg [sx r.a r.am, sx r.b r.bm] [] fun s =>
    if condHolds r.cond.toNat 64 (s.x r.a) (s.x r.b) then jumpTo s (s.target r.off) else .next s

/-- The conditions of `BRP` (R42). -/
def predHolds (c : Nat) (p : W32) : Bool :=
  match c with
  | 0 => p ≠ 0
  | 1 => p = BitVec.allOnes 32
  | 2 => p = 0
  | _ => p.getLsbD 0

def execBrp (r : FB) (s : State) : Out :=
  s.whole r.sel r.neg [] [] fun s =>
    if predHolds r.cond.toNat (s.p r.a) then jumpTo s (s.target r.off) else .next s

def execJmp (r : FB) (s : State) : Out :=
  s.whole r.sel r.neg [] [] fun s => jumpTo s (s.target r.off)

def execCall (r : FB) (s : State) : Out :=
  s.whole r.sel r.neg [] [dx r.d] fun s => jumpTo (s.setX r.d (s.th.pc + 8)) (s.target r.off)

def execRet (r : FB) (s : State) : Out :=
  s.whole r.sel r.neg [sx r.a r.am] [] fun s => jumpTo s (s.x r.a)

def execBrx (r : RI) (s : State) : Out :=
  s.whole r.sel r.neg [sx r.a r.am] [dx r.d] fun s =>
    jumpTo (s.setX r.d (s.th.pc + 8)) (s.x r.a + sext r.imm)

end Sys2Proof.Machine
end

