-- ==== Sys2Proof/Machine/Vector.lean ====
section
/-! DEFINITION. Majors 0x08 to 0x0C but the selection forms: vector integer, vector float, conversion and
quantisation, permutes, reductions, scans and predicates (R97 to R113), with the block scales of R73 to R75. -/

namespace Sys2Proof.Machine

/-! ### Elements (R80) -/

/-- `velem`: element j of width w of a vector register. -/
def velem (v : Lanes) (w j : Nat) : Nat := (vat v (w * j / 32)).toNat / 2 ^ (w * j % 32) % 2 ^ w

/-- Replaces an element. -/
def vsetElem (v : Lanes) (w j n : Nat) : Lanes :=
  let l := w * j / 32
  let sh := w * j % 32
  let old := (vat v l).toNat
  vput v l (BitVec.ofNat 32 (old - old / 2 ^ sh % 2 ^ w * 2 ^ sh + n % 2 ^ w * 2 ^ sh))

/-- A lane made of its elements. -/
def laneOf (w : Nat) (f : Nat → Nat) (i : Nat) : W32 :=
  BitVec.ofNat 32 ((List.range (32 / w)).foldl (fun n j => n + f (i * (32 / w) + j) % 2 ^ w * 2 ^ (w * j)) 0)

/-- The elements of the selected lanes, ascending (R65). -/
def elemsIn (m : W32) (w : Nat) : List Nat :=
  (lanesIn m).flatMap fun i => (List.range (32 / w)).map fun j => i * (32 / w) + j

/-- Writes elements one after the other, the rounding state passed along. -/
def writeElems (w : Nat) (js : List Nat) (f : Nat → Fp → Nat × Fp) (old : Lanes) (e : Fp) : Lanes × Fp :=
  js.foldl (fun q j => let r := f j q.2; (vsetElem q.1 w j r.1, r.2)) (old, e)

/-! ### Vector integer (R97 to R99) -/

end Sys2Proof.Machine

namespace Sys2Proof

open Machine

def R3.vtype (r : R3) : BitVec 5 := if r.typ = 0 then 3 else r.typ
def R3.vwidth (r : R3) : Nat := typeWidth r.vtype
def R3.vsigned (r : R3) : Bool := typeSigned r.vtype
def R3.vsrcs1 (r : R3) : List Src := [sv r.a r.am]
def R3.vsrcs2 (r : R3) : List Src := [sv r.a r.am, sv r.b r.bm]
def R3.vsrcs3 (r : R3) : List Src := [sv r.a r.am, sv r.b r.bm, sv r.c r.cm]

end Sys2Proof

namespace Sys2Proof.Machine

/-- An integer vector instruction: f of the three typed elements, clamped where `.sat` is given (R98). -/
def State.vint (s : State) (r : R3) (srcs : List Src) (f : Int → Int → Int → Int) : Out :=
  s.lanewise r.sel r.neg srcs [dv r.d] fun m s =>
    let w := r.vwidth
    let el := fun n j => ivalOf r.vsigned w (velem (s.v n) w j)
    let g := fun j =>
      let v := f (el r.a j) (el r.b j) (el r.c j)
      ((if r.sat then clampTo r.vsigned w v else v) % 2 ^ w).toNat
    .next (s.setV r.d (blend m (lanesOf (laneOf w g)) (s.v r.d)))

/-- A vector instruction on element patterns. -/
def State.vpat (s : State) (r : R3) (f : Nat → Nat → Nat → Nat) : Out :=
  s.lanewise r.sel r.neg r.vsrcs2 [dv r.d] fun m s =>
    let w := r.vwidth
    .next (s.setV r.d (blend m
      (lanesOf (laneOf w fun j => f w (velem (s.v r.a) w j) (velem (s.v r.b) w j) % 2 ^ w)) (s.v r.d)))

def execVadd (r : R3) (s : State) : Out := s.vint r r.vsrcs2 fun a b _ => a + b
def execVsub (r : R3) (s : State) : Out := s.vint r r.vsrcs2 fun a b _ => a - b
def execVmul (r : R3) (s : State) : Out := s.vint r r.vsrcs2 fun a b _ => a * b
def execVmulh (r : R3) (s : State) : Out := s.vint r r.vsrcs2 fun a b _ => a * b / 2 ^ r.vwidth
def execVmad (r : R3) (s : State) : Out := s.vint r r.vsrcs3 fun a b c => a * b + c
def execVmin (r : R3) (s : State) : Out := s.vint r r.vsrcs2 fun a b _ => min a b
def execVmax (r : R3) (s : State) : Out := s.vint r r.vsrcs2 fun a b _ => max a b
def execVabs (r : R3) (s : State) : Out := s.vint r r.vsrcs1 fun a _ _ => a.natAbs
def execVand (r : R3) (s : State) : Out := s.vpat r fun _ a b => a &&& b
def execVor (r : R3) (s : State) : Out := s.vpat r fun _ a b => a ||| b
def execVxor (r : R3) (s : State) : Out := s.vpat r fun _ a b => a ^^^ b
def execVandn (r : R3) (s : State) : Out := s.vpat r fun w a b => a &&& (2 ^ w - 1 - b)
def execVshl (r : R3) (s : State) : Out := s.vpat r (byCount shiftLeft)
def execVshr (r : R3) (s : State) : Out := s.vpat r (byCount shiftRight)
def execVsra (r : R3) (s : State) : Out := s.vpat r (byCount shiftArith)

/-- The conditions of `VCMP` (R99). -/
def vcmpHolds (c : Nat) (a b : Int) : Bool :=
  match c with
  | 0 => a = b
  | 1 => a ≠ b
  | 2 => a < b
  | 3 => a ≤ b
  | 4 => b < a
  | _ => b ≤ a

def execVcmp (r : R3) (s : State) : Out :=
  s.lanewise r.sel r.neg r.vsrcs2 [] fun m s =>
    let el := fun n i => ivalOf r.vsigned 32 (vat (s.v n) i).toNat
    .next (s.setP r.d (blendBits m
      (bitsOf fun i => vcmpHolds (r.sub.toNat % 8) (el r.a i) (el r.b i)) (s.p r.d)))

/-! ### Vector floating point (R100 to R102) -/

/-- An element of a V register as a float. -/
def State.vfx (s : State) (r : R3) (n : BitVec 6) (j : Nat) : FVal := r.fmt.decode (velem (s.v n) r.fmt.width j)

/-- The results of a float vector instruction. -/
def State.vfpLanes (s : State) (r : R3) (m : W32) (f : Nat → State → Nat → FRes) : Lanes × Fp :=
  writeElems r.fmt.width (elemsIn m r.fmt.width)
    (fun j e => e.put r.fmt (s.mode r.rnd) false (f (s.mode r.rnd) s j)) (s.v r.d) s.fp

def State.vfpNow (s : State) (r : R3) (srcs : List Src) (f : Nat → State → Nat → FRes) : Out :=
  s.lanewise r.sel r.neg srcs [dv r.d] fun m s =>
    let q := s.vfpLanes r m f
    .next (s.updTh fun c => (c.setV r.d.toNat q.1).withFp q.2)

def State.vfpLong (s : State) (r : R3) (srcs : List Src) (f : Nat → State → Nat → FRes) : Out :=
  s.lanewise r.sel r.neg srcs [dv r.d] fun m s =>
    let q := s.vfpLanes r m f
    .next ((s.updTh fun c => c.withSeed q.2).produce s.cur [] [(r.d.toNat, some q.1)] q.2.flags)

def execVfadd (r : R3) (s : State) : Out :=
  s.vfpNow r r.vsrcs2 fun m s j => opAdd m (s.vfx r r.a j) (s.vfx r r.b j)
def execVfsub (r : R3) (s : State) : Out :=
  s.vfpNow r r.vsrcs2 fun m s j => opSub m (s.vfx r r.a j) (s.vfx r r.b j)
def execVfmul (r : R3) (s : State) : Out :=
  s.vfpNow r r.vsrcs2 fun _ s j => opMul (s.vfx r r.a j) (s.vfx r r.b j)
def execVffma (r : R3) (s : State) : Out :=
  s.vfpNow r r.vsrcs3 fun m s j => opFma m (s.vfx r r.a j) (s.vfx r r.b j) (s.vfx r r.c j)
def execVfdiv (r : R3) (s : State) : Out :=
  s.vfpLong r r.vsrcs2 fun _ s j => opDiv (s.vfx r r.a j) (s.vfx r r.b j)
def execVfsqrt (r : R3) (s : State) : Out := s.vfpLong r r.vsrcs1 fun _ s j => opSqrt (s.vfx r r.a j)
def execVfrsq (r : R3) (s : State) : Out := s.vfpLong r r.vsrcs1 fun _ s j => opRsqrt (s.vfx r r.a j)
def execVfexp2 (r : R3) (s : State) : Out := s.vfpNow r r.vsrcs1 fun _ s j => opExp2 (s.vfx r r.a j)

/-- Elements computed without rounding. -/
def State.vfpExact (s : State) (r : R3) (f : State → Nat → Nat × BitVec 5) : Out :=
  s.lanewise r.sel r.neg r.vsrcs2 [dv r.d] fun m s =>
    let q := writeElems r.fmt.width (elemsIn m r.fmt.width)
      (fun j e => ((f s j).1, e.raise (f s j).2)) (s.v r.d) s.fp
    .next (s.updTh fun c => (c.setV r.d.toNat q.1).withFp q.2)

def execVfmin (r : R3) (s : State) : Out :=
  s.vfpExact r fun s j => minMaxCode r.fmt false (s.vfx r r.a j) (s.vfx r r.b j)
def execVfmax (r : R3) (s : State) : Out :=
  s.vfpExact r fun s j => minMaxCode r.fmt true (s.vfx r r.a j) (s.vfx r r.b j)

def execVfcmp (r : R3) (s : State) : Out :=
  s.lanewise r.sel r.neg r.vsrcs2 [] fun m s =>
    let q := fun i => opCmp (r.sub.toNat % 8) (s.vfx r r.a i) (s.vfx r r.b i)
    let fl := (lanesIn m).foldl (fun fl i => fl ||| (q i).2) 0
    .next (s.updTh fun c => (c.setP r.d.toNat (blendBits m (bitsOf fun i => (q i).1) (s.p r.d))).withFp
      ⟨c.r.stochseed, fl⟩)

/-- A signed dyadic number, value · 2^e. -/
def dyadic : FVal → Int × Int
  | .fin s m e => (if s then -(m : Int) else m, e)
  | _ => (0, 0)

def dyAdd (a b : Int × Int) : Int × Int :=
  let e := min a.2 b.2
  (a.1 * 2 ^ (a.2 - e).toNat + b.1 * 2 ^ (b.2 - e).toNat, e)

def dyMul (a b : Int × Int) : Int × Int := (a.1 * b.1, a.2 + b.2)
def dyNeg (a : Int × Int) : Int × Int := (-a.1, a.2)

/-- Interpolation in a table of 32 knots (R102). NV is raised for the NaN that is returned where that one is signalling, and not for
the other knot. (DESIGN CHOICE: log entry 138.) -/
def opTable (mode : Nat) (x : FVal) (t : Nat → FVal) : FRes :=
  if x.isNan then .val x (if x.isSig then flagNV else 0)
  else
    let k : Nat := match x with
      | .inf s => if s then 0 else 30
      | _ => (max 0 (min 30 x.floor)).toNat
    let p := t k
    let q := t (k + 1)
    let kv : FVal := .fin false k 0
    let k1 : FVal := .fin false (k + 1) 0
    if p.isNan then .val p (if p.isSig then flagNV else 0)
    else if q.isNan then .val q (if q.isSig then flagNV else 0)
    else if !kv.lt x then .val p 0
    else if !x.lt k1 || p.same q then .val q 0
    else if p.isInf || q.isInf then invalid
    else
      let f := dyAdd (dyadic x) (-(k : Int), 0)
      let v := dyAdd (dyadic p) (dyMul f (dyAdd (dyadic q) (dyNeg (dyadic p))))
      .num ⟨if v.1 = 0 then mode = 3 else v.1 < 0, v.1.natAbs, v.2, false⟩ 0

def execVftbl (r : R3) (s : State) : Out :=
  s.vfpNow r r.vsrcs2 fun m s j => opTable m (s.vfx r r.a j) (s.vfx r r.b)

/-! ### Conversion (R103, R104) -/

def execVfcvt (r : R3) (s : State) : Out :=
  s.lanewise r.sel r.neg r.vsrcs1 [dv r.d] fun m s =>
    let src : BitVec 5 := r.sub.extractLsb' 0 5
    let hs := (r.sub.extractLsb' 5 2).toNat
    let hd := (r.sub.extractLsb' 7 2).toNat
    let q := writeElems (typeWidth r.typ) ((lanesIn m).map (32 * hd + ·))
      (fun j e => convert (s.mode r.rnd) r.nsat src r.typ
        (velem (s.v r.a) (typeWidth src) (32 * hs + (j - 32 * hd))) e) (s.v r.d) s.fp
    .next (s.updTh fun c => (c.setV r.d.toNat q.1).withFp q.2)

/-! ### Block formats (R61, R62, R73 to R75) -/

/-- The format maximum of a block type (R61). -/
def blockMax (t : BitVec 5) : Nat :=
  match t.toNat with
  | 0x11 => 448
  | 0x12 => 6
  | 0x13 => 96
  | _ => 7

/-- A magnitude m·2^e. -/
abbrev Mag := Nat × Int

def magOf : FVal → Mag
  | .fin _ m e => (m, e)
  | _ => (0, 0)

def Mag.le (a b : Mag) : Bool := !ltScaled b.1 b.2 a.1 a.2

/-- The smallest k with a ≤ fmax · 2^k, for a above 0. -/
def scaleExp (a : Mag) (fmax : Nat) : Int :=
  let k0 : Int := a.2 + bitLen a.1 - bitLen fmax - 2
  match (List.range 6).find? fun i => Mag.le a (fmax, k0 + i) with
  | some i => k0 + i
  | none => k0 + 6

/-- `block_scale` (R73). -/
def blockScale (x : List FVal) (fmax : Nat) : Nat :=
  if x.any fun v => v.isNan || v.isInf then 255
  else
    let a := x.foldl (fun b v => if Mag.le b (magOf v) then magOf v else b) (0, 0)
    if a.1 = 0 then 127 else (min (max (scaleExp a fmax) (-127)) 127 + 127).toNat

/-- One element of an MX or INT4 block: q is exact, and above the format maximum it saturates with OF and NX
(R66, R74). -/
def quantElem (t : BitVec 5) (mode : Nat) (q : Exact) (u : Nat) : Nat × BitVec 5 :=
  let big := ltScaled (blockMax t) 0 q.m q.e
  if t = 0x09 then
    let r := q.roundAt mode 0 u
    let n : Nat := if big then 7 else r.1
    ((((if q.neg then -(n : Int) else n) % 16).toNat), if big then flagOF ||| flagNX else if r.2 then flagNX else 0)
  else if big then ((fmtOf t).signBit q.neg + (fmtOf t).maxCode, flagOF ||| flagNX)
  else (fmtOf t).round mode true q u

/-- x / 2^k. -/
def quotExact (x : FVal) (k : Int) : Exact :=
  match x with
  | .fin s m e => ⟨s, m, e - k, false⟩
  | _ => ⟨false, 0, 0, false⟩

/-- The value of an N4X payload (R62). -/
def n4xPayload (p : Nat) : Int :=
  let mag : Int := 2 ^ (3 + p / 2 % 4) * (2 + p % 2) / 2
  if p.testBit 3 then -mag else mag

/-- Decodes N4X slots from slot i on; `eaten` says that slot i is a payload (R62). -/
def n4xFrom (nib : Nat → Nat) : Nat → Nat → Bool → List Int
  | 0, _, _ => []
  | n + 1, i, eaten =>
    if eaten then 0 :: n4xFrom nib n (i + 1) false
    else if nib i = 8 then
      if i ≤ 30 then n4xPayload (nib (i + 1)) :: n4xFrom nib n (i + 1) true else 0 :: n4xFrom nib n (i + 1) false
    else ivalOf true 4 (nib i) :: n4xFrom nib n (i + 1) false

def n4xDecode (nib : Nat → Nat) : List Int := n4xFrom nib 32 0 false

/-- The magnitudes of N4X outliers, in payload order. -/
def n4xMags : List Nat := [8, 12, 16, 24, 32, 48, 64, 96]

/-- The payload [2:0] of the magnitude nearest to q, ties to an m bit of 0 (R75). -/
def n4xNearest (q : Mag) : Nat :=
  let sc := fun (c : Nat) => if q.2 < 0 then c * 2 ^ (-q.2).toNat else c
  let qs := if q.2 < 0 then q.1 else q.1 * 2 ^ q.2.toNat
  let dist := fun i => let c := sc (n4xMags.getD i 96); if c ≤ qs then qs - c else c - qs
  (List.range 8).foldl (fun b i => if dist i < dist b || (dist i = dist b && i % 2 = 0) then i else b) 0

/-- The nibbles of an N4X block from slot i on (R75). -/
def n4xNibbles (q : Nat → Exact) : Nat → Nat → Bool → List Nat
  | 0, _, _ => []
  | n + 1, i, eaten =>
    let v := q i
    if eaten then ((if (q (i - 1)).neg then 8 else 0) + n4xNearest ((q (i - 1)).m, (q (i - 1)).e)) ::
      n4xNibbles q n (i + 1) false
    else if !ltScaled 15 (-1) v.m v.e then
      let r := min 7 (v.roundAt 0 0 0).1
      (((if v.neg then -(r : Int) else r) % 16).toNat) :: n4xNibbles q n (i + 1) false
    else if i < 31 then 8 :: n4xNibbles q n (i + 1) true
    else (if v.neg then 9 else 7) :: n4xNibbles q n (i + 1) false

/-- The flags of an N4X quantisation (R75). -/
def n4xFlags (q : Nat → Exact) (nibs : List Nat) : BitVec 5 :=
  let dec := n4xDecode fun i => nibs.getD i 0
  let exactly := fun i => let d := dec.getD i 0
    (q i).m = 0 && d = 0 || (d ≠ 0 && (d < 0) == (q i).neg && !ltScaled d.natAbs 0 (q i).m (q i).e &&
      !ltScaled (q i).m (q i).e d.natAbs 0)
  (if (List.range 32).all exactly then 0 else flagNX) |||
    if (List.range 32).any fun i => ltScaled 96 0 (q i).m (q i).e then flagOF ||| flagNX else 0

/-- Quantises 32 values: the scale code, the element codes and the rounding state (R73 to R75). -/
def quantise (t : BitVec 5) (mode : Nat) (x : List FVal) (e : Fp) : Nat × List Nat × Fp :=
  let sc := blockScale x (blockMax t)
  let q := fun i => quotExact (x.getD i (.fin false 0 0)) ((sc : Int) - 127)
  if t = 0x13 then
    if sc = 255 then (sc, List.replicate 32 0, e.raise flagNV)
    else let nibs := n4xNibbles q 32 0 false; (sc, nibs, e.raise (n4xFlags q nibs))
  else
    let r := (List.range 32).foldl (fun (a : List Nat × Fp) i =>
      let e := a.2.draw mode
      let v := if sc = 255 then (0, 0) else quantElem t mode (q i) e.seed.toNat
      (a.1 ++ [v.1], e.raise v.2)) ([], e)
    (sc, r.1, if sc = 255 then r.2.raise flagNV else r.2)

/-- The element values of a block (R61, R62). -/
def blockValues (t : BitVec 5) (code : Nat → Nat) : List FVal :=
  match t.toNat with
  | 0x13 => (n4xDecode code).map fun v => .fin (v < 0) v.natAbs 0
  | 0x09 => (List.range 32).map fun i => let v := ivalOf true 4 (code i); .fin (v < 0) v.natAbs 0
  | _ => (List.range 32).map fun i => (fmtOf t).decode (code i)

/-- A value times 2^k. -/
def FVal.scaled (v : FVal) (k : Int) : FVal :=
  match v with
  | .fin s m e => .fin s m (e + k)
  | w => w

/-- The values of a block under its scale code; 0xFF makes every one NaN (R61). -/
def scaledValues (t : BitVec 5) (sc : Nat) (code : Nat → Nat) : List FVal :=
  if sc = 255 then List.replicate 32 .canon else (blockValues t code).map (·.scaled ((sc : Int) - 127))

def execVqnt (r : R3) (s : State) : Out :=
  s.lanewise r.sel r.neg r.vsrcs1 [dv r.d, .v (r.d.toNat + 1)] fun m s =>
    let h := r.sub.toNat % 8
    let w := typeWidth r.typ
    let x := (List.range 32).map fun i =>
      if m.getLsbD i then fmtF32.decode (vat (s.v r.a) i).toNat else .fin false 0 0
    let q := quantise r.typ (s.mode r.rnd) x s.fp
    let v := (List.range 32).foldl (fun v i => vsetElem v w (32 * h + i) (q.2.1.getD i 0)) (s.v r.d)
    let sc := vsetElem (s.th.getV (r.d.toNat + 1)) 8 h q.1
    .next (s.updTh fun c => ((c.setV r.d.toNat v).setV (r.d.toNat + 1) sc).withFp q.2.2)

def execVdqnt (r : R3) (s : State) : Out :=
  s.lanewise r.sel r.neg [sv r.a r.am, sx r.b r.bm] [dv r.d] fun m s =>
    let h := r.sub.toNat % 8
    let w := typeWidth r.typ
    let vals := scaledValues r.typ ((s.x r.b).toNat % 256) fun i => velem (s.v r.a) w (32 * h + i)
    let q := writeElems 32 (lanesIn m)
      (fun i e => e.put fmtF32 (s.mode r.rnd) false (.val (vals.getD i .canon) 0)) (s.v r.d) s.fp
    .next (s.updTh fun c => (c.setV r.d.toNat q.1).withFp q.2)

def execVpack (r : R3) (s : State) : Out :=
  s.lanewise r.sel r.neg r.vsrcs2 [dv r.d] fun m s =>
    let w := typeWidth r.typ
    let at' := if w = 8 then 64 * (r.sub.toNat % 2) else 0
    let narrow := fun (n : BitVec 6) (i : Nat) =>
      let v := ivalOf true 32 (vat (s.v n) i).toNat
      ((if r.sat then clampTo (typeSigned r.typ) w v else v) % 2 ^ w).toNat
    .next (s.setV r.d ((lanesIn m).foldl (fun v i =>
      vsetElem (vsetElem v w (at' + i) (narrow r.a i)) w (at' + 32 + i) (narrow r.b i)) (s.v r.d)))

/-! ### Permute, broadcast, reduce and scan (R108 to R111) -/

def execVbcast (r : R3) (s : State) : Out :=
  s.lanewise r.sel r.neg [sx r.a r.am] [dv r.d] fun m s =>
    .next (s.setV r.d (blend m (lanesOf (laneOf r.vwidth fun _ => (s.x r.a).toNat)) (s.v r.d)))

def execVperm (r : R3) (s : State) : Out :=
  let two := r.sub.getLsbD 0
  s.lanewise r.sel r.neg (if two then r.vsrcs3 else r.vsrcs2) [dv r.d] fun m s =>
    let f := fun i =>
      let k := (vat (s.v r.b) i).toNat
      if k < 32 then vat (s.v r.a) k else if two && k < 64 then vat (s.v r.c) (k - 32) else 0
    .next (s.setV r.d (blend m (lanesOf f) (s.v r.d)))

def execVrot (r : R3) (s : State) : Out :=
  s.lanewise r.sel r.neg [sv r.a r.am, sx r.b r.bm] [dv r.d] fun m s =>
    .next (s.setV r.d (blend m (lanesOf fun i => vat (s.v r.a) ((i + (s.x r.b).toNat) % 32)) (s.v r.d)))

def execVexpand (r : R3) (s : State) : Out :=
  s.lanewise r.sel r.neg r.vsrcs1 [dv r.d] fun m s =>
    let before := fun i => ((List.range i).filter fun j => m.getLsbD j).length
    .next (s.setV r.d (blend m (lanesOf fun i => vat (s.v r.a) (before i)) (s.v r.d)))

/-- The operation of a tree node on 32-bit codes (R76, R110). -/
def treeOp (o : Nat) (t : BitVec 5) (mode : Nat) (sat : Bool) (a b : Nat) (e : Fp) : Nat × Fp :=
  let sg := typeSigned t
  let x := ivalOf sg 32 a
  let y := ivalOf sg 32 b
  let fl := t = 0x0C
  match o with
  | 0 =>
    if fl then e.put fmtF32 mode false (opAdd mode (fmtF32.decode a) (fmtF32.decode b))
    else (((if sat then clampTo sg 32 (x + y) else x + y) % 2 ^ 32).toNat, e)
  | 1 | 2 =>
    if fl then
      let q := minMaxCode fmtF32 (o = 2) (fmtF32.decode a) (fmtF32.decode b)
      (q.1, e.raise q.2)
    else (if o = 1 then if x ≤ y then a else b else if x ≤ y then b else a, e)
  | 3 => (a &&& b, e)
  | 4 => (a ||| b, e)
  | _ => (a ^^^ b, e)

/-- The identities of R76. -/
def treeIdentity (o : Nat) (t : BitVec 5) : Nat :=
  match o with
  | 1 => if t = 0x0C then 0x7F800000 else (maxOf (typeSigned t) 32 % 2 ^ 32).toNat
  | 2 => if t = 0x0C then 0xFF800000 else (minOf (typeSigned t) 32 % 2 ^ 32).toNat
  | 3 => 0xFFFFFFFF
  | _ => 0

/-- The selected lanes as tree inputs. -/
def treeInputs (m : W32) (v : Lanes) : Vector (Option Nat) 32 :=
  Vector.ofFn fun i => if m.getLsbD i.val then some (vat v i.val).toNat else none

def execVred (r : R3) (s : State) : Out :=
  s.lanewise r.sel r.neg r.vsrcs1 [dx r.d] fun m s =>
    let o := r.sub.toNat % 8
    let q := treeReduce (treeOp o r.vtype (s.mode r.rnd) r.sat) (treeInputs m (s.v r.a)) s.fp
    let n := q.1.getD (treeIdentity o r.vtype)
    let w : Word := if r.vtype = 0x0C then BitVec.ofNat 64 n else ext n r.vtype
    .next (s.updTh fun c => (c.setX r.d.toNat w).withFp q.2)

def execVscan (r : R3) (s : State) : Out :=
  s.lanewise r.sel r.neg r.vsrcs1 [dv r.d] fun m s =>
    let o := r.sub.toNat % 8
    let q := treeScan (treeOp o r.vtype (s.mode r.rnd) r.sat) (treeInputs m (s.v r.a)) s.fp
    let incl := fun i => (vat q.1 i).getD (treeIdentity o r.vtype)
    let f := fun i => BitVec.ofNat 32 (if r.sub.getLsbD 3 then
      if i = 0 then treeIdentity o r.vtype else incl (i - 1) else incl i)
    .next (s.updTh fun c => (c.setV r.d.toNat (blend m (lanesOf f) (s.v r.d))).withFp q.2)

/-- DEDUCED: log entry 10. -/
def execVmovx (r : R3) (s : State) : Out :=
  s.lanewise r.sel r.neg [sv r.a r.am, sx r.b r.bm] [dx r.d] fun m s =>
    let k := (s.x r.b).toNat
    let v : W32 := if k < 32 && m.getLsbD k then vat (s.v r.a) k else 0
    .next (s.setX r.d (ext v.toNat (if r.vtype = 3 then 3 else 7)))

/-- Nothing is written where the lane is not selected or there is none (R111). -/
def execVins (r : R3) (s : State) : Out :=
  s.lanewise r.sel r.neg [sx r.a r.am, sx r.b r.bm] [dv r.d] fun m s =>
    let k := (s.x r.b).toNat
    .next (if k < 32 && m.getLsbD k then s.setV r.d (vput (s.v r.d) k ((s.x r.a).setWidth 32)) else s)

/-! ### Predicates (R112, R113) -/

def execPset (r : R3) (s : State) : Out :=
  s.lanewise r.sel r.neg [sx r.a r.am] [] fun m s =>
    let f := fun i => if r.sub.getLsbD 0 then decide (i < min (s.x r.a).toNat 32) else (s.x r.a).getLsbD i
    .next (s.setP r.d (blendBits m (bitsOf f) (s.p r.d)))

/-- A predicate of two predicates. -/
def State.pred2 (s : State) (r : R3) (f : W32 → W32 → W32) : Out :=
  s.lanewise r.sel r.neg [] [] fun m s => .next (s.setP r.d (blendBits m (f (s.p r.a) (s.p r.b)) (s.p r.d)))

def execPand (r : R3) (s : State) : Out := s.pred2 r (· &&& ·)
def execPor (r : R3) (s : State) : Out := s.pred2 r (· ||| ·)
def execPxor (r : R3) (s : State) : Out := s.pred2 r (· ^^^ ·)
def execPandn (r : R3) (s : State) : Out := s.pred2 r fun a b => a &&& ~~~b

def execPcnt (r : R3) (s : State) : Out :=
  s.lanewise r.sel r.neg [] [dx r.d] fun m s =>
    .next (s.setX r.d (BitVec.ofNat 64 (lanesIn (m &&& s.p r.a)).length))

def execPffs (r : R3) (s : State) : Out :=
  s.lanewise r.sel r.neg [] [dx r.d] fun m s =>
    .next (s.setX r.d (BitVec.ofNat 64 ((lanesIn (m &&& s.p r.a)).headD 32)))

end Sys2Proof.Machine
end

