-- ==== Sys2Proof/Machine/Select.lean ====
section
/-! DEFINITION. The selection forms of major 0x0B: `VCMPT`, `VTOPK`, `VSORT` (R132 to R136), and the threshold test
that `GATH` with its select option shares (R134). -/

namespace Sys2Proof.Machine

def FVal.magnitude : FVal → FVal
  | .nan s p g => .nan s p g
  | .inf _ => .inf false
  | .fin _ m e => .fin false m e

/-- A key of R133: a float, or an integer of the type. -/
inductive Key where
  | float (v : FVal)
  | int (v : Int)
  deriving DecidableEq, Repr

/-- The key of a 32-bit code. -/
def selKey (t : BitVec 5) (abs : Bool) (n : Nat) : Key :=
  if t = 0x0C then
    let v := fmtF32.decode n
    .float (if abs then v.magnitude else v)
  else
    let v := ivalOf (typeSigned t) 32 n
    .int (if abs then v.natAbs else v)

/-- A ranks below B: every NaN ranks below −∞, and −0 equals +0 (R133). -/
def Key.below : Key → Key → Bool
  | .float a, .float b => if b.isNan then false else a.isNan || a.lt b
  | .int a, .int b => a < b
  | _, _ => false

/-- The test of `VCMPT` against a threshold; a NaN on either side never passes (R134). -/
def Key.passes (ge : Bool) : Key → Key → Bool
  | .float k, .float th => !k.isNan && !th.isNan && if ge then !k.lt th else th.lt k
  | .int k, .int th => if ge then decide (th ≤ k) else decide (th < k)
  | _, _ => false

/-- Puts a candidate before every candidate that it does not have to follow. -/
def insertBy {α : Type} (after : α → α → Bool) (a : α) : List α → List α
  | [] => [a]
  | b :: t => if after a b then b :: insertBy after a t else a :: b :: t

/-- A stable sort: `after a b` says that a comes behind b. -/
def stableSort {α : Type} (after : α → α → Bool) (l : List α) : List α := l.foldr (insertBy after) []

/-- A register whose first lanes are a list and whose other lanes hold a filler. -/
def lanesFrom (l : List W32) (rest : W32) : Lanes := lanesOf fun i => l.getD i rest

/-- The sum of a set of lanes along the tree of R76 with RNE; an absent set gives 0. -/
def treeSum (t : BitVec 5) (m : W32) (v : Lanes) (e : Fp) : Nat × Fp :=
  let q := treeReduce (treeOp 0 t 0 false) (treeInputs m v) e
  (q.1.getD 0, q.2)

def execVcmpt (r : R3) (s : State) : Out :=
  s.lanewise r.sel r.neg [sv r.a r.am, sx r.b r.bm] [dv r.d, .v (r.d.toNat + 1), dx r.c, .x (r.c.toNat + 1)] fun m s =>
    let t := r.vtype
    let th := selKey t false ((s.x r.b).toNat % 2 ^ 32)
    let pass := m &&& bitsOf fun i => (selKey t (r.sub.getLsbD 0) (vat (s.v r.a) i).toNat).passes (r.sub.getLsbD 1) th
    let ls := lanesIn pass
    let q1 := treeSum t pass (s.v r.a) s.fp
    let q2 := treeSum t (m &&& ~~~pass) (s.v r.a) q1.2
    .next (s.updTh fun c =>
      ((((c.setV r.d.toNat (lanesFrom (ls.map fun i => vat (s.v r.a) i) 0)).setV (r.d.toNat + 1)
        (lanesFrom (ls.map (BitVec.ofNat 32)) 0)).setX r.c.toNat (BitVec.ofNat 64 ls.length)).setX (r.c.toNat + 1)
        (BitVec.ofNat 64 (q1.1 * 2 ^ 32 + q2.1))).withFp q2.2)

/-- Writes values to Vd and their companions to Vd+1; the lanes beyond hold 0 and ones. -/
def State.selectPair (s : State) (d : BitVec 6) (ps : List (W32 × W32)) : State :=
  s.updTh fun c => (c.setV d.toNat (lanesFrom (ps.map (·.1)) 0)).setV (d.toNat + 1)
    (lanesFrom (ps.map (·.2)) (BitVec.allOnes 32))

def execVtopk (r : R3) (s : State) : Out :=
  s.lanewise r.sel r.neg r.vsrcs1 [dv r.d, .v (r.d.toNat + 1)] fun m s =>
    let key := fun i => selKey r.vtype (r.sub.getLsbD 5) (vat (s.v r.a) i).toNat
    let ls := (stableSort (fun i j => (key i).below (key j)) (lanesIn m)).take (r.sub.toNat % 32 + 1)
    .next (s.selectPair r.d (ls.map fun i => (vat (s.v r.a) i, BitVec.ofNat 32 i)))

def execVsort (r : R3) (s : State) : Out :=
  let two := r.sub.getLsbD 1
  s.lanewise r.sel r.neg (if two then r.vsrcs2 else r.vsrcs1) [dv r.d, .v (r.d.toNat + 1)] fun m s =>
    let key := fun i => selKey r.vtype false (vat (s.v r.a) i).toNat
    let ls := stableSort (fun i j => if r.sub.getLsbD 0 then (key i).below (key j) else (key j).below (key i)) (lanesIn m)
    .next (s.selectPair r.d (ls.map fun i =>
      (vat (s.v r.a) i, if two then vat (s.v r.b) i else BitVec.ofNat 32 i)))

end Sys2Proof.Machine
end

