-- ==== Sys2Proof/Machine/Access.lean ====
section
/-! DEFINITION. Majors 0x10 to 0x15: loads, stores, atomics, reductions, fences, waiting, prefetching, scratchpad
claims, retention and the full/empty instructions (R170, R171, R176, R177, R179 to R197). -/

namespace Sys2Proof.Machine

/-! ### Loads and stores (R179, R181) -/

def sizeOf (z : Nat) : Nat := 2 ^ z

def execLd (n : BitVec 2) (r : FM) (s : State) : Out :=
  s.whole r.sel r.neg r.srcsIndex [dx r.d] fun s =>
    s.load (.x r.d.toNat) (sizeOf n.toNat) false r.hint.toNat [(0, s.eaIndex r)]

def execLda (n : BitVec 1) (r : FM) (s : State) : Out :=
  s.whole r.sel r.neg r.srcsIndex [dx r.d] fun s =>
    s.load (.x r.d.toNat) (sizeOf (2 + n.toNat)) true r.hint.toNat [(0, s.eaIndex r)]

def execSt (n : BitVec 2) (r : FM) (s : State) : Out :=
  s.whole r.sel r.neg r.srcsIndex [] fun s =>
    s.store (sizeOf n.toNat) r.hint.toNat [(0, s.eaPlain r)] fun _ => s.x r.idx

def execStl (n : BitVec 1) (r : FM) (s : State) : Out :=
  s.whole r.sel r.neg r.srcsIndex [] fun s =>
    s.released? (s.store (sizeOf (2 + n.toNat)) r.hint.toNat [(0, s.eaPlain r)] fun _ => s.x r.idx)

/-- The data of a vector store, lane by lane. -/
def laneData (v : Lanes) (i : Nat) : Word := (vat v i).zeroExtend 64

def execLdv (r : FM) (s : State) : Out :=
  s.lanewise r.sel r.neg r.srcsIndex [dv r.d] fun m s =>
    s.load (.v r.d.toNat) 4 false r.hint.toNat (laneConsecutive m (s.eaIndex r))

def execStv (r : FM) (s : State) : Out :=
  s.lanewise r.sel r.neg [sx r.base r.bm, sv r.idx r.im] [] fun m s =>
    s.store 4 r.hint.toNat (laneConsecutive m (s.eaPlain r)) (laneData (s.v r.idx))

def execLdvs (r : FM) (s : State) : Out :=
  s.lanewise r.sel r.neg r.srcsIndex [dv r.d] fun m s => s.load (.v r.d.toNat) 4 false r.hint.toNat (s.laneStride m r)

def execStvs (r : FM) (s : State) : Out :=
  s.lanewise r.sel r.neg [sx r.base r.bm, sx r.idx r.im, sv0 r.d] [] fun m s =>
    s.store 4 r.hint.toNat (s.laneStride m r) (laneData (s.v r.d))

def execLdvx (r : FM) (s : State) : Out :=
  s.lanewise r.sel r.neg [sx r.base r.bm, sv r.idx r.im] [dv r.d] fun m s =>
    s.load (.v r.d.toNat) 4 false r.hint.toNat (s.laneIndexed m r)

def execStvx (r : FM) (s : State) : Out :=
  s.lanewise r.sel r.neg [sx r.base r.bm, sv r.idx r.im, sv0 r.d] [] fun m s =>
    s.store 4 r.hint.toNat (s.laneIndexed m r) (laneData (s.v r.d))

/-! ### Read-modify-writes (R191 to R193) -/

/-- The operation of an `AMO` function code [3:0]. -/
def amoOp (n : Nat) : RmwOp :=
  match n with
  | 0 => .add | 1 => .and | 2 => .or | 3 => .xor | 4 => .min | 5 => .max | 6 => .minn | 7 => .maxn | 8 => .swap | _ => .cas

/-- A write in a copy that the core owns: the line comes into the L1 and is dirty there. With hint 2 a line that is not in the
L1 is not brought there, and its bytes go home (R175, R206). -/
def State.ownedWrite (s : State) (k c line : Nat) (tag : VTag) (hint : Nat) (ws : List (Nat × Byte)) (full : List Nat) : State :=
  let t := s.tileOf line
  let s := s.updDir t fun d => { d with st := .m }
  if hint = 2 && ((s.core c).copyOf line).isNone then
    (((s.landBytes ws).cleanLines full).updL1 c t fun v => { v with st := .m }).lookup line (some c) (s.ctx k).asid 2 true
  else ((s.bringL1 c line tag hint none).landOwned c ws full).updL1 c t fun v => { v with st := .m, dirty := insertNew v.dirty line }

/-- The GT at which a core performs a write in a copy that it owns (R204). -/
def State.ownedTime (s : State) (c line : Nat) : Word := maxWord (s.gtOf (dieOf c)) (s.l1 c (s.tileOf line)).bound

/-- The write of a read-modify-write to a line of memory is visible at once: the tile is exclusive in the core's L1, or the
home performs it, whatever its hint (R175, R204). -/
def State.rmwLand (s : State) (k line : Nat) (cached : Bool) (tag : VTag) (hint : Nat) (ws : List (Nat × Byte)) : State :=
  let c := coreOf k
  let now := if cached then s.ownedTime c line else s.homeTime line
  let s := if cached then s.ownedWrite k c line tag hint ws []
    else ((s.landBytes ws).lookup line (some c) (s.ctx k).asid 0 true).servedHome (s.tileOf line) k
  s.updCtx k fun x => { x with visible := maxWord x.visible now }

/-- The bytes that context k reads of a register of device control space: its own transaction's, or those that the agent
returns (R16). -/
def State.devValue (s : State) (k pa size : Nat) : Option Word :=
  if (s.ctx k).specHit pa size then some (wordOf (s.bytesFor k pa size)) else s.devRead pa size

/-- One location's read-modify-write by context k: the old value, none where it is poisoned. A location of device control
space is read and written at its agent (R16). -/
def State.rmwAt (s : State) (k size : Nat) (op : RmwOp) (val cmp : Word) (l : Loc) (hint : Nat) : State × Option Word :=
  let new := fun (old : Word) => BitVec.ofNat 64 (op.apply (8 * size) old.toNat val.toNat cmp.toNat)
  match l.place with
  | .own b =>
    if s.scratchPoison.contains (b / 128) then (s, none)
    else
      let old := wordOf (Mem.readBytes s.scratch b size)
      (s.landScratch (pairsAt b size (new old)), some old)
  | .remote _ _ _ => (s, none)
  | .phys pa pol =>
    let write := fun (old : Word) =>
      let ws := pairsAt pa size (new old)
      if (s.ctx k).speculative then s.specStore k (ws.map fun w => ⟨w.1, w.2, pol, l.va⟩) hint
      else if s.paKind pa = .control then
        (s.devWrite (dieOf (coreOf k)) ws).updCtx k fun c => { c with visible := maxWord c.visible (s.devTime pa) }
      else s.rmwLand k (pa / 128) (pol = .cached) (s.tagFor k l.va) hint ws
    if s.paKind pa = .control then match s.devValue k pa size with
      | some old => (write old, some old)
      | none => (s, none)
    else if s.readBad k pa pol then (s, none)
    else
      let old := wordOf (s.bytesFor k pa size)
      (write old, some old)

/-- What a location needs before its read-modify-write can be performed in one action: none, or the wait (R204 to
R206, R214). A posted store of the thread to the line comes first (R184). -/
def State.rmwNeeds (s : State) (hint : Nat) (l : Loc) : Option Done :=
  match l.place with
  | .phys pa pol =>
    let line := pa / 128
    let t := s.tileOf line
    if s.th.stores.any fun q => q.line = line then some (.stay s)
    else if s.paKind pa ≠ .memory || s.th.speculative then none
    else if pol = .cached then
      if !s.l1Owns s.myCore line then
        let ev : Ev := { k := s.cur, core := s.myCore, line := line, n := 2, q := hint, tag := s.tagFor s.cur l.va }
        some (.stay ((s.causeOnce .exclusiveRequest ev).causeOnce .exclusiveGrant ev))
      else if s.gtOf s.myDie < (s.l1 s.myCore t).bound then some (.stay s)
      else (s.clearFor s.cur t true).map .stay
    else
      match s.homeNeed t noCore true with
      | .leases => some (.stay (s.awaitHome t s.cur))
      | .recall i => some (.stay (s.causeOnce i { line := line }))
      | .ready => (s.clearFor s.cur t true).map .stay
  | _ => none

/-- The effect of an atomic whose locations are known: each lane in ascending order, before any later access of the thread.
(DESIGN CHOICE: log entry 140.) -/
def State.rmwLocs (s : State) (size : Nat) (op : RmwOp) (val : Nat → Word) (cmp : Word) (hint : Nat) (ls : List Loc)
    (done : State → List (Nat × Option Word) → Done) : Done :=
  if s.th.loadOverlaps size ls then .stay s
  else s.touch .write (s.linesOf ls) <|
    if s.th.speculative && ls.any (fun l => match l.place with | .phys pa pol => s.readBad s.cur pa pol | _ => false) then .abort 8 0
    else
      match ls.findSome? (s.rmwNeeds hint) with
      | some d => d
      | none => s.withRemote size ls val (.rmw op cmp) fun s ans =>
        let q := ls.foldl (fun (q : State × List (Nat × Option Word)) l =>
          match l.place with
          | .remote _ _ _ => (q.1, q.2 ++ [(l.lane, (ans.find? fun a => a.1 = l.lane).bind (·.2))])
          | _ => let a := q.1.rmwAt q.1.cur size op (val l.lane) cmp l hint; (a.1, q.2 ++ [(l.lane, a.2)])) (s, [])
        done (q.1.streaming hint ls) q.2

/-- Old values reach a long-latency destination; poison empties it and is reported later (R180, R191). `vas` gives the
address of each lane. -/
def State.rmwResult (s : State) (dst : LoadDst) (vas : List (Nat × Word)) (vs : List (Nat × Option Word)) : Done :=
  match vs.find? fun v => v.2.isNone with
  | some v =>
    let ea := ((vas.find? fun l => l.1 = v.1).map (·.2)).getD 0
    .next (s.updTh fun c => { c with r := c.r.setFe .idle (match dst with | .x n => .x n | .v n => .v n)
                                     poison := some (c.poison.getD ea) })
  | none =>
    match dst with
    | .x n => .next (s.produce s.cur [(n, some ((vs.head?.bind fun v => v.2).getD 0))] [] 0)
    | .v n => .next (s.produce s.cur [] [(n, some (vs.foldl (fun l v =>
        vput l v.1 ((v.2.getD 0).setWidth 32)) (s.th.getV n)))] 0)

/-- Whether an order field [5:4] includes a release. -/
def releases (order : Nat) : Bool := order = 2 || order = 3

/-- DEDUCED: log entry 18. -/
def State.whenReleased (s : State) (rel : Bool) (f : Done) : Done := if rel then s.released? f else f

def execAmo (n : BitVec 7) (r : FM) (s : State) : Out :=
  let op := amoOp (n.toNat % 16)
  let size := if n.getLsbD 6 then 8 else 4
  s.whole r.sel r.neg (r.srcsIndex ++ if op = .cas then [sx0 r.d] else []) [dx r.d] fun s =>
    s.whenReleased (releases (n.toNat / 16 % 4)) <|
      s.access .atomic size [(0, s.eaPlain r)] fun ls =>
        s.rmwLocs size op (fun _ => s.x r.idx) (s.x r.d) r.hint.toNat ls fun s vs =>
          s.rmwResult (.x r.d.toNat) [(0, s.eaPlain r)] vs

/-- The lanes of an `AMOV` that are left are performed, all in one action or one of them, as the turn says; after the last
one the old values set out for Vd (R192). Lanes that travel to another core's scratchpad and those performed with them stay
together until the answer (R169). -/
def State.amovLanes (s : State) (op : RmwOp) (r : FM) (m : W32) (w : Lanewise) : Done :=
  let n := if w.now ≠ 0 then w.now else if s.how = .part then 1 else w.left.length
  let d := s.rmwLocs 4 op (laneData (s.v r.d)) 0 r.hint.toNat (w.left.take n) fun s vs =>
    let rest := w.left.drop n
    if rest.isEmpty then
      (s.updTh fun c => { c with amov := none }).rmwResult (.v r.d.toNat) (s.laneIndexed m r) (w.old ++ vs)
    else .stay (s.updTh fun c => { c with amov := some ⟨rest, 0, w.old ++ vs⟩ })
  match d with
  | .wait t run => .wait (t.updTh fun c => { c with amov := some { w with now := n } }) run
  | _ => d

def execAmov (n : BitVec 6) (r : FM) (s : State) : Out :=
  s.lanewise r.sel r.neg [sx r.base r.bm, sv r.idx r.im, sv0 r.d] [dv r.d] fun m s =>
    match s.th.amov with
    | some w => s.amovLanes (amoOp (n.toNat % 16)) r m w
    | none =>
      s.whenReleased (releases (n.toNat / 16 % 4)) <|
        s.access .atomic 4 (s.laneIndexed m r) fun ls => s.amovLanes (amoOp (n.toNat % 16)) r m ⟨ls, 0, []⟩

/-- Where the partials of a scope first gather (R193). -/
def gatherOf (scope : Nat) : Gather := if scope = 0 then .l1 else if scope = 1 then .slice else .home

/-- A contribution of the thread sets out for its home (R193), with its hint (R175). -/
def State.postRed (s : State) (pa size op : Nat) (det : Bool) (gather : Gather) (val : Word) (tag : VTag) (hint : Nat) : State :=
  let id := s.nextId
  (s.newId.updTh fun c => { c with reds := c.reds ++ [⟨id, s.cur, s.cur, gather, pa, size = 8, op, det, val⟩] }).cause
    .reductionPartial { k := s.cur, core := s.myCore, id := id, line := pa / 128, q := hint, tag := tag }

/-- The effect of a `RED` at a location (R193, R219). (DEDUCED: log entry 44.) -/
def State.redLocs (s : State) (size op : Nat) (det : Bool) (scope : Nat) (val : Word) (hint : Nat) (ls : List Loc) : Done :=
  if s.th.loadOverlaps size ls then .stay s
  else s.touch .write (s.linesOf ls) <|
    match ls.head? with
    | none => .next s
    | some l =>
      match l.place with
      | .phys pa pol =>
        if s.th.speculative then
          if s.readBad s.cur pa pol then .abort 8 0 else .next (s.rmwAt s.cur size (redOp op) val 0 l hint).1
        else if s.paKind pa = .absent then .next (s.log s.myDie (.badWrite pa))
        else .next ((s.postRed pa size op det (gatherOf scope) val (s.tagFor s.cur l.va) hint).streaming hint ls)
      | .own _ => .next (s.rmwAt s.cur size (redOp op) val 0 l hint).1
      | .remote _ _ _ => .next (s.sendRemote size (remoteLanes ls fun _ => val) (.red (redOp op)))

def execRed (n : BitVec 6) (r : FM) (s : State) : Out :=
  let size := if n.getLsbD 4 then 8 else 4
  s.whole r.sel r.neg r.srcsIndex [] fun s =>
    s.access .store size [(0, s.eaPlain r)] (s.redLocs size (n.toNat % 16) (n.getLsbD 5) r.scope.toNat (s.x r.idx) r.hint.toNat)

/-! ### Fences (R189, R190) -/

/-- A `FENCE.acq` waits for the thread's earlier loads. -/
def State.acquired (s : State) : Done := if s.th.loads.isEmpty then .next s else .stay s

def execFenceAcq (r : FM) (s : State) : Out := s.whole r.sel r.neg [] [] fun s => s.acquired
/-- A `FENCE.rel` waits for what a failed remote store has still to report; then later stores wait until what came before
it is complete, and loads go on (R184, R189). -/
def execFenceRel (r : FM) (s : State) : Out :=
  s.whole r.sel r.neg [] [] fun s =>
    if s.remoteStores s.cur s.nextId then .stay s
    else s.reportRemote <|
      if s.th.speculative || s.releasedTo s.cur s.nextId then .next s
      else .next (s.updTh fun c => { c with fence := some s.nextId })
def execFenceFull (r : FM) (s : State) : Out := s.whole r.sel r.neg [] [] fun s => s.released? (.next s)
/-- Discards the words that the thread has fetched (R190). -/
def Ctx.discardWords (c : Ctx) : Ctx := { c with words := [] }

/-- `ICSYNC` acts as a `FENCE.acq` and then discards the words that the thread has fetched. (DEDUCED: log entry 16.) -/
def execIcsync (r : FM) (s : State) : Out :=
  s.whole r.sel r.neg [] [] fun s => if s.th.loads.isEmpty then .next (s.updTh Ctx.discardWords) else .stay s

/-! ### Waiting and prefetching (R195, R196) -/

/-- The value that an acquire load of one location returns now, and whether it can be had now: otherwise the state
with what brings it. -/
def State.readNow (s : State) (k size : Nat) (va : Word) (p : Place) : State ⊕ Option Word :=
  match p with
  | .own b => .inr (if s.scratchPoison.contains (b / 128) then none else some (wordOf (Mem.readBytes s.scratch b size)))
  | .remote _ _ _ => .inr (some 0)
  | .phys pa pol =>
    let t := s.tileOf (pa / 128)
    if s.paKind pa = .control then .inr (s.devValue k pa size)
    else if s.paKind pa ≠ .memory || (s.ctx k).specHit pa size then .inr (s.pieceValue k size ⟨0, va, .phys pa pol⟩)
    else if pol = .cached then
      if !s.l1Hit (coreOf k) (pa / 128) then
        .inl (s.causeOnce .leaseRequest { k := k, core := coreOf k, line := pa / 128, id := s.nextId, tag := s.tagFor k va })
      else match if (s.ctx k).tx.isSome || ((s.l1 (coreOf k) t).st matches .l _) then none else s.clearFor k t false with
        | some u => .inl u
        | none => .inr (s.pieceValue k size ⟨0, va, .phys pa pol⟩)
    else match s.homeNeed t noCore false with
      | .ready => match if (s.ctx k).tx.isSome then none else s.clearFor k t false with
        | some u => .inl u
        | none => .inr (s.pieceValue k size ⟨0, va, .phys pa pol⟩)
      | .leases => .inl s
      | .recall i => .inl (s.causeOnce i { line := pa / 128 })

/-- What such a read leaves behind: a line that hits is the most recently used, and a read that the home performs is a
lookup there. -/
def State.readMark (s : State) (k : Nat) (va : Word) (p : Place) : State :=
  match p with
  | .phys pa pol =>
    if s.paKind pa ≠ .memory then s
    else if pol = .cached then s.useL1 (coreOf k) (pa / 128) (s.tagFor k va) 0
    else s.lookup (pa / 128) (some (coreOf k)) (s.ctx k).asid 0 false
  | _ => s

def State.readMarks (s : State) (k : Nat) (ls : List Loc) : State := ls.foldl (fun s l => s.readMark k l.va l.place) s

/-- The line that a `WAITEV` watches: a physical line, or 2^50 + a line of the L1 arrays. -/
def Place.watched : Place → Nat
  | .own b => 2 ^ 50 + b / 128
  | .remote c sl a => 2 ^ 50 + c * 2048 + sl * 256 + a / 128
  | .phys pa _ => pa / 128

/-- Writes what a load returned: poison empties the register (R180). -/
def Ctx.takeX (c : Ctx) (r : Nat) (va : Word) (v : Option Word) : Ctx := c.fill (.x r) [(0, va, v)]

def execWaitev (r : FM) (s : State) : Out :=
  let size := if r.scale = 2 then 4 else 8
  s.whole r.sel r.neg r.srcsIndex [dx r.d] fun s =>
    s.access .load size [(0, s.eaPlain r)] fun ls =>
      if s.th.loadOverlaps size ls then .stay s
      else s.touch .read (s.linesOf ls) <| s.withRemote size ls (fun _ => 0) .load fun s ans =>
        match ls.head? with
        | none => .next s
        | some l =>
          let v : State ⊕ Option Word := match l.place with
            | .remote _ _ _ => .inr ((ans.head?).bind (·.2))
            | p => s.readNow s.cur size l.va p
          match v with
          | .inl t => .stay t
          | .inr none =>
            if s.th.speculative && (l.place matches .phys _ _) then .abort 8 0
            else .next (s.updTh fun c => c.takeX r.d.toNat l.va none)
          | .inr (some w) =>
            let s := s.readMark s.cur l.va l.place
            if w.toNat = (s.x r.idx).toNat % 2 ^ (8 * size) && !s.th.woken then
              .wait ((s.updTh fun c => { c with waitSince := some s.gt }).cause .waitevWake { k := s.cur })
                (.waitev l.place.watched)
            else .next (s.setX r.d w)

/-- What a `PREF` asks for: its line, at core scope for the L1, at die scope for the requester slice and the home slice, at a
wider scope for the home slice and the quire (R196), and with hint 4 the lines behind it (R175). -/
def State.prefetches (s : State) (r : FM) : State :=
  let s' := s.prefetch (s.eaIndex r) (if r.scope = 0 then 7 else if r.scope = 1 then 6 else 5) r.hint.toNat
  if r.hint = 4 && (regionOf (s.eaIndex r) matches .translated) &&
      (s'.tlbHit (clusterOf s.myCore) s.th.asid (s.eaIndex r).toNat).any (fun e => e.grants .load && e.policy = .cached) then
    s'.streamOn ((s.eaIndex r).toNat / 128)
  else s'

/-- `PREF` never faults and never traps after decode (R196): a translation it lacks is made for it, and where a register that it
reads is empty it does nothing. (DEDUCED: log entry 154.) -/
def execPref (r : FM) (s : State) : Out :=
  s.finish (if (s.mask r.sel r.neg).getLsbD 0 then
      match s.gate r.srcsIndex [] fun s => .next (s.prefetches r) with
      | .trap _ _ => .next s
      | d => d
    else .next s)

/-! ### Scratchpad claims (R170, R171) -/

/-- Pins ways: the lines that they hold leave the L1 (R170), and the new lines are filled with zeros, with valid check
bits. -/
def State.pinWays (s : State) (c : Nat) (ws : List Nat) (u : WayUse) : State :=
  let s := ((s.core c).lines.filter fun e => ws.contains e.way).foldl (fun s e => s.evictLine c e) s
  let s := s.updCore c fun v => { v with ways := ws.foldl (fun a w => vput a w u) v.ways }
  ws.foldl (fun s w =>
    { s with scratch := s.scratch.clear (c * 2 ^ 18 + w * 32768) (c * 2 ^ 18 + (w + 1) * 32768)
             scratchPoison := s.scratchPoison.filter fun l => l / 256 ≠ c * 8 + w
             scratchPending := s.scratchPending.filter fun l => l / 256 ≠ c * 8 + w }) s

/-- Returns ways to the cache; their contents are lost. -/
def State.unpinWays (s : State) (c : Nat) (ws : List Nat) : State := s.pinWays c ws .cache

/-- A failure code of an instruction. -/
def failCode (n : Nat) : Word := BitVec.ofNat 64 (2 ^ 63 + n)

/-- An `SPREL` of the thread has not given its ways up yet. -/
def Ctx.releasing (c : Ctx) : Bool := c.results.any fun q => q.ways ≠ 0

/-- `SPCLAIM` comes after the thread's earlier `SPREL`s (R170, R171). (DEDUCED: log entry 155.) -/
def execSpclaim (r : RI) (s : State) : Out :=
  s.whole r.sel r.neg [] [dx r.d] fun s =>
    let n := r.imm.toNat % 8
    let free := (s.core s.myCore).freeWays
    if s.th.releasing then .stay s
    else if 7 < 8 - free.length + n then .next (s.produce s.cur [(r.d.toNat, some (failCode 1))] [] 0)
    else
      let ws := free.take n
      let t := (s.pinWays s.myCore ws (.scratch s.cur)).updTh fun c => { c with claim := c.claim ++ ws }
      .next (t.produce s.cur [(r.d.toNat, some (BitVec.ofNat 64 (claimBytes t.th.claim)))] [] 0)

/-- `SPREL` gives the ways up when its result arrives, after the thread's engine commands (R171). -/
def execSprel (r : RI) (s : State) : Out :=
  s.whole r.sel r.neg [] [dx r.d] fun s =>
    let n := r.imm.toNat % 8
    let have' := s.th.claim.length
    if s.th.releasing then .stay s
    else if have' < n then .next (s.produce s.cur [(r.d.toNat, some (failCode 2))] [] 0)
    else
      let id := s.nextId
      let v : Word := BitVec.ofNat 64 (32768 * (have' - n))
      .next ((s.newId.updTh fun c =>
        { c with r := c.r.makePending [dx r.d], results := c.results ++ [⟨id, [(r.d.toNat, some v)], [], 0, n, [], none⟩] }).cause
          .longLatencyResult { k := s.cur, id := id })

/-! ### Retention (R176, R177) -/

/-- The page of a translated address: its bounds in virtual space. -/
def State.pageOf (s : State) (va : Nat) : Nat × Nat :=
  match s.tlbHit (clusterOf s.myCore) s.th.asid va with
  | some e => (e.vpage * 2 ^ e.bits, (e.vpage + 1) * 2 ^ e.bits)
  | none => (0, 0)

/-- A range of physical memory stays on one home die. -/
def oneHome (pa len : Nat) : Bool := homeDie pa = homeDie (pa + len - 1) && (pa < 2 ^ 39 || pa % 65536 + len ≤ 65536)

def overlaps (a la b lb : Nat) : Bool := a < b + lb && b < a + la

/-- The L2 ways of a die that retention registers of a partition reserve. -/
def State.partWays (s : State) (d p : Nat) : Nat :=
  (s.die d).retention.toList.foldl (fun n q => match q with
    | some x => if (s.space x.asid.toNat).partition.toNat = p then n + x.ways.length else n
    | none => n) 0

/-- The result of `RETAIN` for a range that is well formed: the register, or the failure. It reserves the lowest ways of the
partition's L2MASK that no register reserves. (DESIGN CHOICE: log entry 117.) -/
def State.retainAt (s : State) (pa len w : Nat) : State × Word :=
  let d := homeDie pa
  let act := (s.die d).retention.toList.filterMap id
  let p := (s.space s.th.asid.toNat).partition.toNat
  let share := popCount 16 (vat s.parts p).l2mask.toNat
  let ws := ((maskWays (vat s.parts p).l2mask).filter fun x => !(s.die d).reserved.contains x).take w
  match (List.range 8).find? fun i => (vat (s.die d).retention i).isNone with
  | none => (s, failCode 1)
  | some i =>
    if 8 < act.foldl (fun n q => n + q.ways.length) 0 + w || share < s.partWays d p + w || ws.length < w then (s, failCode 2)
    else if act.any fun q => overlaps q.base q.len pa len then (s, failCode 3)
    else
      let q : Retention := ⟨s.th.asid, pa, len, ws⟩
      let s := s.updDie d fun v => { v with retention := vput v.retention i (some q), retAsid := vput v.retAsid i s.th.asid
                                            rethit := vput v.rethit i 0, retmiss := vput v.retmiss i 0 }
      (s.clearWays d ws q s.th.asid, BitVec.ofNat 64 (d * 8 + i))

/-- The place of a retention address: translated as a load translates it. -/
def State.retainPlace (s : State) (va : Word) (bad : Done) (f : Nat → Done) : Done :=
  match regionOf va with
  | .bad => .trap .badVaddr va
  | .own _ => bad
  | .remote _ _ _ => bad
  | .translated =>
    match s.tlbHit (clusterOf s.myCore) s.th.asid va.toNat with
    | some e => if e.grants .load then f (e.pa va.toNat) else .fault .permission .load va
    | none => s.startWalk .load va

/-- DEDUCED: log entry 30; DESIGN CHOICE: log entry 141. -/
def execRetain (r : FM) (s : State) : Out :=
  s.whole r.sel r.neg r.srcsIndex [dx r.d] fun s =>
    let va := s.eaPlain r
    let x := (s.x r.idx).toNat
    let len := x % 2 ^ 32
    let w := x / 2 ^ 32 % 16
    let bad : Done := .next (s.produce s.cur [(r.d.toNat, some (failCode 4))] [] 0)
    if 2 ^ 48 ≤ va.toNat then .trap .badVaddr va
    else if va.toNat % 128 ≠ 0 || len % 128 ≠ 0 || len = 0 || w = 0 || 8 < w || 2 ^ 36 ≤ x then bad
    else s.retainPlace va bad fun pa =>
      if (s.pageOf va.toNat).2 < va.toNat + len || s.paKind pa ≠ .memory || !oneHome pa len then bad
      else let q := s.retainAt pa len w; .next (q.1.produce s.cur [(r.d.toNat, some q.2)] [] 0)

def execUnpin (r : FM) (s : State) : Out :=
  s.whole r.sel r.neg [sx r.base r.bm] [dx r.d] fun s =>
    let va := s.eaPlain r
    let none' : Done := .next (s.setX r.d (failCode 5))
    s.retainPlace va none' fun pa =>
      let d := homeDie pa
      match (List.range 8).find? fun i => match vat (s.die d).retention i with
        | some q => q.base = pa && q.asid = s.th.asid && s.paKind pa = .memory
        | none => false with
      | some i => .next ((s.updDie d fun v => { v with retention := vput v.retention i none }).setX r.d 0)
      | none => none'

/-! ### Full/empty instructions (R197) -/

/-- The registers that the immediate names. -/
def feRegs (imm : BitVec 33) : List RegRef :=
  ((List.range 32).filter fun i => imm.getLsbD i).map fun i => if imm.getLsbD 32 then .v i else .x i

/-- Waits until no register named is empty-pending. A register that only a commit of the thread's own transaction
can fill traps as R220 says. -/
def State.feReady (s : State) (rs : List RegRef) (f : Done) : Done :=
  match rs.find? fun q => s.th.r.fe q = .pending with
  | some q => if s.th.heldReg q then .trap .emptyRead (BitVec.ofNat 64 q.num) else .stay s
  | none => f

def execFewait (r : RI) (s : State) : Out :=
  s.whole r.sel r.neg [] [] fun s => s.feReady (feRegs r.imm) <|
    match (feRegs r.imm).find? fun q => s.th.r.fe q = .idle with
    | some q => .trap .emptyRead (BitVec.ofNat 64 q.num)
    | none => .next s

/-- Gives every register named a state, its value unchanged. -/
def State.setFes (s : State) (f : Fe) (rs : List RegRef) : State :=
  s.updTh fun c => { c with r := rs.foldl (fun r q => r.setFe f q) c.r }

def execFeset (r : RI) (s : State) : Out :=
  s.whole r.sel r.neg [] [] fun s => s.feReady (feRegs r.imm) (.next (s.setFes .full (feRegs r.imm)))

def execFeclr (r : RI) (s : State) : Out :=
  s.whole r.sel r.neg [] [] fun s => s.feReady (feRegs r.imm) (.next (s.setFes .idle (feRegs r.imm)))

end Sys2Proof.Machine
end

