-- ==== Sys2Proof/Machine/Tx.lean ====
section
/-! DEFINITION. Major 0x18: tiles and transactions (R198 to R222). -/

namespace Sys2Proof.Machine

/-! ### TXSTAT (R210) -/

def TxStat.word (t : TxStat) : Word :=
  BitVec.ofNat 64 (t.depth.toNat + b2n t.irrev * 2 ^ 5 + b2n t.keepage * 2 ^ 6 + t.cause.toNat * 2 ^ 8 +
    t.capcount.toNat * 2 ^ 12 + t.aborts.toNat * 2 ^ 16 + t.expcode.toNat * 2 ^ 40)

/-- What `txq.clr` clears (R218). -/
def TxStat.clear (t : TxStat) : TxStat :=
  { t with keepage := false, aborts := 0, capcount := 0, cause := 0, expcode := 0 }

/-- TXSTAT after a commit (R215). -/
def TxStat.committed (t : TxStat) : TxStat :=
  { t with irrev := false, depth := 0, aborts := 0, capcount := 0, cause := 0, keepage := false }

/-- The trap of an instruction in the wrong transactional state, with the TRAPVAL of R306. -/
def txTrap (n : Nat) : Done := .trap .txState (BitVec.ofNat 64 n)

/-! ### Closing tiles (R200, R208, R209) -/

/-- The contexts whose speculative transactions hold a tile. -/
def State.specHolders (s : State) (t : Nat) : List Nat := (s.holders t Tx.tiles).filter fun k => (s.ctx k).speculative

/-- What closing a tile still waits for, with a line of the tile: transactions, partials, owners, leases, requests. -/
def State.closeStep (s : State) (t line : Nat) : Option State :=
  let hs := s.specHolders t
  if hs.any fun k => s.unabortable k t then some s
  else
    let s := hs.foldl State.conflictAbort s
    if !(s.specHolders t).isEmpty || s.writeWaits t then some s
    else match s.homeNeed t noCore true with
      | .ready => none
      | .leases => some s
      | .recall i => some (s.causeOnce i { line := line })

/-- The largest LEXP of tiles. -/
def State.lexpOf (s : State) (ts : List Nat) : Word := ts.foldl (fun m t => maxWord m (s.dir t).lexp) 0

/-- New tiles take over the LEXP of those whose lines they take (R204). -/
def State.inheritLexp (s : State) (ts : List Nat) (x : Word) : State :=
  if x = 0 then s else ts.foldl (fun s t => s.updDir t fun d => { d with past := maxWord d.past x }) s

/-- The implicit tiles of lines. -/
def implicitTiles (lines : List Nat) : List Nat := (lines.map fun l => 4096 + l / 4).eraseDups

/-- Forgets what homes and L1s keep for tiles. -/
def State.forgetTiles (s : State) (ts : List Nat) : State :=
  let tileOf := s.tileOf
  { s with dirs := Tbl.keep s.dirs fun t _ => !ts.contains t
           dies := s.dies.map fun v => { v with sliceLease := Tbl.keep v.sliceLease fun n _ => !ts.contains (n / 64) }
           cores := Tbl.mapV s.cores fun _ c =>
             { c with l1 := Tbl.keep c.l1 fun t _ => !ts.contains t
                      lines := c.lines.filter fun e => e.spec.isSome || !ts.contains (tileOf e.line) } }

/-- Closes tiles, each given with one of its lines, and goes on; waits while one is not closed. The transactions
that hold one of them abort. -/
def State.closing (s : State) (ts : List (Nat × Nat)) (f : State → Done) : Done :=
  match ts.findSome? fun t => s.closeStep t.1 t.2 with
  | some s' => .stay s'
  | none =>
    let s := ts.foldl (fun s t => (s.specHolders t.1).foldl State.conflictAbort s) s
    f (s.forgetTiles (ts.map (·.1)))

/-- The fence with which a thread issues `TILEDEF`, `TILEREL` and `TXE`: every earlier access is complete and every
earlier store visible (R208, R209, R215). -/
def State.settledStores (s : State) (f : Done) : Done :=
  if !s.th.loads.isEmpty then .stay s
  else if s.released s.cur then s.reportRemote f
  else .wait (s.causeOnce .releaseComplete { k := s.cur }) .release

/-! ### Declaring and releasing tiles (R208, R209) -/

/-- A result of major 0x18 on its way to Xd. -/
def State.result (s : State) (d : BitVec 6) (w : Word) : Done := .next (s.produce s.cur [(d.toNat, some w)] [] 0)

/-- A shape record (R55). -/
structure Shape where
  base : Nat
  rows : Nat
  rowbytes : Nat
  pitch : Nat
  deriving DecidableEq, Repr

/-- The shape that the four dwords of a record give, none where it is a BAD_RECORD (R55, R208). -/
def shapeOf (w0 w1 w2 w3 : Nat) : Option Shape :=
  let rows := w1 % 2 ^ 32
  let rb := w1 / 2 ^ 32
  if 2 ^ 48 ≤ w0 || w0 % 128 ≠ 0 || rows = 0 || 4096 < rows || rb < 128 || 8192 < rb || rb % 128 ≠ 0 ||
      w2 % 128 ≠ 0 || w2 < rb || w3 ≠ 0 || 2 ^ 20 < rows * rb || remoteBase < w0 + (rows - 1) * w2 + rb then none
  else some ⟨w0, rows, rb, w2⟩

/-- The line addresses that a shape covers, row by row. -/
def Shape.addrs (q : Shape) : List Nat :=
  (List.range q.rows).flatMap fun r => (List.range (q.rowbytes / 128)).map fun i => q.base + r * q.pitch + 128 * i

/-- Translates addresses, and lists their physical addresses, each with the bounds of its page; the first that is not translated
ends it. -/
def State.xlateAll (s : State) (acc : Access) : List Nat → State × Except (XlateBad × Nat) (List (Nat × Nat × Nat))
  | [] => (s, .ok [])
  | a :: as =>
    match s.xlate s.myCore s.th.asid acc (BitVec.ofNat 64 a) with
    | (s, .error k) => (s, .error (k, a))
    | (s, .ok (pa, _)) =>
      let page := s.pageOf a
      match s.xlateAll acc as with
      | (s, .ok ps) => (s, .ok ((pa, page) :: ps))
      | (s, .error e) => (s, .error e)

/-- How a translation that an instruction makes itself ends it: the access faults, or takes the poison of a table entry
(R301, R325). -/
def State.xlateFailed (s : State) (acc : Access) (va : Word) : XlateBad → Done
  | .fault k => .fault k acc va
  | .poison => if s.th.speculative then .abort 8 0 else .trap .dataPoison va

/-- The lowest tile number that is free. -/
def State.freeTile (s : State) : Option Nat := (List.range 4096).find? fun t => (Tbl.get? s.tiles t).isNone

/-- `TILEDEF` with a well-formed shape. -/
def State.declare (s : State) (d : BitVec 6) (q : Shape) : Done :=
  match s.xlateAll .load q.addrs with
  | (_, .error (k, a)) => s.xlateFailed .load (BitVec.ofNat 64 a) k
  | (s, .ok ps) =>
    let ls := ((ps.filter fun p => s.paKind p.1 = .memory).map (·.1 / 128)).eraseDups
    if ls.any fun l => s.tileOf l < 4096 then s.result d (failCode 2)
    else match s.freeTile with
      | none => s.result d (failCode 1)
      | some t =>
        let old := (implicitTiles ls).map fun t => (t, (t - 4096) * 4)
        let x := s.lexpOf (implicitTiles ls)
        s.closing old fun s =>
          let pa := (ps.headD (0, 0, 0)).1
          let e : TileEntry := ⟨s.th.asid, BitVec.ofNat 64 q.base, q.rows, q.rowbytes, q.pitch, homeDie pa * 64 + homeSlice pa, ls,
            (ps.map (·.2)).eraseDups⟩
          (({ s with tiles := Tbl.set s.tiles t e }).inheritLexp [t] x).result d (BitVec.ofNat 64 t)

/-- The value of each of four dwords at the locations, as an acquire load reads them, or what brings them. -/
def State.recordAt (s : State) (ls : List Loc) (ans : List (Nat × Option Word)) : State ⊕ List (Option Word) :=
  ls.foldl (fun acc l => match acc with
    | .inl t => .inl t
    | .inr vs =>
      match l.place with
      | .remote _ _ _ => .inr (vs ++ [(ans.find? fun a => a.1 = l.lane).bind (·.2)])
      | p => match s.readNow s.cur 8 l.va p with
        | .inl t => .inl t
        | .inr v => .inr (vs ++ [v])) (.inr [])

def execTiledef (r : FM) (s : State) : Out :=
  s.always [sx r.base r.bm] [dx r.d] fun s =>
    if s.th.speculative then .abort 2 0
    else s.settledStores <|
      let ea := s.eaPlain r
      if ea.toNat % 32 ≠ 0 then s.access .load 1 [(0, ea)] fun _ => s.result r.d (failCode 3)
      else s.access .load 8 ((List.range 4).map fun i => (i, ea + BitVec.ofNat 64 (8 * i))) fun ls =>
        s.withRemote 8 ls (fun _ => 0) .load fun s ans =>
          match s.recordAt ls ans with
          | .inl t => .stay t
          | .inr [some a, some b, some c, some e] =>
            match shapeOf a.toNat b.toNat c.toNat e.toNat with
            | none => s.result r.d (failCode 3)
            | some q => (s.readMarks s.cur ls).declare r.d q
          | .inr _ => .next (s.updTh fun c => c.takeX r.d.toNat ea none)

def execTilerel (r : RI) (s : State) : Out :=
  s.always [sx r.a r.am] [dx r.d] fun s =>
    if s.th.speculative then .abort 2 0
    else s.settledStores <|
      let t := (s.x r.a).toNat
      match if t < 4096 then Tbl.get? s.tiles t else none with
      | some e =>
        if e.asid ≠ s.th.asid then s.result r.d (failCode 5)
        else
          let x := s.lexpOf [t]
          s.closing [(t, e.lines.headD 0)] fun s =>
          (({ s with tiles := Tbl.erase s.tiles t }).inheritLexp (implicitTiles e.lines) x).result r.d 0
      | none => s.result r.d (failCode 5)

/-! ### Beginning and ending transactions (R211, R215, R217, R218) -/

/-- A register of the thread is empty-pending, or a pop or a load is in flight (R211). -/
def Ctx.producing (c : Ctx) : Bool :=
  !c.settled || c.r.xfe.toList.any (· = .pending) || c.r.vfe.toList.any (· = .pending)

/-- A transaction that has touched nothing. -/
def Tx.fresh (handler : Option Word) (ckpt : Regs) : Tx := ⟨handler, ckpt, [], [], [], [], [], [], [], .live⟩

/-- `TXB` at DEPTH 0 with its handler (R211). -/
def State.beginTx (s : State) (irr : Bool) (handler : Word) : Done :=
  if s.th.producing then .stay s
  else
    let st := s.th.txstat
    let age := if st.keepage then s.th.txage else s.gtOf s.myDie
    let st' : TxStat := { st with aborts := if st.keepage then st.aborts else 0
                                  capcount := if st.keepage then st.capcount else 0
                                  keepage := false, depth := 1 }
    let tx := some (Tx.fresh (some handler) s.th.r)
    if irr && (2 ≤ st'.capcount.toNat || 8 ≤ st'.aborts.toNat) then
      if s.tokenHolder = some s.cur then
        .next (s.updTh fun c => { c with txage := age, txstat := { st' with irrev := true }, tx := tx })
      else
        let s := s.updDie s.myDie fun v => { v with tokenq := insertNew v.tokenq s.cur }
        .wait (s.causeOnce .tokenGrant {}) .token
    else .next (s.updTh fun c => { c with txage := age, txstat := st', tx := tx })

/-- DEDUCED: log entry 39. -/
def execTxb (r : FB) (s : State) : Out :=
  s.always [] [] fun s =>
    let h := s.target r.off
    let st := s.th.txstat
    if h.toNat % 8 ≠ 0 then .trap .misalignedPc 0
    else if st.depth = 7 then if st.irrev then txTrap 2 else .abort 6 0
    else if st.depth ≠ 0 then .next (s.updTh fun c => { c with txstat := { c.txstat with depth := c.txstat.depth + 1 } })
    else s.beginTx (r.cond = 1) h

/-- Clears the transaction of a context that has committed (R215). -/
def State.endTx (s : State) (k : Nat) (tiles : List Nat) : State :=
  let s := s.forgetTx k tiles
  let s := if s.tokenHolder = some k then { s with tokenHolder := none } else s
  let s := s.updDie (dieOf (coreOf k)) fun v => { v with counts := { v.counts with commits := v.counts.commits + 1 } }
  s.updCtx k fun c => { c with txstat := c.txstat.committed, tx := none }

/-- A commit whose directories have all answered (R215): Tc, and COMMIT to each of them. -/
def State.sendCommit (s : State) (k : Nat) (x : Tx) (lexp : Word) : State :=
  let tp := s.gtOf (dieOf (coreOf k))
  let tc := maxWord (tp + 32) (lexp + 32)
  let s := s.updCtx k fun c => { c with tx := some { x with phase := .committing tc x.tiles } }
  let s := x.tiles.foldl (fun s t => s.cause .commit { k := k, id := t }) s
  s.cause .txCommitComplete { k := k }

/-- Begins the commit of a context's transaction: PREPARE to every directory (R215). -/
def State.beginCommit (s : State) (k : Nat) (x : Tx) : State :=
  if x.tiles.isEmpty then s.sendCommit k x 0
  else
    let s := s.updCtx k fun c => { c with tx := some { x with phase := .preparing x.tiles 0 } }
    x.tiles.foldl (fun s t => s.cause .prepare { k := k, id := t }) s

def execTxe (_r : RI) (s : State) : Out :=
  s.always [] [] fun s =>
    let st := s.th.txstat
    match s.th.tx with
    | none => txTrap 3
    | some x =>
      if st.depth = 0 then txTrap 3
      else if st.depth ≠ 1 then .next (s.updTh fun c => { c with txstat := { c.txstat with depth := c.txstat.depth - 1 } })
      else if x.handler.isNone then txTrap 7
      else s.settledStores <|
        if st.irrev then .next (s.endTx s.cur x.tiles)
        else .wait (s.beginCommit s.cur x) .committing

def execTxa (r : RI) (s : State) : Out :=
  s.always [] [] fun s =>
    if s.th.txstat.depth = 0 then txTrap 5
    else if s.th.txstat.irrev then txTrap 1
    else .abort 3 (r.imm.extractLsb' 0 8)

def execTxq (r : RI) (s : State) : Out :=
  s.always [] [dx r.d] fun s => .next (s.setX r.d s.th.txstat.word)

def execTxqClr (r : RI) (s : State) : Out :=
  s.always [] [dx r.d] fun s =>
    if s.th.txstat.depth ≠ 0 then txTrap 6
    else .next ((s.setX r.d s.th.txstat.word).updTh fun c => { c with txstat := c.txstat.clear })

/-! ### Reductions in a transaction (R216) -/

/-- Holds a contribution as a speculative partial. -/
def State.holdPartial (s : State) (pa size op : Nat) (det : Bool) (val : Word) : State :=
  let id := s.nextId
  s.newId.updTh fun c => { c with tx := c.tx.map fun x =>
    { x with partials := x.partials ++ [⟨id, s.cur, s.cur, .l1, pa, size = 8, op, det, val⟩] } }

/-- The effect of a `TXRED` at a location: a contribution that the transaction holds, also to a tile that it writes (R216). -/
def State.txredLocs (s : State) (size op : Nat) (det : Bool) (val : Word) (ls : List Loc) : Done :=
  match ls.head? with
  | none => .next s
  | some l =>
    match l.place with
    | .phys pa pol =>
      if s.th.loadOverlaps size ls then .stay s
      else s.touch (.reduce op) (s.linesOf ls) <|
        let mine := s.th.tx.any fun x => x.writes.contains (s.tileOf (pa / 128))
        if (s.paKind pa ≠ .memory || mine) && s.readBad s.cur pa pol then .abort 8 0
        else if s.paKind pa ≠ .memory then .next (s.rmwAt s.cur size (redOp op) val 0 l 0).1
        else .next (s.holdPartial pa size op det val)
    | _ => s.redLocs size op det 2 val 0 ls

def execTxred (r : FM) (s : State) : Out :=
  let op := r.d.toNat % 8
  let size := if r.d.getLsbD 3 then 8 else 4
  let det := r.d.getLsbD 4
  s.always [sx r.base r.bm, sx r.idx r.im] [] fun s =>
    if s.th.txstat.depth = 0 then txTrap 4
    else s.access .atomic size [(0, s.eaPlain r)] fun ls =>
      if s.th.txstat.irrev then s.redLocs size op det 2 (s.x r.idx) 0 ls
      else s.txredLocs size op det (s.x r.idx) ls

end Sys2Proof.Machine
end

