-- ==== Sys2Proof/Machine/Engine.lean ====
section
/-! DEFINITION. Majors 0x1C and 0x1D as a thread issues them: pushes and pops of queue registers, guards, and the
landing ring (R224 to R238, R243, R245, R118, R251). What the engines do with a command is in Copy.lean,
Matrix.lean and Transport.lean. -/

namespace Sys2Proof.Machine

/-! ### Pushing a command (R220, R225, R232, R234) -/

/-- What a command binds to at its push (R232). -/
def Regs.binding (r : Regs) (guard : Option Nat) : Binding :=
  match guard with
  | none => .free
  | some g => match vat r.guards g with
    | .yes => .free
    | .no => .discarded
    | .pending => .heldOn g

def guardOf (guard : BitVec 3) (guarded : BitVec 1) : Option Nat := if guarded = 1 then some guard.toNat else none

/-- The command is held on a guard that is pending. -/
def Cmd.onGuard (c : Cmd) : Bool := c.bound matches .heldOn _

/-- A push into view q that finds it full (R225). -/
def State.pushFull (s : State) (q : Nat) : Done :=
  match (vat s.th.cmds q).head? with
  | some h => if h.onGuard then .trap .guardDeadlock (BitVec.ofNat 64 q) else .stay s
  | none => .stay s

/-- Puts a command into view q. A copy's destination lines (R234) and a drain's (R120) are pending from then on. (DEDUCED: log
entry 120.) -/
def State.enqueue (s : State) (q : Nat) (c : Cmd) : State :=
  let s := s.updTh fun x => { x with cmds := vput x.cmds q (vat x.cmds q ++ [c]) }
  if c.held then s.updTh fun x => { x with tx := x.tx.map fun t => { t with held := t.held ++ [.cmd q c.id] } }
  else (s.addPending (c.destLines s.myCore s.th.claim)).cause .engineCommandStart { k := s.cur, q := q }

/-- Pushes a command: waits while the view is full or an earlier access holds it back (R184), is held inside a speculative
transaction where `holdable`. -/
def State.push (s : State) (q : Nat) (holdable : Bool) (c : Cmd) : Done :=
  let hold := holdable && s.th.speculative
  if s.heldBack true then .stay s
  else if 8 ≤ (vat s.th.cmds q).length then s.pushFull q
  else if hold && (match s.th.tx with | some t => decide (16 ≤ t.held.length) | none => false) then .abort 2 0
  else .next (s.newId.enqueue q { c with id := s.nextId, held := hold })

/-- The command of an engine word, its operands read from the registers. -/
def State.cmdOf (s : State) (fn : Nat) (r : FQ) : Cmd :=
  { id := 0, fn := fn, barq := false, cmd := r.cmd, a := s.x r.a, b := s.x r.b, c := s.x r.c, reg := r.c.toNat
    bound := s.th.r.binding (guardOf r.guard r.guarded), held := false, started := false, done := 0
    tally := [] }

end Sys2Proof.Machine

namespace Sys2Proof

open Machine

def FQ.srcs (r : FQ) : List Src := [sx r.a r.am, sx r.b r.bm, sx r.c r.cm]

end Sys2Proof

namespace Sys2Proof.Machine

/-- An engine word that pushes a command and writes no register. -/
def State.engine (s : State) (q fn : Nat) (holdable : Bool) (r : FQ) : Out :=
  s.whole r.sel r.neg r.srcs [] fun s => s.push q holdable (s.cmdOf fn r)

def execCpy (r : FQ) (s : State) : Out := s.engine 2 0x00 true r
def execCpy2d (r : FQ) (s : State) : Out := s.engine 2 0x01 true r
def execScat (r : FQ) (s : State) : Out := s.engine 2 0x02 true r
def execGath (r : FQ) (s : State) : Out := s.engine 4 0x08 true r
def execGathSel (r : FQ) (s : State) : Out := s.engine 4 0x08 true r
def execMerge (r : FQ) (s : State) : Out := s.engine 6 0x09 true r
def execMclaim (r : FQ) (s : State) : Out := s.engine 0 0x10 false r
def execMclaimTry (r : FQ) (s : State) : Out := s.engine 0 0x10 false r
def execMclaimRel (r : FQ) (s : State) : Out := s.engine 0 0x10 false r
def execMloadw (r : FQ) (s : State) : Out := s.engine 0 0x11 false r
def execMloadt (r : FQ) (s : State) : Out := s.engine 0 0x12 false r
def execMloadtBias (r : FQ) (s : State) : Out := s.engine 0 0x12 false r
def execMstream (r : FQ) (s : State) : Out := s.engine 0 0x13 false r
def execMstreamRing (r : FQ) (s : State) : Out := s.engine 0 0x13 false r
def execMdrain (r : FQ) (s : State) : Out := s.engine 0 0x14 false r
def execMring (r : FQ) (s : State) : Out := s.engine 0 0x15 false r
def execNsend (r : FQ) (s : State) : Out := s.engine 8 0x18 true r
def execNwrite (r : FQ) (s : State) : Out := s.engine 8 0x19 true r
def execNpost (r : FQ) (s : State) : Out := s.engine 8 0x1A true r
def execNcqFence (r : FQ) (s : State) : Out := s.engine 8 0x1B true r
def execNcqUnpost (r : FQ) (s : State) : Out := s.engine 8 0x1B true r

/-! ### Kicks (R243) -/

/-- A local address of a context as another core names it (R169). -/
def remoteAddr (k a : Nat) : Nat := remoteBase + coreOf k * 2 ^ 21 + slotOf k * 2 ^ 18 + a

/-- The source address of a notice: an own-window address is rewritten into the remote window of the sender; none
where it is misaligned or elsewhere. -/
def kickSource (k : Nat) (va : Word) : Option Word :=
  if va.toNat % 4 ≠ 0 then none
  else match regionOf va with
    | .translated => some va
    | .own a => some (BitVec.ofNat 64 (remoteAddr k (a % 2 ^ 18)))
    | _ => none

/-- LEN of Xb, none where Xb is not a descriptor. -/
def kickLen (b : Word) : Option Nat :=
  let len := b.toNat / 2 ^ 32 % 2 ^ 17
  if b.toNat / 2 ^ 49 ≠ 0 || b.getLsbD 15 || len % 4 ≠ 0 || len < 4 || 65536 < len then none else some len

/-- DEDUCED: log entry 48. -/
def execKick (r : FQ) (s : State) : Out :=
  s.whole r.sel r.neg r.srcs [dx r.c] fun s =>
    match kickSource s.cur (s.x r.a), kickLen (s.x r.b) with
    | some src, some _ =>
      match s.push 2 true { s.cmdOf 0x03 r with a := src } with
      | .next t => .next (t.updTh fun c => { c with r := c.r.setFe .pending (dx r.c) })
      | d => d
    | _, _ => .next (s.produce s.cur [(r.c.toNat, some 6)] [] 0)

/-! ### Landing rings (R245) -/

/-- Frees the acknowledged allocations from the oldest forward. -/
def freeAllocs : List Alloc → List Alloc
  | [] => []
  | a :: as => if a.acked then freeAllocs as else a :: as

/-- Whether a token names a landed notice of a ring that is not acknowledged. -/
def Ring.lands (r : Ring) (token : Word) : Bool := r.allocs.any fun a => a.token = some token && !a.acked

/-- The element that an acknowledgement posts (R245). -/
def ackElem (code : Nat) (tag : Half) : Word := elem 0 0x03 tag.toNat ||| BitVec.ofNat 64 (code % 256 * 2 ^ 24)

/-- Acknowledges the landed notice that a token names in the ring of context k: its lines are freed, which may let the next
notice land, and the acknowledgement travels to the sender. -/
def State.ackNotice (s : State) (k : Nat) (token : Word) (code : Nat) : State :=
  match (s.ctx k).ring with
  | none => s
  | some r =>
    match r.allocs.find? fun a => a.token = some token && !a.acked with
    | none => s
    | some a =>
      let allocs := freeAllocs (r.allocs.map fun b => if b.token = some token then { b with acked := true } else b)
      let id := s.nextId
      let s := s.newId.updCtx k fun c => { c with ring := some { r with allocs := allocs } }
      ({ s with msgs := Tbl.set s.msgs id (.ack a.notice.k a.notice.id (ackElem code a.notice.tag)) }.cause
        .kickAck { id := id }).causeOnce .noticeFetch { core := coreOf k }

/-- The context whose ring holds the landed notice that a token names for the thread: its own, or the one whose
notice it handles. -/
def State.noticeOf (s : State) (token : Word) : Option Nat :=
  if s.th.ring.any fun r => r.lands token then some s.cur
  else match s.th.info.notice with
    | some (k, t) => if t = token && (s.ctx k).ring.any fun r => r.lands token then some k else none
    | none => none

/-- A command that another agent answers: it does not hold back the commands behind it. -/
def Cmd.answered (c : Cmd) : Bool := !c.barq && (c.fn = 0x03 || c.fn = 0x18 || c.fn = 0x19)

/-- A `KACK` of an operation. -/
def Cmd.isKack (c : Cmd) (op : Nat) : Bool := !c.barq && c.fn = 0x04 && c.cmd.toNat / 2 ^ 10 % 4 = op

/-- Commands of the thread's Q2 view have still to start ahead of a new one. -/
def Ctx.copiesAhead (c : Ctx) : Bool := (vat c.cmds 2).any fun m => !(m.answered && m.started)

/-- A `KACK` bound to its guard: at once where it stands at the head of its view and may start, and otherwise as any command
of Q2, in push order; a full view makes it wait (R224, R225, R232, R245). -/
def State.kackBound (s : State) (r : FQ) (f : Done) : Done :=
  if s.heldBack true then .stay s
  else match s.th.r.binding (guardOf r.guard r.guarded) with
    | .free =>
      if 8 ≤ (vat s.th.cmds 2).length then s.pushFull 2
      else if s.th.copiesAhead then s.push 2 false (s.cmdOf 0x04 r) else f
    | _ => s.push 2 false (s.cmdOf 0x04 r)

/-- A `KACK` of a token is already in the thread's view. -/
def Ctx.acking (c : Ctx) (token : Word) : Bool := (vat c.cmds 2).any fun m => m.isKack 0 && m.a = token

/-- The thread has a ring, or will have one, once the commands of its view are done. -/
def Ctx.ringAhead (c : Ctx) : Bool :=
  (vat c.cmds 2).foldl (fun b m => if m.isKack 1 then true else if m.isKack 2 then false else b) c.ring.isSome

def execKack (r : FQ) (s : State) : Out :=
  s.whole r.sel r.neg r.srcs [] fun s =>
    match s.noticeOf (s.x r.a) with
    | none => .trap .kickOperand 3
    | some k =>
      if s.th.acking (s.x r.a) then .trap .kickOperand 3
      else s.kackBound r (.next (s.ackNotice k (s.x r.a) (r.cmd.toNat % 256)))

/-- Opens a ring in context k. -/
def State.openRing (s : State) (k : Nat) (a b : Nat) : State := s.updCtx k fun c => { c with ring := some ⟨a, b, 0, []⟩ }

def execKackOpen (r : FQ) (s : State) : Out :=
  s.whole r.sel r.neg r.srcs [] fun s =>
    let a := (s.x r.a).toNat
    let b := (s.x r.b).toNat
    if a % 128 ≠ 0 || b % 128 ≠ 0 || b < 128 || claimBytes s.th.claim < a + b then .trap .kickOperand 1
    else if s.th.ringAhead then .trap .kickOperand 2
    else s.kackBound r (.next (s.openRing s.cur a b))

/-- Every notice that has lines in the ring is acknowledged. -/
def Ctx.ringIdle (c : Ctx) : Bool := match c.ring with
  | none => true
  | some r => r.allocs.isEmpty

/-- Closes the ring of a context. Notices that were accepted for it and have not landed are dropped.
(DEDUCED: log entry 69.) -/
def State.closeRing (s : State) (k : Nat) : State :=
  (s.updCtx k fun c => { c with ring := none }).updCore (coreOf k) fun c =>
    let ns := c.notices.filter (·.ctx ≠ k)
    let os := c.overflow.filter (·.ctx ≠ k)
    { c with notices := ns ++ os.take (16 - ns.length), overflow := os.drop (16 - ns.length) }

/-- DEDUCED: log entry 49. -/
def execKackClose (r : FQ) (s : State) : Out :=
  s.whole r.sel r.neg r.srcs [] fun s =>
    s.kackBound r <|
      if s.th.ringIdle then .next (s.closeRing s.cur) else .stay s

/-! ### Popping (R226, R230, R231, R35) -/

/-- The elements that wait in a view. -/
def Ctx.waiting (c : Ctx) (q : Nat) : Nat := if q = 5 then c.lines.length else (vat c.elems q).length

/-- Takes the oldest element of a view into a register; a poisoned line leaves the register empty and is reported
before the next instruction (R237, R324). -/
def Ctx.takeElem (c : Ctx) (q : Nat) (dst : LoadDst) : Ctx :=
  match dst with
  | .x n => match vat c.elems q with
    | e :: es => { c.setX n e with elems := vput c.elems q es }
    | [] => c
  | .v n => match c.lines with
    | e :: es =>
      if e.poisoned then { c with lines := es, r := c.r.setFe .idle (.v n), poison := some (c.poison.getD 0) }
      else { c.setV n e.lanes with lines := es }
    | [] => c

/-- Receive records that the OTE holds for a context come into its Q9 as it has room (R257). -/
def State.refillQ9 (s : State) (k : Nat) : State :=
  match Tbl.get? s.ote.held k with
  | none => s
  | some h =>
    match h.records with
    | [] => s
    | e :: es =>
      if 16 ≤ (s.ctx k).waiting 9 then s
      else
        let e := if h.dropped then e ||| BitVec.ofNat 64 (2 ^ 24) else e
        (s.updOte fun o => { o with held := if es.isEmpty then Tbl.erase o.held k else Tbl.set o.held k ⟨es, false⟩ }).updCtx k
          fun c => c.postElem 9 e

/-- A pop takes its element. -/
def State.takeFrom (s : State) (k q : Nat) (dst : LoadDst) : State :=
  let s := s.updCtx k fun c => c.takeElem q dst
  if q = 9 then s.refillQ9 k
  else if q = 10 then s.causeOnce .noticeFetch { core := coreOf k }
  else s

/-- The thread waits for an element: its destination is empty-pending. -/
def State.startPop (s : State) (q : Nat) (dst : LoadDst) : State :=
  (s.updTh fun c =>
    { c with r := c.r.setFe .pending (match dst with | .x n => .x n | .v n => .v n)
             pops := c.pops ++ [⟨q, dst, s.gt⟩] }).causeOnce .queuePopDeliver { k := s.cur, q := q }

/-- Every command that still owes an element to a pop view is held by a pending guard or by the context's own
transaction. -/
def Ctx.owedHeld (c : Ctx) (q : Nat) : Bool := (vat c.cmds (pushOf q)).all fun m => m.onGuard || m.held

def State.pop (s : State) (q : Nat) (dst : LoadDst) : Done :=
  let c := s.th
  if 4 ≤ c.pops.length then .stay (s.updTh fun c => { c with waitSince := c.pops.head?.map (·.since) })
  else if c.waiting q ≠ 0 && !(c.pops.any fun p => p.q = q) then .next (s.takeFrom s.cur q dst)
  else if q < 9 && c.waiting q = 0 && (vat c.cmds (pushOf q)).isEmpty then .trap .queueUnderrun (BitVec.ofNat 64 q)
  else if q < 9 && c.waiting q = 0 && c.owedHeld q then .trap .guardDeadlock (BitVec.ofNat 64 q)
  else .next (s.startPop q dst)

def execQr (r : RI) (s : State) : Out :=
  let q := (r.imm.extractLsb' 0 4).toNat
  let dst : LoadDst := if r.imm.getLsbD 4 then .v r.d.toNat else .x r.d.toNat
  s.whole r.sel r.neg [] [if r.imm.getLsbD 4 then dv r.d else dx r.d] fun s => s.pop q dst

/-- The snapshot of a view (R231). -/
def State.qstat (s : State) (q : Nat) : Word :=
  let c := s.th
  let low := if pushQueue q then 8 - (vat c.cmds q).length else c.waiting q
  let core := s.core s.myCore
  let more := if q = 10 then core.notices.length * 2 ^ 16 + core.overflow.length * 2 ^ 32 else 0
  BitVec.ofNat 64 (low + c.count q * 256 + more)

def execQstat (r : RI) (s : State) : Out :=
  s.whole r.sel r.neg [] [dx r.d] fun s => .next (s.setX r.d (s.qstat (r.imm.toNat % 16)))

/-! ### Guards (R232) -/

/-- Binds a command held on guard g to the guard's value. -/
def Cmd.resolve (c : Cmd) (g : Nat) (v : Bool) : Cmd :=
  match c.bound with
  | .heldOn h => if h = g then { c with bound := if v then .free else .discarded } else c
  | _ => c

/-- Sets guard g of context k: every command held on it is released, in each view in push order. -/
def State.setGuard (s : State) (k g : Nat) (v : Bool) : State :=
  let s := s.updCtx k fun c =>
    { c with r := { c.r with guards := vput c.r.guards g (if v then .yes else .no) }
             cmds := c.cmds.map fun l => l.map fun m => m.resolve g v }
  [0, 2, 4, 6, 8].foldl (fun s q =>
    if (vat (s.ctx k).cmds q).isEmpty then s else s.causeOnce .engineCommandStart { k := k, q := q }) s

def execGset (r : RI) (s : State) : Out :=
  s.whole r.sel r.neg [sx r.a r.am] [] fun s => .next (s.setGuard s.cur (r.imm.toNat % 8) (s.x r.a ≠ 0))

def execGclr (r : RI) (s : State) : Out :=
  s.whole r.sel r.neg [] [] fun s =>
    .next (s.updTh fun c => { c with r := { c.r with guards := vput c.r.guards (r.imm.toNat % 8) .pending } })

def Guard.code : Guard → Nat
  | .no => 0 | .yes => 1 | .pending => 2

def execGq (r : RI) (s : State) : Out :=
  s.whole r.sel r.neg [] [dx r.d] fun s =>
    .next (s.setX r.d (BitVec.ofNat 64 (vat s.th.r.guards (r.imm.toNat % 8)).code))

/-! ### QW (R229) -/

/-- The meaning of an engine word and its F-Q fields; none for an instruction that is not of major 0x1D. -/
def engineWord : Instr → Option (FQ × (State → Out))
  | .cpy r => some (r, execCpy r) | .cpy2d r => some (r, execCpy2d r) | .scat r => some (r, execScat r)
  | .kick r => some (r, execKick r) | .kack r => some (r, execKack r) | .kackOpen r => some (r, execKackOpen r)
  | .kackClose r => some (r, execKackClose r) | .gath r => some (r, execGath r) | .gathSel r => some (r, execGathSel r)
  | .merge r => some (r, execMerge r) | .mclaim r => some (r, execMclaim r) | .mclaimTry r => some (r, execMclaimTry r)
  | .mclaimRel r => some (r, execMclaimRel r) | .mloadw r => some (r, execMloadw r) | .mloadt r => some (r, execMloadt r)
  | .mloadtBias r => some (r, execMloadtBias r) | .mstream r => some (r, execMstream r)
  | .mstreamRing r => some (r, execMstreamRing r) | .mdrain r => some (r, execMdrain r) | .mring r => some (r, execMring r)
  | .nsend r => some (r, execNsend r) | .nwrite r => some (r, execNwrite r) | .npost r => some (r, execNpost r)
  | .ncqFence r => some (r, execNcqFence r) | .ncqUnpost r => some (r, execNcqUnpost r)
  | _ => none

/-- Issues the word of a `QW` for queue n. -/
def State.issueWord (s : State) (n : BitVec 6) (w : Word) : Out :=
  if w.extractLsb' 58 6 ≠ 0x1D || w.extractLsb' 40 6 ≠ n then s.finish (.trap .illegalOp w)
  else match decode w with
  | .illegalOp => s.finish (.trap .illegalOp w)
  | .reservedField => s.finish (.trap .reservedField w)
  | .instr i =>
    match engineWord i with
    | none => s.finish (.trap .illegalOp w)
    | some (r, run) =>
      if r.sel ≠ 0 || r.neg ≠ 0 then s.finish (.trap .reservedField w)
      else run s

/-- DEDUCED: log entry 109. -/
def execQw (r : FQ) (s : State) : Out :=
  if !(s.mask r.sel r.neg).getLsbD 0 then s.finish (.next s)
  else match s.gate [sx r.a r.am] [] fun s => .final s with
    | .final s => s.issueWord r.q (s.x r.a)
    | d => s.finish d

end Sys2Proof.Machine
end

