-- ==== Sys2Proof/Machine/Coherence.lean ====
section
/-! DEFINITION. The steps of the memory system: results and loads that arrive (R28, R180), walks (R299), remote
scratchpad (R169), leases, owners and partials at the tile homes (R130, R131, R194, R201 to R206), releases and
wakes (R195, R204), and the steps of a transaction outside its thread (R213 to R221). -/

namespace Sys2Proof.Machine

/-! ### Loads and walks -/

/-- An access of context k meets a dead agent (R328). -/
def State.blotted (s : State) (k : Nat) : State :=
  if (s.ctx k).speculative then s.startAbort k ⟨8, 0, .handler⟩ else s.halt k

/-- What an access finds in the code words of a stored line, recorded by die d: a corrected error is counted; a double-bit error,
or at a point that verifies it a check value that does not match, poisons the line where it is found, as `mark` does (R321,
R324). -/
def State.found (s : State) (d line : Nat) (verify : Bool) (mark : State → State) : ScrubOutcome → State
  | .clean => s
  | .corrected => s.log d (.corrected line)
  | .uncorrectable => (mark s).log d (.uncorrected line)
  | .mismatch => if verify then (mark s).log d (.mismatch (line * 128)) else s

/-- The same of a line at its home. -/
def State.findError (s : State) (d line : Nat) (verify : Bool) (f : ScrubOutcome) : State :=
  s.found d line verify (fun s => s.markBad line true false) f

/-- The same of a copy in a slice. -/
def State.findInSlice (s : State) (d sl line : Nat) (verify : Bool) (f : ScrubOutcome) : State :=
  s.found d line verify (fun s => s.mapSlice d sl line fun e => { e with bad := true }) f

/-- What an access finds in a line of an L1, of context `spec`'s speculative copies or of the others (R321). -/
def State.findInL1 (s : State) (core line : Nat) (spec : Option Nat) : ScrubOutcome → State
  | .corrected => s.log (dieOf core) (.correctedArray core line)
  | .uncorrectable => (s.updCore core fun v =>
      { v with lines := v.lines.map fun e => if e.line = line && e.spec = spec then { e with bad := true } else e }).log (dieOf core)
        (.uncorrectedArray core line)
  | _ => s

/-- The physical memory lines that a load names. -/
def PendingLoad.physLines (q : PendingLoad) : List Nat :=
  (q.pieces.filterMap fun p => match p.src with
    | .phys pa _ => some (pa / 128)
    | .here _ => none).eraseDups

/-- What the read of a line by a returning load finds: in the L1 that serves it, or at its home (R321). -/
def State.loadFinds (s : State) (k line : Nat) (q : PendingLoad) (f : ScrubOutcome) : State :=
  if !q.physLines.contains line || s.paKind (line * 128) ≠ .memory then s
  else if s.l1Hit (coreOf k) line then s.findInL1 (coreOf k) line none f
  else s.findError (homeDie (line * 128)) line false f

/-- The data of a load returns (R180). `ev.found` is what the read of `ev.line`, one of its lines, finds (R321). -/
def execLoadReturn (s : State) : Out :=
  let k := s.ev.k
  match (s.ctx k).loads.find? fun q => q.id = s.ev.id with
  | none => .next s
  | some q =>
    if !q.wanted.isEmpty then .next s
    else
      let s := s.loadFinds k s.ev.line q s.ev.found
      let ps := q.pieces.map fun p => (p.lane, p.va, s.pieceValue k q.size p)
      let s' := s.updCtx k fun c => { c with loads := c.loads.filter fun x => x.id ≠ q.id }
      let s' := s'.updCtx k fun c => c.fill q.dst ps
      if (s.ctx k).speculative && ps.any (fun p => p.2.2.isNone) then
        .next ((s'.updCtx k fun c => { c with poison := none }).startAbort k ⟨8, 0, .handler⟩)
      else .next s'

/-- A thread whose walk met poison in a table takes DATA_POISON with the address that it named, or its transaction aborts (R16,
R325). (DESIGN CHOICE: log entry 152.) -/
def State.walkPoison (s : State) (k : Nat) (va : Word) : State :=
  let s := s.updCtx k fun c => { c with run := .running, walk := none }
  if (s.ctx k).speculative then s.startAbort k ⟨8, 0, .handler⟩ else s.deliver k .dataPoison va (s.ctx k).pc

/-- A walk ends: the threads that wait for its page issue their instructions again, or take the fault (R299, R301), its poison
(R325) or the death of the agent that holds the table (R328). (DEDUCED: log entry 33.) -/
def execPageWalkComplete (s : State) : Out :=
  let k := s.ev.k
  match (s.ctx k).run, (s.ctx k).walk with
  | .walking, some w =>
    let cl := clusterOf (coreOf k)
    let asid := (s.ctx k).asid
    let joined := (s.ctxs.filter fun e => clusterOf (coreOf e.1) = cl && e.2.run = .walking && e.2.asid = asid &&
      e.2.walk.any fun v => v.va.toNat / 4096 = w.va.toNat / 4096).map (·.1)
    let t := s.walked cl (coreOf k) asid w.va.toNat
    if s.walkDead cl asid w.va.toNat then .next (joined.foldl State.blotted s)
    else match t.walk cl asid w.va.toNat with
    | .poison => .next (joined.foldl (fun t j => match (t.ctx j).walk with
        | some v => t.walkPoison j v.va
        | none => t) t)
    | .leaf e ptrs =>
      .next (joined.foldl (fun t j => t.updCtx j fun c => { c with run := .running, walk := none }) (t.fillTlb cl e ptrs))
    | .bad kind =>
      .next (joined.foldl (fun t j => match (t.ctx j).walk with
        | some v => (t.updCtx j fun c => { c with walk := none }).takeFault j kind v.acc v.va
        | none => t) t)
  | _, _ => .next s

/-! ### Remote scratchpad (R169) -/

/-- The byte of the L1 arrays that a location of another core's scratchpad is, where its check passes. -/
def State.remoteByte (s : State) (asid : BitVec 12) (size : Nat) (l : RemoteLane) : Option Nat :=
  let c := s.ctx (keyOf l.core l.slot)
  if c.run ≠ .vacant && c.asid = asid && l.a + size ≤ claimBytes c.claim then some (arrayByte l.core c.claim l.a) else none

/-- Performs one location: the new state and the old value, none where it is poisoned. -/
def State.remoteAt (s : State) (size : Nat) (op : RemoteOp) (l : RemoteLane) (b : Nat) : State × Option Word :=
  let old := wordOf (Mem.readBytes s.scratch b size)
  let bad := s.scratchPoison.contains (b / 128)
  let put := fun (w : Word) => s.landScratch (pairsAt b size w)
  let new := fun (o : RmwOp) (cmp : Word) => BitVec.ofNat 64 (o.apply (8 * size) old.toNat l.val.toNat cmp.toNat)
  match op with
  | .load => (s, if bad then none else some old)
  | .store => (put l.val, some old)
  | .rmw o cmp => if bad then (s, none) else (put (new o cmp), some old)
  | .red o => if bad then (s, none) else (put (new o 0), some old)

/-- The first failed remote store of a thread, in program order. -/
def Ctx.failRemote (c : Ctx) (id : Nat) (ea : Word) : Ctx :=
  match c.remoteFail with
  | some e => if e.1 < id then c else { c with remoteFail := some (id, ea) }
  | none => { c with remoteFail := some (id, ea) }

/-- A store whose lanes are known is applied as one write: a line of which it writes all 128 bytes loses its poison bit
(R180, R324). -/
def State.remoteStore (s : State) (size : Nat) (asid : BitVec 12) (lanes : List RemoteLane) : State :=
  s.landScratch (lanes.flatMap fun l => match s.remoteByte asid size l with
    | some b => pairsAt b size l.val
    | none => [])

/-- Performs the lanes in order and answers the thread that waits. -/
def State.remotePerform (s : State) (k size : Nat) (asid : BitVec 12) (op : RemoteOp) (lanes : List RemoteLane) : State :=
  let r := lanes.foldl (fun (r : State × List (Nat × Word) × Option Word) l =>
    match r.1.remoteByte asid size l with
    | none => r
    | some b =>
      let q := r.1.remoteAt size op l b
      match q.2 with
      | some w => (q.1, r.2.1 ++ [(l.lane, w)], r.2.2)
      | none => (q.1, r.2.1, some (r.2.2.getD l.ea))) (s, [], none)
  let ans := match r.2.2 with
    | some ea => Answer.poisoned ea
    | none => Answer.values r.2.1
  if op.answers then r.1.updCtx k fun c => if c.run = .remote then { c with answer := some ans, run := .running } else c
  else if op = .store then s.remoteStore size asid lanes
  else r.1

/-- An access to another core's scratchpad arrives, after the thread's earlier ones. A vector store with a lane that fails the check
writes none. (DESIGN CHOICE: log entry 144.) -/
def execRemoteScratchAccess (s : State) : Out :=
  match Tbl.get? s.msgs s.ev.id with
  | some (.remote k asid size lanes op) =>
    let earlier := s.msgs.any fun e => e.1 < s.ev.id && match e.2 with
      | .remote j _ _ _ _ => j = k
      | _ => false
    let pend := lanes.any fun l => match s.remoteByte asid size l with
      | some b => s.scratchPending.contains (b / 128)
      | none => false
    if earlier || pend then .next (s.later .remoteScratchAccess)
    else
      let s := { s with msgs := Tbl.erase s.msgs s.ev.id }
      let waits := op.answers
      if lanes.any fun l => s.coreLost l.core then
        .next (if waits then s.updCtx k fun c => if c.run = .remote then { c with answer := some .lost, run := .running } else c
          else s.blotted k)
      else
        match lanes.find? fun l => (s.remoteByte asid size l).isNone with
        | some l =>
          .next (s.updCtx k fun c =>
            if !waits then c.failRemote s.ev.id l.ea
            else if c.run = .remote then { c with answer := some (.failed l.ea), run := .running } else c)
        | none => .next (s.remotePerform k size asid op lanes)
  | _ => .next s

/-! ### Leases and owners (R201 to R206) -/

/-- The lease lengths of an address space (R201). -/
def State.l1Lease (s : State) (asid : BitVec 12) : Word := (s.space asid.toNat).leasecfg &&& 0xFFFFFFFF
def State.sliceLease (s : State) (asid : BitVec 12) : Word := (s.space asid.toNat).leasecfg >>> 32

/-- The number of a requester slice among a tile's grantees. -/
def sliceKey (d sl : Nat) : Nat := 4096 + d * 64 + sl

/-- A requester slice takes a lease on tile t from its home, unless the one that it holds still runs (R202). -/
def State.leaseSlice (s : State) (d sl t : Nat) (asid : BitVec 12) : State :=
  if s.gtOf d < s.sliceLeaseOf d sl t then s
  else
    let x := s.gtOf (s.tileDie t) + s.sliceLease asid
    (s.updDir t fun v => { v with leases := Tbl.set v.leases (sliceKey d sl) (maxWord x (Tbl.getD v.leases (sliceKey d sl) 0)) }).updDie d
      fun v => { v with sliceLease := Tbl.set v.sliceLease (t * 64 + sl) x }

/-- Grants a core a lease on tile t for a line, and gives its expiry: from the home on its own die, else from the requester
slice of the line on its die, which takes one from the home first (R202). -/
def State.grantLease (s : State) (core t line : Nat) (asid : BitVec 12) : State × Word :=
  let d := dieOf core
  let x := s.gtOf d + s.l1Lease asid
  if s.tileDie t = d then
    (s.updDir t fun v => { v with leases := Tbl.set v.leases core (maxWord x (Tbl.getD v.leases core 0)) }, x)
  else
    let s := s.leaseSlice d (homeSlice (line * 128)) t asid
    let y := s.sliceLeaseOf d (homeSlice (line * 128)) t
    (s, if x < y then x else y)

/-- A line comes into a core's L1: under a lease, or beside the lines that the core owns. -/
def State.fillL1 (s : State) (core line : Nat) (asid : BitVec 12) (tag : VTag) (hint : Nat) : State :=
  let t := s.tileOf line
  if (s.dir t).owner = core && ((s.dir t).st matches .e | .m | .o) then s.bringL1 core line tag hint none
  else
    let g := s.grantLease core t line asid
    let s := g.1.updDir t fun v => { v with st := if v.st = .i then .l else v.st }
    let s := match (s.l1 core t).st with
      | .l x =>
        if s.gtOf (dieOf core) < x then s.updL1 core t fun v => { v with st := .l (maxWord x g.2) }
        else (s.dropL1 core t).updL1 core t fun v => { v with st := .l g.2 }
      | _ => (s.dropL1 core t).updL1 core t fun v => { v with st := .l g.2 }
    s.bringL1 core line tag hint none

/-- A line that a load waits for has come: the last one lets the data return. -/
def State.lineCame (s : State) (k id line : Nat) : State :=
  match (s.ctx k).loads.find? fun q => q.id = id with
  | none => s
  | some q =>
    let w := q.wanted.filter (· ≠ line)
    let s := s.updCtx k fun c => { c with loads := c.loads.map fun x => if x.id = id then { x with wanted := w } else x }
    if w.isEmpty then s.cause .loadReturn { k := k, id := id } else s

/-- A line that is asked for is brought to the levels that the request names (R173, R175, R196): the home slice, the
requester slice where the core is not on the home die, and the core's L1. A load with hint 2 leaves no line in the L1. -/
def State.bringLine (s : State) (e : Ev) (t : Nat) (fromSlice : Bool) : State :=
  let asid := (s.ctx e.k).asid
  let d := dieOf e.core
  let sl := homeSlice (e.line * 128)
  let bad := if fromSlice then s.comesBad e.core e.line else s.lineBad e.line
  let s := if fromSlice then s else s.lookup e.line (some e.core) asid e.q false
  let s := if e.n = 5 then s.quireAccess e.line asid none
    else if s.tileDie t = d then s
    else if e.q = 2 then s
    else (if e.n = 6 then s.leaseSlice d sl t asid else s).slicePut d sl e.line asid (rankL2 e.q) false bad
  let s := if e.n = 5 || e.n = 6 || e.q = 2 then s else s.fillL1 e.core e.line asid e.tag e.q
  s.lineCame e.k e.id e.line

/-- A lease request of core `ev.core` reaches the tile home. It waits behind a write that waits; a transaction that
writes the tile aborts (R214). `ev.n` 7 marks a prefetch into the L1, 6 one into the slices, 5 one into the home slice and
the quire; `ev.q` is the hint. A prefetch aborts no transaction, and asks for nothing that one keeps from others (R214, R221). A
requester slice that holds the line under a running lease answers by itself. `ev.found` is what the fill finds in the line, its
check value too where the L1 is filled (R321, R324). (DEDUCED: log entry 35.) -/
def execLeaseRequest (s : State) : Out :=
  let e := s.ev
  let t := s.tileOf e.line
  let prefetch := e.n = 5 || e.n = 6 || e.n = 7
  let verify := !(e.n = 5 || e.n = 6)
  let holds := s.sliceHolds e.core t e.line
  let s := if holds then s.findInSlice (dieOf e.core) (homeSlice (e.line * 128)) e.line verify e.found
    else s.findError (dieOf e.core) e.line verify e.found
  let s := { s with ev := { e with found := .clean } }
  if s.lineDead e.line && !holds then .next (if prefetch then s else s.blotted e.k)
  else if e.n = 7 && s.l1Hit e.core e.line then .next s
  else if e.n = 5 then .next (s.bringLine e t false)
  else if holds then .next (s.bringLine e t true)
  else if s.writeWaits t || s.commitWaits e.k t then .next (s.later .leaseRequest)
  else if prefetch then
    if (s.plainConflicts e.k t false none).any fun h => s.unabortable h t then .next s
    else .next (s.atHome .leaseRequest t e.core e.k false fun s => s.bringLine e t false)
  else
    let q := s.clearPath e.k t false none
    if !q.2 then .next (q.1.later .leaseRequest)
    else .next (q.1.atHome .leaseRequest t e.core e.k false fun s => s.bringLine e t false)

/-- An exclusive request reaches the tile home: the requester's own lease is given up, and it joins the requests that
wait, in order of arrival (R203, R205). -/
def execExclusiveRequest (s : State) : Out :=
  let e := s.ev
  let t := s.tileOf e.line
  if s.l1Owns e.core e.line then .next s
  else
    let s := s.updDir t fun d => { d with leases := Tbl.erase d.leases e.core, waiting := insertNew d.waiting e.core }
    .next (match (s.l1 e.core t).st with
      | .l _ => s.dropL1 e.core t
      | _ => s)

/-- The oldest posted store of a context to a line. -/
def Ctx.storeOn (c : Ctx) (line : Nat) : Option PendingStore := c.stores.find? fun q => q.line = line

/-- A posted store has become visible at GT `now` (R204). (DESIGN CHOICE: log entry 34.) -/
def State.storeLanded (s : State) (k : Nat) (q : PendingStore) (now : Word) : State :=
  s.updCtx k fun c =>
    { c with stores := c.stores.filter fun x => x.id ≠ q.id, visible := maxWord c.visible now }

/-- The lines whose poison bits a posted store clears (R159, R180). -/
def PendingStore.cleans (q : PendingStore) : List Nat := if q.clean then [q.line] else fullLines q.bytes

/-- Performs the oldest posted store of context k to a line in its core's exclusive copy. -/
def State.storeOwned (s : State) (k core line : Nat) : State :=
  match (s.ctx k).storeOn line with
  | none => s
  | some q => (s.storeLanded k q (s.ownedTime core line)).ownedWrite k core line q.tag q.hint q.bytes q.cleans

/-- The first core that waits at a tile home for the tile exclusive. -/
def Dir.firstCore (d : Dir) : Option Nat := d.waiting.find? (· < 4096)

/-- The home gives tile t to a core: the owner keeps its lines, any other requester receives the line (R205, R206). The
copy is written no earlier than LEXP + 32 (R204). -/
def State.grantTile (s : State) (core line t : Nat) (asid : BitVec 12) (tag : VTag) (hint : Nat) : State :=
  let d := s.dir t
  let bound := s.writeFloor t
  let owned := d.st = .o && d.owner = core
  let s := s.updDir t fun d =>
    { d.endLeases with st := if owned then .m else .e, owner := core, waiting := d.waiting.filter (· ≠ core) }
  if owned then s.updL1 core t fun v => { v with st := .m, bound := bound }
  else
    let s := (s.dropL1 core t).updL1 core t fun _ => ⟨.e, [], bound⟩
    let s := s.lookup line (some core) asid hint false
    if hint = 2 then s else s.bringL1 core line tag hint none

/-- The home grants a tile exclusive to the first core that waits, once every lease has ended by the guard band, and
the store that asked for it is performed (R203 to R206). `ev.n` 2 marks a request by an atomic, which is performed
when it issues again. -/
def execExclusiveGrant (s : State) : Out :=
  let e := s.ev
  let t := s.tileOf e.line
  if s.lineDead e.line && !s.l1Owns e.core e.line then
    let s := s.updDir t fun d => { d with waiting := d.waiting.filter (· ≠ e.core) }
    .next ((s.updCtx e.k fun c => { c with stores := c.stores.filter fun q => q.line ≠ e.line }).blotted e.k)
  else if s.l1Owns e.core e.line then
    if e.n = 2 then .next s
    else
      let path := s.clearPath e.k t true none
      if !path.2 || s.gtOf (dieOf e.core) < (s.l1 e.core t).bound then .next (path.1.later .exclusiveGrant)
      else .next (path.1.storeOwned e.k e.core e.line)
  else if !(s.dir t).waiting.contains e.core then
    .next ((s.cause .exclusiveRequest e).cause .exclusiveGrant e)
  else if (s.dir t).firstCore ≠ some e.core then .next (s.later .exclusiveGrant)
  else .next (s.atHome .exclusiveGrant t e.core e.k true fun s =>
    let path := s.clearPath e.k t true none
    if !path.2 then path.1.later .exclusiveGrant
    else
      let s := path.1.grantTile e.core e.line t (s.ctx e.k).asid e.tag e.q
      if e.n = 2 then s
      else if s.gtOf (dieOf e.core) < (s.l1 e.core t).bound then s.later .exclusiveGrant
      else s.storeOwned e.k e.core e.line)

/-- An owner has evicted the last line of a tile, which `ev.tag` names. -/
def execOwnerWriteback (s : State) : Out := .next (s.ownerGives s.ev.core (s.tileOf s.ev.line) s.ev.tag.asid)

/-- A tile in O whose leases have ended is M at its home and in its owner's L1, which performs no store before LEXP + 32 (R204,
R205). -/
def State.makeOwned (s : State) (t : Nat) : State :=
  let x := s.writeFloor t
  (s.updDir t fun d => { d.endLeases with st := .m }).updL1 (s.dir t).owner t fun v => { v with st := .m, bound := maxWord v.bound x }

/-- GT passes LEXP + 32 at the home: L becomes I, O becomes M, which the owner's L1 learns at once (R205, R206). (DESIGN CHOICE:
log entry 145.) -/
def execHomeLeaseExpiry (s : State) : Out :=
  let t := s.tileOf s.ev.line
  let d := s.dir t
  if s.gtOf (s.tileDie t) < d.lexp + 32 then .next s
  else match d.st with
    | .l => .next (s.setDir t { d.endLeases with st := .i })
    | .o => .next (s.makeOwned t)
    | _ => .next s

/-- An L1 lease ends: its lines are no longer served (R206). -/
def execL1LeaseExpiry (s : State) : Out :=
  let t := s.tileOf s.ev.line
  match (s.l1 s.ev.core t).st with
  | .l x => if x ≤ s.gtOf (dieOf s.ev.core) then .next (s.dropL1 s.ev.core t) else .next s
  | _ => .next s

/-- A recall for a lease: the owner supplies its dirty lines, and keeps the tile as O, or gives a tile in E up that has none (R205,
R206). A lost owner's dirty lines are poison (R328). -/
def execRecallForLease (s : State) : Out :=
  let t := s.tileOf s.ev.line
  let d := s.dir t
  if !(d.st matches .e | .m) then .next s
  else if s.coreLost d.owner then
    .next (((s.poisonLines (s.l1 d.owner t).dirty).setDir t { d with st := .i, owner := 0 }).dropL1 d.owner t)
  else if d.st = .e && (s.l1 d.owner t).dirty.isEmpty then .next ((s.setDir t { d with st := .l, owner := 0 }).dropL1 d.owner t)
  else
    let s := (s.l1 d.owner t).dirty.foldl (fun s l => s.dirtyHome d.owner l) s
    .next ((s.setDir t { d with st := .o }).updL1 d.owner t fun v => { v with st := .o })

/-- A recall for exclusive: the owner writes back and becomes I (R206), in O once the leases have ended (R205). -/
def execRecallForExclusive (s : State) : Out :=
  let t := s.tileOf s.ev.line
  let d := s.dir t
  .next (if (d.st matches .e | .m) || (d.st = .o && s.leasesOver t noCore) then s.recallOwner t else s)

/-! ### Partials (R130, R131, R193, R194, R205) -/

/-- The home recalls every partial of a tile and combines them (R194, R205). -/
def execPartialRecall (s : State) : Out :=
  let t := s.tileOf s.ev.line
  .next (if (s.dir t).st = .u then s.recallPartials t else s)

/-- A contribution is applied as a store: by an owner to its copy, with its hint (R175, R206), or to device control space. -/
def State.applyPartial (s : State) (p : Partial) (tag : VTag) (hint : Nat) : State :=
  let size := if p.dword then 8 else 4
  let new := fun (old : Nat) => BitVec.ofNat 64 ((redOp p.op).apply (8 * size) old p.val.toNat 0)
  if s.paKind p.pa = .control then
    s.devWrite (dieOf (coreOf p.k)) (pairsAt p.pa size (new ((s.devRead p.pa size).getD 0).toNat))
  else if s.readBad p.k p.pa .cached then s
  else s.rmwLand p.k (p.pa / 128) true tag hint (pairsAt p.pa size (new (s.memNat p.pa size)))

/-- A contribution of `RED` or of a committed `TXRED` reaches the tile home (R205); one that gathers in the L1 leaves the
requester in U, which gives a lease of its own up (R206). -/
def State.acceptPartial (s : State) (t : Nat) (p : Partial) : State :=
  let c := coreOf p.k
  let s := s.updDir t fun d => { d.endLeases with st := .u, partials := d.partials ++ [p] }
  if p.gather = .l1 then (if (s.l1 c t).st = .u then s else (s.dropL1 c t).updL1 c t fun v => { v with st := .u })
  else match (s.l1 c t).st with
    | .l _ => s.dropL1 c t
    | _ => s

/-- The GT at which the home of a tile accepts a contribution, never before LEXP + 32 (R205). -/
def State.homeGt (s : State) (t : Nat) : Word := maxWord (s.gtOf (s.tileDie t)) (s.writeFloor t)

/-- What a home needs before it accepts a partial of core c: as for a write, but the owner's own goes to its copy. The
visibility time is the GT at which the home accepts it. -/
def execReductionPartial (s : State) : Out :=
  let e := s.ev
  let t := s.tileOf e.line
  match (s.ctx e.k).reds.find? fun p => p.id = e.id with
  | none => .next s
  | some p =>
    let drop := fun (now : Word) (s : State) => s.updCtx e.k fun c =>
      { c with reds := c.reds.filter (fun q => q.id ≠ e.id), visible := maxWord c.visible now }
    let here := s.gtOf (dieOf e.core)
    if (s.ctx e.k).stores.any fun q => q.line = e.line && q.id < e.id then .next (s.later .reductionPartial)
    else if s.paKind p.pa = .control then
      .next (if s.devDead p.pa then (drop here s).blotted e.k else drop (s.devTime p.pa) (s.applyPartial p e.tag e.q))
    else if s.lineDead e.line then .next ((drop here (s.servedHome t e.k)).blotted e.k)
    else
      let path := s.clearPath e.k t true (some p.op)
      if !path.2 then .next (path.1.later .reductionPartial)
      else
        let s := path.1
        if s.l1Owns e.core e.line then
          if here < (s.l1 e.core t).bound then .next (s.later .reductionPartial)
          else .next (drop here ((s.servedHome t e.k).applyPartial p e.tag e.q))
        else if (s.dir t).st = .u then .next (drop (s.homeGt t) ((s.servedHome t e.k).acceptPartial t p))
        else if (s.dir t).st = .o && (s.dir t).owner = e.core then
          if (s.dir t).waiting.contains e.core || !s.leasesOver t e.core then
            .next ((if (s.dir t).waiting.contains e.core then s
              else s.updDir t fun d => { d with waiting := d.waiting ++ [e.core] }).cause .exclusiveGrant { e with n := 2 } |>.later .reductionPartial)
          else .next (s.makeOwned t |>.later .reductionPartial)
        else .next (s.atHome .reductionPartial t noCore e.k true fun s => drop (s.homeGt t) (s.acceptPartial t p))

/-! ### Accesses performed at the home (R175, R205) -/

/-- The pieces of a load in one line get their values: device control space as its registers read, reserved addresses
as poison. -/
def State.readPieces (s : State) (k line : Nat) (q : PendingLoad) : List Piece :=
  q.pieces.map fun p => match p.src with
    | .phys pa _ =>
      if pa / 128 ≠ line then p
      else if s.paKind pa = .control then { p with src := .here (s.devRead pa q.size) }
      else { p with src := .here (s.pieceValue k q.size p) }
    | .here _ => p

/-- A load of an uncached or write-combining location, of device control space or of a reserved address. -/
def State.homeLoad (s : State) (k id line : Nat) : State :=
  match (s.ctx k).loads.find? fun q => q.id = id with
  | none => s
  | some q =>
    let ps := s.readPieces k line q
    (s.updCtx k fun c => { c with loads := c.loads.map fun x => if x.id = id then { x with pieces := ps } else x }).lineCame
      k id line

/-- A store to such a location, visible when the agent or the home performs it (R16, R204): discarded and recorded where the
address is reserved (R16). -/
def State.homeStore (s : State) (k line : Nat) : State :=
  match (s.ctx k).storeOn line with
  | none => s
  | some q =>
    let d := dieOf (coreOf k)
    let done := fun (now : Word) (s : State) => s.updCtx k fun c =>
      { c with stores := c.stores.filter fun x => x.id ≠ q.id, visible := maxWord c.visible now }
    let pa := (q.bytes.head?.map (·.1)).getD 0
    match s.paKind (line * 128) with
    | .control => done (s.devTime pa) (s.devWrite d q.bytes)
    | .absent => done (s.gtOf d) (s.log d (.badWrite pa))
    | .memory => ((s.landBytes q.bytes).cleanLines q.cleans).storeLanded k q (s.homeTime line)

/-- A line of device control space lies with a dead agent (R328). -/
def State.lineDevDead (s : State) (line : Nat) : Bool := s.paKind (line * 128) = .control && s.devDead (line * 128)

/-- An access that the home performs (R205). `ev.n` 1 marks a store. -/
def execHomeAccess (s : State) : Out :=
  let e := s.ev
  let t := s.tileOf e.line
  let write := e.n = 1
  let go := fun (s : State) => if write then s.homeStore e.k e.line else s.homeLoad e.k e.id e.line
  let blot := fun (s : State) => (s.updCtx e.k fun c =>
    { c with stores := c.stores.filter fun q => !write || q.line ≠ e.line }).blotted e.k
  if s.paKind (e.line * 128) ≠ .memory then
    if !write && ((s.ctx e.k).storeOn e.line).isSome then .next (s.later .homeAccess)
    else .next (if s.lineDevDead e.line then blot s else go s)
  else if s.lineDead e.line then .next (blot (s.servedHome t e.k))
  else
    let path := s.clearPath e.k t write none
    if !path.2 then .next (path.1.later .homeAccess)
    else .next (path.1.atHome .homeAccess t noCore e.k write fun s =>
      go (s.lookup e.line (some e.core) (s.ctx e.k).asid 0 write))

/-! ### Releases and wakes -/

/-- A release completes once every earlier store is visible (R204). -/
def execReleaseComplete (s : State) : Out :=
  let c := s.ctx s.ev.k
  if c.run ≠ .release then .next s
  else if s.released s.ev.k then .next (s.updCtx s.ev.k fun c => { c with run := .running })
  else .next (s.later .releaseComplete)

/-- A waiting `WAITEV` wakes (R195): a write, the timeout of 65,536 cycles, or the core itself. It loads again.
(DEDUCED: log entry 45.) -/
def execWaitevWake (s : State) : Out :=
  match (s.ctx s.ev.k).run with
  | .waitev _ => .next (s.updCtx s.ev.k fun c => { c with run := .running, woken := true })
  | _ => .next s

/-! ### Transactions at the directories (R212 to R217) -/

def Tx.age (c : Ctx) (k : Nat) : Word × Nat := (c.txage, k)

/-- The other live transactions whose registrations of tile t conflict with a request (R213). -/
def State.conflicts (s : State) (k t : Nat) (kind : TxKind) : List Nat :=
  let hs := match kind with
    | .read => s.holders t fun (x : Tx) => x.writes ++ x.reds.map Prod.fst
    | .write => s.holders t Tx.tiles
    | .reduce op => s.holders t fun (x : Tx) =>
      x.writes ++ x.reads ++ (x.reds.filter fun (e : Nat × Nat) => e.2 ≠ op).map Prod.fst
  hs.filter (· ≠ k)

/-- Registers context k as a holder of tile t at its directory: one writer, four slots shared by readers and reducers,
and MANY for the rest (R213). -/
def Dir.register (d : Dir) (k : Nat) (age : Word × Nat) (kind : TxKind) : Dir :=
  let full := 4 ≤ d.readers.length + d.reducers.length
  let many := match d.many with
    | some a => if older age a then some age else some a
    | none => some age
  match kind with
  | .write => { d with writer := some k }
  | .read =>
    if d.readers.contains k || d.reducers.contains k then d
    else if full then { d with many := many } else { d with readers := d.readers ++ [k] }
  | .reduce op =>
    let d := { d with redop := some op }
    if d.readers.contains k || d.reducers.contains k then d
    else if full then { d with many := many } else { d with reducers := d.reducers ++ [k] }

/-- Adds tile t to the sets of a transaction. A write takes the tile out of the reducer set. -/
def Tx.add (x : Tx) (t : Nat) : TxKind → Tx
  | .read => { x with reads := insertNew x.reads t }
  | .write => { x with writes := insertNew x.writes t, reds := x.reds.filter fun e => e.1 ≠ t }
  | .reduce op => { x with reds := if x.reds.contains (t, op) then x.reds else x.reds ++ [(t, op)] }

/-- A registration that no holder stands in the way of. -/
def State.registerTx (s : State) (k t : Nat) (kind : TxKind) : State :=
  let age := Tx.age (s.ctx k) k
  let s := (s.refreshMany t k).updDir t fun d => d.register k age kind
  let s := s.updCtx k fun c => { c with tx := c.tx.map fun x => x.add t kind }
  match kind with
  | .write => s.realise k t
  | _ => s

/-- A registration reaches the directory and is arbitrated by age (R213, R221). A reducer that reads its tile, or that reduces it
with a second operation, registers as a writer. (DEDUCED: log entry 119.) -/
def execTxRegistration (s : State) : Out :=
  let k := s.ev.k
  let t := s.tileOf s.ev.line
  match (s.ctx k).tx with
  | none => .next s
  | some x =>
    if (s.ctx k).abort.isSome || !(x.phase matches .live) then .next s
    else if s.lineDead s.ev.line then .next (s.blotted k)
    else
      let asked := TxKind.ofCode s.ev.n
      let kind := match asked with
        | .read => if x.reduces t then TxKind.write else .read
        | .reduce op => if x.reduces t && !x.reds.contains (t, op) then .write else .reduce op
        | .write => .write
      if x.covers t asked then .next s
      else if (s.dir t).st = .u && !(kind matches .reduce _) then
        .next { s with due := s.due ++ [⟨.partialRecall, s.ev⟩, ⟨.txRegistration, s.ev⟩] }
      else
        let hs := s.conflicts k t kind
        let me := Tx.age (s.ctx k) k
        let irrev := (s.ctx k).txstat.irrev
        let many := if hs.isEmpty then none else ((s.refreshMany t k).dir t).many
        if hs.any fun h => !(s.ctx h).txstat.irrev && s.unabortable h t then .next (s.later .txRegistration)
        else if !irrev && (hs.any (fun h => (s.ctx h).txstat.irrev || older (Tx.age (s.ctx h) h) me) ||
            (match many with | some a => a.2 ≠ k && older a me | none => false)) then
          .next (s.conflictAbort k)
        else
          let s := hs.foldl State.conflictAbort s
          if (s.conflicts k t kind).isEmpty then .next (s.registerTx k t kind) else .next (s.later .txRegistration)

/-- An abort reaches the core: it waits for the thread's producers and restores the checkpoint (R217). -/
def execTxAbort (s : State) : Out :=
  match (s.ctx s.ev.k).abort with
  | none => .next s
  | some q => if s.settled s.ev.k then .next (s.abortNow s.ev.k q) else .next (s.later .txAbort)

/-- A line of a tile. -/
def State.lineOf (s : State) (t : Nat) : Nat :=
  if t < 4096 then ((Tbl.get? s.tiles t).bind fun e => e.lines.head?).getD 0 else (t - 4096) * 4

/-- A directory's answer to PREPARE is counted; the last one gives the commit time (R215). -/
def State.prepared (s : State) (k : Nat) (x : Tx) (left : List Nat) (lexp : Word) (t : Nat) : State :=
  let lexp := if x.writes.contains t || x.reduces t then maxWord lexp (s.dir t).lexp else lexp
  let left := left.filter (· ≠ t)
  if left.isEmpty then s.sendCommit k x lexp
  else s.updCtx k fun c => { c with tx := some { x with phase := .preparing left lexp } }

/-- A tile is homed on a dead agent, or has a line that is (R217, R328). -/
def State.tileDead (s : State) (t : Nat) : Bool :=
  s.isDead (.slice (s.tileHome t)) || s.isDead (.folio (s.tileDie t)) ||
    (!s.dead.isEmpty && (if t < 4096 then ((Tbl.get? s.tiles t).map fun e => e.lines).getD []
      else (List.range 4).map fun i => (t - 4096) * 4 + i).any s.lineDead)

/-- A directory answers PREPARE (R215). A tile that the transaction writes or reduces is recalled from another owner
first, so that the commit finds it at home or in the core. -/
def execPrepare (s : State) : Out :=
  let k := s.ev.k
  let t := s.ev.id
  match (s.ctx k).tx with
  | none => .next s
  | some x =>
    match x.phase with
    | .preparing left lexp =>
      if !left.contains t || (s.ctx k).abort.isSome then .next s
      else if s.tileDead t then .next (s.startAbort k ⟨8, 0, .handler⟩)
      else
        let mine := x.writes.contains t || x.reduces t
        match if mine then s.homeNeed t (coreOf k) true else .ready with
        | .recall i =>
          if i = .partialRecall && !x.writes.contains t then .next (s.prepared k x left lexp t)
          else .next { s with due := s.due ++ [⟨i, { s.ev with line := s.lineOf t }⟩, ⟨.prepare, s.ev⟩] }
        | _ => .next (s.prepared k x left lexp t)
    | _ => .next s

/-- A directory receives COMMIT (R215). -/
def execCommit (s : State) : Out :=
  let k := s.ev.k
  .next (s.updCtx k fun c => { c with tx := c.tx.map fun x => match x.phase with
    | .committing tc left => { x with phase := .committing tc (left.filter (· ≠ s.ev.id)) }
    | _ => x })

/-- The lines of a context's versioned area that are poisoned. -/
def State.versionedBad (s : State) (k : Nat) : List Nat :=
  ((s.slice (dieOf (coreOf k)) (localSlice (coreOf k))).filter fun e => e.spec = some k && e.bad).map (·.line)

/-- Speculative lines become dirty lines in state M of the core, visible now (R215); what the transaction wrote to an address
that does not exist is discarded and recorded (R16). A line of which one store wrote all 128 bytes loses its poison bit. -/
def State.landSpec (s : State) (k : Nat) (x : Tx) : State :=
  let c := coreOf k
  let tags := (s.core c).lines.filter fun e => e.spec = some k
  let bad := (tags.filter (·.bad)).map (·.line) ++ s.versionedBad k
  let s := s.dropSpec k
  let spec := x.spec.filter fun w => s.paKind w.1 = .memory
  let s := s.devWrite (dieOf c) (x.spec.filter fun w => s.paKind w.1 = .control)
  let s := (((x.spec.filter fun w => s.paKind w.1 = .absent).map fun w => w.1 / 8 * 8).eraseDups).foldl
    (fun s a => s.log (dieOf c) (.badWrite a)) s
  let s := ((spec.map fun w => w.1 / 128).eraseDups).foldl (fun s l =>
    let t := s.tileOf l
    let tag := ((tags.find? fun e => e.line = l).map (·.tag)).getD VTag.none
    ((s.bringL1 c l tag 0 none).updL1 c t fun v => { v with st := .m, dirty := insertNew v.dirty l }).updDir t fun d =>
      { d.endLeases with st := .m, owner := c }) s
  (s.landOwned c spec x.full).updCore c fun v =>
    { v with lines := v.lines.map fun e => if e.spec.isNone && bad.contains e.line then { e with bad := true } else e }

/-- Contributions to tiles that the core owns are combined into its copies as at a home (R130, R131, R206): one write for each
location. -/
def State.combineOwned (s : State) (k : Nat) (ps : List Partial) : State :=
  ((ps.map fun p => (p.pa, p.dword)).eraseDups).foldl (fun s l =>
    if s.readBad k l.1 .cached then s
    else
      let size := if l.2 then 8 else 4
      let v := combinePartials (8 * size) (s.memNat l.1 size) (ps.filter fun p => (p.pa, p.dword) = l)
      s.ownedWrite k (coreOf k) (l.1 / 128) (s.tagFor k 0) 0 (pairsAt l.1 size (BitVec.ofNat 64 v)) []) s

/-- Speculative partials join the partials at their homes, or the copy that the core owns. -/
def State.joinPartials (s : State) (k : Nat) (ps : List Partial) : State :=
  let own := fun (p : Partial) => s.l1Owns (coreOf k) (p.pa / 128)
  (ps.filter fun p => !own p).foldl (fun s p => s.acceptPartial (s.tileOf (p.pa / 128)) p) (s.combineOwned k (ps.filter own))

/-- A tile that a commit writes or reduces is brought home from another owner, or made writable for its own core, its leases
being over by then (R205, R206, R215). -/
def State.commitTile (s : State) (c t : Nat) : State :=
  let d := s.dir t
  if !(d.st matches .e | .m | .o) then s.dropL1 c t
  else if d.owner ≠ c then (s.recallOwner t).dropL1 c t
  else if d.st = .o then s.makeOwned t
  else s

/-- The commands and posts that the transaction held enter their queues in issue order (R220, R234). -/
def State.releaseHeld (s : State) (k : Nat) : List Held → State
  | [] => s
  | .cmd q id :: hs =>
    let core := coreOf k
    let lines := ((vat (s.ctx k).cmds q).filter fun c => c.id = id).flatMap fun c => c.destLines core (s.ctx k).claim
    let s := s.addPending lines
    ((s.updCtx k fun x => { x with cmds := vput x.cmds q ((vat x.cmds q).map fun c =>
        if c.id = id then { c with held := false } else c) }).causeOnce .engineCommandStart { k := k, q := q }).releaseHeld k hs
  | .post p :: hs =>
    let id := s.nextId
    (({ s.newId with msgs := Tbl.set s.msgs id (.post p) }).cause .postArrival { id := id }).releaseHeld k hs

/-- Tc has not come on the core's die, or on a die that holds a directory of the transaction and is not dead: until then the
directory serves no request that conflicts (R200, R215). -/
def State.before (s : State) (k : Nat) (x : Tx) (tc : Word) : Bool :=
  s.gtOf (dieOf (coreOf k)) < tc ||
    x.tiles.any fun t => s.gtOf (s.tileDie t) < tc && !s.isDead (.folio (s.tileDie t))

/-- GT reaches Tc: every write of the transaction becomes visible together, its held commands enter their queues, and
the thread goes on after its `TXE` (R215), or its task ends (R272). (DEDUCED: log entry 38.) -/
def execTxCommitComplete (s : State) : Out :=
  let k := s.ev.k
  match (s.ctx k).tx with
  | none => .next s
  | some x =>
    match x.phase with
    | .committing tc left =>
      if !left.isEmpty || s.before k x tc then .next (s.later .txCommitComplete)
      else
        let s := (x.writes ++ x.reds.map (·.1)).foldl (fun s t => s.commitTile (coreOf k) t) s
        let s := x.writes.foldl (fun s t => s.realise k t) s
        let x := ((s.ctx k).tx).getD x
        let s := ((s.landSpec k x).joinPartials k x.partials).endTx k x.tiles
        let s := (s.updCtx k fun c => { c with run := .running, visible := maxWord c.visible tc }).releaseHeld k x.held
        .next (if x.handler.isSome then s.updCtx k fun c => { c with pc := c.pc + 8, blocked := false, woken := false, waitSince := none }
          else s)
    | _ => .next s

/-- The dies with requests are served in turn, one grant at a time (R221). -/
def execTokenGrant (s : State) : Out :=
  let waiting := (List.range 4).any fun d => !(s.die d).tokenq.isEmpty
  if !waiting then .next s
  else if s.tokenHolder.isSome then .next (s.later .tokenGrant)
  else
    match ((List.range 4).map fun i => (s.tokenTurn + i) % 4).find? fun d => !(s.die d).tokenq.isEmpty with
    | none => .next s
    | some d =>
      let q := (s.die d).tokenq
      let k := q.headD 0
      let s := s.updDie d fun v => { v with tokenq := v.tokenq.drop 1 }
      let s := { s with tokenTurn := (d + 1) % 4 }
      let s := if (s.ctx k).run = .token then
          ({ s with tokenHolder := some k }.updDie d fun v =>
            { v with counts := { v.counts with grants := v.counts.grants + 1 } }).updCtx k fun c => { c with run := .running }
        else s
      .next (s.causeOnce .tokenGrant {})

end Sys2Proof.Machine
end

