-- ==== Sys2Proof/Machine/Copy.lean ====
section
/-! DEFINITION. The copy engine, the gather/select engines and the merge trees (R224, R232 to R239), pops that wait
(R226), and pulled transfers (R243 to R248). -/

namespace Sys2Proof.Machine

/-! ### What engines read and write (R233, R325) -/

/-- The context number that no context has: engine accesses belong to no transaction. -/
def noCtx : Nat := 65536
/-- The name of a thread of a core that has ended, for what still refers to it. -/
def goneKey (core : Nat) : Nat := noCtx + core
/-- The names of contexts in frames. -/
def frameKeys : Nat := 131072

/-- A place that an engine reads or writes: a byte of the L1 arrays or a physical address. -/
inductive EPlace where
  | scr (b : Nat)
  | mem (pa : Nat)
  deriving DecidableEq, Repr

/-- The place of an operand address of a context's command: local scratchpad, or memory as the context translates it. An address
that cannot be translated is a fault for an engine, whether a table refuses it or is poisoned. (DESIGN CHOICE: log entry
152.) -/
def State.engPlace (s : State) (k : Nat) (local' : Bool) (acc : Access) (a : Nat) : State × Except XlateBad EPlace :=
  if local' then (s, .ok (.scr (arrayByte (coreOf k) (s.ctx k).claim a)))
  else match s.xlate (coreOf k) (s.ctx k).asid acc (BitVec.ofNat 64 a) with
    | (s, .ok (pa, _)) => (s, .ok (.mem pa))
    | (s, .error f) => (s, .error f)

/-- Reads n bytes at a place: the bytes, and whether they are poisoned or come from a dead agent. -/
def State.engRead (s : State) (p : EPlace) (n : Nat) : List Byte × Bool :=
  match p with
  | .scr b => (Mem.readBytes s.scratch b n, s.scratchPoison.contains (b / 128))
  | .mem pa =>
    if s.paKind pa = .control then match if s.devDead pa then none else s.devRead pa n with
      | some w => (bytesOfNat n w.toNat, false)
      | none => (List.replicate n 0, true)
    else (s.readMem pa n, s.paPoison pa || s.lineDead (pa / 128))

/-- Writes bytes at a place, which poison the line when they are poisoned. A dead home or agent takes none (R328). -/
def State.engWrite (s : State) (d : Nat) (p : EPlace) (bs : List Byte) (bad : Bool) : State :=
  match p with
  | .scr b =>
    { s with scratch := Mem.writeBytes s.scratch b bs
             scratchPoison := if bad && !s.scratchPoison.contains (b / 128) then (b / 128) :: s.scratchPoison else s.scratchPoison }
  | .mem pa =>
    match s.paKind pa with
    | .memory => if s.lineDead (pa / 128) then s else (s.writeMem pa bs).poisonLines (if bad then [pa / 128] else [])
    | .control => if s.devDead pa then s else s.devWrite d (bs.zipIdx.map fun b => (pa + b.2, b.1))
    | .absent => s.log d (.badWrite pa)

/-- A line number of a place, memory lines and lines of the L1 arrays apart. -/
def EPlace.line : EPlace → Bool × Nat
  | .scr b => (true, b / 128)
  | .mem pa => (false, pa / 128)

/-- Lines of which all 128 bytes have been written without poison lose their poison bit (R324); `ws` are the places
of the 4-byte words written and whether each was poisoned. -/
def State.clearFull (s : State) (ws : List (EPlace × Bool)) : State :=
  let lines := (ws.map fun w => w.1.line).eraseDups
  let full := lines.filter fun l =>
    let on := ws.filter fun w => w.1.line = l
    on.all (fun w => !w.2) && 32 ≤ (on.map (·.1)).eraseDups.length
  { s with scratchPoison := s.scratchPoison.filter fun l => !full.contains (true, l) }.cleanLines
    (full.filterMap fun (l : Bool × Nat) => if l.1 || s.lineDead l.2 then none else some l.2)

/-- The memory lines among places. -/
def memLines (ps : List EPlace) : List Nat :=
  (ps.filterMap fun p => match p with
    | .mem pa => some (pa / 128)
    | .scr _ => none).eraseDups

/-- What the homes of lines still need before they perform the reads or writes of an engine for context k: none, or the
state that waits. A transaction in the way is aborted first; a write that waits for leases holds new ones back (R203, R205,
R214). -/
def State.homesNeed (s : State) (k : Nat) (write : Bool) : List Nat → Option State
  | [] => none
  | l :: ls =>
    if s.paKind (l * 128) ≠ .memory || s.lineDead l then s.homesNeed k write ls
    else match s.homeNeed (s.tileOf l) noCore write with
      | .recall i => some (s.causeOnce i { line := l, core := coreOf k })
      | .leases => some (s.awaitHome (s.tileOf l) k)
      | .ready =>
        match s.clearFor noCtx (s.tileOf l) write with
        | some t => some t
        | none => s.homesNeed k write ls

/-- The same, where a read of a line that a palimpsest copy has still to write stalls as well (R163). -/
def State.engNeeds (s : State) (k : Nat) (write : Bool) (ls : List Nat) : Option State :=
  if !write && ls.any s.palPending then some s else s.homesNeed k write ls

/-- The homes of lines perform the reads or writes of an engine for context k (R177, R178, R203). -/
def State.engServe (s : State) (k : Nat) (asid : BitVec 12) (write : Bool) (ls : List Nat) : State :=
  (ls.foldl (fun s l => s.servedHome (s.tileOf l) k) s).lookups ls (if k = hostKey then none else some (coreOf k)) asid write

/-- A scratchpad line among places is pending for something beside what has the lines `own` (R234). -/
def State.placesPend (s : State) (own : List Nat) (ps : List EPlace) : Bool :=
  ps.any fun p => match p with
    | .scr b => s.pendingBut own (b / 128)
    | .mem _ => false

/-- A scratchpad line among places is pending, but for a command of the same view (R234). -/
def State.engStalls (s : State) (k q : Nat) (ps : List EPlace) : Bool :=
  s.placesPend ((vat (s.ctx k).cmds q).flatMap fun m => m.destLines (coreOf k) (s.ctx k).claim) ps

/-- A range of local scratchpad lies inside a context's claim. -/
def Ctx.holds (c : Ctx) (a n : Nat) : Bool := a + n ≤ claimBytes c.claim

/-- A range of memory lies in the translated range (R168). -/
def translatedRange (a n : Nat) : Bool := a + n ≤ remoteBase

/-! ### Serving the views (R224, R226, R232) -/

/-- The command that the engine of a view serves next: the first that is not started, behind commands that are only
waiting for an answer. -/
def nextCmd : List Cmd → Option Cmd
  | [] => none
  | c :: cs => if !c.started then some c else if c.answered then nextCmd cs else none

/-- Replaces a command of a view. -/
def State.updCmd (s : State) (k q id : Nat) (f : Cmd → Cmd) : State :=
  s.updCtx k fun x => { x with cmds := vput x.cmds q ((vat x.cmds q).map fun c => if c.id = id then f c else c) }

def State.cmd? (s : State) (k q id : Nat) : Option Cmd := (vat (s.ctx k).cmds q).find? fun c => c.id = id

/-- A command leaves its view; the next one may start, and pops look again. -/
def State.dropCmd (s : State) (k q id : Nat) : State :=
  let s := s.updCtx k fun x => { x with cmds := vput x.cmds q ((vat x.cmds q).filter fun c => c.id ≠ id) }
  let s := if (vat (s.ctx k).cmds q).isEmpty then s else s.causeOnce .engineCommandStart { k := k, q := q }
  if (s.ctx k).pops.isEmpty then s else s.causeOnce .queuePopDeliver { k := k, q := popOf q }

/-- A pop view has room for an element. -/
def Ctx.room (c : Ctx) (q : Nat) : Bool := c.waiting q < 16

/-- What a command posts has room in pop view q of context k. An engine does not finish a command whose element has none
(R119, R224). -/
def State.fits (s : State) (k q : Nat) : Bool := (s.ctx k).waiting q ≤ 16

/-- Completes a command of view q: its lines are no longer pending, and its element is posted with NOTIFY or a failure (R119,
R120, R233, R234). -/
def State.complete (s : State) (k q : Nat) (c : Cmd) (status info : Nat) : State :=
  let s := s.clearPending (c.destLines (coreOf k) (s.ctx k).claim)
  let s := if c.cmd.getLsbD 14 || status ≠ 0 then s.updCtx k fun x => x.postElem (popOf q) (elem status c.func info) else s
  s.dropCmd k q c.id

/-- A push is a release: every access that the thread made before it is complete, and its stores are visible to the command
(R184, R227). -/
def State.pushReleased (s : State) (k id : Nat) : Bool := s.releasedTo k id

/-- Discards a command at the head of its view (R232): DISCARDED to its pop view, as a trailer line for Q4, or in the
status register of `KICK`. Its lines are no longer pending (R234). -/
def State.discardCmd (s : State) (k q : Nat) (c : Cmd) : State :=
  let s := if c.bound = .discarded then s.clearPending (c.destLines (coreOf k) (s.ctx k).claim) else s
  (s.postDiscarded k q c).dropCmd k q c.id

/-- The merge tree of a core: tree 0 for rows 0 to 15, tree 1 for rows 16 to 31 (R238). -/
def mergeTree (core : Nat) : Nat := core % 1024 / 32 / 16

/-- Begins the work of a command: it is sent to its engine. -/
def State.beginWork (s : State) (k q : Nat) (c : Cmd) : State :=
  let s := s.updCmd k q c.id fun c => { c with started := true }
  match q with
  | 0 => s.cause .matrixCommandExecute { k := k, id := c.id }
  | 4 => s.cause .gatherExecute { k := k, id := c.id }
  | 6 =>
    let d := dieOf (coreOf k)
    let t := mergeTree (coreOf k)
    let turn : MergeTurn := ⟨k, c.id⟩
    (s.updDie d fun v =>
      if t = 0 then { v with merge0 := v.merge0 ++ [turn] } else { v with merge1 := v.merge1 ++ [turn] }).cause
      .mergeExecute { die := d, n := t }
  | 2 =>
    if c.barq then s.cause .barqArrival { k := k, id := c.id }
    else if c.fn = 0x03 then
      let id := s.nextId
      let b := c.b.toNat
      let n : Notice := { id := c.id, src := c.a, len := b / 2 ^ 32 % 2 ^ 17, tag := c.b.extractLsb' 16 16,
                          sender := coreOf k + slotOf k * 2 ^ 12, k := k, asid := (s.ctx k).asid,
                          ctx := keyOf (b % 2 ^ 12) (b / 2 ^ 12 % 8), handler := c.c, fetching := false }
      { s.newId with msgs := Tbl.set s.msgs id (.kick c.reg (b % 2 ^ 12) n) }.cause .kickArrival { id := id }
    else s.cause .engineCommandComplete { k := k, id := c.id }
  | _ => s.cause .engineCommandComplete { k := k, q := 8, id := c.id }

/-- The views of a core that an engine serves, in the order of its round robin: those of the resident slots, then those of the
shadow slots. (DESIGN CHOICE: log entry 156.) -/
def viewKey (core i : Nat) : Nat := if i < 8 then keyOf core i else shadowKey core (i - 8)
def viewIndex (k : Nat) : Nat := if k < 32768 then slotOf k else 8 + k % 2

/-- What serving the next command of a view does, where it can be done now: its work begins once the push is released, or a
false guard discards it; none while a guard or a transaction holds it, or a full pop view (R220, R224, R232). -/
def State.serveView (s : State) (k q : Nat) : Option State :=
  match nextCmd (vat (s.ctx k).cmds q) with
  | none => none
  | some c =>
    if c.held then none
    else match c.bound with
      | .heldOn _ => none
      | .free =>
        if s.pushReleased k c.id then
          let s := s.beginWork k q c
          some (if c.fn = 0x03 && !c.barq then s.causeOnce .engineCommandStart { k := k, q := q } else s)
        else none
      | _ =>
        let t := s.discardCmd k q c
        if t.fits k (popOf q) then some t else none

/-- The view whose turn it is at the engine of queue q: the first after the one served last that can be served (R224). -/
def State.turnOf (s : State) (core q : Nat) : Option Nat :=
  let last := vat (s.core core).turns q
  ((List.range 10).map fun i => viewKey core ((last + 1 + i) % 10)).find? fun k => (s.serveView k q).isSome

/-- The next command of a view waits for its push to be released or for room in its pop view. -/
def State.waitsToStart (s : State) (k q : Nat) : Bool :=
  match nextCmd (vat (s.ctx k).cmds q) with
  | none => false
  | some c => !c.held && !c.onGuard

/-- An engine serves a view, one command when its turn comes (R224). A command that a guard or a transaction holds waits for
it. -/
def execEngineCommandStart (s : State) : Out :=
  let k := s.ev.k
  let q := s.ev.q
  let core := coreOf k
  match s.serveView k q with
  | none => .next (if s.waitsToStart k q then s.later .engineCommandStart else s)
  | some t =>
    match s.turnOf core q with
    | some j =>
      if j = k then .next (t.updCore core fun c => { c with turns := vput c.turns q (viewIndex k) })
      else .next ((s.causeOnce .engineCommandStart { k := j, q := q }).later .engineCommandStart)
    | none => .next s

/-- An element reaches a pop that waits, or the last command that owed one has ended without it (R226). -/
def execQueuePopDeliver (s : State) : Out :=
  let k := s.ev.k
  let c := s.ctx k
  match c.pops.find? fun p => p.q = s.ev.q with
  | none => .next s
  | some p =>
    if 32768 ≤ k then .next s else
    let rest := fun (c : Ctx) => { c with pops := c.pops.erase p }
    let more := fun (s : State) =>
      if (s.ctx k).pops.any fun o => o.q = p.q then s.causeOnce .queuePopDeliver { k := k, q := p.q } else s
    if c.waiting p.q ≠ 0 then .next (more ((s.updCtx k rest).takeFrom k p.q p.dst))
    else if p.q < 9 && (vat c.cmds (pushOf p.q)).isEmpty then
      .next (more (s.updCtx k fun c => { rest c with r := c.r.setFe .idle (match p.dst with | .x n => .x n | .v n => .v n) }))
    else .next (s.later .queuePopDeliver)

/-! ### Copies (R235) and scatters (R236) -/

/-- The rows of a copy: destination and source row by row, with the bytes of a row. -/
structure Rows where
  rows : Nat
  bytes : Nat
  dp : Nat
  sp : Nat
  deriving DecidableEq, Repr

def Cmd.rowsOf (c : Cmd) : Rows :=
  if c.fn = 0x00 then ⟨1, c.c.toNat, 0, 0⟩
  else ⟨(c.c.extractLsb' 0 16).toNat, (c.c.extractLsb' 16 16).toNat, 4 * (c.c.extractLsb' 32 16).toNat,
    4 * (c.c.extractLsb' 48 16).toNat⟩

/-- The status of a copy whose operands break a limit (R233, R235). (DEDUCED: log entry 50.) -/
def Cmd.copyBad (c : Cmd) (x : Ctx) : Option Nat :=
  let r := c.rowsOf
  let range := if c.fn = 0x00 then r.bytes % 4 ≠ 0 || r.bytes < 4 || 16777216 < r.bytes
    else r.rows = 0 || r.bytes = 0 || r.bytes % 4 ≠ 0 || r.dp < r.bytes || r.sp < r.bytes
  let ok := fun (l : Bool) (a p : Nat) =>
    let n := (r.rows - 1) * p + r.bytes
    if l then x.holds a n else translatedRange a n
  if range then some 0x05
  else if c.a.toNat % 4 ≠ 0 || c.b.toNat % 4 ≠ 0 || !ok (c.cmd.getLsbD 1) c.a.toNat r.dp || !ok (c.cmd.getLsbD 0) c.b.toNat r.sp then
    some 0x04
  else none

/-- The addresses of the words of a copy, destination and source, in the order of R235. -/
def Cmd.copyWords (c : Cmd) : List (Nat × Nat) :=
  let r := c.rowsOf
  (List.range r.rows).flatMap fun i => (List.range (r.bytes / 4)).map fun j =>
    (c.a.toNat + i * r.dp + 4 * j, c.b.toNat + i * r.sp + 4 * j)

/-- The places of address pairs, up to the first that faults. -/
def State.places (s : State) (k : Nat) (ld ls : Bool) : List (Nat × Nat) → State × List (EPlace × EPlace) × Bool
  | [] => (s, [], false)
  | (a, b) :: ws =>
    match s.engPlace k ls .load b with
    | (s, .error _) => (s, [], true)
    | (s, .ok pb) =>
      match s.engPlace k ld .store a with
      | (s, .error _) => (s, [], true)
      | (s, .ok pa) =>
        let r := s.places k ld ls ws
        (r.1, (pa, pb) :: r.2.1, r.2.2)

/-- Moves words one after another: the state, and for each word whether it was poisoned. -/
def State.moveWords (s : State) (d : Nat) : List (EPlace × EPlace) → State × List (EPlace × Bool)
  | [] => (s, [])
  | (a, b) :: ws =>
    let v := s.engRead b 4
    let r := (s.engWrite d a v.1 v.2).moveWords d ws
    (r.1, (a, v.2) :: r.2)

/-- Performs the words of a command whose places are known, once every home is ready; then completes it. -/
def State.runWords (s : State) (k : Nat) (c : Cmd) (ps : List (EPlace × EPlace)) (fault bad : Bool) (unit : Nat) : State :=
  let core := coreOf k
  let src := memLines (ps.map (·.2))
  let dest := memLines (ps.map (·.1))
  if s.engStalls k 2 (ps.map (·.2)) then s.later .engineCommandComplete
  else match s.engNeeds k false src, s.engNeeds k true dest with
    | none, none =>
      let asid := (s.ctx k).asid
      let r := ((s.engServe k asid false src).engServe k asid true dest).moveWords (dieOf core) ps
      let s := r.1.clearFull r.2
      let dead := dest.any fun l => s.lineDead l || s.lineDevDead l
      let status := if fault then 0x0D else if bad || dead || r.2.any (·.2) then 0x0C else 0
      s.complete k 2 c status (unit * ps.length)
    | some t, _ => { t with ev := s.ev }.later .engineCommandComplete
    | none, some t => { t with ev := s.ev }.later .engineCommandComplete

/-- The indices of a scatter or gather, from local scratchpad; none where the line is poisoned. -/
def State.indices (s : State) (k a n : Nat) : List (Option Nat) :=
  (List.range n).map fun i =>
    let r := s.engRead (.scr (arrayByte (coreOf k) (s.ctx k).claim (a + 4 * i))) 4
    if r.2 then none else some (natOfBytes r.1)

/-- The places of n words of local scratchpad. -/
def State.scrWords (s : State) (k a n : Nat) : List EPlace :=
  (List.range n).map fun i => .scr (arrayByte (coreOf k) (s.ctx k).claim (a + 4 * i))

/-- A scatter (R236). A word whose index is poisoned is not written. -/
def State.scatter (s : State) (k : Nat) (c : Cmd) : State :=
  let n := c.cmd.toNat % 4096 + 1
  let x := s.ctx k
  let ix := s.indices k c.c.toNat n
  let ws := (ix.zipIdx.filterMap fun i => i.1.map fun v => (c.a.toNat + 4 * v, c.b.toNat + 4 * i.2))
  if c.a.toNat % 4 ≠ 0 || c.b.toNat % 4 ≠ 0 || c.c.toNat % 4 ≠ 0 || !x.holds c.b.toNat (4 * n) || !x.holds c.c.toNat (4 * n) then
    s.complete k 2 c 0x04 0
  else if s.engStalls k 2 (s.scrWords k c.c.toNat n) then s.later .engineCommandComplete
  else if ws.any fun w => !translatedRange w.1 4 then s.complete k 2 c 0x04 0
  else
    let p := s.places k false true ws
    { p.1 with ev := s.ev }.runWords k c p.2.1 p.2.2 (ix.any Option.isNone) 1

/-- A `KACK` that comes to the head of its view, or that its guard has released (R245). (DEDUCED: log entry 111.) -/
def State.kackLate (s : State) (k : Nat) (c : Cmd) : State :=
  match c.cmd.toNat / 2 ^ 10 % 4 with
  | 0 =>
    let holder := if (s.ctx k).ring.any fun r => r.lands c.a then some k else ((s.ctx k).info.notice.map (·.1))
    match holder with
    | some j => (s.ackNotice j c.a (c.cmd.toNat % 256)).complete k 2 c 0 0
    | none => s.complete k 2 c 0 0
  | 1 => (if (s.ctx k).ring.isSome then s else s.openRing k c.a.toNat c.b.toNat).complete k 2 c 0 0
  | _ =>
    if (s.ctx k).ringIdle then (s.closeRing k).complete k 2 c 0 0
    else s.later .engineCommandComplete

/-- A command of Q2 is executed and completes (R233 to R236). It is not finished while its element finds no room (R224).
(DEDUCED: log entry 47.) -/
def State.copyEngine (s : State) (k : Nat) (c : Cmd) : State :=
  let t := match c.fn with
    | 0x02 => s.scatter k c
    | 0x04 => s.kackLate k c
    | _ =>
      match c.copyBad (s.ctx k) with
      | some st => s.complete k 2 c st 0
      | none =>
        let p := s.places k (c.cmd.getLsbD 1) (c.cmd.getLsbD 0) c.copyWords
        { p.1 with ev := s.ev }.runWords k c p.2.1 p.2.2 false 4
  if t.fits k 3 then t else s.later .engineCommandComplete

/-! ### Gather and select (R237) -/

/-- The size of a gather's elements. -/
def Cmd.elemSize (c : Cmd) : Nat := 4 * 2 ^ (c.cmd.toNat / 2 ^ 8 % 8)

/-- Posts the trailer of a gather or a select and ends the command. -/
def State.endGather (s : State) (k : Nat) (c : Cmd) (l : Lanes) : State :=
  (s.updCtx k fun x => { x with lines := x.lines ++ [⟨l, false⟩] }).dropCmd k 4 c.id

/-- One element of a gather: its bytes, and a status: 0x04, 0x0D or 0x0C where it is replaced or poisoned.
(DEDUCED: log entry 53; DESIGN CHOICE: log entry 147.) -/
def State.gatherElem (s : State) (k : Nat) (c : Cmd) (i : Option Nat) : State × List Byte × Nat :=
  let e := c.elemSize
  match i with
  | none => (s, List.replicate e 0, 0x0C)
  | some i =>
    let a := c.a.toNat + e * i
    if a % e ≠ 0 || !translatedRange a e then (s, List.replicate e 0, 0x04)
    else match s.engPlace k false .load a with
      | (s, .error _) => (s, List.replicate e 0, 0x0D)
      | (s, .ok p) => let r := s.engRead p e; (s, r.1, if r.2 then 0x0C else 0)

/-- The elements of one line. -/
def State.gatherLine (s : State) (k : Nat) (c : Cmd) : List (Option Nat) → State × List Byte × List Nat
  | [] => (s, [], [])
  | i :: is =>
    let a := s.gatherElem k c i
    let b := a.1.gatherLine k c is
    (b.1, a.2.1 ++ b.2.1, a.2.2 :: b.2.2)

/-- The 32 lanes that bytes fill, zero beyond them. -/
def lanesOfBytes (bs : List Byte) : Lanes := lanesOf fun i => BitVec.ofNat 32 (natOfBytes ((bs.drop (4 * i)).take 4))

/-- The memory lines of the elements of one line of a gather. -/
def State.gatherLines (s : State) (k : Nat) (c : Cmd) (ix : List (Option Nat)) : State × List Nat :=
  let e := c.elemSize
  let r := ix.foldl (fun (r : State × List EPlace) i => match i with
    | none => r
    | some i =>
      let a := c.a.toNat + e * i
      if a % e ≠ 0 || !translatedRange a e then r
      else match r.1.engPlace k false .load a with
        | (t, .ok p) => (t, p :: r.2)
        | (t, .error _) => (t, r.2)) (s, [])
  (r.1, memLines r.2)

/-- Posts the next line of a gather, or its trailer. -/
def State.gatherStep (s : State) (k : Nat) (c : Cmd) : State :=
  let e := c.elemSize
  let n := c.c.toNat
  let per := 128 / e
  let lines := (n + per - 1) / per
  let t := fun i => c.tally.getD i 0
  if c.done = lines then s.endGather k c (trailer n (t 0) 0 (t 1) (t 2))
  else
    let first := c.done * per
    let cnt := min per (n - first)
    if s.engStalls k 4 (s.scrWords k c.b.toNat n) then s.later .gatherExecute
    else
      let ix := s.indices k (c.b.toNat + 4 * first) cnt
      let g := s.gatherLines k c ix
      match g.1.engNeeds k false g.2 with
      | some t => { t with ev := s.ev }.later .gatherExecute
      | none =>
        let r := (g.1.engServe k (s.ctx k).asid false g.2).gatherLine k c ix
        let sts := r.2.2.filter (· ≠ 0)
        let tally := [sts.getLastD (t 0), t 1 + (sts.filter (· ≠ 0x0C)).length, t 2 + (sts.filter (· = 0x0C)).length]
        let line : LineElem := ⟨lanesOfBytes r.2.1, sts.contains 0x0C⟩
        let s := r.1.updCtx k fun x => { x with lines := x.lines ++ [line] }
        let s := s.updCmd k 4 c.id fun c => { c with done := c.done + 1, tally := tally }
        let s := s.cause .gatherExecute { k := k, id := c.id }
        if (s.ctx k).pops.isEmpty then s else s.causeOnce .queuePopDeliver { k := k, q := 5 }

/-- A gather with its operand checks (R237). -/
def State.gather (s : State) (k : Nat) (c : Cmd) : State :=
  let n := c.c.toNat
  if 2 ^ 13 ≤ n then s.endGather k c (trailer 0 0x0B 0 0 0)
  else if n = 0 || 4096 < n then s.endGather k c (trailer 0 0x05 0 0 0)
  else if c.b.toNat % 4 ≠ 0 || !(s.ctx k).holds c.b.toNat (4 * n) then s.endGather k c (trailer 0 0x04 0 0 0)
  else s.gatherStep k c

/-- The type code of a select's test. -/
def Cmd.selType (c : Cmd) : BitVec 5 := match c.cmd.toNat / 2 ^ 9 % 4 with
  | 0 => 0x03
  | 1 => 0x07
  | _ => 0x0C

/-- Tests the words of a select in order: the indices that pass, and the last failure. -/
def State.selectWords (s : State) (k : Nat) (c : Cmd) : List Nat → State × List Nat × Nat
  | [] => (s, [], 0)
  | i :: is =>
    let ty := c.selType
    let a := c.a.toNat + 4 * i
    let q : State × Option Nat × Nat :=
      if !translatedRange a 4 then (s, none, 0x0D)
      else match s.engPlace k false .load a with
        | (s, .error _) => (s, none, 0x0D)
        | (s, .ok p) =>
          let r := s.engRead p 4
          if r.2 then (s, none, 0x0C)
          else
            let key := selKey ty (c.cmd.getLsbD 8) (natOfBytes r.1)
            let th := selKey ty false (c.c.toNat / 2 ^ 32)
            (s, if key.passes (c.cmd.getLsbD 7) th then some i else none, 0)
    let r := q.1.selectWords k c is
    (r.1, q.2.1.toList ++ r.2.1, if r.2.2 ≠ 0 then r.2.2 else q.2.2)

/-- A select (R237). -/
def State.select (s : State) (k : Nat) (c : Cmd) : State :=
  let n := c.c.toNat % 2 ^ 32
  let x := s.ctx k
  if n = 0 then s.endGather k c (trailer 0 0x05 0 0 0)
  else if c.a.toNat % 4 ≠ 0 || c.b.toNat % 4 ≠ 0 || !translatedRange c.a.toNat 4 || claimBytes x.claim ≤ c.b.toNat then
    s.endGather k c (trailer 0 0x04 0 0 0)
  else
    let g := (List.range n).foldl (fun (r : State × List EPlace) i =>
      if translatedRange (c.a.toNat + 4 * i) 4 then match r.1.engPlace k false .load (c.a.toNat + 4 * i) with
        | (t, .ok p) => (t, p :: r.2)
        | (t, .error _) => (t, r.2)
      else r) (s, [])
    match g.1.engNeeds k false (memLines g.2) with
    | some t => { t with ev := s.ev }.later .gatherExecute
    | none =>
      let r := (g.1.engServe k x.asid false (memLines g.2)).selectWords k c (List.range n)
      let fit := (claimBytes x.claim - c.b.toNat) / 4
      let out := r.2.1.take fit
      let dst := fun i => EPlace.scr (arrayByte (coreOf k) x.claim (c.b.toNat + 4 * i))
      let s := (out.zipIdx.foldl (fun s i => s.engWrite (dieOf (coreOf k)) (dst i.2) (bytesOfNat 4 i.1) false) r.1).clearFull
        ((List.range out.length).map fun i => (dst i, false))
      let status := if fit < r.2.1.length then 0x0F else r.2.2
      s.endGather k c (trailer r.2.1.length status out.length 0 0)

/-- The slices serve a gather or a select; a full Q5 makes it wait. -/
def execGatherExecute (s : State) : Out :=
  match s.cmd? s.ev.k 4 s.ev.id with
  | none => .next s
  | some c =>
    if !(s.ctx s.ev.k).room 5 then .next (s.later .gatherExecute)
    else .next (if c.cmd.getLsbD 11 then s.select s.ev.k c else s.gather s.ev.k c)

/-! ### Merges (R238, R239) -/

/-- A merge descriptor (R238): per fibre the coordinates, the values and the length. -/
structure MergeDesc where
  outCoord : Nat
  outVal : Nat
  cap : Nat
  int : Bool
  fibres : List (Nat × Nat × Nat)
  deriving DecidableEq, Repr

/-- What a read of words gives: the words, a status where one lies outside the translated range, faults or is poisoned, or
that a home is not ready. -/
inductive Words where
  | ok (ws : List Nat)
  | bad (status : Nat)
  | wait
  deriving DecidableEq, Repr

/-- Reads n words of a context's memory. -/
def State.engWords (s : State) (k a n : Nat) : State × Words :=
  if !translatedRange a (4 * n) then (s, .bad 0x04)
  else
    let p := (List.range n).foldl (fun (r : State × List EPlace × Bool) i =>
      if r.2.2 then r
      else match r.1.engPlace k false .load (a + 4 * i) with
        | (t, .ok p) => (t, r.2.1 ++ [p], false)
        | (t, .error _) => (t, r.2.1, true)) (s, [], false)
    let ls := memLines p.2.1
    if p.2.2 then (p.1, .bad 0x0D)
    else match p.1.engNeeds k false ls with
      | some t => (t, .wait)
      | none =>
        let t := p.1.engServe k (s.ctx k).asid false ls
        let rs := p.2.1.map fun p => t.engRead p 4
        (t, if rs.any (·.2) then .bad 0x0C else .ok (rs.map fun r => natOfBytes r.1))

/-- The dword i words into a list of words. -/
def dwordAt (ws : List Nat) (i : Nat) : Nat := ws.getD i 0 + ws.getD (i + 1) 0 * 2 ^ 32

/-- The first 32 bytes of a descriptor break a limit; an address outside the translated range is one. (DESIGN CHOICE: log entry
146.) -/
def mergeHeadBad (head : List Nat) : Bool :=
  let w := fun i => head.getD i 0
  let nf := w 5 % 256
  let ok := fun a n => a % 4 = 0 && translatedRange a n
  nf = 0 || 64 < nf || 1 < w 5 / 256 % 256 || 2 ^ 16 ≤ w 5 || w 6 ≠ 0 || w 7 ≠ 0 ||
    !ok (dwordAt head 0) (4 * w 4) || !ok (dwordAt head 2) (4 * w 4)

/-- The descriptor that words give, none where it breaks a limit. -/
def mergeDesc (head body : List Nat) : Option MergeDesc :=
  let w := fun i => head.getD i 0
  let nf := w 5 % 256
  let fs := (List.range nf).map fun i => (dwordAt body (6 * i), dwordAt body (6 * i + 2), body.getD (6 * i + 4) 0)
  let ok := fun a n => a % 4 = 0 && translatedRange a n
  if mergeHeadBad head || (List.range nf).any (fun i => body.getD (6 * i + 5) 0 ≠ 0) ||
      fs.any fun f => 2 ^ 24 < f.2.2 || !ok f.1 (4 * f.2.2) || !ok f.2.1 (4 * f.2.2) then none
  else some ⟨dwordAt head 0, dwordAt head 2, w 4, w 5 / 256 % 256 = 1, fs⟩

/-- A fibre as far as it can be read: entries of coordinate, value and poison, and why it is cut: 0, FAULT, UNSORTED, or
POISON where a coordinate is poisoned. (DEDUCED: log entry 52.) -/
def State.fibreEntries (s : State) (k cp vp : Nat) (prev : Nat) : Nat → State × List (Nat × Nat × Bool) × Nat
  | 0 => (s, [], 0)
  | n + 1 =>
    match s.engPlace k false .load cp with
    | (s, .error _) => (s, [], 0x0D)
    | (s, .ok pc) =>
      match s.engPlace k false .load vp with
      | (s, .error _) => (s, [], 0x0D)
      | (s, .ok pv) =>
        let c := s.engRead pc 4
        let v := s.engRead pv 4
        if c.2 then (s, [], 0x0C)
        else if natOfBytes c.1 < prev then (s, [], 0x0E)
        else
          let r := s.fibreEntries k (cp + 4) (vp + 4) (natOfBytes c.1) n
          (r.1, (natOfBytes c.1, natOfBytes v.1, v.2) :: r.2.1, r.2.2)

/-- The places of the words of fibres that can be translated. -/
def State.fibrePlaces (s : State) (k : Nat) (fs : List (Nat × Nat × Nat)) : State × List EPlace :=
  (fs.flatMap fun f => (List.range f.2.2).flatMap fun i => [f.1 + 4 * i, f.2.1 + 4 * i]).foldl
    (fun (r : State × List EPlace) a => match r.1.engPlace k false .load a with
      | (t, .ok p) => (t, p :: r.2)
      | (t, .error _) => (t, r.2)) (s, [])

/-- Adds an entry to the output in coordinate order, combined after what is there (R239). -/
def mergeInto (int : Bool) (c v : Nat) (bad : Bool) : List (Nat × Nat × Bool) → List (Nat × Nat × Bool)
  | [] => [(c, v, bad)]
  | (d, w, b) :: t =>
    if c < d then (c, v, bad) :: (d, w, b) :: t
    else if c = d then (d, (if int then RmwOp.add else .fadd).apply 32 w v 0, b || bad) :: t
    else (d, w, b) :: mergeInto int c v bad t

/-- The output of a merge: fibres in ascending number, positions in order. -/
def mergeOut (int : Bool) (fs : List (List (Nat × Nat × Bool))) : List (Nat × Nat × Bool) :=
  fs.foldl (fun o f => f.foldl (fun o e => mergeInto int e.1 e.2.1 e.2.2 o) o) []

/-- Reads every fibre: its entries and why it is cut. -/
def State.readFibres (s : State) (k : Nat) : List (Nat × Nat × Nat) → State × List (List (Nat × Nat × Bool) × Nat)
  | [] => (s, [])
  | f :: fs =>
    let a := s.fibreEntries k f.1 f.2.1 0 f.2.2
    let b := a.1.readFibres k fs
    (b.1, (a.2.1, a.2.2) :: b.2)

/-- Ends a merge and lets its tree take the next in order of arrival. -/
def State.endMerge (s : State) (k : Nat) (c : Cmd) (status count : Nat) : State :=
  let d := s.ev.die
  let t := s.ev.n
  let s := s.updDie d fun v => if t = 0 then { v with merge0 := v.merge0.drop 1 } else { v with merge1 := v.merge1.drop 1 }
  s.complete k 6 c status count

/-- Runs a merge with a good descriptor. A fibre that cannot be read further stops the output before its last
coordinate, since an entry still to come could combine with it. Of several statuses FAULT comes first, then POISON, UNSORTED
and OVERFLOW. (DEDUCED: log entry 52.) -/
def State.mergeRun (s : State) (k : Nat) (c : Cmd) (m : MergeDesc) : State :=
  let core := coreOf k
  let g := s.fibrePlaces k m.fibres
  match g.1.engNeeds k false (memLines g.2) with
  | some t => { t with ev := s.ev }.later .mergeExecute
  | none =>
    let asid := (s.ctx k).asid
    let r := (g.1.engServe k asid false (memLines g.2)).readFibres k m.fibres
    let cuts := r.2.filter fun f => f.2 = 0x0D || f.2 = 0x0C
    let bound := cuts.map fun f => (f.1.getLast?.map (·.1)).getD 0
    let all := (mergeOut m.int (r.2.map (·.1))).filter fun e => bound.all fun b => e.1 < b
    let out := all.take m.cap
    let ws := out.zipIdx.flatMap fun e => [(m.outCoord + 4 * e.2, e.1.1, false), (m.outVal + 4 * e.2, e.1.2.1, e.1.2.2)]
    let pl := ws.foldl (fun (q : State × List (EPlace × Nat × Bool) × Bool) w =>
      if q.2.2 then q
      else match q.1.engPlace k false .store w.1 with
        | (t, .ok p) => (t, q.2.1 ++ [(p, w.2)], false)
        | (t, .error _) => (t, q.2.1, true)) (r.1, [], false)
    match pl.1.engNeeds k true (memLines (pl.2.1.map (·.1))) with
    | some t => { t with ev := s.ev }.later .mergeExecute
    | none =>
      let n := pl.2.1.length / 2
      let done := pl.2.1.take (2 * n)
      let s' := pl.1.engServe k asid true (memLines (done.map (·.1)))
      let s' := done.foldl (fun s w => s.engWrite (dieOf core) w.1 (bytesOfNat 4 w.2.1) w.2.2) s'
      let s' := s'.clearFull (done.map fun w => (w.1, w.2.2))
      let status := if pl.2.2 || r.2.any (fun f => f.2 = 0x0D) then 0x0D
        else if r.2.any (fun f => f.2 = 0x0C) || done.any (·.2.2) then 0x0C
        else if r.2.any fun f => f.2 = 0x0E then 0x0E
        else if m.cap < all.length then 0x0F else 0
      { s' with ev := s.ev }.endMerge k c status n

/-- A merge reads its descriptor, the fibres of which only where its first 32 bytes keep the limits (R238). -/
def State.mergeStep (s : State) (k : Nat) (c : Cmd) : State :=
  if c.a.toNat % 8 ≠ 0 || !translatedRange c.a.toNat 32 then s.endMerge k c 0x04 0
  else match s.engWords k c.a.toNat 8 with
    | (t, .wait) => { t with ev := s.ev }.later .mergeExecute
    | (t, .bad st) => { t with ev := s.ev }.endMerge k c st 0
    | (t, .ok head) =>
      if mergeHeadBad head then { t with ev := s.ev }.endMerge k c 0x0B 0
      else match t.engWords k (c.a.toNat + 32) (6 * (head.getD 5 0 % 256)) with
        | (t, .wait) => { t with ev := s.ev }.later .mergeExecute
        | (t, .bad st) => { t with ev := s.ev }.endMerge k c st 0
        | (t, .ok body) =>
          match mergeDesc head body with
          | none => { t with ev := s.ev }.endMerge k c 0x0B 0
          | some m => { t with ev := s.ev }.mergeRun k c m

/-- A merge tree runs the command whose turn it is (R238). It is not finished while its element finds no room (R224). -/
def execMergeExecute (s : State) : Out :=
  let turns := if s.ev.n = 0 then (s.die s.ev.die).merge0 else (s.die s.ev.die).merge1
  match turns with
  | [] => .next s
  | t :: _ =>
    match s.cmd? t.k 6 t.id with
    | none => .next (s.updDie s.ev.die fun v =>
        if s.ev.n = 0 then { v with merge0 := v.merge0.drop 1 } else { v with merge1 := v.merge1.drop 1 })
    | some c =>
      let r := s.mergeStep t.k c
      if r.fits t.k 7 then .next r else .next (s.later .mergeExecute)

/-! ### Kicks, notices and acknowledgements (R243 to R246) -/

/-- The status of a kick reaches the sender's register; a status that is not ACCEPTED or SPILLED ends the command. -/
def State.kickStatus (s : State) (n : Notice) (reg code : Nat) : State :=
  let s := s.updCtx n.k fun c => { c with r := c.r.setX reg (BitVec.ofNat 64 code) }
  if code ≤ 1 then s.updCmd n.k 2 n.id fun c => { c with done := 1 } else s.dropCmd n.k 2 n.id

/-- The address that a handler starts at can be fetched in an address space. -/
def State.executable (s : State) (core : Nat) (asid : BitVec 12) (va : Word) : Bool :=
  va.toNat % 8 = 0 && va.toNat < remoteBase && match s.xlate core asid .fetch va with
    | (_, .ok _) => true
    | (_, .error _) => false

/-- A notice arrives at the target core (R243, R244). -/
def execKickArrival (s : State) : Out :=
  match Tbl.get? s.msgs s.ev.id with
  | some (.kick reg core n) =>
    let s := { s with msgs := Tbl.erase s.msgs s.ev.id }
    let t := s.ctx n.ctx
    let c := s.core core
    if s.coreLost core then .next ((s.dropCmd n.k 2 n.id).blotted n.k)
    else match t.ring with
      | none => .next (s.kickStatus n reg 3)
      | some r =>
        if t.run = .vacant || t.asid ≠ n.asid || r.size < n.len then .next (s.kickStatus n reg 3)
        else if n.handler ≠ 0 && !s.executable core t.asid n.handler then .next (s.kickStatus n reg 4)
        else if c.notices.length < 16 then
          .next (((s.setCore core { c with notices := c.notices ++ [n] }).kickStatus n reg 0).causeOnce .noticeFetch { core := core })
        else if c.overflow.length < 256 then
          .next ((s.setCore core { c with overflow := c.overflow ++ [n] }).kickStatus n reg 1)
        else .next (s.kickStatus n reg 2)
  | _ => .next s

/-- Where the next lines of a ring go: at its allocation point, or at its start where the lines at its end are too few; they are
free up to the oldest allocation (R245). -/
def Ring.room (r : Ring) (lines : Nat) : Option Nat :=
  let size := r.size / 128
  let oldest := match r.allocs with
    | [] => size
    | a :: _ => a.line
  if oldest < r.point || r.allocs.isEmpty then
    if lines ≤ size - r.point then some r.point else if lines ≤ oldest then some 0 else none
  else if lines ≤ oldest - r.point then some r.point else none

/-- The first notice of a core, in order of arrival for each target, that can land: its lines fit into the ring, and a record
that it owes to Q10 fits into the view (R224, R245). (DEDUCED: log entry 121.) -/
def State.landable (s : State) (core : Nat) : Option (Notice × Nat) :=
  let ns := (s.core core).notices
  ns.zipIdx.findSome? fun n =>
    if n.1.fetching || (ns.take n.2).any (fun m => m.ctx = n.1.ctx && !m.fetching) then none
    else match (s.ctx n.1.ctx).ring with
      | none => none
      | some r =>
        if (n.1.handler = (0 : Word)) && (15 ≤ (s.ctx n.1.ctx).count 10) then none
        else (r.room ((n.1.len + 127) / 128)).map fun p => (n.1, p)

/-- The copy engine accepts the fetch of a notice: its lines are taken and pending (R234, R245). -/
def execNoticeFetch (s : State) : Out :=
  let core := s.ev.core
  match s.landable core with
  | none => .next s
  | some (n, line) =>
    match (s.ctx n.ctx).ring with
    | none => .next s
    | some r =>
      let lines := (n.len + 127) / 128
      let claim := (s.ctx n.ctx).claim
      let pend := (List.range lines).map fun i => claimLine core claim (r.base / 128 + line + i)
      let s := s.updCore core fun c =>
        { c with notices := c.notices.map fun m => if m.id = n.id && m.k = n.k then { m with fetching := true } else m }
      let ring : Ring := { r with point := (line + lines) % (r.size / 128)
                                  allocs := r.allocs ++ [⟨line, lines, none, n, false⟩] }
      let s := s.updCtx n.ctx fun c => { c with ring := some ring }
      .next (((s.addPending pend).cause .noticeLanded { core := core, k := n.ctx, id := n.id }).causeOnce
        .noticeFetch { core := core })

/-- The source places of a notice's words: memory in the sender's address space, or the sender's scratchpad. -/
def State.noticeSource (s : State) (core : Nat) (n : Notice) (o : Nat) : State × Except XlateBad EPlace :=
  match regionOf (n.src + BitVec.ofNat 64 o) with
  | .translated => match s.xlate core n.asid .load (n.src + BitVec.ofNat 64 o) with
    | (s, .ok (pa, _)) => (s, .ok (.mem pa))
    | (s, .error f) => (s, .error f)
  | .remote c sl a =>
    let x := s.ctx (keyOf c sl)
    if !s.coreLost c && x.asid = n.asid && a + 4 ≤ claimBytes x.claim then (s, .ok (.scr (arrayByte c x.claim a))) else (s, .error (.fault .notPresent))
  | _ => (s, .error (.fault .notPresent))

/-- The words of a notice: a word that cannot be read lands as poison. -/
def State.noticeWords (s : State) (core : Nat) (n : Notice) : State × List (Option EPlace) :=
  (List.range (n.len / 4)).foldl (fun (r : State × List (Option EPlace)) i =>
    match r.1.noticeSource core n (4 * i) with
    | (t, .ok p) => (t, r.2 ++ [some p])
    | (t, .error _) => (t, r.2 ++ [none])) (s, [])

/-- The token of a landed notice (R246). -/
def noticeToken (line len sender : Nat) (tag : Half) : Word :=
  BitVec.ofNat 64 (line * 2 ^ 49 + len % 2 ^ 17 * 2 ^ 32 + tag.toNat * 2 ^ 16 + sender)

/-- A notice's lines are filled: its token goes to Q10, or waits for a slot with its handler (R245, R246). A pending line of
the source stalls the fetch (R234), but for the lines that it fills itself. -/
def execNoticeLanded (s : State) : Out :=
  let core := s.ev.core
  let k := s.ev.k
  match (s.ctx k).ring with
  | none => .next s
  | some r =>
    match r.allocs.find? fun a => a.notice.id = s.ev.id && a.token.isNone with
    | none => .next s
    | some a =>
      let n := a.notice
      let w := s.noticeWords core n
      let ps := w.2.filterMap id
      let claim := (s.ctx k).claim
      let own := (List.range a.lines).map fun i => claimLine core claim (r.base / 128 + a.line + i)
      if s.placesPend own ps then .next (s.later .noticeLanded)
      else match w.1.engNeeds k false (memLines ps) with
      | some t => .next ({ t with ev := s.ev }.later .noticeLanded)
      | none =>
        let dst := fun i => EPlace.scr (arrayByte core claim (r.base + 128 * a.line + 4 * i))
        let filled := w.2.zipIdx.foldl (fun (f : State × List (EPlace × Bool)) p =>
          let v := match p.1 with
            | some q => f.1.engRead q 4
            | none => ([0, 0, 0, 0], true)
          (f.1.engWrite (dieOf core) (dst p.2) v.1 v.2, f.2 ++ [(dst p.2, v.2)])) (w.1.engServe k n.asid false (memLines ps), [])
        let t := filled.1.clearFull filled.2
        let line := r.base / 128 + a.line
        let tok := noticeToken line n.len n.sender n.tag
        let t := t.clearPending own
        let t := t.updCtx k fun c => { c with ring := c.ring.map fun r =>
          { r with allocs := r.allocs.map fun b => if b.notice.id = n.id && b.token.isNone then { b with token := some tok } else b } }
        let t := t.updCore core fun c =>
          let ns := c.notices.filter fun m => !(m.id = n.id && m.k = n.k)
          match c.overflow with
          | o :: os => if ns.length < 16 then { c with notices := ns ++ [o], overflow := os } else { c with notices := ns }
          | [] => { c with notices := ns }
        let t := t.causeOnce .noticeFetch { core := core }
        let addr := BitVec.ofNat 64 (remoteAddr k (r.base + 128 * a.line))
        .next (if n.handler = 0 then
            let t := t.updCtx k fun c => c.postElem 10 tok
            if (t.ctx k).pops.isEmpty then t else t.causeOnce .queuePopDeliver { k := k, q := 10 }
          else (t.updCore core fun c =>
            { c with handlers := c.handlers ++ [⟨n.handler, tok, addr, (t.ctx k).asid, some (k, tok)⟩] }).causeOnce
              .handlerStart { core := core })

/-- The resident slots of a core that hold no thread, rising. -/
def State.freeSlots (s : State) (core : Nat) : List Nat :=
  ((List.range 8).map fun i => keyOf core i).filter fun k => (s.ctx k).run = .vacant

/-- The lowest resident slot of a core that holds no thread (R275). -/
def State.freeResident (s : State) (core : Nat) : Option Nat := (s.freeSlots core).head?

/-- The wait-swap rule has freed a slot of a core for the queued record that fired it (R277). -/
def State.swapFreed (s : State) (core : Nat) : Bool := s.due.contains ⟨.fillSlot, { core := core, n := 1 }⟩

/-- The lowest free slot of a core that a handler or a stolen record may take: not the one that the wait-swap rule freed (R275,
R277). -/
def State.openSlot (s : State) (core : Nat) : Option Nat :=
  if s.swapFreed core then (s.freeSlots core)[1]? else s.freeResident core

/-- The stochastic state of a thread with a work identifier (R65). -/
def stochSeed (workid : Word) : W32 :=
  let z := workid.extractLsb' 32 32 ^^^ workid.extractLsb' 0 32 ^^^ 0xB5AD4ECE
  if z = 0 then 1 else z

/-- The launch slot of a record that belongs to no launch. -/
def noLaunch : BitVec 16 := 0xFFFF

/-- A thread that a notice or a completion starts (R247). -/
def HandlerWait.thread (h : HandlerWait) : Ctx :=
  { Ctx.vacantOne with
    run := .running, asid := h.asid, pc := h.pc
    r := ((Regs.start (stochSeed h.x1)).setX 1 h.x1).setX 2 h.x2
    info := ⟨h.x1, h.x2, some ⟨h.pc, h.x1, h.x2, 0, BitVec.ofNat 64 (h.asid.toNat * 2 ^ 16 + 7), 0, noLaunch, 0⟩, 0, false, h.notice⟩ }

/-- A handler may start on a core: it lies in the partition of the handler's address space (R294), which is not held (R308). -/
def State.mayHandle (s : State) (core : Nat) (h : HandlerWait) : Bool :=
  s.inPartition h.asid.toNat core && !(s.space h.asid.toNat).hold

/-- The first handler of a core that may start gets a free slot and starts (R246, R257). (DEDUCED: log entry 122.) -/
def execHandlerStart (s : State) : Out :=
  let core := s.ev.core
  let hs := (s.core core).handlers
  if hs.isEmpty then .next s
  else match s.openSlot core, hs.find? (s.mayHandle core) with
    | some k, some h =>
      let s := (s.updCore core fun c => { c with handlers := hs.erase h }).setCtx k h.thread
      .next (if (hs.erase h).isEmpty then s else s.causeOnce .handlerStart { core := core })
    | _, _ => .next (s.later .handlerStart)

/-- An acknowledgement arrives in the sender's Q3; one for a sender that has ended is dropped (R245). -/
def execKickAck (s : State) : Out :=
  match Tbl.get? s.msgs s.ev.id with
  | some (.ack k id e) =>
    match s.cmd? k 2 id with
    | none => .next { s with msgs := Tbl.erase s.msgs s.ev.id }
    | some _ =>
      if !(s.ctx k).room 3 then .next (s.later .kickAck)
      else .next (({ s with msgs := Tbl.erase s.msgs s.ev.id }.updCtx k fun c => c.postElem 3 e).dropCmd k 2 id)
  | _ => .next s

end Sys2Proof.Machine
end

