-- ==== Sys2Proof/Machine/Matrix.lean ====
section
/-! DEFINITION. The matrix unit of a core: tiles and their formats (R114 to R116), accumulation (R117), commands and their
completion (R118 to R125, R128, R129), and the ring (R126, R127). -/

namespace Sys2Proof.Machine

/-! ### Tiles (R114 to R116) -/

/-- Bits of an element of a tile format (R116). -/
def tileBits (t : BitVec 5) : Nat :=
  match t.toNat with
  | 0x09 | 0x12 | 0x13 => 4
  | 0x0D | 0x0E => 16
  | 0x0C => 32
  | _ => 8

/-- A format with a scale for each block; matrix `.i4` has none (R115). -/
def tileBlock (t : BitVec 5) : Bool := t = 0x11 || t = 0x12 || t = 0x13
def tileInt (t : BitVec 5) : Bool := t = 0x01 || t = 0x09
/-- Bytes of a row of 32 elements. -/
def tileRow (t : BitVec 5) : Nat := 4 * tileBits t
/-- Bytes of a tile of some rows. -/
def tileBytes (t : BitVec 5) (rows blocks : Nat) : Nat := rows * tileRow t + if tileBlock t then blocks else 0

/-- The code of element j of row k in a tile's bytes (R61). -/
def tileCode (t : BitVec 5) (bs : List Byte) (k j : Nat) : Nat :=
  let w := tileBits t
  let o := k * tileRow t
  if w = 4 then (bs.getD (o + j / 2) 0).toNat / 2 ^ (4 * (j % 2)) % 16
  else natOfBytes ((bs.drop (o + j * (w / 8))).take (w / 8))

/-- The values of 32 elements of a block or a row. -/
def tileValues (t : BitVec 5) (sc : Nat) (code : Nat → Nat) : List FVal :=
  if tileInt t then (List.range 32).map fun i =>
    let v := ivalOf true (tileBits t) (code i)
    .fin (v < 0) v.natAbs 0
  else if tileBlock t then scaledValues t sc code
  else (List.range 32).map fun i => (fmtOf t).decode (code i)

/-- Column j of a latched weight tile: w[0..31][j]. -/
def weightColumn (t : BitVec 5) (bs : List Byte) (j : Nat) : List FVal :=
  tileValues t (bs.getD (32 * tileRow t + j) 0).toNat fun k => tileCode t bs k j

/-- Row r of an activation tile of n rows. -/
def activationRow (t : BitVec 5) (bs : List Byte) (n r : Nat) : List FVal :=
  tileValues t (bs.getD (n * tileRow t + r) 0).toNat fun k => tileCode t bs r k

/-! ### Accumulation (R117) -/

/-- An exact product: NaN for 0 × ∞. -/
def mulExact (a b : FVal) : FVal :=
  match a, b with
  | .fin s m e, .fin t n f => .fin (s != t) (m * n) (e + f)
  | _, _ => if a.isNan || b.isNan || a.isZero || b.isZero then .canon else .inf (a.neg != b.neg)

/-- floor(log2 |v|) of a number that is not 0. -/
def FVal.log2? : FVal → Option Int
  | .fin _ m e => if m = 0 then none else some (e + bitLen m - 1)
  | _ => none

/-- sign(v) · floor(|v| / 2^q). -/
def FVal.truncAt (q : Int) : FVal → Int
  | .fin s m e =>
    let n : Nat := if q ≤ e then m * 2 ^ (e - q).toNat else m / 2 ^ (q - e).toNat
    if s then -(n : Int) else n
  | _ => 0

/-- The value of an accumulator after terms are added with one alignment and one rounding. -/
def alignedSum (ts : List FVal) : Nat :=
  if ts.any FVal.isNan || (ts.any (· = .inf false) && ts.any (· = .inf true)) then 0x7FC00000
  else match ts.find? FVal.isInf with
    | some v => fmtF32.infCode v.neg
    | none =>
      match ts.filterMap FVal.log2? with
      | [] => fmtF32.signBit (ts.all FVal.neg)
      | l :: ls =>
        let q := ls.foldl max l - 48
        let n := ts.foldl (fun (n : Int) (t : FVal) => n + t.truncAt q) 0
        (fmtF32.round 0 false ⟨n < 0, n.natAbs, q, false⟩ 0).1

/-- One cell row of the array: column j of an accumulator row after an activation row. -/
def macCell (int : Bool) (a w : List FVal) (c : Nat) : Nat :=
  let ps := (a.zip w).map fun p => mulExact p.1 p.2
  if int then (((c : Int) + ps.foldl (fun (n : Int) (p : FVal) => n + p.truncAt 0) 0) % 2 ^ 32).toNat
  else alignedSum (ps ++ [fmtF32.decode c])

/-- `mac_row`: an accumulator row after an activation row. -/
def macRow (wf : BitVec 5) (weights : List Byte) (a : List FVal) (acc : Lanes) (clear : Bool) : Lanes :=
  lanesOf fun j => BitVec.ofNat 32 (macCell (tileInt wf) a (weightColumn wf weights j) (if clear then 0 else (vat acc j).toNat))

/-! ### The unit's state -/

def State.mx (s : State) (core : Nat) : Matrix := (s.core core).mx
def State.updMx (s : State) (core : Nat) (f : Matrix → Matrix) : State := s.updCore core fun c => { c with mx := f c.mx }

/-- A bank of an accumulator row. -/
def Matrix.dirty (m : Matrix) (bank : Nat) : Bool := if bank = 0 then m.dirty0 else m.dirty1
def Matrix.setDirty (m : Matrix) (bank : Nat) (b : Bool) : Matrix :=
  if bank = 0 then { m with dirty0 := b } else { m with dirty1 := b }
/-- The accumulators read as INT32 (R114). (DEDUCED: log entry 12.) -/
def Matrix.ints (m : Matrix) : Bool := match m.wfmt with
  | some t => tileInt t
  | none => false

/-- The status checks of R119 in their order: the first that fails. -/
def firstBad : List (Bool × Nat) → Option Nat
  | [] => none
  | (b, n) :: r => if b then some n else firstBad r

/-- A local area lies at a multiple of 128 inside the context's claim (R116). -/
def Ctx.area (c : Ctx) (a n : Nat) : Bool := a % 128 = 0 && c.holds a n

/-- Bytes of local scratchpad, and whether a line of them is poisoned. -/
def State.localBytes (s : State) (k a n : Nat) : List Byte × Bool :=
  let claim := (s.ctx k).claim
  let core := coreOf k
  ((List.range n).map fun i => Mem.read s.scratch (arrayByte core claim (a + i)),
    (List.range ((a % 128 + n + 127) / 128)).any fun i => s.scratchPoison.contains (claimLine core claim (a / 128 + i)))

/-- A line of a local area is pending, but for the context's own drains: those ahead of a command are done, and those behind
it come later (R118, R120). -/
def State.localPending (s : State) (k a n : Nat) : Bool :=
  let own := (vat (s.ctx k).cmds 0).flatMap fun m => m.destLines (coreOf k) (s.ctx k).claim
  (List.range ((a % 128 + n + 127) / 128)).any fun i =>
    s.pendingBut own (claimLine (coreOf k) (s.ctx k).claim (a / 128 + i))

/-- A matrix command waits: it comes up again. -/
def State.mxLater (s : State) : State := s.later .matrixCommandExecute

/-! ### Claims (R123) -/

/-- The unit as a successful claim leaves it. -/
def Matrix.claimed (m : Matrix) (k : Nat) : Matrix :=
  { Matrix.idle with owner := some k, claimers := m.claimers.filter (· ≠ k) }

/-- The unit is given up; its undrained results are lost. -/
def Matrix.released (m : Matrix) : Matrix := { Matrix.idle with claimers := m.claimers }

/-- Every `MCLAIM` posts its element. -/
def State.endClaim (s : State) (k : Nat) (c : Cmd) (status : Nat) : State :=
  (s.updCtx k fun x => x.postElem 1 (elem status c.func 0)).dropCmd k 0 c.id

def State.mxClaim (s : State) (k : Nat) (c : Cmd) : State :=
  let core := coreOf k
  let m := s.mx core
  if c.cmd.getLsbD 1 then
    if m.owner = some k then (s.updMx core Matrix.released).endClaim k c 0 else s.endClaim k c 2
  else if m.owner = some k then s.endClaim k c 0
  else if c.cmd.getLsbD 0 then
    if m.owner.isNone then (s.updMx core fun m => m.claimed k).endClaim k c 0 else s.endClaim k c 3
  else if m.owner.isNone && (m.claimers.isEmpty || m.claimers.head? = some k) then
    (s.updMx core fun m => m.claimed k).endClaim k c 0
  else (s.updMx core fun m => { m with claimers := insertNew m.claimers k }).mxLater

/-! ### Loading (R124) -/

def State.mxLoadW (s : State) (k : Nat) (c : Cmd) : State :=
  let t := c.cmd.extractLsb' 0 5
  let n := tileBytes t 32 32
  let a := c.a.toNat
  if !(s.ctx k).area a n then s.complete k 0 c 4 0
  else if s.localPending k a n then s.mxLater
  else
    let r := s.localBytes k a n
    if r.2 then (s.updMx (coreOf k) fun m => { m with wfmt := none, weights := [] }).complete k 0 c 0x0C 0
    else (s.updMx (coreOf k) fun m => { m with wfmt := some t, weights := r.1, wsrc := c.a }).complete k 0 c 0 0

/-- s = round_to(FP32, 256/(hi − lo)), none where lo and hi are not a range or s is not finite and nonzero. -/
def knotScale (lo hi : W32) : Option W32 :=
  match fmtF32.decode lo.toNat, fmtF32.decode hi.toNat with
  | .fin s m e, .fin t n f =>
    let d := addFin 0 t n f (!s) m e
    if d.neg || d.m = 0 then none
    else
      let w := bitLen d.m + 32
      let q := (FRes.num ⟨false, 2 ^ (8 + w) / d.m, -d.e - w, 2 ^ (8 + w) % d.m ≠ 0⟩ 0).put fmtF32 0 false 0
      match fmtF32.decode q.1 with
      | .fin _ (_ + 1) _ => some (BitVec.ofNat 32 q.1)
      | _ => none
  | _, _ => none

def State.mxLoadT (s : State) (k : Nat) (c : Cmd) : State :=
  let bias := c.cmd.getLsbD 0
  let n := if bias then 128 else 514
  let a := c.a.toNat
  let lo := c.b.extractLsb' 0 32
  let hi := c.c.extractLsb' 0 32
  match firstBad [(!bias && (knotScale lo hi).isNone, 0x0B), (!(s.ctx k).area a n, 4)] with
  | some st => s.complete k 0 c st 0
  | none =>
    if s.localPending k a n then s.mxLater
    else
      let r := s.localBytes k a n
      if r.2 then s.complete k 0 c 0x0C 0
      else if bias then (s.updMx (coreOf k) fun m => { m with bias := lanesOfBytes r.1 }).complete k 0 c 0 0
      else
        let ks := (List.range 257).map fun i => BitVec.ofNat 16 (natOfBytes ((r.1.drop (2 * i)).take 2))
        (s.updMx (coreOf k) fun m =>
          { m with knots := some ks, lo := lo, hi := hi, s := (knotScale lo hi).getD 0 }).complete k 0 c 0 0

/-! ### Streams (R125) -/

/-- The fields of an `MSTREAM`. -/
def Cmd.streamFmt (c : Cmd) : BitVec 5 := c.cmd.extractLsb' 6 5
def Cmd.streamFirst (c : Cmd) : Nat := c.b.toNat % 256
def Cmd.streamRows (c : Cmd) : Nat := c.b.toNat / 256 % 256
def Cmd.streamClear (c : Cmd) : Bool := c.cmd.getLsbD 13
def Cmd.streamRing (c : Cmd) : Bool := c.cmd.getLsbD 12
def Cmd.streamAdv (c : Cmd) : Bool := c.cmd.getLsbD 11

/-- The last accumulator row that a stream writes. -/
def Cmd.streamLast (c : Cmd) : Nat :=
  c.streamFirst + (if c.streamRing && c.streamAdv then c.c.toNat else 1) * c.streamRows - 1

/-- The cores of a ring for a size code (R126). -/
def ringCores (code : Nat) : Nat := 2 ^ (code + 1)

/-- The checks of an `MSTREAM` before it runs (R119, R125, R127). -/
def Matrix.streamBad (m : Matrix) (x : Ctx) (c : Cmd) : Option Nat :=
  let t := c.streamFmt
  let f := c.streamFirst
  firstBad [(2 ^ 16 ≤ c.b.toNat, 0x0B), (c.streamRing && m.ringSize = 0, 0x0A),
    (c.streamRows = 0 || 128 < c.streamRows || f / 128 ≠ c.streamLast / 128 ||
      (c.streamRing && (c.c.toNat = 0 || ringCores m.ringSize < c.c.toNat)) || m.dirty (1 - f / 128), 5),
    (m.wfmt.isNone, 7), (m.wfmt.any fun w => tileInt w != tileInt t, 6),
    (!x.area c.a.toNat (tileBytes t c.streamRows c.streamRows), 4)]

/-- Streams rows of a tile into the accumulators from row `base`. -/
def Matrix.streamRows (m : Matrix) (t : BitVec 5) (bs : List Byte) (n base : Nat) (clear : Bool) (rows : List Nat) : Matrix :=
  match m.wfmt with
  | none => m
  | some wf =>
    rows.foldl (fun m r =>
      { m with acc := vput m.acc (base + r) (macRow wf m.weights (activationRow t bs n r) (vat m.acc (base + r)) clear) })
      (m.setDirty (base / 128) (m.dirty (base / 128) || !rows.isEmpty))

/-- The rows of a tile before the first whose bytes or scale come from a poisoned line. -/
def State.goodRows (s : State) (k : Nat) (t : BitVec 5) (a n : Nat) : Nat :=
  let bad := fun r => (s.localBytes k (a + r * tileRow t) (tileRow t)).2 ||
    (tileBlock t && (s.localBytes k (a + n * tileRow t + r) 1).2)
  ((List.range n).find? bad).getD n

/-- A stream without a ring. -/
def State.mxStream (s : State) (k : Nat) (c : Cmd) : State :=
  let core := coreOf k
  match (s.mx core).streamBad (s.ctx k) c with
  | some st => s.complete k 0 c st 0
  | none =>
    let t := c.streamFmt
    let n := c.streamRows
    let a := c.a.toNat
    if s.localPending k a (tileBytes t n n) then s.mxLater
    else
      let good := s.goodRows k t a n
      let bs := (s.localBytes k a (tileBytes t n n)).1
      (s.updMx core fun m => m.streamRows t bs n c.streamFirst c.streamClear (List.range good)).complete k 0 c
        (if good = n then 0 else 0x0C) good

/-! ### The ring (R126, R127) -/

/-- The core at a position of the ring that holds a core. -/
def ringAt (code core p : Nat) : Nat :=
  let k := ringCores code / 2
  let y := core % 1024 / 32
  let x := core % 32
  let y0 := y - y % 2
  let x0 := x - x % k
  core / 1024 * 1024 + if p < k then y0 * 32 + x0 + p else (y0 + 1) * 32 + x0 + (2 * k - 1 - p)

/-- The position of a core in its ring. -/
def ringPos (code core : Nat) : Nat :=
  let k := ringCores code / 2
  let x := core % 32
  if core % 1024 / 32 % 2 = 0 then x % k else 2 * k - 1 - x % k

def ringNext (code core : Nat) : Nat := ringAt code core ((ringPos code core + 1) % ringCores code)
def ringPrev (code core : Nat) : Nat := ringAt code core ((ringPos code core + ringCores code - 1) % ringCores code)

/-- Computes the rows of the step at which a ring stream stands. -/
def Matrix.ringStep (m : Matrix) (c : Cmd) (r : RingRun) : Matrix :=
  let j := r.step
  m.streamRows c.streamFmt r.tile.bytes c.streamRows (c.streamFirst + if c.streamAdv then j * c.streamRows else 0)
    (c.streamClear && (c.streamAdv || j = 0)) (List.range c.streamRows)

/-- Ends a ring stream. Tiles that have arrived and have not been used stay in the operand latch, for the core's next ring
stream. (DESIGN CHOICE: log entry 123.) -/
def State.ringEnd (s : State) (k : Nat) (c : Cmd) (status steps : Nat) : State :=
  (s.updMx (coreOf k) fun m => { m with running := none }).complete k 0 c status steps

/-- Begins a ring stream: the rows at src are the first tile. Where one of them is poisoned the rows before it are computed,
no step is completed, and COUNT is 0. (DESIGN CHOICE: log entry 124.) -/
def State.ringBegin (s : State) (k : Nat) (c : Cmd) : State :=
  let core := coreOf k
  let m := s.mx core
  match m.streamBad (s.ctx k) c with
  | some st => s.complete k 0 c st 0
  | none =>
    let t := c.streamFmt
    let n := c.streamRows
    let a := c.a.toNat
    if s.localPending k a (tileBytes t n n) then s.mxLater
    else
      let good := s.goodRows k t a n
      let bs := (s.localBytes k a (tileBytes t n n)).1
      if good ≠ n then
        (s.updMx core fun m => m.streamRows t bs n c.streamFirst c.streamClear (List.range good)).complete k 0 c 0x0C 0
      else
        let run : RingRun := ⟨0, ⟨n, t, c.c.toNat, m.ringSize, bs⟩, false, s.cycles⟩
        let s := s.updMx core fun m => { m.ringStep c run with running := some run }
        if c.c.toNat = 1 then s.ringEnd k c 0 1
        else
          ((s.cause .ringHandover { core := ringNext m.ringSize core }).cause .ringTimeout { core := core, k := k, id := c.id }).mxLater

/-- A ring stream that has handed its tile on takes the next one from its latch. (DEDUCED: log entry 110.) -/
def State.ringGoOn (s : State) (k : Nat) (c : Cmd) (r : RingRun) : State :=
  let core := coreOf k
  let m := s.mx core
  match r.sent, m.latch with
  | true, t :: ts =>
    if (t.rows, t.fmt, t.steps, t.size) ≠ (c.streamRows, c.streamFmt, c.c.toNat, m.ringSize) then
      (s.updMx core fun m => { m with latch := ts }).ringEnd k c 8 (r.step + 1)
    else
      let run : RingRun := ⟨r.step + 1, t, false, s.cycles⟩
      let s := s.updMx core fun m => { ({ m with latch := ts }).ringStep c run with running := some run }
      if run.step + 1 = c.c.toNat then s.ringEnd k c 0 c.c.toNat
      else (s.cause .ringHandover { core := ringNext m.ringSize core }).mxLater
  | _, _ => s.mxLater

/-- The predecessor of a core in its ring of a size waits to send it a tile. -/
def State.ringSends (s : State) (core z : Nat) : Bool :=
  let p := s.mx (ringPrev z core)
  p.ringSize = z && p.running.any fun r => !r.sent && r.step + 1 < r.tile.steps

/-- A tile arrives from the ring predecessor into the operand latch of core `ev.core`, which must be in a ring
configured alike, with an owner and a free half (R127). The predecessor's wait to send ends, and its wait to receive begins. -/
def execRingHandover (s : State) : Out :=
  let core := s.ev.core
  let m := s.mx core
  let z := m.ringSize
  if z ≠ 0 && s.ringSends core z && m.owner.isSome && m.latch.length < 2 && !s.coreLost core then
    match (s.mx (ringPrev z core)).running with
    | none => .next s
    | some r =>
      .next ((s.updMx core fun m => { m with latch := m.latch ++ [r.tile] }).updMx (ringPrev z core) fun p =>
        { p with running := some { r with sent := true, since := s.cycles } })
  else if [1, 2, 3, 4, 5].any (s.ringSends core) then .next (s.later .ringHandover)
  else .next s

/-- A send or a receive that has waited 2^20 core cycles ends the command (R127); a tile that has arrived ends the wait. -/
def execRingTimeout (s : State) : Out :=
  let k := s.ev.k
  let m := s.mx s.ev.core
  match m.running, s.cmd? k 0 s.ev.id with
  | some r, some c =>
    if s.cycles - r.since < 2 ^ 20 || (r.sent && !m.latch.isEmpty) then .next (s.later .ringTimeout)
    else
      let t := s.ringEnd k c 9 (r.step + 1)
      if t.fits k 1 then .next t else .next (s.later .ringTimeout)
  | _, _ => .next s

/-! ### Drains (R128, R129) -/

/-- The format of a float output. -/
def drainFmt (f : Nat) : Fmt := match f with
  | 1 => fmtBF16
  | 2 => fmtE4M3
  | 3 => fmtE5M2
  | _ => fmtF32

/-- Rounds RNE into a format, saturated, with the canonical NaN. -/
def drainFloat (f : Fmt) : FVal → Nat
  | .nan _ _ _ => f.nanCode false 0x400000
  | .inf s => f.signBit s + f.maxCode
  | .fin s m e => (f.round 0 true ⟨s, m, e, false⟩ 0).1

/-- Rounds RNE into INT8: NaN gives 0, and the rest is clamped. -/
def drainInt8 (v : FVal) : Nat := ((toInteger 0 true 8 v 0).1 % 256).toNat

/-- A result in FP32 with RNE. -/
def toF32 (r : FRes) : Nat := (r.put fmtF32 0 false 0).1

/-- The knot table's value at x (R129). -/
def knotEval (ks : List Half) (lo hi sc : W32) (x : Nat) : Nat :=
  let v := fmtF32.decode x
  let l := fmtF32.decode lo.toNat
  let h := fmtF32.decode hi.toNat
  let kn := fun i => fmtF16.decode (ks.getD i 0).toNat
  let out := fun (v : FVal) => (FRes.val v 0).put fmtF32 0 false 0 |>.1
  if v.isNan then out v
  else if !l.lt v then out (kn 0)
  else if !v.lt h then out (kn 256)
  else
    let d := toF32 (opSub 0 v l)
    let u := fmtF32.decode (toF32 (opMul (fmtF32.decode d) (fmtF32.decode sc.toNat)))
    let k := match u with
      | .fin _ m e => min (if 0 ≤ e then m * 2 ^ e.toNat else m / 2 ^ (-e).toNat) 255
      | _ => 255
    let f := match u with
      | .fin s m e =>
        let r := addFin 0 s m e true k 0
        FVal.fin r.neg r.m r.e
      | w => w
    let dk := fmtF32.decode (toF32 (opSub 0 (kn (k + 1)) (kn k)))
    toF32 (opFma 0 f dk (kn k))

/-- The element of a drained row before its format, exact: column j of an accumulator row through the stages. -/
def Matrix.drainElem (m : Matrix) (c : Cmd) (acc : Lanes) (j : Nat) : FVal :=
  let a := (vat acc j).toNat
  let x := if m.ints then toF32 (.num (exactOfInt (ivalOf true 32 a)) 0) else a
  let x := if c.cmd.getLsbD 13 then toF32 (opAdd 0 (fmtF32.decode x) (fmtF32.decode (vat m.bias j).toNat)) else x
  let x := if c.cmd.getLsbD 12 then knotEval (m.knots.getD []) m.lo m.hi m.s x else x
  let sc := if c.cmd.getLsbD 11 then c.b.toNat % 2 ^ 32 else 0x3F800000
  mulExact (fmtF32.decode x) (fmtF32.decode sc)

/-- The bytes of a drained row, and the scale byte of an N4X row. -/
def Matrix.drainRowBytes (m : Matrix) (c : Cmd) (f : Nat) (acc : Lanes) : List Byte × List Byte :=
  let y := m.drainElem c acc
  match f with
  | 6 => ((List.range 32).flatMap fun j => bytesOfNat 4 (vat acc j).toNat, [])
  | 4 => ((List.range 32).map fun j => BitVec.ofNat 8 (drainInt8 (y j)), [])
  | 5 =>
    let xs := (List.range 32).map fun j => fmtF32.decode (match y j with
      | .fin s a e => toF32 (.num ⟨s, a, e, false⟩ 0)
      | v => toF32 (.val v 0))
    let q := quantise 0x13 0 xs ⟨1, 0⟩
    ((List.range 16).map fun i => BitVec.ofNat 8 (q.2.1.getD (2 * i) 0 + 16 * q.2.1.getD (2 * i + 1) 0), [BitVec.ofNat 8 q.1])
  | _ => ((List.range 32).flatMap fun j => bytesOfNat ((drainFmt f).width / 8) (drainFloat (drainFmt f) (y j)), [])

/-- Writes bytes of local scratchpad; lines written in full lose their poison (R324). -/
def State.writeLocal (s : State) (k a : Nat) (bs : List Byte) : State :=
  s.landScratch (bs.zipIdx.map fun b => (arrayByte (coreOf k) (s.ctx k).claim (a + b.2), b.1))

def State.mxDrain (s : State) (k : Nat) (c : Cmd) : State :=
  let core := coreOf k
  let m := s.mx core
  let f := c.cmd.toNat / 2 ^ 8 % 8
  let bank := c.cmd.toNat / 2 ^ 7 % 2
  let n := c.cmd.toNat % 128 + 1
  let c0 := c.c.toNat
  match firstBad [((c.cmd.getLsbD 12 && m.knots.isNone) || (f = 6 && !m.ints), 0x0B), (128 < c0 + n, 5),
      (!(s.ctx k).area c.a.toNat c.drainBytes, 4)] with
  | some st => s.complete k 0 c st 0
  | none =>
    let rows := (List.range n).map fun i => m.drainRowBytes c f (vat m.acc (128 * bank + c0 + i))
    let s := s.writeLocal k c.a.toNat (rows.flatMap (·.1) ++ rows.flatMap (·.2))
    (s.updMx core fun m => m.setDirty bank false).complete k 0 c 0 n

/-! ### Leaving and returning (R38, R309) -/

/-- The unit of a context that moves to a shadow slot: the bank with undrained results is written to the matrix image,
the state is kept and the unit is given up. (DEDUCED: log entry 67; DEDUCED: log entry 68.) -/
def State.saveMx (s : State) (k : Nat) : State :=
  let core := coreOf k
  let m := s.mx core
  let base := (s.core core).mximage.toNat
  let rows := if m.dirty0 then List.range 128 else if m.dirty1 then (List.range 128).map (· + 128) else []
  let s := rows.zipIdx.foldl (fun s r =>
    s.engWrite (dieOf core) (.mem (base + 128 * r.2)) ((vat m.acc r.1).toList.flatMap fun l => bytesOfNat 4 l.toNat) false) s
  (s.updMx core Matrix.released).updCtx k fun c => { c with mxSaved := some m }

/-- The claim of a context that has come back: the bank is read from the image and the weights from their tile. -/
def State.reloadMx (s : State) (k : Nat) (m : Matrix) : State :=
  let core := coreOf k
  let base := (s.core core).mximage.toNat
  let row := fun i => lanesOfBytes (s.engRead (.mem (base + 128 * i)) 128).1
  let acc := Vector.ofFn fun (i : Fin 256) =>
    if m.dirty0 && i.val < 128 then row i.val else if m.dirty1 && 128 ≤ i.val then row (i.val - 128) else zeroLanes
  let w := match m.wfmt with
    | some t => if (s.ctx k).area m.wsrc.toNat (tileBytes t 32 32) then some (s.localBytes k m.wsrc.toNat (tileBytes t 32 32)) else none
    | none => none
  let m := { m with owner := some k, acc := acc, latch := [], running := none
                    wfmt := match w with | some (_, false) => m.wfmt | _ => none
                    weights := match w with | some (bs, false) => bs | _ => [] }
  (s.updMx core fun n => { m with claimers := n.claimers.filter (· ≠ k) }).updCtx k fun c => { c with mxSaved := none }

/-- A command of Q0 is executed (R118, R119): every command but `MCLAIM` needs ownership. -/
def State.mxRun (s : State) (k : Nat) (c : Cmd) : State :=
  let m := s.mx (coreOf k)
  if c.fn = 0x10 then s.mxClaim k c
  else if m.owner ≠ some k then s.complete k 0 c 2 0
  else match c.fn with
    | 0x11 => s.mxLoadW k c
    | 0x12 => s.mxLoadT k c
    | 0x13 =>
      if !c.streamRing then s.mxStream k c
      else match m.running with
        | none => s.ringBegin k c
        | some r => s.ringGoOn k c r
    | 0x14 => s.mxDrain k c
    | _ => (s.updMx (coreOf k) fun m => { m with ringSize := c.cmd.toNat % 8 }).complete k 0 c 0 0

/-- The matrix unit executes the next command of a context. One whose element finds no room in Q1 is not finished (R119). -/
def execMatrixCommandExecute (s : State) : Out :=
  let k := s.ev.k
  let m := s.mx (coreOf k)
  if k ≥ 32768 then .next s.mxLater
  else match (s.ctx k).mxSaved with
  | some v =>
    if m.owner.isNone && (m.claimers.isEmpty || m.claimers.head? = some k) then
      .next (if s.ev.n = 1 then s.reloadMx k v else (s.reloadMx k v).mxLater)
    else .next (s.updMx (coreOf k) fun m => { m with claimers := insertNew m.claimers k }).mxLater
  | none =>
  match s.cmd? k 0 s.ev.id with
  | none => .next s
  | some c =>
    let t := s.mxRun k c
    if t.fits k 1 then .next t else .next s.mxLater

/-! ### Results (R28, R159, R171) -/

/-- The end of the local scratchpad addresses that a command of context k reads or writes, 0 where it touches none. -/
def Cmd.localEnd (c : Cmd) (k : Nat) : Nat :=
  let rows := c.rowsOf
  let ext := fun (p : Nat) => (rows.rows - 1) * p + rows.bytes
  if c.barq then 0
  else match c.fn with
    | 0x00 | 0x01 =>
      max (if c.cmd.getLsbD 1 then c.a.toNat + ext rows.dp else 0) (if c.cmd.getLsbD 0 then c.b.toNat + ext rows.sp else 0)
    | 0x02 => max c.b.toNat c.c.toNat + 4 * (c.cmd.toNat % 4096 + 1)
    | 0x03 => match regionOf c.a with
      | .remote d sl a => if keyOf d sl = k then a + c.b.toNat / 2 ^ 32 % 2 ^ 17 else 0
      | _ => 0
    | 0x08 => c.b.toNat + 4 * (c.c.toNat % 2 ^ 32)
    | 0x11 => c.a.toNat + tileBytes (c.cmd.extractLsb' 0 5) 32 32
    | 0x12 => c.a.toNat + if c.cmd.getLsbD 0 then 128 else 514
    | 0x13 => c.a.toNat + tileBytes c.streamFmt c.streamRows c.streamRows
    | 0x14 => c.a.toNat + c.drainBytes
    | _ => 0

/-- An engine still reads or writes the highest n ways of a context's claim: for a command that is neither held nor waiting
on a guard, for the landing of a notice, or for a palimpsest copy (R171). (DEDUCED: log entry 126.) -/
def State.waysBusy (s : State) (k n : Nat) : Bool :=
  let c := s.ctx k
  let low := 32768 * (c.claim.length - n)
  let ws := (c.claim.drop (c.claim.length - n)).map fun w => coreOf k * 8 + w
  (c.cmds.toList.any fun l => l.any fun m => !m.onGuard && !m.held && low < m.localEnd k) ||
    (c.ring.any fun r => r.allocs.any fun a => a.token.isNone && low < r.base + 128 * (a.line + a.lines)) ||
    s.palCopies.any fun p => p.k = k && p.lines.any fun l =>
      (l.1.1 && ws.contains (l.1.2 / 32768)) || (l.2.1 && ws.contains (l.2.2 / 32768))

/-- A result lands, after the stores that come before it (R159). The result of `SPREL` waits for what its ways are still used
for and then gives them up (R171). -/
def execLongLatencyResult (s : State) : Out :=
  let k := s.ev.k
  match (s.ctx k).results.find? fun q => q.id = s.ev.id with
  | none => .next s
  | some q =>
    if (s.ctx k).stores.any (fun p => q.after.contains p.id) || (q.ways ≠ 0 && s.waysBusy k q.ways) then
      .next (s.later .longLatencyResult)
    else
      let ws := (s.ctx k).claim.drop ((s.ctx k).claim.length - q.ways)
      let s := if q.ways = 0 then s else
        (s.unpinWays (coreOf k) ws).updCtx k fun c => { c with claim := c.claim.take (c.claim.length - q.ways) }
      .next (s.updCtx k fun c => { c with r := c.r.apply q, results := c.results.filter fun x => x.id ≠ q.id })

end Sys2Proof.Machine
end

