-- ==== Sys2Proof/Machine/Barriers.lean ====
section
/-! DEFINITION. Major 0x25: barrier objects (R278, R285 to R288), with the arrivals that the copy engine makes and the
wake of a `BARWAIT`. -/

namespace Sys2Proof.Machine

/-- Majors 0x24 and 0x25 inside a speculative transaction: capacity, before any effect (R278). (DEDUCED: log entry 98.) -/
def State.outsideTx (s : State) (f : Done) : Done := if s.th.speculative then .abort 2 0 else f

/-! ### Objects and phases (R285) -/

/-- What a phase number is to a barrier. -/
inductive Phase where
  | opened
  | completed
  | ahead
  deriving DecidableEq, Repr

def Barrier.phase (b : Barrier) (n : W32) : Phase :=
  let δ := (n - b.p).toNat
  if δ ≤ 3 then .opened else if 2 ^ 31 ≤ δ then .completed else .ahead

/-- An arrival at an open phase, given by its residue, which completes phases while it can (R287). -/
def Barrier.complete (b : Barrier) : Nat → Barrier
  | 0 => b
  | n + 1 => if vat b.a (b.p.toNat % 4) = b.e then
      ({ b with a := vput b.a (b.p.toNat % 4) 0, p := b.p + 1 } : Barrier).complete n
    else b

def Barrier.arrive (b : Barrier) (r : Nat) : Barrier := ({ b with a := vput b.a r (vat b.a r + 1) } : Barrier).complete 4

/-- A barrier by die and object. -/
def State.barrier? (s : State) (d o : Nat) : Option Barrier := Tbl.get? (s.die d).barriers o
def State.setBarrier (s : State) (d o : Nat) (b : Barrier) : State :=
  s.updDie d fun v => { v with barriers := Tbl.set v.barriers o b }

/-- A handle is well formed: [63:13] 0; its die and its object. -/
def handleOf (h : Word) : Option (Nat × Nat) := if h.toNat < 2 ^ 13 then some (h.toNat / 2048, h.toNat % 2048) else none

/-- The barrier that a handle names in an address space. -/
def State.barrierOf (s : State) (asid : BitVec 12) (h : Word) : Option (Nat × Nat × Barrier) :=
  match handleOf h with
  | none => none
  | some (d, o) => match s.barrier? d o with
    | some b => if b.asid = asid then some (d, o, b) else none
    | none => none

/-- Wakes every context that waits at a barrier. -/
def State.wakeBarrier (s : State) (d o : Nat) : State :=
  s.ctxs.foldl (fun s e => match e.2.run with
    | .barwait d' o' _ => if d' = d && o' = o then s.causeOnce .barwaitWake { k := e.1 } else s
    | _ => s) s

/-- Performs an arrival at a phase given by its residue. -/
def State.arriveAt (s : State) (d o : Nat) (b : Barrier) (r : Nat) : State :=
  let s := s.setBarrier d o (b.arrive r)
  if (b.arrive r).p = b.p then s else s.wakeBarrier d o

/-- Runs a barrier instruction on the object of its handle. (DEDUCED: log entry 99.) -/
def State.onBarrier (s : State) (h : Word) (f : Nat → Nat → Barrier → Done) : Done :=
  match handleOf h with
  | none => .trap .barrierOperand 1
  | some (d, o) =>
    if s.isDead (.folio d) then .blot
    else match s.barrierOf s.th.asid h with
      | none => .trap .barrierOperand 1
      | some (_, _, b) => f d o b

/-! ### Major 0x25 -/

/-- The objects of a die that are free. -/
def Die.freeBarriers (v : Die) : List Nat := (List.range 2048).filter fun o => (Tbl.get? v.barriers o).isNone

/-- The free object that `BARINIT` takes is a function of the die's free objects (R2). (DESIGN CHOICE: log entry 22.) -/
def execBarinit (r : R3) (s : State) : Out :=
  s.whole r.sel r.neg [sx r.a r.am] [dx r.d] fun s => s.outsideTx <|
    let e := (s.x r.a).toNat
    let free := (s.die s.myDie).freeBarriers
    if e = 0 || 65536 ≤ e then .next (s.setX r.d 0x8000000000000002)
    else match free with
      | [] => .next (s.setX r.d 0x8000000000000001)
      | o :: _ =>
        let o := free.getD (Config.freeBarrier free % free.length) o
        .next ((s.setBarrier s.myDie o ⟨s.th.asid, e, 0, Vector.replicate 4 0⟩).setX r.d
          (BitVec.ofNat 64 (s.myDie * 2048 + o)))

/-- The arrival is a release (R287); it is none of the instructions that report a failed remote store (R169). -/
def execBararr (r : R3) (s : State) : Out :=
  s.whole r.sel r.neg [sx r.a r.am, sx r.b r.bm] [] fun s => s.outsideTx <| s.drained? <|
    s.onBarrier (s.x r.a) fun d o b =>
      let n := (s.x r.b).setWidth 32
      match b.phase n with
      | .ahead => .trap .barrierAhead (n.zeroExtend 64)
      | .completed => .trap .barrierOperand 2
      | .opened =>
        if b.e ≤ vat b.a (n.toNat % 4) then .trap .barrierOperand 3
        else .next (s.arriveAt d o b (n.toNat % 4))

def execBarwait (r : R3) (s : State) : Out :=
  s.whole r.sel r.neg [sx r.a r.am, sx r.b r.bm] [dx r.d] fun s => s.outsideTx <|
    s.onBarrier (s.x r.a) fun d o b =>
      let n := (s.x r.b).setWidth 32
      match b.phase n with
      | .ahead => .trap .barrierAhead (n.zeroExtend 64)
      | .completed => .next (s.setX r.d 1)
      | .opened =>
        if r.mod.getLsbD 0 || s.th.woken then .next (s.setX r.d 0)
        else .wait ((s.updTh fun c => { c with waitSince := some s.gt }).cause .barwaitWake { k := s.cur }) (.barwait d o n)

def execBarfree (r : R3) (s : State) : Out :=
  s.whole r.sel r.neg [sx r.a r.am] [dx r.d] fun s => s.outsideTx <|
    s.onBarrier (s.x r.a) fun d o b =>
      if b.a.toList.any (· ≠ 0) then .next (s.setX r.d 0x8000000000000003)
      else .next (((s.updDie d fun v => { v with barriers := Tbl.erase v.barriers o }).wakeBarrier d o).setX r.d 0)

def execBarq (r : R3) (s : State) : Out :=
  s.whole r.sel r.neg [sx r.a r.am, sx r.b r.bm] [] fun s => s.outsideTx <|
    s.push 2 false { id := 0, fn := 0x04, barq := true, cmd := 0, a := s.x r.a, b := s.x r.b, c := 0, reg := 0
                     bound := .free, held := false, started := false, done := 0, tally := [] }

/-! ### Arrivals without a thread, and wakes -/

/-- The copy engine performs a queued arrival, once every earlier command of the view has completed (R287). -/
def execBarqArrival (s : State) : Out :=
  let k := s.ev.k
  match s.cmd? k 2 s.ev.id with
  | none => .next s
  | some c =>
    let earlier := (vat (s.ctx k).cmds 2).takeWhile fun m => m.id ≠ c.id
    if earlier.any fun m => m.done = 0 then .next (s.later .barqArrival)
    else
      let t := match s.barrierOf (s.ctx k).asid c.a with
        | none => s.complete k 2 c 0x0B 0
        | some (d, o, b) =>
          let n := c.b.setWidth 32
          if s.isDead (.folio d) then s.complete k 2 c 0x0C 0
          else if b.phase n ≠ .opened || b.e ≤ vat b.a (n.toNat % 4) then s.complete k 2 c 0x0B 0
          else (s.arriveAt d o b (n.toNat % 4)).complete k 2 c 0 0
      if t.fits k 3 then .next t else .next (s.later .barqArrival)

/-- A waiting `BARWAIT` looks again (R288). -/
def execBarwaitWake (s : State) : Out :=
  match (s.ctx s.ev.k).run with
  | .barwait _ _ _ => .next (s.updCtx s.ev.k fun c => { c with run := .running, woken := true })
  | _ => .next s

/-- The arrival of a completed message (R257): the BARRIER field of its buffer, checked against the poster's
address space; an arrival that is not valid is dropped. -/
def State.engineArrival (s : State) (asid : BitVec 12) (field : BitVec 32) : State :=
  if !field.getLsbD 15 then s
  else
    let h := field.toNat % 2 ^ 13
    let r := field.toNat / 2 ^ 13 % 4
    match s.barrierOf asid (BitVec.ofNat 64 h) with
    | none => s
    | some (d, o, b) => if s.isDead (.folio d) || b.e ≤ vat b.a r then s else s.arriveAt d o b r

end Sys2Proof.Machine
end

