-- ==== Sys2Proof/Machine/Transport.lean ====
section
/-! DEFINITION. The on-package transport engine (R249 to R258): transport commands, posted buffers, arriving packets,
completion, and the congestion table. What the network and the remote end do comes with the steps of the device. -/

namespace Sys2Proof.Machine

/-! ### Source lines (R252) -/

/-- The lines of n bytes at a physical address. -/
def linesIn (pa n : Nat) : List Nat := (List.range ((pa % 128 + n + 127) / 128)).map fun i => pa / 128 + i

/-- The pieces of n bytes at an address, line by line. -/
def lineChunks (a n : Nat) : List (Nat × Nat) :=
  (List.range ((a % 128 + n + 127) / 128)).map fun i =>
    let lo := max a ((a / 128 + i) * 128)
    (lo, min (a + n) ((a / 128 + i + 1) * 128) - lo)

/-- The places of pieces as a context's command reads them, up to the first that faults. -/
def State.chunkPlaces (s : State) (k : Nat) : List (Nat × Nat) → State × List (EPlace × Nat) × Bool
  | [] => (s, [], false)
  | c :: cs =>
    match s.engPlace k false .load c.1 with
    | (s, .error _) => (s, [], true)
    | (s, .ok p) =>
      let r := s.chunkPlaces k cs
      (r.1, (p, c.2) :: r.2.1, r.2.2)

/-- Reads pieces up to the first that cannot be read: the bytes, and the status that it gives: POISON, or TIMEOUT where a dead
agent would answer (R252, R328). -/
def State.readChunks (s : State) : List (EPlace × Nat) → List Byte × Nat
  | [] => ([], 0)
  | c :: cs =>
    let v := s.engRead c.1 c.2
    if (memLines [c.1]).any s.lineDead then ([], 0x12)
    else if v.2 then ([], 0x0C)
    else
      let r := s.readChunks cs
      (v.1 ++ r.1, r.2)

/-! ### Transmitting (R250 to R253) -/

/-- LEN and DEST of a descriptor. -/
def Cmd.sendLen (c : Cmd) : Nat := c.b.toNat % 2 ^ 32
def Cmd.dest (c : Cmd) : Nat := c.b.toNat / 2 ^ 32 % 4096

/-- The status of a transmit whose operands break a limit (R250, R251). (DEDUCED: log entry 51.) -/
def State.sendBad (s : State) (k : Nat) (c : Cmd) : Option Nat :=
  let e := s.endpoint (s.ctx k).asid.toNat c.dest
  firstBad [(2 ^ 44 ≤ c.b.toNat || (c.fn = 0x19 && c.c.extractLsb' 40 12 ≠ 0), 0x0B),
    (c.sendLen = 0 || 2 ^ 30 < c.sendLen, 0x05),
    (!translatedRange c.a.toNat c.sendLen, 0x04),
    (!e.valid || (c.cmd.getLsbD 1 && !e.rod), 0x10)]

/-- Sends a message: its lines are read once, `ev.found` being what the check of `ev.line` finds, and it then waits for the
remote end. Where sending stops, INFO is the
number of bytes acknowledged by then, which the event brings. (DEDUCED: log entry 100.) -/
def State.transmit (s : State) (k : Nat) (c : Cmd) : State :=
  match s.sendBad k c with
  | some st => s.complete k 8 c st 0
  | none =>
    let p := s.chunkPlaces k (lineChunks c.a.toNat c.sendLen)
    let s' := { p.1 with ev := s.ev }
    match s'.engNeeds k false (memLines (p.2.1.map (·.1))) with
    | some t => { t with ev := s.ev }.later .engineCommandComplete
    | none =>
      let ls := memLines (p.2.1.map (·.1))
      let s' := s'.engServe k (s.ctx k).asid false ls
      let s' := if ls.contains s.ev.line && s.paKind (s.ev.line * 128) = .memory then
        s'.findError (homeDie (s.ev.line * 128)) s.ev.line true s.ev.found else s'
      let r := s'.readChunks p.2.1
      if p.2.2 || r.2 ≠ 0 then s'.complete k 8 c (if r.2 ≠ 0 then r.2 else 0x0D) (min s.ev.value.toNat r.1.length)
      else
        let t : Transmit := ⟨k, (s.ctx k).asid.toNat * 4096 + c.dest,
          (s.endpoint (s.ctx k).asid.toNat c.dest).job, c.cmd.getLsbD 1, r.1, none, 0⟩
        ((s'.updOte fun o => { o with transmits := Tbl.set o.transmits c.id t }).cause .transmitAck
          { k := k, id := c.id }).causeOnce .engineCommandStart { k := k, q := 8 }

/-- Ends a transmit. -/
def State.endTransmit (s : State) (k id status info : Nat) : State :=
  let s := s.updOte fun o => { o with transmits := Tbl.erase o.transmits id }
  match s.cmd? k 8 id with
  | none => s
  | some c => s.complete k 8 c status info

/-- Runs a step on a transmit that is not complete. A step whose element finds no room in Q9 comes up again (R224). -/
def State.onTransmit (s : State) (i : Instr) (f : Transmit → State) : Out :=
  match Tbl.get? s.ote.transmits s.ev.id with
  | none => .next s
  | some t => if (f t).fits t.k 9 then .next (f t) else .next (s.later i)

/-- A message under ROD is behind an earlier one to the same destination that is not complete (R252). (DEDUCED: log
entry 125.) -/
def State.rodBehind (s : State) (t : Transmit) : Bool :=
  t.rod && s.ote.transmits.any fun e => e.1 < s.ev.id && e.2.rod && e.2.dest = t.dest

/-- The remote end answers a message (R252 to R256). `ev.n` 0: it has acknowledged every packet; 2, 3, 4: it refuses it
for that reason; 5: a packet failed its check three times. (DESIGN CHOICE: log entry 101.) -/
def execTransmitAck (s : State) : Out :=
  s.onTransmit .transmitAck fun t =>
    if s.rodBehind t then s.later .transmitAck
    else match s.ev.n with
    | 0 => s.endTransmit t.k s.ev.id 0 t.bytes.length
    | 5 => s.endTransmit t.k s.ev.id 0x13 (min s.ev.value.toNat t.bytes.length)
    | n => if 2 ≤ n && n ≤ 4 then s.endTransmit t.k s.ev.id 0x11 n else s

/-- A packet is sent again as its lines were read, or a send whose receiver reports no matching buffer (`ev.n` 1) is
tried again after a backoff (R252). -/
def execRetransmission (s : State) : Out :=
  match Tbl.get? s.ote.transmits s.ev.id with
  | none => .next s
  | some t =>
    let since := if s.ev.n = 1 then some (t.since.getD s.gt) else t.since
    .next (s.updOte fun o => { o with transmits := Tbl.set o.transmits s.ev.id { t with since := since, resends := t.resends + 1 } })

/-- After 1,000,000 ns without a matching buffer the send completes with REMOTE_ERROR, reason 1 (R252). -/
def execRemoteErrorTimeout (s : State) : Out :=
  s.onTransmit .remoteErrorTimeout fun t =>
    match t.since with
    | none => s
    | some g => if g + 1000000 ≤ s.gt then s.endTransmit t.k s.ev.id 0x11 1 else s

/-- The retransmission limit is reached (R253). -/
def execRetransmissionTimeout (s : State) : Out :=
  s.onTransmit .retransmissionTimeout fun t => s.endTransmit t.k s.ev.id 0x12 (min s.ev.value.toNat t.bytes.length)

/-! ### Posting buffers (R254) -/

/-- The buffer that the 64 bytes of a post record describe, none where the record breaks a limit, as one whose buffer or CWORD lies
outside the translated range does; pages and CWORD are not translated yet. (DESIGN CHOICE: log entry 150.) -/
def bufferOf (bs : List Byte) (poster order : Nat) : Option Buffer :=
  let at' := fun o n => natOfBytes ((bs.drop o).take n)
  let base := at' 0 8
  let len := at' 8 8
  let cword := at' 16 8
  let bar := at' 0x30 4
  let hcore := at' 0x34 2
  let flags := at' 0x36 2
  if 2 ^ 48 ≤ base || len = 0 || 2 ^ 40 < len || cword % 8 ≠ 0 || 2 ^ 16 ≤ bar || 2 ^ 12 ≤ hcore || 8 ≤ flags || at' 0x38 8 ≠ 0 ||
      !translatedRange base len || !translatedRange cword 8 then none
  else some { base := BitVec.ofNat 64 base, len := len, cword := BitVec.ofNat 64 cword, tag := BitVec.ofNat 64 (at' 0x18 8)
              ignore := BitVec.ofNat 64 (at' 0x20 8), handler := BitVec.ofNat 64 (at' 0x28 8), barrier := BitVec.ofNat 32 bar
              hcore := hcore, flags := BitVec.ofNat 16 flags, pages := [], cwordPa := 0, poster := poster, order := order
              taken := none }

def Buffer.window (b : Buffer) : Bool := b.flags.getLsbD 0
def Buffer.tagged (b : Buffer) : Bool := b.flags.getLsbD 1
def Buffer.recorded (b : Buffer) : Bool := b.flags.getLsbD 2

/-- The physical pages of addresses that the OTE will write; none where one faults. -/
def State.pagesOf (s : State) (k : Nat) : List Nat → State × Option (List Nat)
  | [] => (s, some [])
  | a :: as =>
    match s.engPlace k false .store a with
    | (s, .ok (.mem pa)) =>
      let r := s.pagesOf k as
      (r.1, r.2.map (pa / 4096 * 4096 :: ·))
    | (s, _) => (s, none)

/-- Translates the pages of a buffer and its CWORD. -/
def State.translateBuffer (s : State) (k : Nat) (b : Buffer) : State × Option Buffer :=
  let first := b.base.toNat / 4096
  let n := (b.base.toNat % 4096 + b.len + 4095) / 4096
  let r := s.pagesOf k ((List.range n).map fun i => (first + i) * 4096)
  match r.2 with
  | none => (r.1, none)
  | some ps =>
    if b.cword = 0 then (r.1, some { b with pages := ps })
    else match r.1.engPlace k false .atomic b.cword.toNat with
      | (s, .ok (.mem pa)) => (s, some { b with pages := ps, cwordPa := pa })
      | (s, _) => (s, none)

def bufferKey (asid : BitVec 12) (n : Nat) : Nat := asid.toNat * 4096 + n

/-- `NPOST` with a record that has been read. Buffers are in post order as they are installed (R255). -/
def State.install (s : State) (k : Nat) (c : Cmd) (bs : List Byte) : State :=
  let n := c.b.toNat % 4096
  let asid := (s.ctx k).asid
  match bufferOf bs k s.nextId with
  | none => s.complete k 8 c 0x0B n
  | some b =>
    if b.handler ≠ 0 && !s.executable b.hcore asid b.handler then s.complete k 8 c 0x0B n
    else match s.translateBuffer k b with
      | (s, none) => s.complete k 8 c 0x0D n
      | (s, some b) =>
        (s.newId.updOte fun o => { o with buffers := Tbl.set o.buffers (bufferKey asid n) b }).complete k 8 c 0 n

/-- `NPOST` (R254). (DEDUCED: log entry 105; DESIGN CHOICE: log entry 151.) -/
def State.postBuffer (s : State) (k : Nat) (c : Cmd) : State :=
  let n := c.b.toNat % 4096
  if 4096 ≤ c.b.toNat then s.complete k 8 c 0x0B n
  else if c.a.toNat % 64 ≠ 0 || !translatedRange c.a.toNat 64 then s.complete k 8 c 0x04 n
  else if (Tbl.get? s.ote.buffers (bufferKey (s.ctx k).asid n)).isSome then s.complete k 8 c 0x03 n
  else match s.engPlace k false .load c.a.toNat with
    | (s', .error _) => { s' with ev := s.ev }.complete k 8 c 0x0D n
    | (s', .ok p) =>
      match { s' with ev := s.ev }.engNeeds k false (memLines [p]) with
      | some t => { t with ev := s.ev }.later .engineCommandComplete
      | none =>
        let s' := { s' with ev := s.ev }.engServe k (s.ctx k).asid false (memLines [p])
        let v := s'.engRead p 64
        if (memLines [p]).any s'.lineDead then s'.complete k 8 c 0x12 n
        else if v.2 then s'.complete k 8 c 0x0C n else s'.install k c v.1

/-- A buffer is unposted: a message that has not placed all its bytes in it will not complete (R253, R256). (DEDUCED: log
entry 102.) -/
def State.unpost (s : State) (key : Nat) : State :=
  s.updOte fun o =>
    { o with buffers := Tbl.erase o.buffers key
             receives := Tbl.mapV o.receives fun _ r =>
               if r.buffer = key && !r.done && r.counted + r.uncounted.sum < r.total then { r with failed := true, done := true } else r }

/-- `NCQ` (R253), which always posts an element. (DESIGN CHOICE: log entry 23.) -/
def State.ncq (s : State) (k : Nat) (c : Cmd) : State :=
  let post := fun (s : State) (st : Nat) =>
    let s := s.updCtx k fun x => x.postElem 9 (elem st 0x1B (Config.ncqInfo (b2n (c.cmd.getLsbD 10)) c.b.toNat st))
    s.dropCmd k 8 c.id
  if c.cmd.getLsbD 10 then
    let key := bufferKey (s.ctx k).asid (c.b.toNat % 4096)
    if 4096 ≤ c.b.toNat || (Tbl.get? s.ote.buffers key).isNone then post s 0x0B
    else post (s.unpost key) 0
  else if (vat (s.ctx k).cmds 8).head?.map (·.id) = some c.id then post s 0
  else s.later .engineCommandComplete

/-- A command of Q8 runs. A dead OTE completes it with TIMEOUT (R328). It is not finished while its element finds no room
(R224). -/
def State.transport (s : State) (k : Nat) (c : Cmd) : State :=
  let t := if s.isDead .ote then s.complete k 8 c 0x12 c.postInfo
    else match c.fn with
      | 0x1A => s.postBuffer k c
      | 0x1B => s.ncq k c
      | _ => s.transmit k c
  if t.fits k 9 then t else s.later .engineCommandComplete

/-- A command of the copy engine, or of the OTE where `ev.q` is 8, is executed and completes (R233, R253). -/
def execEngineCommandComplete (s : State) : Out :=
  let q := if s.ev.q = 8 then 8 else 2
  match s.cmd? s.ev.k q s.ev.id with
  | none => .next s
  | some c =>
    if q = 8 && (Tbl.get? s.ote.transmits c.id).isSome then .next s
    else .next (if q = 8 then s.transport s.ev.k c else s.copyEngine s.ev.k c)

/-! ### Arriving packets (R249, R255, R256) -/

def State.answer (s : State) (msg code : Nat) : State :=
  s.updOte fun o => { o with answers := o.answers ++ [(msg, BitVec.ofNat 8 code)] }

/-- A job has an endpoint in an address space, which its messages may reach (R249). (DEDUCED: log entry 158.) -/
def State.admits (s : State) (asid : BitVec 12) (job : BitVec 24) : Bool :=
  s.ote.endpoints.any fun e => e.1 / 4096 = asid.toNat && e.2.valid && e.2.job = job

/-- The buffer that a message is for, or the reason for which it is refused (R249, R253, R255). -/
def State.matchBuffer (s : State) (p : Packet) : Except Nat (Nat × Nat) :=
  if !(p.kind matches .unsupported) && !s.admits p.asid p.job then .error 4 else
  match p.kind with
  | .unsupported => .error 0
  | .write rbuf off =>
    let key := bufferKey p.asid rbuf.toNat
    match Tbl.get? s.ote.buffers key with
    | some b => if b.window && off.toNat + p.total ≤ b.len then .ok (key, off.toNat) else .error 3
    | none => .error 3
  | k =>
    let fits := fun (b : Buffer) => match k with
      | .taggedSend tag => b.tagged && (tag ^^^ b.tag) &&& ~~~b.ignore = 0
      | _ => !b.tagged
    let cands := s.ote.buffers.filter fun e => e.1 / 4096 = p.asid.toNat && !e.2.window && e.2.taken.isNone && fits e.2
    let best := cands.foldl (fun (o : Option (Nat × Buffer)) e => match o with
      | some q => if e.2.order < q.2.order then some e else some q
      | none => some e) none
    match best with
    | none => .error 1
    | some e => if e.2.len < p.total then .error 2 else .ok (e.1, 0)

/-- The physical places of n bytes at an offset in a buffer, line by line. -/
def Buffer.chunks (b : Buffer) (o n : Nat) : List (EPlace × Nat × Nat) :=
  (lineChunks (b.base.toNat + o) n).map fun c =>
    let page := b.pages.getD (c.1 / 4096 - b.base.toNat / 4096) 0
    (.mem (page + c.1 % 4096), c.1 - (b.base.toNat + o), c.2)

/-- Places a packet's bytes and lets the count follow. -/
def State.placePacket (s : State) (id : Nat) (r : Receive) (p : Packet) : State :=
  let b := r.posted
  let cs := b.chunks (r.offset + p.offset) p.bytes.length
  let ls := memLines (cs.map (·.1))
  match s.engNeeds hostKey true ls with
  | some t => { t with ev := s.ev }.later .packetArrival
  | none =>
    let d := dieOf (coreOf b.poster)
    let s := cs.foldl (fun s c => s.engWrite d c.1 ((p.bytes.drop c.2.1).take c.2.2) false) (s.engServe hostKey r.asid true ls)
    let full := (cs.filter fun c => c.2.2 = 128).map fun c => c.1.line.2
    let s := s.cleanLines (full.filter fun l => !s.lineDead l)
    let r := { r with placed := r.placed ++ [p.offset], uncounted := r.uncounted ++ [p.bytes.length] }
    ((s.updOte fun o => { o with receives := Tbl.set o.receives id r }).cause .cwordAdd { id := id }).answer p.msg 0

/-- A receive record reaches the Q9 of the context that posted the buffer, or is held for it (R257). -/
def State.deliverRecord (s : State) (k : Nat) (e : Word) : State :=
  if (noCtx ≤ k && k < frameKeys) || (k < noCtx && (s.ctx k).run = .vacant) then s
  else
    let h := Tbl.getD s.ote.held k ⟨[], false⟩
    let s := if h.records.length < 64 then s.updOte fun o => { o with held := Tbl.set o.held k { h with records := h.records ++ [e] } }
      else s.updOte fun o => { o with held := Tbl.set o.held k { h with dropped := true } }
    if frameKeys ≤ k then s else
    let s := s.refillQ9 k
    if (s.ctx k).pops.isEmpty then s else s.causeOnce .queuePopDeliver { k := k, q := 9 }

/-- The receive record of a message, with a status (R253, R257). -/
def Receive.record (r : Receive) (status : Nat) : Word := elem status 0x1A (r.buffer % 4096)

/-- A message fails its check for the third time: it ends with CHECK for the sender, and with a record for the poster in its turn
(R256). (DEDUCED: log entry 103.) -/
def State.checkFailed (s : State) (id : Nat) (r : Receive) : State := (s.answer r.msg 5).cause .messageComplete { id := id }

/-- A packet of a message that has a buffer: its check, and its placement once.
(DEDUCED: log entry 102; DEDUCED: log entry 103.) -/
def State.takePacket (s : State) (id : Nat) (r : Receive) (p : Packet) : State :=
  if r.placed.contains p.offset then s.answer p.msg 0
  else if r.failed || r.done || p.bytes.isEmpty || r.total < p.offset + p.bytes.length then s
  else if !p.crcOk then
    let n := Tbl.getD r.failures p.offset 0 + 1
    let r := { r with failures := Tbl.set r.failures p.offset n, failed := decide (3 ≤ n) }
    let s := s.updOte fun o => { o with receives := Tbl.set o.receives id r }
    if 3 ≤ n then s.checkFailed id r else s
  else if r.offset + p.offset + p.bytes.length ≤ r.posted.len then s.placePacket id r p
  else s

/-- A packet delivery context has begun one more message. -/
def State.beginMessage (s : State) (p : Packet) : State :=
  s.updOte fun o => { o with pdcs := Tbl.set o.pdcs p.pdc ⟨p.rod, p.seq + 1⟩ }

/-- The first packet of a message: it is matched with a buffer or refused. Under ROD the messages of a context begin in
order, and one without a buffer is tried again (R252, R255). -/
def State.firstPacket (s : State) (p : Packet) : State :=
  match s.matchBuffer p with
  | .error reason =>
    let s := if reason = 1 then s else s.beginMessage p
    s.answer p.msg (if reason = 0 then 6 else reason)
  | .ok (key, off) =>
    match Tbl.get? s.ote.buffers key with
    | none => s
    | some b =>
      let id := s.nextId
      let r : Receive := ⟨p.pdc, p.rod, p.seq, p.msg, p.asid, b, key, off, p.total, [], [], 0, [], false, false⟩
      let s := (s.newId.beginMessage p).updOte fun o => { o with receives := Tbl.set o.receives id r }
      let s := match p.kind with
        | .write _ _ => s
        | _ => s.updOte fun o => { o with buffers := Tbl.set o.buffers key { b with taken := some id } }
      s.takePacket id r p

/-- A packet arrives at one of the eight ports, on one of the 65,536 packet delivery contexts (R18, R249, R255, R256).
(DEDUCED: log entry 125.) -/
def execPacketArrival (s : State) : Out :=
  let p := s.ev.packet
  let c := Tbl.getD s.ote.pdcs p.pdc ⟨p.rod, 0⟩
  if s.isDead .ote || !s.mgmt.ready || 8 ≤ p.port || 65536 ≤ p.pdc || c.rod ≠ p.rod || p.total = 0 || 2 ^ 30 < p.total then .next s
  else match s.ote.receives.find? fun e => e.2.msg = p.msg && e.2.asid = p.asid with
    | some e => .next (s.takePacket e.1 e.2 p)
    | none => if p.rod && p.seq ≠ c.begun then .next s else .next (s.firstPacket p)

/-! ### Counting and completion (R257) -/

/-- An earlier message of the same ROD context is still to be delivered (R252). -/
def State.deliveredBehind (s : State) (r : Receive) : Bool :=
  r.rod && s.ote.receives.any fun e => e.2.pdc = r.pdc && e.2.rod && e.2.seq < r.seq && !e.2.done

/-- Adds n to a dword at its home, as one action. A dword that is poisoned or lies with a dead agent takes nothing, and the message
goes on. (DESIGN CHOICE: log entry 149.) -/
def State.addCword (s : State) (d pa n : Nat) : State :=
  if s.paPoison pa || s.lineDead (pa / 128) then s
  else s.engWrite d (.mem pa) (bytesOfNat 8 ((s.memNat pa 8 + n) % 2 ^ 64)) false

/-- Placed bytes are counted in CWORD, under ROD after those of the context's earlier messages (R252, R257). -/
def execCwordAdd (s : State) : Out :=
  match Tbl.get? s.ote.receives s.ev.id with
  | none => .next s
  | some r =>
    if s.deliveredBehind r then .next (s.later .cwordAdd) else
    match r.uncounted with
    | n :: ns =>
      let b := r.posted
      let ls := if b.cword = 0 then [] else [b.cwordPa / 128]
      match s.engNeeds hostKey true ls with
      | some t => .next ({ t with ev := s.ev }.later .cwordAdd)
      | none =>
        let s := if b.cword = 0 then s
          else (s.engServe hostKey r.asid true ls).addCword (dieOf (coreOf b.poster)) b.cwordPa n
        let r := { r with uncounted := ns, counted := r.counted + n }
        let s := s.updOte fun o => { o with receives := Tbl.set o.receives s.ev.id r }
        .next (if r.counted = r.total then s.cause .messageComplete { id := s.ev.id } else s)
    | [] => .next s

/-- The last byte of a message has been counted (R255, R257): the barrier arrival, the record, the handler. One that has failed its
check posts its record alone (R256). (DEDUCED: log entry 103; DEDUCED: log entry 104.) -/
def execMessageComplete (s : State) : Out :=
  match Tbl.get? s.ote.receives s.ev.id with
  | none => .next s
  | some r =>
    if r.done then .next s
    else if s.deliveredBehind r then .next (s.later .messageComplete)
    else if r.failed then
      let s := s.updOte fun o => { o with receives := Tbl.set o.receives s.ev.id { r with done := true } }
      .next (if r.posted.recorded then s.deliverRecord r.posted.poster (r.record 0x13) else s)
    else
      let b := r.posted
      let s := s.updOte fun o => { o with receives := Tbl.set o.receives s.ev.id { r with done := true }
                                          buffers := if b.window || (Tbl.getD o.buffers r.buffer b).order ≠ b.order then o.buffers
                                            else Tbl.erase o.buffers r.buffer }
      let s := s.engineArrival r.asid b.barrier
      let runs := b.handler ≠ 0 && s.executable b.hcore r.asid b.handler
      let rec' := r.record (if b.handler ≠ 0 && !runs then 0x14 else 0)
      let s := if b.recorded then s.deliverRecord b.poster rec' else s
      .next (if runs && !s.coreLost b.hcore then
          (s.updCore b.hcore fun c => { c with handlers := c.handlers ++ [⟨b.handler, rec', b.base, r.asid, none⟩] }).causeOnce
            .handlerStart { core := b.hcore }
        else s)

/-! ### The congestion table (R258) -/

/-- The OTE updates the entry of a destination in three stores, at most once every 256 ns: VERSION + 1 (`ev.n` 0), the fields
(1), and VERSION + 2 (2), each after the one before. (DEDUCED: log entry 106.) -/
def execCongestionUpdate (s : State) : Out :=
  let c := s.congestion s.ev.asid s.ev.id
  let put := fun (c : Congestion) => s.updOte fun o =>
    { o with congestion := Tbl.set o.congestion (s.ev.asid * 4096 + s.ev.id) c }
  let odd := c.version.getLsbD 0
  if s.isDead .ote || 4096 ≤ s.ev.id || 4096 ≤ s.ev.asid then .next s
  else match s.ev.n with
    | 0 =>
      if odd || !(s.endpoint s.ev.asid s.ev.id).valid || s.gt < c.next then .next s
      else .next ((put { c with version := c.version + 1, next := s.gt + 256 }).cause .congestionUpdate { s.ev with n := 1 })
    | 1 =>
      if odd then .next ((put { c with fields := s.ev.fields, updated := s.gt.setWidth 32 }).cause .congestionUpdate { s.ev with n := 2 })
      else .next s
    | _ => if odd then .next (put { c with version := c.version + 1 }) else .next s

end Sys2Proof.Machine
end

