-- ==== Sys2Proof/Machine/Fibres.lean ====
section
/-! DEFINITION. Major 0x20: fibres (R240 to R242). -/

namespace Sys2Proof.Machine

/-! ### Fibre registers -/

/-- The bytes of a coordinate and of a value (R34, R240). -/
def Fibre.cw (f : Fibre) : Nat := 2 ^ f.cwidth.toNat
def Fibre.vw (f : Fibre) : Nat :=
  match f.vfmt.toNat with
  | 1 => 2 | 2 => 2 | 3 => 1 | 4 => 1 | 7 => 1 | _ => 4

/-- The addresses of element p. -/
def Fibre.coordVa (f : Fibre) (p : Nat) : Word := BitVec.ofNat 64 (f.cptr.toNat * 4 + p * f.cw)
def Fibre.valVa (f : Fibre) (p : Nat) : Word := BitVec.ofNat 64 (f.vptr.toNat * 4 + p * f.vw)

/-- The fibre at a position, which is at its end at LEN (R241). -/
def Fibre.at (f : Fibre) (p : Nat) : Fibre :=
  { f with pos := BitVec.ofNat 22 p, state := if p = f.len.toNat then .atEnd else .opened }

/-- POS after n elements. -/
def Fibre.after (f : Fibre) (n : Nat) : Nat := min (f.pos.toNat + n) f.len.toNat

/-- FP32 widening of a float element: exact, a NaN with its payload and its quiet bit (R68, R241). (DESIGN CHOICE: log entry
148.) -/
def widen (f : Fmt) (n : Nat) : Nat :=
  match f.decode n with
  | .nan s p _ => fmtF32.signBit s + 0x7F800000 + p
  | v => fmtF32.code v

/-- `val` of an element's bytes (R241): integers are sign-extended, to a lane as to an X register; floats and `.n32` are
words. -/
def Fibre.val (f : Fibre) (n : Nat) : Word :=
  match f.vfmt.toNat with
  | 1 => BitVec.ofNat 64 (widen fmtBF16 n)
  | 2 => BitVec.ofNat 64 (widen fmtF16 n)
  | 3 => BitVec.ofNat 64 (widen fmtE4M3 n)
  | 4 => BitVec.ofNat 64 (widen fmtE5M2 n)
  | 5 => (BitVec.ofNat 32 n).signExtend 64
  | 7 => (BitVec.ofNat 8 n).signExtend 64
  | _ => BitVec.ofNat 64 n

def State.fibre (s : State) (n : BitVec 6) : Fibre := vat s.th.r.fibres n.toNat
def State.setFibre (s : State) (n : BitVec 6) (f : Fibre) : State :=
  s.updTh fun c => { c with r := { c.r with fibres := vput c.r.fibres n.toNat f } }

/-- Runs an instruction on a fibre that is open (R240). -/
def State.onFibre (s : State) (n : BitVec 6) (f : Fibre → Done) : Done :=
  if (s.fibre n).state = .closed then .trap .fibreOperand 4 else f (s.fibre n)

/-! ### Opening, moving, testing, closing (R240, R241) -/

/-- A base that a fibre may have: 4-byte aligned, in the translated range or in the own window. (DEDUCED: log entry 58.) -/
def fibreBase (va : Word) : Bool :=
  va.toNat % 4 = 0 && match regionOf va with
    | .translated => true
    | .own _ => true
    | _ => false

def execFopen (r : R3) (s : State) : Out :=
  s.whole r.sel r.neg [sx r.a r.am, sx r.b r.bm, sx r.c r.cm] [] fun s =>
    let c := s.x r.a
    let v := s.x r.b
    let sh := s.x r.c
    if !fibreBase c || !fibreBase v then .trap .fibreOperand 1
    else if sh.extractLsb' 22 2 = 3 || sh.getLsbD 27 then .trap .fibreOperand 2
    else if sh.extractLsb' 28 36 ≠ 0 then .trap .fibreOperand 3
    else
      let f : Fibre := { state := .opened, vfmt := sh.extractLsb' 24 4, cwidth := sh.extractLsb' 22 2, pos := 0
                         len := sh.extractLsb' 0 22, vptr := v.extractLsb' 2 46, cptr := c.extractLsb' 2 46 }
      .next (s.setFibre r.d (f.at 0))

def execFadv (r : R3) (s : State) : Out :=
  s.whole r.sel r.neg [sx r.a r.am] [] fun s => s.onFibre r.d fun f =>
    .next (s.setFibre r.d (f.at (f.after (s.x r.a).toNat)))

/-- The values at locations of one size, by lane: none where a line is poisoned; or the state with what brings them. -/
def State.readLanes (s : State) (size : Nat) (ls : List Loc) (ans : List (Nat × Option Word)) :
    State ⊕ List (Nat × Option Word) :=
  ls.foldl (fun acc l => match acc with
    | .inl t => .inl t
    | .inr vs => match l.place with
      | .remote _ _ _ => .inr (vs ++ [(l.lane, (ans.find? fun a => a.1 = l.lane).bind (·.2))])
      | p => match s.readNow s.cur size l.va p with
        | .inl t => .inl t
        | .inr v => .inr (vs ++ [(l.lane, v)])) (.inr [])

/-- A single element read as a load; poison is reported and leaves the rest of the instruction undone (R180, R219). -/
def State.readElem (s : State) (size : Nat) (va : Word) (f : State → List Loc → Word → Done) : Done :=
  s.access .load size [(0, va)] fun ls =>
    if s.th.loadOverlaps size ls then .stay s
    else s.touch .read (s.linesOf ls) <| s.withRemote size ls (fun _ => 0) .load fun s ans =>
      match s.readLanes size ls ans with
      | .inl t => .stay t
      | .inr vs =>
        match vs.head?.bind (·.2) with
        | none =>
          if s.th.speculative && (ls.any fun l => l.place matches .phys _ _) then .abort 8 0
          else .next (s.updTh fun c => { c with poison := some (c.poison.getD va) })
        | some w => f s ls w

/-- The least position from p on, among n, whose coordinate reaches a target; `read` are the locations read before. -/
def seek (f : Fibre) (target : Nat) (done : State → Nat → Done) : Nat → Nat → List Loc → State → Done
  | 0, p, read, s => done (s.readMarks s.cur read) p
  | n + 1, p, read, s => s.readElem f.cw (f.coordVa p) fun s ls w =>
    if target ≤ w.toNat then done (s.readMarks s.cur (read ++ ls)) p else seek f target done n (p + 1) (read ++ ls) s

/-- DEDUCED: log entry 60. -/
def execFadvTo (r : R3) (s : State) : Out :=
  s.whole r.sel r.neg [sx r.a r.am] [] fun s => s.onFibre r.d fun f =>
    seek f ((s.x r.a).toNat % 2 ^ 32) (fun s p => .next (s.setFibre r.d (f.at p))) (f.len.toNat - f.pos.toNat) f.pos.toNat [] s

def execFtend (r : R3) (s : State) : Out :=
  s.whole r.sel r.neg [] [] fun s => s.onFibre r.a fun f =>
    .next (s.setP r.d (if f.pos = f.len then BitVec.allOnes 32 else 0))

def execFclose (r : R3) (s : State) : Out :=
  s.whole r.sel r.neg [] [] fun s => s.onFibre r.d fun f => .next (s.setFibre r.d { f with state := .closed })

/-! ### Reading (R241, R242) -/

/-- `FLDC` and `FLDV`: reads the elements from POS on at addresses `va`, converts them, and fills the lanes beyond the
end with `past`. (DEDUCED: log entry 59.) -/
def State.fibreRead (s : State) (r : R3) (f : Fibre) (size : Nat) (va : Nat → Word) (conv : Nat → Word) (past : Word) : Done :=
  let vec := r.mod.getLsbD 0
  let count := min (if vec then 32 else 1) (f.len.toNat - f.pos.toNat)
  let dst : LoadDst := if vec then .v r.d.toNat else .x r.d.toNat
  let ref : RegRef := if vec then dv r.d else dx r.d
  let move := fun (s : State) =>
    if r.mod.getLsbD 1 then s.setFibre r.a (f.at (f.after (if vec then 32 else 1))) else s
  let done := fun (s : State) (vs : List (Nat × Option Word)) =>
    let at' := fun i => match Tbl.get? vs i with
      | some (some w) => conv w.toNat
      | _ => past
    match dst with
    | .x n => Done.next (move (s.produce s.cur [(n, some (at' 0))] [] 0))
    | .v n => .next (move (s.produce s.cur [] [(n, some (lanesOf fun i => (at' i).setWidth 32))] 0))
  s.access .load size ((List.range count).map fun i => (i, va (f.pos.toNat + i))) fun ls =>
    if s.th.loadOverlaps size ls then .stay s
    else s.touch .read (s.linesOf ls) <| s.withRemote size ls (fun _ => 0) .load fun s ans =>
      match s.readLanes size ls ans with
      | .inl t => .stay t
      | .inr vs =>
        match vs.find? fun v => v.2.isNone with
        | none => done (s.readMarks s.cur ls) vs
        | some v =>
          if s.th.speculative && (ls.any fun l => l.place matches .phys _ _) then .abort 8 0
          else .next ((move s).updTh fun c =>
            { c with r := c.r.setFe .idle ref, poison := some (c.poison.getD (va (f.pos.toNat + v.1))) })

/-- The destination of a fibre read: Vd with `.v`, else Xd. -/
def fibreDst (r : R3) : RegRef := if r.mod.getLsbD 0 then dv r.d else dx r.d

def execFldc (r : R3) (s : State) : Out :=
  s.whole r.sel r.neg [] [fibreDst r] fun s => s.onFibre r.a fun f =>
    s.fibreRead r f f.cw f.coordVa (BitVec.ofNat 64) 0xFFFFFFFF

def execFldv (r : R3) (s : State) : Out :=
  s.whole r.sel r.neg [] [fibreDst r] fun s => s.onFibre r.a fun f =>
    s.fibreRead r f f.vw f.valVa f.val 0

end Sys2Proof.Machine
end

