-- ==== Sys2Proof/Machine/Inkwell.lean ====
section
/-! DEFINITION. Major 0x28: inkwell tables (R150 to R160). -/

namespace Sys2Proof.Machine

/-! ### Tables (R151, R152) -/

def emptyKey : W32 := 0xFFFFFFFF
def tombKey : W32 := 0xFFFFFFFE

/-- Buckets of a table. -/
def InkTable.nb (t : InkTable) : Nat := 256 * t.ways.length

/-- `ink_hash`. -/
def inkHash (k : W32) : W32 := (k ^^^ (k >>> 15)) * 0x2C1B3C6D

/-- The home bucket: the top lg bits of the hash. -/
def InkTable.home (t : InkTable) (k : W32) : Nat := (inkHash k).toNat * t.nb / 2 ^ 32

/-- The entry positions that a key probes, in order. -/
def InkTable.probe (t : InkTable) (k : W32) : List Nat :=
  (List.range 4).flatMap fun i => (List.range 16).map fun j => (t.home k + i) % t.nb * 16 + j

/-- Key and value at a position: an unlisted position is empty. -/
def InkTable.entry (t : InkTable) (p : Nat) : W32 × W32 := Tbl.getD t.entries p (emptyKey, 0)
def InkTable.put (t : InkTable) (p : Nat) (k v : W32) : InkTable :=
  { t with entries := if k = emptyKey && v = 0 then Tbl.erase t.entries p else Tbl.set t.entries p (k, v) }

def InkTable.flags (t : InkTable) : Nat := b2n t.overflow + 2 * b2n t.spillfault

def State.ink (s : State) (core n : Nat) : Option InkTable := vat (s.core core).ink n
def State.setInk (s : State) (core n : Nat) (t : Option InkTable) : State :=
  s.updCore core fun c => { c with ink := vput c.ink n t }

/-- The bytes at addresses are no longer those that a transaction of context k has written. -/
def State.unspec (s : State) (k : Nat) (as : List Nat) : State :=
  s.updCtx k fun c => { c with tx := c.tx.map fun x => { x with spec := Tbl.keep x.spec fun a _ => !as.contains a } }

/-- Posts a store of context k outside its transaction's sets, which replaces what the transaction has written there (R159,
R160): nothing where the page is gone. (DEDUCED: log entry 61.) -/
def State.inkStore (s : State) (k : Nat) (va : Word) (bs : List Byte) (clean : Bool) : State × Bool :=
  match s.xlate (coreOf k) (s.ctx k).asid .store va with
  | (s, .ok (pa, pol)) =>
    let ws := bs.zipIdx.map fun b => (pa + b.2, b.1)
    ((s.unspec k (ws.map (·.1))).postStoreFor k (pa / 128) pol ws (s.tagFor k va) 0 clean, true)
  | (s, .error _) => (s, false)

/-- Writes SPILLCOUNT and FLAGS back to the header, for context k (R152). -/
def State.inkHeader (s : State) (k : Nat) (t : InkTable) : State :=
  (s.inkStore k (t.header + 0x0C) (bytesOfNat 4 t.spillcount ++ bytesOfNat 4 t.flags) false).1

/-- Writes them back where an instruction of context k has changed them. -/
def State.inkSync (s : State) (k : Nat) (old new : InkTable) : State :=
  if old.spillcount = new.spillcount && old.flags = new.flags then s else s.inkHeader k new

/-- An instruction that a table has accepted is not complete (R155). -/
def State.inkBusy (s : State) (core n : Nat) : Bool :=
  s.ctxs.any fun e => coreOf e.1 = core && e.1 < noCtx && e.2.results.any fun q => q.table = some n

/-- Releases table n of a core, for its owner (R155). -/
def State.inkRelease (s : State) (core n : Nat) : State :=
  match s.ink core n with
  | none => s
  | some t => ((s.inkHeader t.owner t).setInk core n none).unpinWays core t.ways

/-- Runs an instruction on the table of a handle (R153). -/
def State.onTable (s : State) (h : Word) (f : Nat → InkTable → Done) : Done :=
  match if h.toNat < 4 then s.ink s.myCore h.toNat else none with
  | none => .trap .inkwellOperand 1
  | some t => if t.asid = s.th.asid then f h.toNat t else .trap .inkwellOperand 2

/-! ### Claim and release (R154, R155) -/

/-- SPILLBASE, SPILLCAP, SPILLCOUNT and FLAGS of a header's eight dwords, none where it is invalid. -/
def inkFields (ws : List Nat) : Option (Nat × Nat × Nat × Nat) :=
  let base := ws.getD 0 0
  let cap := ws.getD 1 0 % 2 ^ 32
  let cnt := ws.getD 1 0 / 2 ^ 32
  let flags := ws.getD 2 0 % 2 ^ 32
  if base % 8 ≠ 0 || 2 ^ 48 ≤ base || 131072 < cap || cap < cnt || 4 ≤ flags || ws.getD 2 0 / 2 ^ 32 ≠ 0 ||
      (ws.drop 3).any (· ≠ 0) || (cap ≠ 0 && !translatedRange base (8 * cap)) then none
  else some (base, cap, cnt, flags)

/-- The pages of a spill area. -/
def spillPages (base cap : Nat) : List Nat :=
  if cap = 0 then [] else
  (List.range ((base % 4096 + 8 * cap + 4095) / 4096)).map fun i => base / 4096 * 4096 + i * 4096

/-- A claim whose header is good. -/
def State.inkClaim (s : State) (d : BitVec 6) (ways : Nat) (hdr : Word) (q : Nat × Nat × Nat × Nat) : Done :=
  match s.xlateAll .store (spillPages q.1 q.2.1) with
  | (_, .error (k, a)) => s.xlateFailed .store (BitVec.ofNat 64 a) k
  | (s, .ok _) =>
    let core := s.myCore
    match (List.range 4).find? fun i => (s.ink core i).isNone with
    | none => s.result d (failCode 2)
    | some n =>
      let free := (s.core core).freeWays
      if 7 < 8 - free.length + ways then s.result d (failCode 1)
      else
        let ws := free.take ways
        let t : InkTable := { owner := s.cur, asid := s.th.asid, ways := ws, entries := [], header := hdr
                              spillbase := BitVec.ofNat 64 q.1, spillcap := q.2.1, spillcount := q.2.2.1
                              overflow := q.2.2.2.testBit 0, spillfault := q.2.2.2.testBit 1 }
        ((s.pinWays core ws (.ink n)).setInk core n (some t)).result d (BitVec.ofNat 64 n)

def execHtclaim (r : R3) (s : State) : Out :=
  s.whole r.sel r.neg [sx r.a r.am] [dx r.d] fun s =>
    let hdr := s.x r.a
    if hdr.toNat % 64 ≠ 0 || !translatedRange hdr.toNat 64 then s.result r.d (failCode 3)
    else s.access .store 64 [(0, hdr)] fun ls =>
      let at' := (List.range 8).flatMap fun i => ls.map fun l => ({ l with
        lane := i, va := hdr + BitVec.ofNat 64 (8 * i)
        place := match l.place with | .phys pa pol => .phys (pa + 8 * i) pol | p => p } : Loc)
      if s.th.loadOverlaps 64 ls then .stay s
      else match s.readLanes 8 at' [] with
        | .inl t => .stay t
        | .inr vs =>
          if vs.any fun v => v.2.isNone then .next (s.updTh fun c => c.takeX r.d.toNat hdr none)
          else
            let s := s.readMarks s.cur ls
            match inkFields (vs.map fun v => (v.2.getD 0).toNat) with
            | none => s.result r.d (failCode 3)
            | some q => s.inkClaim r.d (2 ^ (r.mod.toNat % 4)) hdr q

def execHtrel (r : R3) (s : State) : Out :=
  s.whole r.sel r.neg [sx r.a r.am] [] fun s => s.onTable (s.x r.a) fun n t =>
    if t.owner ≠ s.cur then .trap .inkwellOperand 2
    else if s.inkBusy s.myCore n then .stay s
    else .next (s.inkRelease s.myCore n)

/-! ### Updating and probing (R156, R157) -/

/-- A keyed form. -/
inductive InkForm where
  | ins
  | prb
  | del
  | acc (op : Nat) (t : BitVec 5)
  deriving DecidableEq, Repr

/-- O of `HTACC`, the earlier operand first. -/
def inkCombine (op : Nat) (t : BitVec 5) (a b : W32) : W32 :=
  if t = 0x0C then
    let x := fmtF32.decode a.toNat
    let y := fmtF32.decode b.toNat
    match op with
    | 0 => BitVec.ofNat 32 ((opAdd 0 x y).put fmtF32 0 false 0).1
    | 1 => BitVec.ofNat 32 (fmtF32.code (opMinMax false x y).1)
    | _ => BitVec.ofNat 32 (fmtF32.code (opMinMax true x y).1)
  else
    let x := ivalOf (typeSigned t) 32 a.toNat
    let y := ivalOf (typeSigned t) 32 b.toNat
    match op with
    | 0 => a + b
    | 1 => if y < x then b else a
    | _ => if x < y then b else a

/-- The table and the stores of the thread after one group, with its status and value (R156). -/
def State.inkApply (s : State) (t : InkTable) (form : InkForm) (k g : W32) : State × InkTable × Nat × W32 :=
  let ps := t.probe k
  match ps.find? fun p => (t.entry p).1 = k with
  | some p =>
    let v := (t.entry p).2
    match form with
    | .prb => (s, t, 2, v)
    | .del => (s, t.put p tombKey v, 5, 0)
    | .ins => (s, t.put p k g, 1, 0)
    | .acc op ty => (s, t.put p k (inkCombine op ty v g), 1, 0)
  | none =>
    let absent := if t.spillcount = 0 then 3 else 4
    match form with
    | .prb => (s, t, absent, 0)
    | .del => (s, t, absent, 0)
    | _ =>
      match ps.find? fun p => (t.entry p).1 = emptyKey || (t.entry p).1 = tombKey with
      | some p => (s, t.put p k g, 0, 0)
      | none =>
        if t.spillcount < t.spillcap then
          let va := t.spillbase + BitVec.ofNat 64 (8 * t.spillcount)
          let w := s.inkStore s.cur va (bytesOfNat 4 k.toNat ++ bytesOfNat 4 g.toNat) true
          if w.2 then (w.1, { t with spillcount := t.spillcount + 1 }, 6, 0)
          else (w.1, { t with overflow := true, spillfault := true }, 7, 0)
        else (s, { t with overflow := true }, 7, 0)

/-- The groups of lanes with equal keys, in ascending order of their lowest lane: the key and its lanes. -/
def inkGroups (m : W32) (keys : Lanes) : List (W32 × List Nat) :=
  (lanesIn m).foldl (fun gs i =>
    let k := vat keys i
    if k = emptyKey || k = tombKey then gs
    else if gs.any fun g => g.1 = k then gs.map fun g => if g.1 = k then (k, g.2 ++ [i]) else g
    else gs ++ [(k, [i])]) []

/-- The value of a group before the table is touched. -/
def InkForm.groupValue (form : InkForm) (vals : Lanes) (is : List Nat) : W32 :=
  match form with
  | .ins => vat vals (is.getLastD 0)
  | .acc op t => (is.drop 1).foldl (fun a i => inkCombine op t a (vat vals i)) (vat vals (is.headD 0))
  | _ => 0

/-- Applies the groups in order: the state, the table, and each lane's status and value. -/
def State.inkAll (s : State) (t : InkTable) (form : InkForm) (vals : Lanes) :
    List (W32 × List Nat) → State × InkTable × List (Nat × Nat × W32)
  | [] => (s, t, [])
  | g :: gs =>
    let a := s.inkApply t form g.1 (form.groupValue vals g.2)
    let r := a.1.inkAll a.2.1 form vals gs
    (r.1, r.2.1, g.2.map (fun i => (i, a.2.2.1, a.2.2.2)) ++ r.2.2)

/-- The stores that an instruction has posted to a state. -/
def State.newStores (s t : State) : List PendingStore := t.th.stores.drop s.th.stores.length

/-- The keyed forms: `pair` says that the value goes to Vd and the status to Vd+1. One whose spill area is pending for a copy
waits (R159). -/
def State.inkKeyed (s : State) (r : R3) (form : InkForm) (pair : Bool) (m : W32) : Done :=
  s.onTable (s.x r.c) fun n t =>
    let q := s.inkAll t form (s.v r.b) (inkGroups m (s.v r.a))
    let st := fun i => match Tbl.get? q.2.2 i with
      | some v => BitVec.ofNat 32 v.1
      | none => 8
    let va := fun i => match Tbl.get? q.2.2 i with
      | some v => v.2
      | none => 0
    let s' := (q.1.setInk s.myCore n (some q.2.1)).inkSync s.cur t q.2.1
    let d := r.d.toNat
    let vs := if pair then
        [(d, some (blend m (lanesOf va) (s.th.getV d))), (d + 1, some (blend m (lanesOf st) (s.th.getV (d + 1))))]
      else [(d, some (blend m (lanesOf st) (s.th.getV d)))]
    if (s.newStores q.1).any fun p => s.palPending p.line then .stay s
    else .next (s'.produce s'.cur [] vs 0 ((s.newStores s').map (·.id)) (some n))

def execHtins (r : R3) (s : State) : Out :=
  s.lanewise r.sel r.neg [sv r.a r.am, sv r.b r.bm, sx r.c r.cm] [dv r.d] fun m s => s.inkKeyed r .ins false m

def execHtprb (r : R3) (s : State) : Out :=
  s.lanewise r.sel r.neg [sv r.a r.am, sx r.c r.cm] (dvs r.d 2) fun m s => s.inkKeyed r .prb true m

def execHtdel (r : R3) (s : State) : Out :=
  s.lanewise r.sel r.neg [sv r.a r.am, sx r.c r.cm] [dv r.d] fun m s => s.inkKeyed r .del false m

def execHtacc (r : R3) (s : State) : Out :=
  s.lanewise r.sel r.neg [sv r.a r.am, sv r.b r.bm, sx r.c r.cm] [dv r.d] fun m s =>
    s.inkKeyed r (.acc (r.mod.toNat % 4) r.vtype) false m

/-! ### Draining (R158) -/

/-- Scans from a position while fewer than 32 entries have been found: the position reached and what was found. -/
def InkTable.scan (t : InkTable) : Nat → Nat → List (W32 × W32) → Nat × List (W32 × W32)
  | 0, p, out => (p, out)
  | n + 1, p, out =>
    if 32 ≤ out.length then (p, out)
    else
      let e := t.entry p
      t.scan n (p + 1) (if e.1 = emptyKey || e.1 = tombKey then out else out ++ [e])

def execHtdrn (r : R3) (s : State) : Out :=
  s.whole r.sel r.neg [sx r.a r.am, sx r.c r.cm] (dx r.a :: dvs r.d 2) fun s => s.onTable (s.x r.c) fun n t =>
    let a := s.x r.a
    let p := a.toNat % 2 ^ 32
    if a.extractLsb' 32 31 ≠ 0 || 16 * t.nb < p then .trap .inkwellOperand 3
    else
      let q := t.scan (16 * t.nb - p) p []
      let s := if r.mod.getLsbD 0 then
          s.setInk s.myCore n (some { t with entries := Tbl.keep t.entries fun i _ => !(p ≤ i && i < q.1) })
        else s
      let cursor := BitVec.ofNat 64 (q.1 + if q.1 = 16 * t.nb then 2 ^ 63 else 0)
      .next (s.produce s.cur [(r.a.toNat, some cursor)]
        [(r.d.toNat, some (lanesFrom (q.2.map (·.1)) emptyKey)), (r.d.toNat + 1, some (lanesFrom (q.2.map (·.2)) 0))] 0 [] (some n))

end Sys2Proof.Machine
end

