-- ==== Sys2Proof/Machine/Gaussian.lean ====
section
/-! DEFINITION. Major 0x2C: Gaussian messages and mailboxes (R137 to R149). -/

namespace Sys2Proof.Machine

/-! ### Messages and joints in registers (R137) -/

/-- The FP32 code Λ[i][j] of a joint whose group starts at V register g. -/
def State.jointAt (s : State) (g : Nat) (i j : Nat) : Nat := (vat (s.th.getV (g + i / 2)) (16 * (i % 2) + j)).toNat
/-- The FP32 code M[i][j] of a message that starts at V register m. -/
def State.msgAt (s : State) (m : Nat) (i j : Nat) : Nat := (vat (s.th.getV (m + i / 4)) (8 * (i % 4) + j)).toNat
/-- η or h of index i in register n. -/
def State.etaAt (s : State) (n : Nat) (i : Nat) : Nat := (vat (s.th.getV n) i).toNat

/-- Maps f over lanes in order, threading the flags; lanes outside `is` keep their value. -/
def laneMap (is : List Nat) (f : Nat → Fp → Nat × Fp) (v : Lanes) (e : Fp) : Lanes × Fp :=
  is.foldl (fun q i => let r := f i q.2; (vput q.1 i (BitVec.ofNat 32 r.1), r.2)) (v, e)

/-- Updates several registers of the thread, threading the flags. -/
def State.mapRegs (s : State) (e : Fp) : List (Nat × List Nat × (Nat → Fp → Nat × Fp)) → State × Fp
  | [] => (s, e)
  | (n, is, f) :: rs =>
    let r := laneMap is f (s.th.getV n) e
    (s.updTh (·.setV n r.1)).mapRegs r.2 rs

/-! ### Adding and damping (R140, R141) -/

def execGbadd (r : R3) (s : State) : Out :=
  s.whole r.sel r.neg (sv r.a r.am :: svs r.b 3 r.bm ++ svs0 r.d 8) (dv r.a :: dvs r.d 8) fun s =>
    let off := r.mod.toNat % 16
    let dim := r.mod.toNat / 16 % 8 + 1
    let sgn := fun (n : Nat) => if r.mod.getLsbD 7 then (fmtF32.decode n).flip else fmtF32.decode n
    let add := fun (x m : Nat) (e : Fp) => e.put fmtF32 0 false (opAdd 0 (fmtF32.decode x) (sgn m))
    let row := fun (i : Nat) => (r.d.toNat + (off + i) / 2, (List.range dim).map (fun j => 16 * ((off + i) % 2) + off + j),
      fun (l : Nat) (e : Fp) => add (s.jointAt r.d.toNat (off + i) (l % 16)) (s.msgAt r.b.toNat i (l % 16 - off)) e)
    let eta := (r.a.toNat, (List.range dim).map (off + ·),
      fun (l : Nat) (e : Fp) => add (s.etaAt r.a.toNat l) (s.etaAt (r.b.toNat + 2) (l - off)) e)
    let q := s.mapRegs s.fp ((List.range dim).map row ++ [eta])
    .next (q.1.updTh fun c => c.withFp q.2)

/-- An exact product of numbers. -/
def finMul (a b : Bool × Nat × Int) : Bool × Nat × Int := (a.1 != b.1, a.2.1 * b.2.1, a.2.2 + b.2.2)

/-- (1 − β) · new + β · old with one rounding, for 0 < β < 1 (R141). -/
def dampSum (b new old : FVal) : FRes :=
  withNans [new, old] <|
    match b, new, old with
    | .fin _ m e, .fin s1 m1 e1, .fin s2 m2 e2 =>
      let c := addFin 0 false 1 0 true m e
      let x := finMul (false, c.m, c.e) (s1, m1, e1)
      let y := finMul (false, m, e) (s2, m2, e2)
      .num (addFin 0 x.1 x.2.1 x.2.2 y.1 y.2.1 y.2.2) 0
    | _, .inf s, .inf t => if s = t then .val (.inf s) 0 else invalid
    | _, .inf s, _ => .val (.inf s) 0
    | _, _, v => .val v 0

def execGbdamp (r : R3) (s : State) : Out :=
  s.whole r.sel r.neg (svs r.a 3 r.am ++ [sx r.b r.bm] ++ svs0 r.d 3) (dvs r.d 3) fun s =>
    let b := fmtF16.decode ((s.x r.b).toNat / 2 ^ 32 % 2 ^ 16)
    let one := FVal.fin false 1 0
    if b.isNan || b.lt (.fin false 0 0) || one.lt b then .trap .gaussOperand 2
    else
      let f := fun (n l : Nat) (e : Fp) =>
        let new := s.etaAt (r.d.toNat + n) l
        let old := s.etaAt (r.a.toNat + n) l
        if b.isZero then (new, e) else if b.same one then (old, e)
        else e.put fmtF32 0 false (dampSum b (fmtF32.decode new) (fmtF32.decode old))
      let q := s.mapRegs s.fp [(r.d.toNat, List.range 32, f 0), (r.d.toNat + 1, List.range 32, f 1), (r.d.toNat + 2, List.range 8, f 2)]
      .next (q.1.updTh fun c => c.withFp q.2)

/-! ### Elimination (R142, R143) -/

/-- `fma(−x, y, z)`. (DEDUCED: log entry 62.) -/
def fmaNeg (x y z : Nat) (e : Fp) : Nat × Fp :=
  e.put fmtF32 0 false (opFma 0 (fmtF32.decode x).flip (fmtF32.decode y) (fmtF32.decode z))

/-- t, then `fma(−x, y, t)` over pairs in order. -/
def fmaChain (ps : List (Nat × Nat)) (t : Nat) (e : Fp) : Nat × Fp :=
  ps.foldl (fun q p => fmaNeg p.1 p.2 q.1 q.2) (t, e)

def divCode (a b : Nat) (e : Fp) : Nat × Fp := e.put fmtF32 0 false (opDiv (fmtF32.decode a) (fmtF32.decode b))

/-- tau: 2^−20 of the largest magnitude on the diagonal of the block that is no NaN. -/
def elimTau (diag : List Nat) : FVal :=
  match (diag.map fun n => (fmtF32.decode n).magnitude).foldl (fun (m v : FVal) => if v.isNan then m else if m.lt v then v else m)
      (FVal.fin false 0 0) with
  | .fin s m e => .fin s m (e - 20)
  | v => v

/-- Column k of the factor: the rows so far, longer by one where the column has an entry; none where the pivot is singular. -/
def cholColumn (lam : Nat → Nat → Nat) (tau : FVal) (k : Nat) (c : List (List Nat)) (e : Fp) : Option (List (List Nat)) × Fp :=
  let rk := c.getD k []
  let p := fmaChain (rk.zip rk) (lam k k) e
  let v := fmtF32.decode p.1
  if v.isNan || !tau.lt v then (none, p.2)
  else
    let d := p.2.put fmtF32 0 false (opSqrt v)
    let q := c.zipIdx.foldl (fun (q : List (List Nat) × Fp) ri =>
      if ri.2 < k then (q.1 ++ [ri.1], q.2)
      else if ri.2 = k then (q.1 ++ [ri.1 ++ [d.1]], q.2)
      else
        let t := fmaChain (ri.1.zip rk) (lam ri.2 k) q.2
        let x := divCode t.1 d.1 t.2
        (q.1 ++ [ri.1 ++ [x.1]], x.2)) ([], d.2)
    (some q.1, q.2)

/-- The factorisation phase: the factor's rows, or the position of the singular pivot, with the flags. -/
def cholFrom (lam : Nat → Nat → Nat) (tau : FVal) : Nat → Nat → List (List Nat) → Fp → Except Nat (List (List Nat)) × Fp
  | 0, _, c, e => (.ok c, e)
  | n + 1, k, c, e =>
    match cholColumn lam tau k c e with
    | (none, e) => (.error k, e)
    | (some c, e) => cholFrom lam tau n (k + 1) c e

/-- One column of the substitution phase: the factor's rows against a right side. -/
def substitute (c : List (List Nat)) (rhs : List Nat) (e : Fp) : List Nat × Fp :=
  (c.zip rhs).foldl (fun q ri =>
    let t := fmaChain (ri.1.zip q.1) ri.2 q.2
    let x := divCode t.1 (ri.1.getLastD 0) t.2
    (q.1 ++ [x.1], x.2)) ([], e)

/-- Substitutes several columns in order. -/
def substituteAll (c : List (List Nat)) : List (List Nat) → Fp → List (List Nat) × Fp
  | [], e => ([], e)
  | r :: rs, e =>
    let a := substitute c r e
    let b := substituteAll c rs a.2
    (a.1 :: b.1, b.2)

/-- The values of a list of computations in order. -/
def runAll (fs : List (Fp → Nat × Fp)) (e : Fp) : List Nat × Fp :=
  fs.foldl (fun q f => let r := f q.2; (q.1 ++ [r.1], r.2)) ([], e)

/-- The substitution and update phases: the entries M[i][j] row by row, then h. -/
def eliminate (lam : Nat → Nat → Nat) (eta : Nat → Nat) (a b : List Nat) (c : List (List Nat)) (e : Fp) : List Nat × Fp :=
  let y := substituteAll c (a.map (fun j => b.map fun i => lam i j) ++ [b.map eta]) e
  let col := fun i => y.1.getD i []
  let rows := a.zipIdx.flatMap fun i => a.zipIdx.map fun j => fmaChain ((col i.2).zip (col j.2)) (lam i.1 j.1)
  let hs := a.zipIdx.map fun i => fmaChain ((col i.2).zip (col a.length)) (eta i.1)
  runAll (rows ++ hs) y.2

/-- The three registers of a message whose first na indices are given. -/
def messageLanes (na : Nat) (xs : List Nat) (n : Nat) : Lanes :=
  lanesOf fun l =>
    if n < 2 then
      let i := 4 * n + l / 8
      let j := l % 8
      if i < na && j < na then BitVec.ofNat 32 (xs.getD (i * na + j) 0) else 0
    else if l < na then BitVec.ofNat 32 (xs.getD (na * na + l) 0) else 0

def messageRegs (d : Nat) (f : Nat → Lanes) : List (Nat × Option Lanes) := (List.range 3).map fun i => (d + i, some (f i))

def execGbelim (r : R3) (s : State) : Out :=
  s.whole r.sel r.neg (svs r.a 8 r.am ++ [sv r.b r.bm]) (dvs r.d 3) fun s =>
    let n := r.mod.toNat % 16 + 1
    let nt := r.mod.getLsbD 4
    let ps := r.mod.extractLsb' 5 3
    let pk := s.p r.c
    let b := (List.range n).filter fun i => pk.getLsbD i
    let a := (List.range n).filter fun i => !pk.getLsbD i
    let lam := s.jointAt r.a.toNat
    let blk := fun i j => lam (b.getD i 0) (b.getD j 0)
    if a.isEmpty || 8 < a.length then .trap .gaussOperand 1
    else
      let c := cholFrom blk (elimTau (b.map fun i => lam i i)) b.length 0 (List.replicate b.length []) s.fp
      let flag := fun (s : State) (w : W32) => if nt then s.updTh (·.setP ps.toNat w) else s
      match c.1 with
      | .error k =>
        if nt then .next ((flag s 1).produce s.cur [] (messageRegs r.d.toNat fun _ => zeroLanes) c.2.flags)
        else
          let t := s.updTh fun x =>
            { x with r := ((List.range 3).foldl (fun q i => q.setFe .full (.v (r.d.toNat + i))) x.r).raise c.2.flags }
          .final (t.deliver s.cur .singularBlock (BitVec.ofNat 64 (b.getD k 0)) s.th.pc)
      | .ok rows =>
        let m := eliminate lam (s.etaAt r.b.toNat) a b rows c.2
        .next ((flag s 0).produce s.cur [] (messageRegs r.d.toNat (messageLanes a.length m.1)) m.2.flags)

/-! ### Posting (R145, R149) -/

/-- Sends a post to its target. -/
def State.sendPost (s : State) (p : Post) : State :=
  let id := s.nextId
  ({ s.newId with msgs := Tbl.set s.msgs id (.post p) }).cause .postArrival { id := id }

/-- The post that a descriptor in Xb describes (R145). -/
def State.postOf (s : State) (r : R3) : Post :=
  let b := (s.x r.b).toNat
  { k := s.cur, reg := r.d.toNat, sender := s.myCore + slotOf s.cur * 2 ^ 12, asid := s.th.asid, core := b % 2 ^ 12
    ctx := b / 2 ^ 12 % 8, slot := b / 2 ^ 15 % 2 ^ 11, handler := s.x r.c, beta := (s.x r.b).extractLsb' 32 16
    dim := b / 2 ^ 26 % 8 + 1, m0 := s.v r.a, m1 := s.th.getV (r.a.toNat + 1), m2 := s.th.getV (r.a.toNat + 2) }

def execGbpost (r : R3) (s : State) : Out :=
  s.whole r.sel r.neg (svs r.a 3 r.am ++ [sx r.b r.bm, sx r.c r.cm]) [dx r.d] fun s =>
    let b := s.x r.b
    if b.extractLsb' 48 16 ≠ 0 || b.extractLsb' 29 3 ≠ 0 then s.result r.d 6
    else
      let p := s.postOf r
      let pend := fun (s : State) => s.updTh fun c => { c with r := c.r.setFe .pending (dx r.d) }
      if s.th.speculative then
        if s.th.tx.any fun x => decide (16 ≤ x.held.length) then .abort 2 0
        else .next ((pend s).updTh fun c => { c with tx := c.tx.map fun x => { x with held := x.held ++ [.post p] } })
      else if s.heldBack true then .stay s
      else if s.coreLost p.core then .blot
      else .next ((pend s).sendPost p)

/-- The 384 bytes that an arrival leaves in its slot (R144, R145). -/
def Post.slotBytes (p : Post) (seq : Nat) : List Byte :=
  bytesOfNat 8 seq ++ bytesOfNat 4 p.sender ++ bytesOfNat 2 p.beta.toNat ++ bytesOfNat 1 p.dim ++
    bytesOfNat 1 1 ++ List.replicate 16 0 ++
    (p.m0.toList ++ p.m1.toList ++ p.m2.toList.take 8).flatMap (fun w => bytesOfNat 4 w.toNat) ++ List.replicate 64 0

/-- Queues the notice of a slot: the outcome code (R145, R146). -/
def State.queueNotice (s : State) (t : Nat) (p : Post) : State × Nat :=
  let q := vat (s.ctx t).elems 11
  if p.handler = 0 then (s, 0)
  else if q.any fun e => e.toNat / 2 ^ 53 = p.slot then (s, 1)
  else if 15 ≤ q.length then (s, 2)
  else
    let s := s.updCtx t fun c => c.postElem 11 (BitVec.ofNat 64 (p.slot * 2 ^ 53 + p.handler.toNat % 2 ^ 48))
    (if (s.ctx t).pops.isEmpty then s else s.causeOnce .queuePopDeliver { k := t, q := 11 }, 0)

/-- The checks and the write of an arrival: the outcome code. -/
def State.arrivePost (s : State) (p : Post) : State × Nat :=
  let t := keyOf p.core p.ctx
  let c := s.ctx t
  let a := 128 * p.slot
  if c.run = .vacant || c.asid ≠ p.asid || !c.holds a 384 then (s, 3)
  else if p.handler ≠ 0 && !s.executable p.core c.asid p.handler then (s, 4)
  else
    let at' := fun i => arrayByte p.core c.claim (a + i)
    let seq := natOfBytes ((List.range 8).map fun i => Mem.read s.scratch (at' i))
    let s := s.landScratch ((p.slotBytes ((seq + 1) % 2 ^ 64)).zipIdx.map fun b => (at' b.2, b.1))
    s.queueNotice t p

/-- A post arrives at its slot, after the sender's earlier posts to that slot and once its lines are not pending.
(DEDUCED: log entry 64.) -/
def execPostArrival (s : State) : Out :=
  match Tbl.get? s.msgs s.ev.id with
  | some (.post p) =>
    let earlier := s.msgs.any fun m => m.1 < s.ev.id && match m.2 with
      | .post q => q.k = p.k && q.core = p.core && q.ctx = p.ctx && q.slot = p.slot
      | _ => false
    let claim := (s.ctx (keyOf p.core p.ctx)).claim
    let pend := (List.range 3).any fun i => s.scratchPending.contains (claimLine p.core claim (p.slot + i)) && p.slot + i < 256 * claim.length
    if earlier || pend then .next (s.later .postArrival)
    else
      let s := { s with msgs := Tbl.erase s.msgs s.ev.id }
      if s.coreLost p.core then .next (s.blotted p.k)
      else
        let r := s.arrivePost p
        let id := r.1.nextId
        .next ({ r.1.newId with msgs := Tbl.set r.1.msgs id (.outcome p.k p.reg r.2) }.cause .postOutcome { id := id })
  | _ => .next s

/-- The outcome of a post reaches the sender's register (R145); one for a thread that has ended is dropped. -/
def execPostOutcome (s : State) : Out :=
  match Tbl.get? s.msgs s.ev.id with
  | some (.outcome k reg code) =>
    let s := { s with msgs := Tbl.erase s.msgs s.ev.id }
    .next (if noCtx ≤ k then s else s.updCtx k fun c => c.setX reg (BitVec.ofNat 64 code))
  | _ => .next s

/-! ### Taking (R147) -/

/-- `GBTAKE` (R147). A slot whose header holds a value other than 0 in a reserved field is taken as any other, and the
reserved bits are returned in Xc+1. (DEDUCED: log entry 63; DESIGN CHOICE: log entry 127.) -/
def execGbtake (r : R3) (s : State) : Out :=
  s.whole r.sel r.neg [sx r.a r.am, sx r.b r.bm] (dvs r.d 3 ++ [dx r.c, .x (r.c.toNat + 1)]) fun s =>
    let a := (s.x r.a).toNat
    let core := s.myCore
    let claim := s.th.claim
    let lines := (List.range 3).map fun i => claimLine core claim (a / 128 + i)
    if a % 128 ≠ 0 || !s.th.holds a 384 then .trap .gaussOperand 3
    else if s.heldBack false || lines.any s.scratchPending.contains then .stay s
    else if lines.any s.scratchPoison.contains then .trap .dataPoison 0
    else
      let at' := fun i => arrayByte core claim (a + i)
      let get := fun o n => natOfBytes ((List.range n).map fun i => Mem.read s.scratch (at' (o + i)))
      let seq := get 0 8
      let w := get 8 8
      let code := if !w.testBit 56 then 1 else if seq ≤ (s.x r.b).toNat then 2 else 0
      let word := fun o => BitVec.ofNat 32 (get o 4)
      let vs : Nat → Lanes := fun n =>
        if code ≠ 0 then s.th.getV (r.d.toNat + n)
        else if n < 2 then lanesOf fun l => word (0x20 + 128 * n + 4 * l)
        else lanesOf fun l => if l < 8 then word (0x120 + 4 * l) else 0
      let s' := if code = 0 then s.landScratch [(at' 0xF, BitVec.ofNat 8 (w / 2 ^ 56 / 2 * 2))] else s
      .next (s'.produce s.cur [(r.c.toNat, some (BitVec.ofNat 64 seq)), (r.c.toNat + 1, some (BitVec.ofNat 64 (w % 2 ^ 56 + code * 2 ^ 56)))]
        (messageRegs r.d.toNat vs) 0)

end Sys2Proof.Machine
end

