-- ==== Sys2Proof/Machine/Image.lean ====
section
/-! DEFINITION. Context images (R34 to R38, R310), frame pools (R301), and how contexts leave their slots (R277, R301,
R308). -/

namespace Sys2Proof.Machine

/-! ### The image (R34) -/

def FibreState.code : FibreState → Nat
  | .closed => 0 | .opened => 1 | .atEnd => 2

/-- The record of a fibre register. -/
def Fibre.bits (f : Fibre) : Nat :=
  f.cptr.toNat + f.vptr.toNat * 2 ^ 46 + f.len.toNat * 2 ^ 92 + f.pos.toNat * 2 ^ 114 + f.cwidth.toNat * 2 ^ 136 +
    f.vfmt.toNat * 2 ^ 138 + f.state.code * 2 ^ 142

/-- A withdrawn pop. -/
def Pop.code (p : Pop) : Nat :=
  2 ^ 15 + p.q * 2 ^ 11 + match p.dst with
    | .x n => n * 32
    | .v n => 2 ^ 10 + n * 32

/-- The bits of a list of truth values, the first at the lowest bit. -/
def bitsList (l : List Bool) : Nat := l.foldr (fun b n => b2n b + 2 * n) 0

/-- The full bits of FE. -/
def Regs.feBits (r : Regs) : Nat :=
  bitsList ((List.range 32).map fun n => r.fe (.x n) = .full) + bitsList ((List.range 32).map fun n => r.fe (.v n) = .full) * 2 ^ 32

def Ctx.headerBits (c : Ctx) : Nat :=
  b2n c.intrap * 2 ^ 14 + b2n c.mxSaved.isSome * 2 ^ 15 + c.asid.toNat * 2 ^ 20 + Config.stepping.toNat * 2 ^ 32 + 2 ^ 48

def Ctx.guardBits (c : Ctx) : Nat := c.r.guards.toList.foldr (fun g n => g.code + 4 * n) 0

/-- The 4,608 bytes of a context's image with a pc. Every queue count is 0 when an image is made (R36). -/
def Ctx.image (c : Ctx) (pc : Word) : List Byte :=
  bytesOfNat 8 c.headerBits ++
  ((List.range 31).flatMap fun n => bytesOfNat 8 (c.r.getX (n + 1)).toNat) ++
  (c.r.v.toList.flatMap fun v => v.toList.flatMap fun l => bytesOfNat 4 l.toNat) ++
  bytesOfNat 8 pc.toNat ++ bytesOfNat 8 c.r.feBits ++
  ((List.range 8).flatMap fun n => bytesOfNat 4 (c.r.getP n).toNat) ++
  bytesOfNat 4 c.r.fpstat.toNat ++ bytesOfNat 4 c.r.stochseed.toNat ++
  bytesOfNat 8 c.trapcause.toNat ++ bytesOfNat 8 c.trappc.toNat ++ bytesOfNat 8 c.trapval.toNat ++
  bytesOfNat 8 c.txstat.word.toNat ++ bytesOfNat 8 c.txage.toNat ++ bytesOfNat 2 c.guardBits ++ bytesOfNat 6 0 ++
  ((List.range 4).flatMap fun i => bytesOfNat 2 (match c.pops[i]? with
    | some p => p.code
    | none => 0)) ++
  c.r.fibres.toList.flatMap fun f => bytesOfNat 18 f.bits

/-! ### Reading an image (R37, R310) -/

/-- n bytes at an offset. -/
def field (bs : List Byte) (o n : Nat) : Nat := natOfBytes ((bs.drop o).take n)

/-- The entries of PENDPOP that are in use. -/
def pendPops (bs : List Byte) (gt : Word) : List Pop :=
  (List.range 4).filterMap fun i =>
    let e := field bs (0x1168 + 2 * i) 2
    if e.testBit 15 then
      some ⟨e / 2 ^ 11 % 16, if e.testBit 10 then .v (e / 32 % 32) else .x (e / 32 % 32), gt⟩
    else none

/-- Every word of a PENDPOP entry is one that a save writes. -/
def badPop (e : Nat) : Bool :=
  e % 32 ≠ 0 || (e.testBit 15 &&
    (!([1, 3, 5, 7, 9, 10, 11].contains (e / 2 ^ 11 % 16)) || e.testBit 10 != (e / 2 ^ 11 % 16 = 5)))

/-- A fibre record with a reserved value. -/
def badFibre (f : Nat) : Bool := f / 2 ^ 142 = 3 || f / 2 ^ 136 % 4 = 3 || 8 ≤ f / 2 ^ 138 % 16

/-- Reserved bits of TXSTAT, and a cause that no abort has. -/
def badTxstat (w : Nat) : Bool :=
  (w / 2 ^ 3 % 4 ≠ 0) || w.testBit 7 || w / 2 ^ 24 % 2 ^ 16 ≠ 0 || w / 2 ^ 48 ≠ 0 || 8 < w / 2 ^ 8 % 16

/-- A reserved field or value, a QVIEW bit, FE bit 0 or the P0 word is wrong (R37). (DEDUCED: log entry 66.) -/
def badImage (bs : List Byte) : Bool :=
  let h := field bs 0 8
  let f := field bs 0x1130 4
  h % 2 ^ 14 ≠ 0 || h / 2 ^ 16 % 16 ≠ 0 || f / 2 ^ 11 ≠ 0 || f / 32 % 8 ≠ 0 || 5 ≤ f / 2 ^ 8 % 8 ||
    field bs 0x1138 8 / 256 ≠ 0 || badTxstat (field bs 0x1150 8) || field bs 0x1162 6 ≠ 0 ||
    ((List.range 8).any fun i => field bs 0x1160 2 / 4 ^ i % 4 = 3) ||
    ((List.range 4).any fun i => badPop (field bs (0x1168 + 2 * i) 2)) ||
    ((List.range 8).any fun i => badFibre (field bs (0x1170 + 18 * i) 18)) ||
    !(field bs 0x1108 8).testBit 0 || field bs 0x1110 4 ≠ 0xFFFFFFFF

/-- The code of R310 of an image that is restored on a core, none where it is valid. -/
def State.imageCode (s : State) (core : Nat) (bs : List Byte) : Option Nat :=
  let h := field bs 0 8
  let p := s.space (h / 2 ^ 20 % 4096)
  if h / 2 ^ 48 ≠ 1 || h / 2 ^ 32 % 2 ^ 16 ≠ Config.stepping.toNat then some 1
  else if badImage bs then some 2
  else if !p.valid || !(vat s.parts p.partition.toNat).clusters.getLsbD (clusterOf core) then some 3
  else none

def guardOfCode (n : Nat) : Guard := if n = 0 then .no else if n = 1 then .yes else .pending
def fibreStateOf (n : Nat) : FibreState := if n = 0 then .closed else if n = 1 then .opened else .atEnd

def fibreOf (f : Nat) : Fibre where
  state := fibreStateOf (f / 2 ^ 142 % 4)
  vfmt := BitVec.ofNat 4 (f / 2 ^ 138)
  cwidth := BitVec.ofNat 2 (f / 2 ^ 136)
  pos := BitVec.ofNat 22 (f / 2 ^ 114)
  len := BitVec.ofNat 22 (f / 2 ^ 92)
  vptr := BitVec.ofNat 46 (f / 2 ^ 46)
  cptr := BitVec.ofNat 46 f

/-- The full/empty state that a restore gives a register: empty-pending while a withdrawn pop will fill it. -/
def restoredFe (full : Bool) (pops : List Pop) (d : LoadDst) : Fe :=
  if full then .full else if pops.any fun p => p.dst = d then .pending else .idle

/-- The registers of an image. -/
def imageRegs (bs : List Byte) (pops : List Pop) : Regs where
  x := Vector.ofFn fun (i : Fin 32) => BitVec.ofNat 64 (if i.val = 0 then 0 else field bs (8 * i.val) 8)
  v := Vector.ofFn fun (i : Fin 32) => lanesOfBytes ((bs.drop (0x100 + 128 * i.val)).take 128)
  p := Vector.ofFn fun (i : Fin 8) => BitVec.ofNat 32 (field bs (0x1110 + 4 * i.val) 4)
  xfe := Vector.ofFn fun (i : Fin 32) => restoredFe ((field bs 0x1108 8).testBit i.val) pops (.x i.val)
  vfe := Vector.ofFn fun (i : Fin 32) => restoredFe ((field bs 0x1108 8).testBit (32 + i.val)) pops (.v i.val)
  guards := Vector.ofFn fun (i : Fin 8) => guardOfCode (field bs 0x1160 2 / 4 ^ i.val % 4)
  fibres := Vector.ofFn fun (i : Fin 8) => fibreOf (field bs (0x1170 + 18 * i.val) 18)
  fpstat := BitVec.ofNat 64 (field bs 0x1130 4)
  stochseed := BitVec.ofNat 32 (field bs 0x1134 4)

/-- TXSTAT of an image; a restore clears DEPTH and IRREV (R310). -/
def imageTxstat (w : Nat) : TxStat where
  expcode := BitVec.ofNat 8 (w / 2 ^ 40)
  aborts := BitVec.ofNat 8 (w / 2 ^ 16)
  capcount := BitVec.ofNat 4 (w / 2 ^ 12)
  cause := BitVec.ofNat 4 (w / 2 ^ 8)
  keepage := w.testBit 6
  irrev := false
  depth := 0

/-! ### The matrix sidecar (R38) -/

/-- The 1,024 bytes from offset 0x1200 of the frame of a context that owned the matrix unit. A unit without weights has weight
format code 0. (DEDUCED: log entry 68.) -/
def Matrix.sidecar (m : Matrix) : List Byte :=
  bytesOfNat 8 (b2n (m.dirty0 || m.dirty1) + 2 * b2n (!m.dirty0 && m.dirty1) + 4 * b2n m.knots.isSome +
    (m.wfmt.elim 0 BitVec.toNat) * 2 ^ 8 + m.ringSize % 8 * 2 ^ 13) ++
  bytesOfNat 8 m.wsrc.toNat ++ bytesOfNat 4 m.lo.toNat ++ bytesOfNat 4 m.hi.toNat ++ bytesOfNat 8 0 ++
  (m.bias.toList.flatMap fun l => bytesOfNat 4 l.toNat) ++
  ((List.range 257).flatMap fun i => bytesOfNat 2 ((m.knots.getD []).getD i 0).toNat) ++ List.replicate 350 0

/-- The state of a matrix unit that a sidecar describes; the bank and the weights come back from the matrix image and from
their tile. -/
def sidecarMx (bs : List Byte) : Matrix :=
  let st := field bs 0 8
  let lo := BitVec.ofNat 32 (field bs 16 4)
  let hi := BitVec.ofNat 32 (field bs 20 4)
  { Matrix.idle with
    dirty0 := st.testBit 0 && !st.testBit 1, dirty1 := st.testBit 0 && st.testBit 1
    wfmt := if st / 2 ^ 8 % 32 = 0 then none else some (BitVec.ofNat 5 (st / 2 ^ 8))
    wsrc := BitVec.ofNat 64 (field bs 8 8), bias := lanesOfBytes ((bs.drop 32).take 128)
    knots := if st.testBit 2 then some ((List.range 257).map fun i => BitVec.ofNat 16 (field bs (160 + 2 * i) 2)) else none
    lo := lo, hi := hi, s := (knotScale lo hi).getD 0, ringSize := st / 2 ^ 13 % 8 }

/-- A sidecar with a nonzero reserved field (R7, R38). -/
def badSidecar (bs : List Byte) : Bool :=
  let st := field bs 0 8
  st / 2 ^ 16 ≠ 0 || st / 2 ^ 3 % 2 ^ 5 ≠ 0 || field bs 24 8 ≠ 0 || (bs.drop 674).any (· ≠ 0)

/-- The context of a valid image. -/
def imageCtx (bs : List Byte) (gt : Word) : Ctx :=
  let pops := pendPops bs gt
  { Ctx.vacantOne with
    run := .running
    asid := BitVec.ofNat 12 (field bs 0 8 / 2 ^ 20)
    pc := BitVec.ofNat 64 (field bs 0x1100 8)
    r := imageRegs bs pops
    trapcause := BitVec.ofNat 64 (field bs 0x1138 8)
    trappc := BitVec.ofNat 64 (field bs 0x1140 8)
    trapval := BitVec.ofNat 64 (field bs 0x1148 8)
    intrap := (field bs 0 8).testBit 14
    txstat := imageTxstat (field bs 0x1150 8)
    txage := BitVec.ofNat 64 (field bs 0x1158 8)
    pops := pops }

/-! ### Frame pools (R301) -/

def Space.framePool (p : Space) : Nat := bitsAt p.ctxframe.toNat 49 13 * 8192
def Space.hasPool (p : Space) : Bool := p.ctxframe.getLsbD 0

/-- The physical address of a frame. -/
def State.frameAddr (s : State) (asid frame : Nat) : Nat := (s.space asid).framePool + 8192 * frame

/-- A read of a pool or a frame that a core makes at the home or the agent of its lines: the bytes, and whether a line is
poisoned or lies with a dead agent (R16, R177, R328). -/
def State.poolRead (s : State) (core asid pa n : Nat) : State × List Byte × Bool :=
  let rs := (lineChunks pa n).map fun c => s.engRead (.mem c.1) c.2
  (s.lookups (linesIn pa n) (some core) (BitVec.ofNat 12 asid) false, rs.flatMap (·.1), rs.any (·.2))

/-- A write of a pool or a frame that a core makes there: a write of an absent line is discarded and recorded, and a line that is
written whole has valid check bits (R16, R177, R324). -/
def State.poolWrite (s : State) (core asid pa : Nat) (bs : List Byte) : State :=
  let cs := lineChunks pa bs.length
  let s := s.lookups (linesIn pa bs.length) (some core) (BitVec.ofNat 12 asid) true
  let s := cs.foldl (fun s c => s.engWrite (dieOf core) (.mem c.1) ((bs.drop (c.1 - pa)).take c.2) false) s
  s.cleanLines ((cs.filter fun c => c.2 = 128 && s.paKind c.1 = .memory && !s.lineDead (c.1 / 128)).map fun c => c.1 / 128)

/-- Takes the index on top of a pool's stack; an index outside the pool is recorded. A pool that cannot be read gives none. The
reserved bytes of the pool's header are ignored (R7, R301). (DESIGN CHOICE: log entry 128.) -/
def State.takeFrame (s : State) (core asid : Nat) : State × Option Nat :=
  let p := s.space asid
  let b := p.framePool
  if !p.hasPool then (s, none)
  else
    let h := s.poolRead core asid b 8
    let top := field h.2.1 4 4
    if h.2.2 || top = 0 then (h.1, none)
    else
      let e := h.1.poolRead core asid (b + 0x40 + 2 * (top - 1)) 2
      let i := natOfBytes e.2.1
      if e.2.2 then (e.1, none)
      else if i = 0 || field h.2.1 0 4 < i then (e.1.log (dieOf core) (.badPool asid), none)
      else (e.1.poolWrite core asid (b + 4) (bytesOfNat 4 (top - 1)), some i)

/-- Returns an index to its pool. -/
def State.returnFrame (s : State) (core asid frame : Nat) : State :=
  let p := s.space asid
  let b := p.framePool
  if !p.hasPool then s
  else
    let h := s.poolRead core asid (b + 4) 4
    let top := natOfBytes h.2.1
    if h.2.2 then h.1
    else (h.1.poolWrite core asid (b + 0x40 + 2 * top) (bytesOfNat 2 frame)).poolWrite core asid (b + 4) (bytesOfNat 4 (top + 1))

/-! ### A context under another name -/

/-- Renames a context in what refers to it. -/
def renamed (k j n : Nat) : Nat := if n = k then j else n

def Dir.rename (d : Dir) (f : Nat → Nat) : Dir :=
  { d with readers := d.readers.map f, reducers := d.reducers.map f, writer := d.writer.map f
           waiting := d.waiting.map fun n => if n < 8192 then n else 8192 + f (n - 8192)
           many := d.many.map fun m => (m.1, f m.2) }

def Notice.rename (n : Notice) (f : Nat → Nat) : Notice := { n with k := f n.k }

def Msg.rename (m : Msg) (f : Nat → Nat) : Msg :=
  match m with
  | .post p => .post { p with k := f p.k }
  | .outcome k r c => .outcome (f k) r c
  | .kick r c n => .kick r c (n.rename f)
  | .ack k i e => .ack (f k) i e
  | .remote k a z ls o => .remote (f k) a z ls o

def Meta.rename (m : Meta) (f : Nat → Nat) : Meta := { m with notice := m.notice.map fun n => (f n.1, n.2) }

def Tx.rename (x : Tx) (f : Nat → Nat) : Tx :=
  { x with partials := x.partials.map fun p => { p with k := f p.k }
           held := x.held.map fun h => match h with
             | .post p => .post { p with k := f p.k }
             | .cmd q i => .cmd q i }

def Ctx.rename (c : Ctx) (f : Nat → Nat) : Ctx :=
  { c with info := c.info.rename f
           tx := c.tx.map fun x => x.rename f
           reds := c.reds.map fun p => { p with k := f p.k }
           ring := c.ring.map fun r => { r with allocs := r.allocs.map fun a => { a with notice := a.notice.rename f } } }

def Core.rename (c : Core) (f : Nat → Nat) : Core :=
  { c with ways := c.ways.map fun w => match w with
             | .scratch k => .scratch (f k)
             | u => u
           ink := c.ink.map fun t => t.map fun t => { t with owner := f t.owner }
           mx := { c.mx with owner := c.mx.owner.map f, claimers := c.mx.claimers.map f }
           notices := c.notices.map fun n => { n.rename f with ctx := f n.ctx }
           overflow := c.overflow.map fun n => { n.rename f with ctx := f n.ctx }
           handlers := c.handlers.map fun h => { h with notice := h.notice.map fun n => (f n.1, n.2) }
           outlist := c.outlist.map fun o => { o with info := o.info.rename f } }

def Die.rename (v : Die) (f : Nat → Nat) : Die :=
  { v with tokenq := v.tokenq.map f
           merge0 := v.merge0.map fun m => { m with k := f m.k }
           merge1 := v.merge1.map fun m => { m with k := f m.k } }

def Ote.rename (o : Ote) (f : Nat → Nat) : Ote :=
  { o with buffers := Tbl.mapV o.buffers fun _ b => { b with poster := f b.poster }
           receives := Tbl.mapV o.receives fun _ r => { r with posted := { r.posted with poster := f r.posted.poster } }
           transmits := Tbl.mapV o.transmits fun _ t => { t with k := f t.k }
           held := o.held.foldl (fun t e => Tbl.set t (f e.1) e.2) [] }

/-- Context k goes by the name j, which no context has, in everything that refers to it. -/
def State.rename (s : State) (k j : Nat) : State :=
  let f := renamed k j
  let moved := match Tbl.get? s.ctxs k with
    | some c => Tbl.set (Tbl.erase s.ctxs k) j c
    | none => s.ctxs
  { s with ctxs := Tbl.mapV moved fun _ c => c.rename f
           cores := Tbl.mapV s.cores fun _ c => c.rename f
           dies := s.dies.map fun v => v.rename f
           msgs := Tbl.mapV s.msgs fun _ m => m.rename f
           dirs := Tbl.mapV s.dirs fun _ d => d.rename f
           tokenHolder := s.tokenHolder.map f
           palCopies := s.palCopies.map fun p => { p with k := f p.k }
           ote := s.ote.rename f
           due := s.due.map fun d => { d with ev := { d.ev with k := f d.ev.k } } }

/-! ### What keeps a context in its slot -/

/-- A post of the context is on its way, or its outcome is (R35, R145). -/
def State.postsOut (s : State) (k : Nat) : Bool :=
  s.msgs.any fun m => match m.2 with
    | .post p => p.k = k
    | .outcome j _ _ => j = k
    | _ => false

/-- The matrix unit has accepted a drain of the context, which stands at the head of its commands, and can finish it (R38,
R309). -/
def Ctx.draining (c : Ctx) : Bool := match vat c.cmds 0 with
  | m :: _ => m.fn = 0x14 && m.bound = .free && c.room 1
  | [] => false

/-- Nothing of the context but pops and stores is in flight, so that it may move to a shadow slot: its other long-latency
producers and its drains are complete (R35, R308, R309). -/
def State.movable (s : State) (k : Nat) : Bool :=
  let c := s.ctx k
  c.results.isEmpty && c.loads.isEmpty && c.abort.isNone && c.answer.isNone && c.amov.isNone && !c.joined && !c.speculative &&
    !s.postsOut k && !c.draining && !((s.mx (coreOf k)).owner = some k && (s.mx (coreOf k)).running.isSome) &&
    match c.run with
    | .running => true
    | .waitev _ => true
    | .barwait _ _ _ => true
    | .parked _ => true
    | .blot => true
    | _ => false

/-- The context waits on its mailbox or has notices waiting, so that it stays in its resident slot (R146). -/
def Ctx.onMailbox (c : Ctx) : Bool := (c.pops.any fun p => p.q = 11) || !(vat c.elems 11).isEmpty

/-- The context owns an inkwell table. -/
def State.ownsInk (s : State) (k : Nat) : Bool :=
  (s.core (coreOf k)).ink.toList.any fun t => match t with
    | some t => t.owner = k
    | none => false

/-- What keeps a context on its core (R36, R150, R171, R221): its queues, its claim, an inkwell table, the token. -/
def State.kept (s : State) (k : Nat) : Bool :=
  let c := s.ctx k
  !c.queuesEmpty || !c.claim.isEmpty || s.ownsInk k || s.tokenHolder = some k ||
    (s.die (dieOf (coreOf k))).tokenq.contains k

/-- The context may be written to a frame: it may move, nothing keeps it on its core, and none of its accesses, messages or
copies is under way. -/
def State.mayLeave (s : State) (k : Nat) : Bool :=
  s.movable k && !s.kept k && (s.ctx k).tx.isNone && s.released k &&
    !(s.msgs.any fun m => match m.2 with
      | .remote j _ _ _ _ => j = k
      | _ => false)

/-- A resident context whose address space is held has that reason to leave, where it has no other (R308). -/
def State.markHold (s : State) (k : Nat) : State :=
  let c := s.ctx k
  if k < 32768 && c.run ≠ .vacant && c.why.isNone && (s.space c.asid.toNat).hold then
    (s.updCtx k fun c => { c with why := some .hold }).causeOnce .contextStream { core := coreOf k }
  else s

/-- A context stays in its slot after all. -/
def State.unmark (s : State) (k : Nat) : State := (s.updCtx k fun c => { c with why := none }).markHold k

/-- The shadow slots of a core that hold nothing. -/
def State.freeShadow (s : State) (core : Nat) : Option Nat :=
  [shadowKey core 0, shadowKey core 1].find? fun k => (s.ctx k).run = .vacant

/-- The matrix unit of a context that leaves its resident slot is given up (R309). -/
def State.dropMx (s : State) (k : Nat) : State := if (s.mx (coreOf k)).owner = some k then s.saveMx k else s

/-- A context leaves its resident slot for a shadow slot (R308). -/
def State.toShadow (s : State) (k j : Nat) (w : Left) : State :=
  let s := s.dropMx k
  let s := (s.updCtx k fun c => { c with why := some w, leftAt := s.gt }).rename k j
  let s := match w with
    | .hold => s.updDie (dieOf (coreOf k)) fun v => { v with counts := { v.counts with held := v.counts.held + 1 } }
    | .swapped => s.updDie (dieOf (coreOf k)) fun v => { v with counts := { v.counts with swaps := v.counts.swaps + 1 } }
    | _ => s
  s.causeOnce .fillSlot { core := coreOf k, n := if w = .swapped then 1 else 0 }

/-- A fault buffer entry whose first thread is in a frame. -/
def FaultEntry.named (e : FaultEntry) (frame : Nat) : FaultEntry := { e with frame := BitVec.ofNat 16 frame }

/-- A context's image, and the sidecar of one that owned the matrix unit, are written to a frame (R34, R38). -/
def State.writeFrame (s : State) (core pa : Nat) (c : Ctx) : State :=
  s.poolWrite core c.asid.toNat pa (c.image c.pc ++ match c.mxSaved with
    | some m => m.sidecar
    | none => [])

/-- A context's image is written to a frame and the context joins the out-list (R301, R308). -/
def State.toFrame (s : State) (k frame : Nat) (w : Left) : State :=
  let core := coreOf k
  let s := s.dropMx k
  let c := s.ctx k
  let asid := c.asid.toNat
  let key := frameKeys + s.nextId * 4096 + core
  let s := (s.newId.writeFrame core (s.frameAddr asid frame) c).rename k key
  let e : OutEntry := ⟨c.asid, frame, key, w, if k < 32768 then s.gt else c.leftAt, c.info, c.remoteFail, c.poison, c.entry⟩
  let s := { s with ctxs := Tbl.erase s.ctxs key }
  let s := s.updCore core fun v => { v with outlist := v.outlist ++ [e] }
  let s := match c.entry with
    | some i => s.updDie (dieOf core) fun v =>
      { v with faults := vput v.faults i ((vat v.faults i).map (FaultEntry.named · frame)) }
    | none => s
  let s := match w with
    | .hold => if k < 32768 then s.updDie (dieOf core) fun v => { v with counts := { v.counts with held := v.counts.held + 1 } } else s
    | _ => s
  s.causeOnce .fillSlot { core := core }

/-- Writes context k to a frame, where it may leave, its pool has a free frame and the out-list has room. -/
def State.tryFrame (s : State) (k : Nat) (w : Left) : State × Bool :=
  let core := coreOf k
  if s.mayLeave k && (s.core core).outlist.length < 64 then
    let asid := (s.ctx k).asid.toNat
    match s.takeFrame core asid with
    | (t, some f) =>
      match s.homesNeed k true (linesIn (s.frameAddr asid f) 8192) with
      | some u => (u, false)
      | none => (((linesIn (s.frameAddr asid f) 8192).foldl (fun t l => t.servedHome (t.tileOf l) k) t).toFrame k f w, true)
    | (t, none) => (t, false)
  else (s, false)

/-- One context's way out of its slot: the state, and whether it has still to leave. -/
def State.streamOne (s : State) (k : Nat) : State × Bool :=
  let c := s.ctx k
  match c.run, c.why with
  | .vacant, _ => (s, false)
  | _, none => (s, false)
  | _, some .ready => (s, false)
  | _, some w =>
    let held := (s.space c.asid.toNat).hold
    if w = .hold && !held then (if k < 32768 then s.unmark k else s, false)
    else if w = .hold && k < 32768 && s.kept k then (s, true)
    else if c.speculative then
      (match c.tx with
        | some x => if x.phase = .live && c.abort.isNone && k < 32768 then s.startAbort k ⟨5, 0, .leave⟩ else s
        | none => s, true)
    else match if w = .swapped && k < 32768 then (s, false) else s.tryFrame k w with
      | (t, true) => (t, false)
      | (t, false) =>
        if 32768 ≤ k then (t, true)
        else if c.onMailbox then if w = .swapped then (t.unmark k, false) else (t, true)
        else match t.freeShadow (coreOf k) with
          | some j =>
            if t.movable k && t.tokenHolder ≠ some k && (w ≠ .hold || t.mayLeave k) then (t.toShadow k j w, true)
            else if t.movable k && t.tokenHolder = some k && c.isParked then (t.toShadow k j w, true)
            else (t, true)
          | none => if w = .swapped then (t.unmark k, false) else (t, true)

/-- The contexts of a core that are to leave their slots do so as far as they may; those that may not yet are looked at
again (R301, R308). -/
def execContextStream (s : State) : Out :=
  let core := s.ev.core
  let keys := [shadowKey core 0, shadowKey core 1] ++ (List.range 8).map (keyOf core)
  let r := keys.foldl (fun (r : State × Bool) k => let q := r.1.streamOne k; (q.1, r.2 || q.2)) (s, false)
  .next (if r.2 && !r.1.due.contains ⟨.contextStream, s.ev⟩ then { r.1 with ev := s.ev }.later .contextStream else r.1)

/-! ### Restoring (R35, R308, R310) -/

/-- A restored context takes a free resident slot: PSCOUNT is 0, withdrawn pops are issued again, and the matrix unit is
claimed again (R35, R166, R309). -/
def State.resume (s : State) (k : Nat) : State :=
  let s := s.updCtx k fun c =>
    { c with run := .running, why := none, woken := false, blocked := false, waitSince := none
             info := { c.info with pscount := 0 }, pops := c.pops.map fun p => { p with since := s.gt } }
  let s := ((s.ctx k).pops.map (·.q)).eraseDups.foldl (fun s q => s.causeOnce .queuePopDeliver { k := k, q := q }) s
  if (s.ctx k).mxSaved.isSome then s.cause .matrixCommandExecute { k := k, n := 1 } else s

/-- A context comes back from a shadow slot. -/
def State.fromShadow (s : State) (j k : Nat) : State := (s.rename j k).resume k

/-- The code of R310 of an image in a frame with the sidecar that follows it, and whether they cannot be read; none where it can be
restored on a core. -/
def State.frameCode (s : State) (core : Nat) (image sidecar : List Byte × Bool) : Option Nat :=
  let own := (field image.1 0 8).testBit 15
  match s.imageCode core image.1 with
  | some n => some n
  | none => if image.2 || (own && (sidecar.2 || badSidecar sidecar.1)) then some 2 else none

/-- The out-listed context of an entry is restored, or parks with KIND 7 where its image is invalid (R310).
(DEDUCED: log entry 78.) -/
def State.fromFrame (s : State) (core : Nat) (o : OutEntry) (k : Nat) : State :=
  let asid := o.asid.toNat
  let pa := s.frameAddr asid o.frame
  let r := s.poolRead core asid pa 0x1200
  let bs := r.2.1
  let own := (field bs 0 8).testBit 15
  let q := if own then r.1.poolRead core asid (pa + 0x1200) 0x400 else (r.1, [], false)
  let s := q.1
  let bad := s.frameCode core r.2 q.2
  match bad with
  | some n =>
    let d := dieOf core
    let e : FaultEntry := ⟨BitVec.ofNat 48 (field bs 0x1100 6), 0, 7, o.asid, BitVec.ofNat 8 (clusterOf core), BitVec.ofNat 3 (slotOf k),
      BitVec.ofNat 12 core, 1, BitVec.ofNat 16 o.frame, 0, s.gtOf d⟩
    let r := (s.poolWrite core asid (pa + 0x1148) (bytesOfNat 8 n)).offer d e
    r.1.updCore core fun v => { v with outlist := v.outlist.map fun p => if p.key = o.key then { p with why := .parked 7, entry := r.2 } else p }
  | none =>
    let c := imageCtx bs s.gt
    let s := s.updCore core fun v => { v with outlist := v.outlist.filter fun p => p.key ≠ o.key }
    let saved := if own then some (sidecarMx q.2.1) else none
    let s := (s.returnFrame core asid o.frame).setCtx o.key
      { c with info := o.info, remoteFail := o.remoteFail, poison := o.poison, why := some o.why, mxSaved := saved }
    let s := (s.rename o.key k).resume k
    s.refillQ9 k

end Sys2Proof.Machine
end

