-- ==== Sys2Proof/Machine/Palimpsest.lean ====
section
/-! DEFINITION. Major 0x2E: the palimpsest cache (R161 to R167). -/

namespace Sys2Proof.Machine

def State.palEntry (s : State) (i : Nat) : PalEntry := Tbl.getD (s.die s.myDie).pal i PalEntry.free
def State.setPal (s : State) (i : Nat) (e : PalEntry) : State :=
  s.updDie s.myDie fun v => { v with pal := Tbl.set v.pal i { e with gen := e.gen + 1 } }

/-! ### Checking (R163, R166) -/

/-- A magnitude as a number of units of a power of 2. -/
abbrev Scaled := Nat × Int

def scaledMax (a b : Scaled) : Scaled := if ltScaled a.1 a.2 b.1 b.2 then b else a

/-- The magnitude of a dyadic number. -/
def dyMag (a : Int × Int) : Scaled := (a.1.natAbs, a.2)

/-- max |x − y| ≤ θ · max |y|, with every element a number (R163). -/
def palClose (θ : FVal) (xs ys : List FVal) : Bool :=
  let fin := fun (v : FVal) => !v.isNan && !v.isInf
  let diff := ((xs.zip ys).map fun p => dyMag (dyAdd (dyadic p.1) (dyNeg (dyadic p.2)))).foldl scaledMax (0, 0)
  let big := (ys.map fun y => dyMag (dyadic y)).foldl scaledMax (0, 0)
  let bound := dyMag (dyMul (dyadic θ) ((big.1 : Int), big.2))
  xs.all fin && ys.all fin && !ltScaled bound.1 bound.2 diff.1 diff.2

/-- Counts a check, for the context and for the die. -/
def State.countCheck (s : State) (hit : Bool) : State :=
  let s := s.updTh fun c =>
    let lo := c.info.pscount.extractLsb' 0 32
    let hi := c.info.pscount.extractLsb' 32 32
    { c with info := { c.info with pscount := if hit then hi ++ (lo + 1) else (hi + 1) ++ lo } }
  s.updDie s.myDie fun v => if hit then { v with pshit := v.pshit + 1 } else { v with psmiss := v.psmiss + 1 }

/-- The check of the thread is over. -/
def State.palDone (s : State) : State := s.updTh fun c => { c with palGen := none, answer := none }

def State.palMiss (s : State) (d : BitVec 6) : Done := .next ((s.palDone.countCheck false).setP d 0)

/-- Where a location lies: in the L1 arrays or at a physical address; none where another core's check fails. -/
def State.placeByte (s : State) (l : Loc) : Option (Bool × Nat) :=
  match l.place with
  | .own b => some (true, b)
  | .phys pa _ => some (false, pa)
  | .remote c sl a => (s.remoteByte s.th.asid 128 ⟨0, c, sl, a, l.va, 0⟩).map fun b => (true, b)

/-- A store of the thread to one of the lines is not visible yet. -/
def State.storesOn (s : State) (ls : List Loc) : Bool :=
  ls.any fun l => match l.place with
    | .phys pa _ => s.th.stores.any fun q => q.line = pa / 128
    | _ => false

/-- A hit: the tag advances and the copy engine owes the copy, whose lines pass the checks of R180 first. The copy comes after
the thread's earlier accesses of those lines. -/
def State.palHit (s : State) (d : BitVec 6) (i : Nat) (e : PalEntry) (step : W32) (dst : Word) : Done :=
  let n := e.outbytes.toNat / 128
  let at' := fun (a : Word) => (List.range n).map fun j => (j, a + BitVec.ofNat 64 (128 * j))
  s.access .store 128 (at' dst) fun ds => s.access .load 128 (at' (e.outptr.zeroExtend 64)) fun ss =>
    if s.th.loadOverlaps 128 ds || s.storesOn (ds ++ ss) ||
        ((ds.any fun l => l.place matches .remote ..) && s.remoteStores s.cur s.nextId) then .stay s
    else match (ds ++ ss).find? fun l => (s.placeByte l).isNone with
    | some l => .trap .scratchRange l.va
    | none =>
      let lines := (ds.zip ss).filterMap fun p => match s.placeByte p.1, s.placeByte p.2 with
        | some a, some b => some (a, b)
        | _, _ => none
      let pend := (lines.filter fun p => p.1.1).map fun p => p.1.2 / 128
      let s := (s.palDone.setPal i { e with tag := step }).countCheck true
      let id := s.nextId
      let s := { s.newId with palCopies := s.palCopies ++ [PalCopy.mk id s.cur lines] }.addPending pend
      .next ((s.cause .palimpsestCopy { k := s.cur, id := id }).setP d (BitVec.allOnes 32))

/-- The comparison of a check whose entry matches and still has the generation that the check sampled. -/
def State.palCompare (s : State) (d : BitVec 6) (i : Nat) (e : PalEntry) (θ : FVal) (step : W32) (x dst : Word) : Done :=
  let n := e.inlen.toNat
  let at' := fun (a : Word) (o : Nat) => (List.range n).map fun j => (o + j, a + BitVec.ofNat 64 (4 * j))
  s.access .load 4 (at' x 0 ++ at' (e.inptr.zeroExtend 64) n) fun ls =>
    if s.th.loadOverlaps 4 ls then .stay s
    else s.withRemote 4 ls (fun _ => 0) .load fun s ans =>
      match s.readLanes 4 ls ans with
      | .inl t => .stay t
      | .inr vs =>
        if vs.any fun v => v.2.isNone then .trap .dataPoison 0
        else
          let s := s.readMarks s.cur ls
          let fs := vs.map fun v => fmtF32.decode (v.2.getD 0).toNat
          if palClose θ (fs.take n) (fs.drop n) then s.palHit d i e step dst else s.palMiss d

/-- DEDUCED: log entry 65. -/
def execPschk (r : R3) (s : State) : Out :=
  s.whole r.sel r.neg [sx r.a r.am, sx r.b r.bm, sx0 r.c, ⟨.x (r.c.toNat + 1), false⟩] [] fun s => s.outsideTx <|
    let c0 := s.x r.c
    let c1 := s.th.getX (r.c.toNat + 1)
    let θ := fmtF16.decode (c1.toNat / 2 ^ 48)
    if θ.isNan || θ.isInf || θ.lt (.fin false 0 0) then .trap .palimpsestOperand 1
    else if c1.extractLsb' 12 36 ≠ 0 then .trap .palimpsestOperand 2
    else if (s.x r.a).toNat % 4 ≠ 0 || (s.x r.b).toNat % 128 ≠ 0 then .trap .palimpsestOperand 3
    else if s.heldBack false then .stay s
    else
      let i := c1.toNat % 4096
      let e := s.palEntry i
      let step := c0.setWidth 32
      let s := s.updTh fun c => { c with palGen := some (c.palGen.getD e.gen) }
      if s.th.palGen = some e.gen && e.valid && e.asid = s.th.asid && e.block = c0.extractLsb' 32 32 && e.tag = step - 1 then
        s.palCompare r.d i e θ step (s.x r.a) (s.x r.b)
      else s.palMiss r.d

/-- An earlier copy has still to write a line that a copy reads or writes. -/
def State.palBehind (s : State) (p : PalCopy) : Bool :=
  s.palCopies.any fun o => o.id < p.id && o.lines.any fun q => p.lines.any fun r => r.1 = q.1 || r.2 = q.1

/-- Copies one line with its poison (R163). -/
def State.palLine (s : State) (d : Nat) (q : EPlace × EPlace) : State :=
  let v := s.engRead q.2 128
  let s := s.engWrite d q.1 v.1 v.2
  if v.2 then s
  else match q.1 with
    | .scr b => { s with scratchPoison := s.scratchPoison.filter (· ≠ b / 128) }
    | .mem pa => if s.lineDead (pa / 128) then s else s.setBad (pa / 128) false

/-- The copy engine copies a hit entry's output to its destination, in ascending address order; a poisoned line is copied as
poison (R163). A source or a destination that another copy or command has still to write is waited for. -/
def execPalimpsestCopy (s : State) : Out :=
  let k := s.ev.k
  match s.palCopies.find? fun p => p.id = s.ev.id with
  | none => .next s
  | some p =>
    let place := fun (q : Bool × Nat) => if q.1 then EPlace.scr q.2 else .mem q.2
    let ps := p.lines.map fun q => (place q.1, place q.2)
    let src := memLines (ps.map (·.2))
    let dest := memLines (ps.map (·.1))
    let own := (p.lines.filter fun q => q.1.1).map fun q => q.1.2 / 128
    let asid := (s.ctx k).asid
    if s.palBehind p || ((p.lines.filter fun q => q.2.1).any fun q => s.pendingBut own (q.2.2 / 128)) then
      .next (s.later .palimpsestCopy)
    else match s.homesNeed k false src, s.homesNeed k true dest with
    | none, none =>
      let s := ps.foldl (State.palLine · (dieOf (coreOf k))) ((s.engServe k asid false src).engServe k asid true dest)
      let s := s.clearPending own
      .next { s with palCopies := s.palCopies.erase p }
    | some t, _ => .next ({ t with ev := s.ev }.later .palimpsestCopy)
    | none, some t => .next ({ t with ev := s.ev }.later .palimpsestCopy)

/-! ### Storing (R164) -/

/-- The entry that a put record describes, none where it breaks a limit. -/
def palRecord (asid : BitVec 12) (ws : List Nat) : Option PalEntry :=
  let w := fun i => ws.getD i 0
  let block := w 0 % 2 ^ 32
  let step := w 0 / 2 ^ 32
  let inlen := w 3 % 2 ^ 32
  let out := w 3 / 2 ^ 32
  if w 1 % 4 ≠ 0 || 2 ^ 48 ≤ w 1 || w 2 % 128 ≠ 0 || 2 ^ 48 ≤ w 2 || inlen = 0 || 65536 < inlen ||
      out < 128 || 1048576 < out || out % 128 ≠ 0 || (ws.drop 4).any (· ≠ 0) then none
  else some { valid := true, asid := asid, block := BitVec.ofNat 32 block, tag := BitVec.ofNat 32 step
              inptr := BitVec.ofNat 48 (w 1), inlen := BitVec.ofNat 17 inlen, outptr := BitVec.ofNat 48 (w 2)
              outbytes := BitVec.ofNat 21 out, gen := 0 }

def execPsput (r : R3) (s : State) : Out :=
  s.whole r.sel r.neg [sx r.a r.am, sx r.c r.cm] [dx r.d] fun s => s.outsideTx <| s.released? <|
    let a := s.x r.a
    let c := s.x r.c
    if a.toNat % 64 ≠ 0 || 4096 ≤ c.toNat then .next (s.setX r.d 1)
    else s.access .load 8 ((List.range 8).map fun i => (i, a + BitVec.ofNat 64 (8 * i))) fun ls =>
      s.withRemote 8 ls (fun _ => 0) .load fun s ans =>
        match s.readLanes 8 ls ans with
        | .inl t => .stay t
        | .inr vs =>
          if vs.any fun v => v.2.isNone then .next (s.updTh fun x => x.takeX r.d.toNat a none)
          else
            let s := s.readMarks s.cur ls
            match palRecord s.th.asid (vs.map fun v => (v.2.getD 0).toNat) with
            | none => .next (s.setX r.d 1)
            | some e => .next ((s.setPal c.toNat { e with gen := (s.palEntry c.toNat).gen }).setX r.d 0)

/-! ### Invalidating (R165) -/

/-- `PSINV` over a range. -/
def State.palInvalidate (s : State) (r : R3) : Out :=
  s.whole r.sel r.neg [sx r.a r.am, sx r.b r.bm] [dx r.d] fun s => s.outsideTx <|
    let a := (s.x r.a).toNat
    let n := (s.x r.b).toNat
    if 4096 < a + n then .trap .palimpsestOperand 4
    else
      let hit := ((List.range n).map (a + ·)).filter fun i =>
        (s.palEntry i).valid && (r.mod.getLsbD 0 || (s.palEntry i).asid = s.th.asid)
      .next ((hit.foldl (fun s i => s.setPal i { s.palEntry i with valid := false }) s).setX r.d (BitVec.ofNat 64 hit.length))

def execPsinv (r : R3) (s : State) : Out :=
  if r.mod.getLsbD 0 then s.privileged (.psinv r) (s.palInvalidate r) else s.palInvalidate r

end Sys2Proof.Machine
end

