-- ==== Sys2Proof/Machine/Tasks.lean ====
section
/-! DEFINITION. Task records, deques and inboxes (R269, R270, R273), the end of a thread (R282), and major 0x24 (R278 to
R284). -/

namespace Sys2Proof.Machine

/-! ### Records (R269) -/

def TaskRec.asid (r : TaskRec) : Nat := r.ctl.toNat / 2 ^ 16 % 4096
def TaskRec.prio (r : TaskRec) : Nat := r.ctl.toNat % 8
def TaskRec.spec (r : TaskRec) : Bool := r.ctl.getLsbD 10
def TaskRec.slot (r : TaskRec) : Nat := r.launch.toNat

/-- CTL of a record. -/
def recordCtl (tag asid : Nat) (spec forked early : Bool) (prio : Nat) : Word :=
  BitVec.ofNat 64 (prio % 8 + b2n early * 2 ^ 8 + b2n forked * 2 ^ 9 + b2n spec * 2 ^ 10 + asid % 4096 * 2 ^ 16 + tag % 2 ^ 16 * 2 ^ 32)

/-- A record or thread of a launch ends: it counts toward the launch's retirement (R265). -/
def State.ended (s : State) (slot : Nat) (triggered : Bool) : State :=
  match s.launch? slot with
  | none => s
  | some _ =>
    ((s.updLaunch slot fun l => { l with live := l.live - 1, untriggered := l.untriggered - b2n (!triggered) }).causeOnce
      .launchRetire { n := slot }).causeOnce .dispatchTurn {}

/-- A record joins a launch. -/
def State.begun (s : State) (slot : Nat) : State :=
  s.updLaunch slot fun l => { l with live := l.live + 1, untriggered := l.untriggered + 1 }

/-- A record that may not become a thread: its address space is not VALID, or its side has stopped or lost (R272, R290). -/
def State.refused (s : State) (r : TaskRec) : Bool :=
  !(s.space r.asid).valid || match s.launch? r.slot with
    | some l => l.side ≠ 0 && r.spec && (l.stopped || l.verdict = some false)
    | none => false

/-- A record that a core may bind now: its address space is not held, and the core lies in its partition (R294, R308); one that
may not become a thread needs no partition. (DEDUCED: log entry 73.) -/
def State.bindable (s : State) (core : Nat) (r : TaskRec) : Bool :=
  !(s.space r.asid).hold && (s.refused r || s.inPartition r.asid core)

/-! ### Deques and inboxes (R273) -/

/-- Pushes a record at the bottom of a core's deque, for the context in a slot: none where the deque and the spill area of
that context are full. -/
def Core.push (c : Core) (slot : Nat) (r : TaskRec) : Option Core :=
  if c.deque.length < 32 then some { c with deque := c.deque ++ [r] }
  else if (vat c.spill slot).length < 64 then
    match c.deque with
    | [] => none
    | o :: d => some { c with deque := d ++ [r], spill := vput c.spill slot (vat c.spill slot ++ [o]), spilled := c.spilled ++ [slot] }
  else none

/-- The records of a deque from the top: those spilled, oldest first, then the resident ones. -/
def Core.spilledRecs (c : Core) : List TaskRec :=
  (c.spilled.foldl (fun (q : List TaskRec × Vector (List TaskRec) 8) i =>
    (q.1 ++ (vat q.2 i).take 1, vput q.2 i ((vat q.2 i).drop 1))) ([], c.spill)).1
def Core.records (c : Core) : List TaskRec := c.spilledRecs ++ c.deque

/-- Removes the record at a place from the top. A spilled record leaves the area that holds it. -/
def Core.removeRec (c : Core) (i : Nat) : Core :=
  if i < c.spilled.length then
    let slot := c.spilled.getD i 0
    let nth := ((c.spilled.take i).filter (· = slot)).length
    { c with spill := vput c.spill slot ((vat c.spill slot).eraseIdx nth), spilled := c.spilled.eraseIdx i }
  else { c with deque := c.deque.eraseIdx (i - c.spilled.length) }

/-- The stores that a core's threads made before a record was forked are visible (R274, R280). -/
def State.storesBefore (s : State) (core id : Nat) : Bool :=
  (s.ctxs.filter fun e => coreOf e.1 = core && e.1 < noCtx).all fun e => s.storesDone e.1 id

/-- The place of the record that the core pops: the bottom of the deque, and the youngest spilled record when the deque
is empty; records that it may not bind stay. -/
def State.popIndex (s : State) (core : Nat) : Option Nat :=
  let rs := (s.core core).records
  ((List.range rs.length).reverse).find? fun i => (rs[i]?).any (s.bindable core)

/-- The place of the record that the inbox serves first: the highest PRIO, the earliest among equals. -/
def State.inboxIndex (s : State) (core : Nat) : Option Nat :=
  let inbox := (s.core core).inbox
  inbox.zipIdx.foldl (fun (b : Option Nat) r =>
    if !s.bindable core r.1 then b
    else match b with
      | none => some r.2
      | some i => if ((inbox[i]?).map TaskRec.prio).getD 0 < r.1.prio then some r.2 else b) none

/-- A core has a record that it may bind. -/
def State.hasRecord (s : State) (core : Nat) : Bool :=
  let c := s.core core
  c.records.any (s.bindable core) || c.inbox.any (s.bindable core)

/-- A record has arrived at a core: a free slot takes it, or the wait-swap rule looks at it. -/
def State.arrived (s : State) (core : Nat) : State :=
  let s := s.updCore core fun c => { c with backoff := 64 }
  if (s.freeResident core).isSome then s.causeOnce .fillSlot { core := core } else s.causeOnce .waitSwap { core := core }

/-! ### Starting a thread (R27, R270) -/

/-- The thread of a record. A speculative task begins inside a transaction at depth 1 without a handler. -/
def TaskRec.thread (r : TaskRec) (gt : Word) : Ctx :=
  let regs := ((((Regs.start (stochSeed r.workid)).setX 1 r.arg).setX 2 r.workid).setX 3 r.widshape).setX 4 r.joinctr
  { Ctx.vacantOne with
    run := .running, asid := BitVec.ofNat 12 r.asid, pc := r.entry, r := regs
    txstat := if r.spec then { TxStat.none with depth := 1 } else TxStat.none
    txage := if r.spec then gt else 0
    tx := if r.spec then some (Tx.fresh none regs) else none
    info := ⟨r.workid, r.arg, some r, 0, false, none⟩ }

/-- Binds a record to a resident slot; one that may not become a thread is dropped. -/
def State.bind (s : State) (k : Nat) (r : TaskRec) : State :=
  if s.refused r then (s.ended r.slot false).causeOnce .fillSlot { core := coreOf k }
  else s.setCtx k (r.thread (s.gtOf (dieOf (coreOf k))))

/-! ### The end of a thread (R232, R245, R282) -/

/-- Step 2: pending guards resolve false. -/
def State.endGuards (s : State) (k : Nat) : State :=
  (List.range 8).foldl (fun s g => if vat (s.ctx k).r.guards g = .pending then s.setGuard k g false else s) s

/-- Tables that the thread owns are in use by instructions that are not complete (R155). -/
def State.inkHeld (s : State) (k : Nat) : Bool :=
  (List.range 4).any fun n => (s.ink (coreOf k) n).any (fun t => t.owner = k) && s.inkBusy (coreOf k) n

/-- Step 3: no command of the thread is outstanding. A kick whose status has come waits for its acknowledgement, which
does not hold the thread. (DEDUCED: log entry 74.) -/
def State.endIdle (s : State) (k : Nat) : Bool :=
  !(s.palCopies.any fun p => p.k = k) &&
    [0, 2, 4, 6, 8].all fun q => (vat (s.ctx k).cmds q).all fun c => q = 2 && c.fn = 0x03 && !c.barq && c.done = 1

/-- Step 3: the matrix unit is released. -/
def State.endMx (s : State) (k : Nat) : State :=
  (s.updMx (coreOf k) fun m =>
    let m := { m with claimers := m.claimers.filter (· ≠ k) }
    if m.owner = some k then m.released else m).updCtx k fun c => { c with mxSaved := none }

/-- Step 4: a handler's notice is acknowledged. -/
def State.endNotice (s : State) (k : Nat) : State :=
  match (s.ctx k).info.notice with
  | none => s
  | some (j, t) => (s.ackNotice j t 0).updCtx k fun c => { c with info := { c.info with notice := none } }

/-- Step 4: notices, scratchpad and inkwell tables. -/
def State.endHoldings (s : State) (k : Nat) : State :=
  let core := coreOf k
  let s := (s.closeRing k).updCtx k fun c => { c with elems := vput c.elems 11 [] }
  let s := (s.unpinWays core (s.ctx k).claim).updCtx k fun c => { c with claim := [] }
  (List.range 4).foldl (fun s n => match s.ink core n with
    | some t => if t.owner = k then s.inkRelease core n else s
    | none => s) s

/-- Step 3: the elements of a full view are discarded, since no instruction of the thread will pop them and its engine could not
finish the commands behind it. (DEDUCED: log entry 159.) -/
def State.endViews (s : State) (k : Nat) : State :=
  s.updCtx k fun c =>
    let c := [1, 3, 7, 9].foldl (fun (c : Ctx) q => if 16 ≤ c.waiting q then { c with elems := vput c.elems q [] } else c) c
    if 16 ≤ c.waiting 5 then { c with lines := [] } else c

/-- Steps 2 to 4 of the end of thread k, and whether they are done. (DEDUCED: log entry 70.) -/
def State.endWork (s : State) (k : Nat) : State × Bool :=
  let s := (s.endGuards k).endViews k
  if !s.endIdle k then (s, false)
  else
    let s := (s.endMx k).endNotice k
    if (s.ctx k).ringIdle && !s.inkHeld k then (s.endHoldings k, true) else (s, false)

/-- Step 6: the task counts toward its launch's retirement and the slot is freed. What still refers to the thread refers
to one that has ended. -/
def State.endFree (s : State) (k : Nat) : State :=
  let core := coreOf k
  let info := (s.ctx k).info
  let s := s.rename k (goneKey core)
  let s := { s with ctxs := Tbl.erase s.ctxs (goneKey core) }
  let s := s.updOte fun o => { o with held := Tbl.erase o.held (goneKey core) }
  let s := match info.task with
    | some r => s.ended r.slot info.triggered
    | none => s
  s.causeOnce .fillSlot { core := core }

/-- The end of the issuing thread from step 2 on, with step 5's fence, and what follows it. -/
def State.endThread (s : State) (f : State → Done) : Done :=
  match s.endWork s.cur with
  | (t, false) => .stay t
  | (t, true) => t.released? (f t)

/-- Step 1 for a transaction that is not a speculative task's: one under the token ends and gives the token up, a
speculative one aborts (R218, R221). -/
def State.endTransaction (s : State) (f : State → Done) : Done :=
  match s.th.tx with
  | none => f s
  | some x =>
    if s.th.txstat.irrev then f (s.endTx s.cur x.tiles)
    else if x.handler.isSome || s.th.txstat.depth ≠ 1 then .abort 3 0
    else match (s.th.info.task.bind fun r => s.launch? r.slot).bind (·.verdict) with
      | none => .wait s .decision
      | some true => s.settledStores (.wait (s.beginCommit s.cur x) .committing)
      | some false => .abort 5 0

def execTend (r : R3) (s : State) : Out :=
  s.whole r.sel r.neg [] [] fun s => s.endTransaction fun s => s.endThread fun s => .final (s.endFree s.cur)

/-! ### Launches (R279) -/

/-- A read of the device's dispatcher: a walk from the address space's root, as a load (R271, R295). -/
def State.dispXlate (s : State) (asid : Nat) (va : Nat) : Option Nat :=
  let pb := (s.space asid).ptbase.toNat
  if remoteBase ≤ va || !pb.testBit 0 then none
  else
    let root := bitsAt pb 49 12 * 4096
    match (s.walkReads 0 (BitVec.ofNat 12 asid) va 3 root).walkFrom (BitVec.ofNat 12 asid) va 3 root [] with
    | .leaf e _ => if e.grants .load then some (e.pa va) else none
    | _ => none

/-- A number of some bytes that the dispatcher reads; none where it does not translate or is poisoned: a poisoned ring entry or
header counts as one that does not translate. (DESIGN CHOICE: log entry 132.) -/
def State.dispRead (s : State) (asid va n : Nat) : Option Nat :=
  match s.dispXlate asid va with
  | none => none
  | some pa =>
    let r := (s.homeRead (pa / 128)).engRead (.mem pa) n
    if r.2 then none else some (natOfBytes r.1)

/-- The sixteen dwords of a header, read where it lies, each by the translation of its first byte, though a ring entry may name
an address that is not a multiple of 128. (DESIGN CHOICE: log entry 133.) -/
def State.headerWords (s : State) (asid va : Nat) : Option (List Nat) :=
  (List.range 16).foldr (fun i acc => match acc, s.dispRead asid (va + 8 * i) 8 with
    | some ws, some w => some (w :: ws)
    | _, _ => none) (some [])

def headerOf (ws : List Nat) : Header where
  ctl := BitVec.ofNat 64 (ws.getD 0 0)
  entry := BitVec.ofNat 64 (ws.getD 1 0)
  arg := BitVec.ofNat 64 (ws.getD 2 0)
  joinctr := BitVec.ofNat 64 (ws.getD 3 0)
  widshape := BitVec.ofNat 64 (ws.getD 4 0)
  ext := Vector.ofFn fun (i : Fin 6) => BitVec.ofNat 64 (ws.getD (5 + i.val) 0)
  graph := BitVec.ofNat 64 (ws.getD 11 0)

def Header.overlap (h : Header) : Bool := h.ctl.getLsbD 0
def Header.early (h : Header) : Bool := h.ctl.getLsbD 1
def Header.prio (h : Header) : Nat := h.ctl.toNat / 32 % 8
def Header.kind (h : Header) : Nat := h.ctl.toNat / 256 % 16
/-- The width of field k. -/
def widthOf (shape : Word) (k : Nat) : Nat := shape.toNat / 2 ^ (5 * k) % 32
def widthSum (shape : Word) (k : Nat) : Nat := (List.range k).foldl (fun n i => n + widthOf shape i) 0
def Header.extent (h : Header) (k : Nat) : Nat := (vat h.ext k).toNat
/-- The product of the extents of fields k to 5. -/
def Header.groups (h : Header) (k : Nat) : Nat := (List.range (6 - k)).foldl (fun n i => n * h.extent (k + i)) 1
def Header.tasks (h : Header) : Nat := h.groups 0

/-- The code of R266 of a header's dwords, none where it is valid. A header that breaks several rows takes the lowest code.
(DESIGN CHOICE: log entry 131.) -/
def headerCode (ws : List Nat) : Option Nat :=
  let h := headerOf ws
  let c := h.ctl.toNat
  let shape := h.widshape
  if c / 2 ^ 48 ≠ 1 || c / 2 ^ 12 % 2 ^ 36 ≠ 0 || c / 4 % 8 ≠ 0 || 2 ≤ h.kind || shape.toNat / 2 ^ 30 ≠ 0 ||
      (ws.drop 12).any (· ≠ 0) then some 1
  else if (List.range 6).any (fun k => 16 < widthOf shape k || h.extent k = 0 || 2 ^ widthOf shape k < h.extent k) ||
      64 < widthSum shape 6 then some 2
  else if h.kind = 0 && (h.entry = 0 || h.entry.toNat % 8 ≠ 0 || h.graph ≠ 0) then some 3
  else if h.kind = 1 && (h.graph = 0 || h.graph.toNat % 32 ≠ 0 || h.entry ≠ 0) then some 3
  else none

/-- The work identifier of task t (R263). -/
def Header.workid (h : Header) (t : Nat) : Nat :=
  ((List.range 6).foldl (fun (q : Nat × Nat) k =>
    (q.1 + q.2 % h.extent k * 2 ^ widthSum h.widshape k, q.2 / h.extent k)) (0, t)).1

/-- The record of task t of a launch (R269). -/
def Launch.record (l : Launch) (slot t : Nat) (early : Bool) : TaskRec where
  entry := l.hdr.entry
  workid := BitVec.ofNat 64 (l.hdr.workid t)
  arg := l.hdr.arg
  joinctr := l.hdr.joinctr
  ctl := recordCtl l.side.toNat l.asid.toNat (l.side ≠ 0) false early l.hdr.prio
  widshape := l.hdr.widshape
  launch := BitVec.ofNat 16 slot
  born := 0

/-- The lowest launch slot that is free. -/
def State.freeLaunch (s : State) : Nat :=
  ((List.range 65535).find? fun n => (s.launch? n).isNone).getD 65534

/-- Sends a status to Xd. (DEDUCED: log entry 54; DEDUCED: log entry 55.) -/
def State.launchStatus (s : State) (d : BitVec 6) (n : Nat) : Done := s.result d (BitVec.ofNat 64 n)

/-- `launch.q` with an enabled queue that has room: the ring entry is written as a store of the thread, and TAIL moves
with it. (DEDUCED: log entry 56.) -/
def State.appendLaunch (s : State) (d : BitVec 6) (q : Nat) (hdr : Word) : Done :=
  let asid := s.th.asid.toNat
  let c := s.queue asid q
  let a := c.ring.toNat + 8 * (c.tail.toNat % c.size.toNat)
  s.access .store 8 [(0, BitVec.ofNat 64 a)] fun ls =>
    s.rmwLocs 8 .swap (fun _ => hdr) 0 0 ls fun s _ =>
      ((s.setQueue asid q { c with tail := c.tail + 1 }).causeOnce .dispatchTurn {}).launchStatus d 0

def execLaunchQ (r : R3) (s : State) : Out :=
  s.whole r.sel r.neg [sx r.a r.am, sx r.b r.bm] [dx r.d] fun s => s.outsideTx <|
    let q := s.x r.b
    let c := s.queue s.th.asid.toNat (q.toNat % 64)
    if 64 ≤ q.toNat || !c.enabled || c.invalid then s.launchStatus r.d 2
    else if (s.x r.a).toNat % 128 ≠ 0 then s.launchStatus r.d 3
    else if c.tail - c.head = c.size then s.launchStatus r.d 1
    else s.appendLaunch r.d (q.toNat % 64) (s.x r.a)

/-- A store or RED of the thread to the scratchpads of a core is on its way. (DEDUCED: log entry 57.) -/
def State.storesTo (s : State) (k core : Nat) : Bool :=
  s.msgs.any fun e => match e.2 with
    | .remote j _ _ rs .store => j = k && rs.any fun l => l.core = core
    | .remote j _ _ rs (.red _) => j = k && rs.any fun l => l.core = core
    | _ => false

/-- `launch.core` with a target core in the partition and an aligned header. -/
def State.launchAt (s : State) (d : BitVec 6) (core : Nat) (hdr : Nat) : Done :=
  match s.headerWords s.th.asid.toNat hdr with
  | none => s.launchStatus d 3
  | some ws =>
    let h := headerOf ws
    if (headerCode ws).isSome || h.kind ≠ 0 then s.launchStatus d 3
    else
      let n := s.freeLaunch
      let l : Launch := ⟨s.th.asid, none, some core, h, 0, true, [⟨dieOf core, 0, h.tasks⟩], 0, 0, 0, 0, false, none, none, none⟩
      ((s.setLaunch n l).causeOnce .dieDispatchPlace { die := dieOf core }).launchStatus d 0

def execLaunchCore (r : R3) (s : State) : Out :=
  s.whole r.sel r.neg [sx r.a r.am, sx r.b r.bm] [dx r.d] fun s => s.outsideTx <|
    let core := (s.x r.b).toNat
    if 4096 ≤ core || !s.inPartition s.th.asid.toNat core then s.launchStatus r.d 2
    else if (s.x r.a).toNat % 128 ≠ 0 then s.launchStatus r.d 3
    else if s.storesTo s.cur core then .stay s
    else s.launchAt r.d core (s.x r.a).toNat

/-! ### EARLYSRC (R269) -/

/-- The launches of a queue that have not retired. -/
def State.launchesOf (s : State) (a q : Nat) : List (Nat × Launch) :=
  s.disp.launches.filter fun e => e.2.queue = some (a * 64 + q)

/-- The dword of the ring entry at HEAD and the header's dwords. -/
def State.headEntry (s : State) (a q : Nat) : Option (List Nat) :=
  let c := s.queue a q
  match s.dispRead a (c.ring.toNat + 8 * (c.head.toNat % c.size.toNat)) 8 with
  | none => none
  | some h => s.headerWords a h

/-- The kernels that a graph has running, by launch slot. -/
def Branch.slots : Branch → List Nat
  | .node _ => []
  | .kernel n _ => [n]
  | .tail n => [n]
  | .spec _ p a b _ => [p, a, b]

def Launch.inner (l : Launch) : List Nat := match l.graph with
  | some g => g.branches.flatMap Branch.slots
  | none => []

/-- The launch of a queue that a launch is, or whose graph runs it. -/
def State.outerLaunch (s : State) (n : Nat) : Option Launch :=
  if n = noLaunch.toNat then none
  else match s.disp.launches.find? fun e => e.2.inner.contains n with
  | some e => some e.2
  | none => s.launch? n

/-- The launch after that of a slot in its queue is EARLY: as its header was copied, else as it stands at HEAD (R269). -/
def State.earlySrc (s : State) (n : Nat) : Bool :=
  match s.outerLaunch n with
  | none => false
  | some l => match l.queue with
    | none => false
    | some n =>
      let c := s.queue (n / 64) (n % 64)
      match l.follow with
      | some b => b
      | none => c.head ≠ c.tail && c.head = l.index + 1 && match s.headEntry (n / 64) (n % 64) with
        | some ws => (headerOf ws).early
        | none => false

/-! ### Forking and joining (R280, R281) -/

/-- The record that a thread forks. (DEDUCED: log entry 71; DEDUCED: log entry 72.) -/
def Ctx.forkRec (c : Ctx) (entry arg join : Word) (born : Nat) (early : Bool) : TaskRec :=
  let p := c.info.task
  { entry := entry, workid := c.info.workid, arg := arg, joinctr := join
    ctl := recordCtl 0 c.asid.toNat false true early (match p with | some r => r.prio | none => 0)
    widshape := match p with | some r => r.widshape | none => 0
    launch := match p with | some r => r.launch | none => noLaunch
    born := born }

def execFork (r : R3) (s : State) : Out :=
  s.whole r.sel r.neg [sx r.a r.am, sx r.b r.bm, sx r.c r.cm] [dx r.d] fun s => s.outsideTx <|
    if (s.x r.a).toNat % 8 ≠ 0 then .next (s.setX r.d 2)
    else
      let early := s.th.info.task.any fun t => s.earlySrc t.slot
      let f := s.th.forkRec (s.x r.a) (s.x r.b) (s.x r.c) s.nextId early
      match (s.core s.myCore).push (slotOf s.cur) f with
      | none => .next (s.setX r.d 1)
      | some c => .next ((((s.setCore s.myCore c).begun f.slot).arrived s.myCore).setX r.d 0)

/-- DEDUCED: log entry 75. -/
def execJoin (r : R3) (s : State) : Out :=
  s.whole r.sel r.neg [sx r.a r.am] [] fun s => s.outsideTx <|
    if s.th.joined then s.endTransaction fun s => s.endThread fun s => .final (s.endFree s.cur)
    else s.whenReleased true <|
      s.access .atomic 8 [(0, s.x r.a)] fun ls =>
        s.rmwLocs 8 .join (fun _ => 0) 0 0 ls fun t vs =>
          match (vs.head?.bind fun v => v.2) with
          | none => .trap .dataPoison (s.x r.a)
          | some old =>
            if old = 0 then .trap .taskOperand 2
            else if old = 1 then .next t
            else .stay (t.updTh fun c => { c with joined := true })

/-! ### Yielding, triggering and identifiers (R283, R284) -/

/-- The next context of the core that is ready, after the one whose turn it was. -/
def State.nextReady (s : State) : Nat :=
  (((List.range 8).map fun i => keyOf s.myCore ((slotOf s.cur + 1 + i) % 8)).find? fun k => (s.ctx k).run = .running).getD s.cur

/-- The turn passes to the next ready context of the core. -/
def State.passTurn (s : State) : State := { s with cur := s.nextReady }

/-- DEDUCED: log entry 76. -/
def execYield (r : R3) (s : State) : Out :=
  s.whole r.sel r.neg [] [] fun s => .final s.step8.passTurn

/-- The context is to leave its slot for a queued record. -/
def State.swapOut (s : State) : State :=
  if s.hasRecord s.myCore && (s.freeResident s.myCore).isNone && s.tokenHolder ≠ some s.cur then
    (s.updTh fun c => { c with why := some .swapped }).causeOnce .contextStream { core := s.myCore }
  else s

def execYieldSwap (r : R3) (s : State) : Out :=
  s.whole r.sel r.neg [] [] fun s => .final s.step8.swapOut.passTurn

/-- Records the trigger of the thread against its launch. -/
def State.trigger (s : State) : State :=
  match s.th.info.task with
  | none => s
  | some r =>
    if s.th.info.triggered then s
    else
      let s := s.updTh fun c => { c with info := { c.info with triggered := true } }
      (s.updLaunch r.slot fun l => { l with untriggered := l.untriggered - 1 }).causeOnce .dispatchTurn {}

def execTrig (r : R3) (s : State) : Out :=
  s.whole r.sel r.neg [] [] fun s => s.outsideTx (s.released? (.next s.trigger))

/-- Field k of an identifier by a shape. -/
def widField (id shape : Word) (k : Nat) : Word :=
  if (List.range 6).any (fun j => 16 < widthOf shape j) || 64 < widthSum shape 6 then 0
  else BitVec.ofNat 64 (id.toNat / 2 ^ widthSum shape k % 2 ^ widthOf shape k)

def execWid (r : R3) (s : State) : Out :=
  s.whole r.sel r.neg [sx r.a r.am, sx r.b r.bm] [dx r.d] fun s =>
    .next (s.setX r.d (widField (s.x r.a) (s.x r.b) (r.sub.toNat % 8)))

end Sys2Proof.Machine
end

