-- ==== Sys2Proof/Machine/Schedule.lean ====
section
/-! DEFINITION. Launch queues and their service (R264 to R268), graphs (R271, R272), and how a core fills its slots (R274,
R275, R277). -/

namespace Sys2Proof.Machine

/-! ### Launches of a queue (R264 to R266) -/

/-- Tasks of a launch that no die has yet. -/
def Launch.undispatched (l : Launch) : Bool := l.shares.any fun h => h.next < h.stop

/-- A launch has undispatched tasks or graph work. -/
def State.hasWork (s : State) (l : Launch) : Bool :=
  match l.graph with
  | none => l.undispatched
  | some g =>
    (!g.bad && g.branches.any fun b => match b with
      | .node _ => true
      | _ => false) || l.inner.any fun n => (s.launch? n).any Launch.undispatched

/-- A launch has dispatched all it will: what the next launch of its queue waits for at least. Of a graph, no branch can lead to
a further kernel, and its kernels have dispatched their tasks. -/
def State.dispatched (s : State) (l : Launch) : Bool :=
  l.started && match l.graph with
    | none => !l.undispatched
    | some g => (g.bad || g.branches.all fun b => match b with
        | .kernel _ t => t = 0xFFFF
        | .tail _ => true
        | _ => false) && !(l.inner.any fun n => (s.launch? n).any Launch.undispatched)

/-- Every thread of a launch has executed `TRIG` or ended (R265). -/
def State.triggered (s : State) (l : Launch) : Bool :=
  l.untriggered = 0 && l.inner.all fun n => (s.launch? n).all fun k => k.untriggered = 0

/-- A launch may begin (R265): its predecessor has retired, or its flags let it begin earlier. -/
def State.mayBegin (s : State) (a q : Nat) (l : Launch) : Bool :=
  match (s.launchesOf a q).find? fun e => e.2.index = l.index - 1 with
  | none => true
  | some p =>
    if l.hdr.overlap then s.dispatched p.2
    else if l.hdr.early && (s.queue a q).earlyOk then s.dispatched p.2 && s.triggered p.2
    else false

/-- The dies that hold clusters of an address space's partition (R268). -/
def State.partDies (s : State) (asid : Nat) : List Nat :=
  let m := (vat s.parts (s.space asid).partition.toNat).clusters
  (List.range 4).filter fun d => m.extractLsb' (64 * d) 64 ≠ 0

/-- The shares of a kernel: whole groups at the cut level, over the partition's dies (R268). -/
def Header.cut (h : Header) (dies : List Nat) : List Share :=
  let n := dies.length
  let k := (((List.range 6).reverse).find? fun k => n ≤ h.groups k).getD 0
  let g := h.groups k
  let size := h.tasks / g
  let first := fun i => (i * g + n - 1) / n
  dies.zipIdx.map fun d => ⟨d.1, first d.2 * size, first (d.2 + 1) * size⟩

/-- A launch as it is copied from a header. -/
def State.newLaunch (s : State) (asid : Nat) (queue : Option Nat) (index : W32) (h : Header) (side : Half) : Launch where
  asid := BitVec.ofNat 12 asid
  queue := queue
  core := none
  hdr := h
  index := index
  started := false
  shares := if h.kind = 0 then h.cut (s.partDies asid) else []
  turn := 0
  live := 0
  untriggered := 0
  side := side
  stopped := false
  verdict := none
  graph := if h.kind = 1 then some ⟨[.node 0], [], [], false⟩ else none
  follow := none

/-- Copies the header at HEAD and advances HEAD, once every launch before it in the queue has dispatched its tasks. An
invalid header is consumed once they have retired (R265, R266). (DEDUCED: log entry 81.) -/
def State.copyHead (s : State) (a q : Nat) : State :=
  let c := s.queue a q
  let ls := s.launchesOf a q
  if c.head = c.tail || !(ls.all fun e => s.dispatched e.2) then s
  else
    let bad := fun n => if ls.isEmpty then
        (s.setQueue a q { c with head := c.head + 1, lasterr := lastErr n c.head }).causeOnce .dispatchTurn {}
      else s
    match s.headEntry a q with
    | none => bad 4
    | some ws =>
      match headerCode ws with
      | some n => bad n
      | none =>
        let l := s.newLaunch a (some (a * 64 + q)) c.head (headerOf ws) 0
        let s := ls.foldl (fun s e =>
          if e.2.index + 1 = c.head then s.setLaunch e.1 { e.2 with follow := some l.hdr.early } else s) s
        (s.setQueue a q { c with head := c.head + 1 }).setLaunch s.freeLaunch l

/-! ### Turns (R267) -/

/-- A queue is served at all. -/
def State.served (s : State) (a q : Nat) : Bool :=
  let c := s.queue a q
  c.enabled && !c.invalid && (s.space a).valid && !(s.space a).hold && !(s.partDies a).isEmpty

/-- The launch of a queue that a turn would serve. -/
def State.readyLaunch (s : State) (a q : Nat) : Option (Nat × Launch) :=
  if !s.served a q then none
  else (s.launchesOf a q).find? fun e => s.hasWork e.2 && (e.2.started || s.mayBegin a q e.2)

/-- The effective priority of a queue. -/
def Queue.eff (c : Queue) : Nat := min 7 (c.prio + c.waited)

/-- The queue numbers ASID·64 + queue of the queues that are ready. -/
def State.readyQueues (s : State) : List Nat :=
  (s.queues.filter fun e => (s.readyLaunch (e.1 / 64) (e.1 % 64)).isSome).map (·.1)

/-- The first of the queues after the last served, in ascending order, wrapping. -/
def nextAfter (last : Nat) (qs : List Nat) : Option Nat :=
  match qs.find? fun q => last < q with
  | some q => some q
  | none => qs.head?

/-- The queue that a turn serves. -/
def State.pickQueue (s : State) : Option Nat :=
  let qs := s.readyQueues
  let p := qs.foldl (fun m q => max m (s.queue (q / 64) (q % 64)).eff) 0
  nextAfter (vat s.disp.last p) (qs.filter fun q => (s.queue (q / 64) (q % 64)).eff = p)

/-- The share that the next batch comes from, in rotation. -/
def Launch.nextShare (l : Launch) : Option Nat :=
  ((List.range l.shares.length).map fun i => (l.turn + i) % l.shares.length).find? fun i =>
    (l.shares[i]?).any fun h => h.next < h.stop

/-- Passes a batch of up to 64 tasks to a die (R267, R268). -/
def State.batch (s : State) (n : Nat) : State :=
  match s.launch? n with
  | none => s
  | some l =>
    match l.nextShare with
    | none => s
    | some i =>
      match l.shares[i]? with
      | none => s
      | some h =>
        let count := min 64 (h.stop - h.next)
        let early := s.earlySrc n
        let recs := (List.range count).map fun t => l.record n (h.next + t) early
        let s := s.setLaunch n { l with started := true, turn := (i + 1) % l.shares.length,
                                        shares := l.shares.set i { h with next := h.next + count }
                                        live := l.live + count, untriggered := l.untriggered + count }
        (s.updDie h.die fun v => { v with placing := v.placing ++ recs }).causeOnce .dieDispatchPlace { die := h.die }

/-! ### Graphs (R271, R272) -/

/-- A node of a graph. -/
structure Node where
  ty : Nat
  npred : Nat
  succ0 : Nat
  succ1 : Nat
  ptr : Nat
  aux : Nat
  count : Nat
  deriving DecidableEq, Repr

/-- Node n of the table at an address; none where it cannot be read or breaks R271. (DEDUCED: log entry 82.) -/
def State.readNode (s : State) (asid table n : Nat) : Option Node :=
  let a := table + 32 * n
  match s.dispRead asid a 8, s.dispRead asid (a + 8) 8, s.dispRead asid (a + 16) 8, s.dispRead asid (a + 24) 8 with
  | some w0, some w1, some w2, some w3 =>
    let ty := w0 % 16
    if w0 / 16 % 2 ^ 12 ≠ 0 || w3 / 2 ^ 32 ≠ 0 || w1 % 8 ≠ 0 || (6 ≤ ty && ty < 15) then none
    else some ⟨ty, w0 / 2 ^ 16 % 2 ^ 16, w0 / 2 ^ 32 % 2 ^ 16, w0 / 2 ^ 48, w1, w2, w3 % 2 ^ 32⟩
  | _, _, _, _ => none

/-- A branch that goes to a successor: none where the branch ends. -/
def toNode (n : Nat) : List Branch := if n = 0xFFFF then [] else [.node n]

/-- The kernels at slots whose tasks have still to retire. -/
def tailsOf (ns : List Nat) : List Branch := (ns.filter (· ≠ noLaunch.toNat)).map .tail

/-- The graph meets a bad node: it dispatches nothing more, and LASTERR names the launch. The tasks of its kernels have still to
retire. -/
def State.badGraph (s : State) (n : Nat) (l : Launch) (g : GraphRun) : State :=
  let s := match l.queue with
    | some q => s.setQueue (q / 64) (q % 64) { s.queue (q / 64) (q % 64) with lasterr := lastErr 5 l.index }
    | none => s
  let s := l.inner.foldl (fun s i => (s.updLaunch i fun x => { x with shares := [] }).causeOnce .launchRetire { n := i }) s
  let live := g.branches.flatMap fun b => match b with
    | .node _ => []
    | .kernel m _ => [.tail m]
    | b => [b]
  (s.setLaunch n { l with graph := some { g with bad := true, branches := live } }).causeOnce .launchRetire { n := n }

/-- Starts a kernel of a graph: the slot it takes, none where its header is not a kernel's. -/
def State.startKernel (s : State) (asid ptr : Nat) (index : W32) (side : Half) : State × Option Nat :=
  match s.headerWords asid ptr with
  | none => (s, none)
  | some ws =>
    let h := headerOf ws
    if (headerCode ws).isSome || h.kind ≠ 0 then (s, none)
    else
      let n := s.freeLaunch
      (s.setLaunch n { s.newLaunch asid none index h side with started := true }, some n)

/-- The branches that one branch becomes. -/
def GraphRun.replace (g : GraphRun) (i : Nat) (bs : List Branch) : GraphRun :=
  { g with branches := g.branches.take i ++ bs ++ g.branches.drop (i + 1) }

/-- Starts the three kernels of a speculative node. -/
def State.startSpec (s : State) (l : Launch) (v : Node) : Option (State × Nat × Nat × Nat) :=
  let a := l.asid.toNat
  let table := l.hdr.graph.toNat
  match s.readNode a table (v.aux % 2 ^ 16), s.readNode a table v.succ0, s.readNode a table v.succ1 with
  | some p, some x, some y =>
    if p.ty ≠ 0 || x.ty ≠ 0 || y.ty ≠ 0 || [v.aux % 2 ^ 16, v.succ0, v.succ1].contains 0xFFFF then none
    else match s.startKernel a p.ptr l.index 0 with
      | (_, none) => none
      | (s, some np) =>
        match s.startKernel a x.ptr l.index 1 with
        | (_, none) => none
        | (s, some nx) =>
          match s.startKernel a y.ptr l.index 2 with
          | (_, none) => none
          | (s, some ny) => some (s, np, nx, ny)
  | _, _, _ => none

/-- Evaluates the branch i of graph launch n, which stands at a node. -/
def State.evalNode (s : State) (n : Nat) (l : Launch) (g : GraphRun) (i node : Nat) : State :=
  let a := l.asid.toNat
  let go := fun (g : GraphRun) (bs : List Branch) =>
    (s.setLaunch n { l with graph := some (g.replace i bs), started := true }).causeOnce .launchRetire { n := n }
  match s.readNode a l.hdr.graph.toNat node with
  | none => s.badGraph n l g
  | some v =>
    let word := s.dispRead a v.ptr 8
    match v.ty with
    | 0 =>
      match s.startKernel a v.ptr l.index 0 with
      | (_, none) => s.badGraph n l g
      | (t, some slot) => t.setLaunch n { l with graph := some (g.replace i [.kernel slot v.succ0]), started := true }
    | 1 => match word with
      | none => s.badGraph n l g
      | some w => go g (toNode (if w ≠ 0 then v.succ0 else v.succ1))
    | 2 => match word with
      | none => s.badGraph n l g
      | some w =>
        let c := Tbl.getD g.loops node 0
        if c < v.aux % 2 ^ 32 && w ≠ 0 then go { g with loops := Tbl.set g.loops node (c + 1) } (toNode (v.aux / 2 ^ 32 % 2 ^ 16))
        else go { g with loops := Tbl.erase g.loops node } (toNode v.succ0)
    | 3 => match word with
      | none => s.badGraph n l g
      | some w =>
        if w < v.count then match s.dispRead a (v.aux + 2 * w) 2 with
          | none => s.badGraph n l g
          | some t => go g (toNode t)
        else go g (toNode v.succ0)
    | 4 =>
      let c := Tbl.getD g.joins node 0 + 1
      if c = v.npred then go { g with joins := Tbl.erase g.joins node } (toNode v.succ0)
      else go { g with joins := Tbl.set g.joins node c } []
    | 5 => match s.startSpec l v with
      | none => s.badGraph n l g
      | some (t, p, x, y) => t.setLaunch n { l with graph := some (g.replace i [.spec node p x y none]), started := true }
    | _ => go g []

/-- One turn of a graph launch: a batch of a kernel that has undispatched tasks, or the evaluation of one node. -/
def State.graphTurn (s : State) (n : Nat) (l : Launch) (g : GraphRun) : State :=
  match l.inner.find? fun i => (s.launch? i).any Launch.undispatched with
  | some i => s.batch i
  | none =>
    match g.branches.zipIdx.findSome? fun b => match b.1 with
      | .node v => some (b.2, v)
      | _ => none with
    | some (i, v) => s.evalNode n l g i v
    | none => s

/-- The headers at the heads of the served queues are copied. -/
def State.copyHeads (s : State) : State :=
  s.queues.foldl (fun s e => if s.served (e.1 / 64) (e.1 % 64) then s.copyHead (e.1 / 64) (e.1 % 64) else s) s

/-- A queue's wait begins as it becomes ready and ends as it is no longer ready (R267). -/
def State.markWaits (s : State) : State :=
  s.queues.foldl (fun s e =>
    let a := e.1 / 64
    let q := e.1 % 64
    let c := s.queue a q
    if (s.readyLaunch a q).isSome then
      if c.since.isNone then (s.setQueue a q { c with since := some s.gt, waited := 0 }).causeOnce .starvationTick { asid := a, q := q }
      else s
    else if c.since.isSome then s.setQueue a q { c with since := none, waited := 0 } else s) s

/-- The package dispatcher serves a queue (R267); while any is ready it takes another turn. -/
def execDispatchTurn (s : State) : Out :=
  let s := s.copyHeads.markWaits
  match s.pickQueue with
  | none => .next s
  | some n =>
    let a := n / 64
    let q := n % 64
    let c := s.queue a q
    match s.readyLaunch a q with
    | none => .next s
    | some (slot, l) =>
      let s := { s with disp := { s.disp with last := vput s.disp.last c.eff n } }
      let s := s.setQueue a q { c with since := some s.gt, waited := 0 }
      let s := match l.graph with
        | some g => s.graphTurn slot l g
        | none => s.batch slot
      .next (s.causeOnce .dispatchTurn {})

/-- Each 1,000,000 ns that a queue has been ready without being served raise its effective priority (R267). -/
def execStarvationTick (s : State) : Out :=
  let a := s.ev.asid
  let q := s.ev.q
  let c := s.queue a q
  match c.since with
  | none => .next s
  | some t =>
    if (s.gt - t).toNat < 1000000 * (c.waited + 1) then .next (s.later .starvationTick)
    else .next (((s.setQueue a q { c with waited := c.waited + 1 }).cause .starvationTick s.ev).causeOnce .dispatchTurn {})

/-! ### Placing records in inboxes (R268) -/

def State.inboxRoom (s : State) (core : Nat) : Bool := (s.core core).inbox.length < 64 && !s.coreLost core

/-- The core that takes a record: the first of the partition's cores with inbox room after the last one served. -/
def State.placeFor (s : State) (d : Nat) (r : TaskRec) : Option Nat :=
  ((List.range 1024).map fun i => d * 1024 + ((s.die d).lastCore + 1 + i) % 1024).find? fun c =>
    s.inPartition r.asid c && s.inboxRoom c

def State.putInbox (s : State) (core : Nat) (r : TaskRec) : State :=
  (s.updCore core fun c => { c with inbox := c.inbox ++ [r] }).arrived core

/-- The first `launch.core` with tasks left whose target, on die d, has inbox room. -/
def State.coreLaunch (s : State) (d : Nat) : Option (Nat × Launch × Nat × Share) :=
  s.disp.launches.findSome? fun e => match e.2.core, e.2.shares with
    | some c, [h] => if h.die = d && h.next < h.stop && s.inboxRoom c then some (e.1, e.2, c, h) else none
    | _, _ => none

/-- A die dispatcher writes one record into an inbox (R268). A record of an address space that is not VALID, or of a side
that has stopped, is dropped. -/
def execDieDispatchPlace (s : State) : Out :=
  let d := s.ev.die
  match (s.die d).placing.zipIdx.findSome? fun r =>
      if s.refused r.1 then some (r.2, r.1, none) else (s.placeFor d r.1).map fun c => (r.2, r.1, some c) with
  | some (i, r, place) =>
    let s := s.updDie d fun v => { v with placing := v.placing.eraseIdx i }
    let s := match place with
      | some c => (s.updDie d fun v => { v with lastCore := c % 1024 }).putInbox c r
      | none => s.ended r.slot false
    .next (s.causeOnce .dieDispatchPlace { die := d })
  | none =>
    match s.coreLaunch d with
    | some (n, l, c, h) =>
      let r := l.record n h.next false
      let s := (s.setLaunch n { l with shares := [{ h with next := h.next + 1 }] }).begun n
      let s := if s.refused r then s.ended n false else s.putInbox c r
      .next (s.causeOnce .dieDispatchPlace { die := d })
    | none =>
      let left := !(s.die d).placing.isEmpty || s.disp.launches.any fun e =>
        e.2.core.isSome && e.2.shares.any fun h => h.die = d && h.next < h.stop
      .next (if left then s.later .dieDispatchPlace else s)

/-! ### Retiring (R265, R271, R272) -/

/-- A side of a speculative node that is to end: it has stopped or lost. -/
def Launch.cutOff (l : Launch) : Bool := l.side ≠ 0 && (l.stopped || l.verdict = some false)

/-- Drops the records of a launch that wait in inboxes, in deques or for a place, and counts them. -/
def State.dropRecords (s : State) (n : Nat) : State :=
  let mine := fun (r : TaskRec) => r.slot = n
  let count := (s.cores.foldl (fun k c => k + (c.2.inbox.filter mine).length) 0) +
    (s.dies.toList.foldl (fun k v => k + (v.placing.filter mine).length) 0)
  let s := { s with
    cores := Tbl.mapV s.cores fun _ c => { c with inbox := c.inbox.filter fun r => !mine r }
    dies := s.dies.map fun (v : Die) => { v with placing := v.placing.filter fun r => !mine r } }
  s.updLaunch n fun l => { l with shares := [], live := l.live - count, untriggered := l.untriggered - count }

/-- The contexts whose threads belong to a launch. -/
def State.threadsOf (s : State) (n : Nat) : List Nat :=
  (s.ctxs.filter fun e => e.2.run ≠ .vacant && e.2.info.task.any fun r => r.slot = n).map (·.1)

/-- One thread of a side that is to end: its transaction aborts, and the thread ends without running a handler. -/
def State.cutThread (s : State) (k : Nat) : State :=
  let c := s.ctx k
  match c.tx with
  | some x => if x.phase = .live && c.abort.isNone then s.startAbort k ⟨5, 0, .ended⟩ else s
  | none =>
    if c.run = .decision then
      match s.endWork k with
      | (t, true) => if t.released k then t.endFree k else t
      | (t, false) => t
    else s

/-- What follows the end of a kernel of a graph: the branches of launch g that stand for its slot go on. -/
def State.branchOn (s : State) (gn : Nat) (n : Nat) : State :=
  match s.launch? gn with
  | none => s
  | some l =>
    match l.graph with
    | none => s
    | some g =>
      let bs := g.branches.flatMap fun b => match b with
        | .kernel m t => if m = n then (if g.bad then [] else toNode t) else [b]
        | .tail m => if m = n then [] else [b]
        | b => [b]
      ((s.setLaunch gn { l with graph := some { g with branches := bs } }).causeOnce .launchRetire { n := gn }).causeOnce .dispatchTurn {}

/-- The graph and the speculative branch that a slot belongs to. -/
def State.specOf (s : State) (n : Nat) : Option (Nat × Launch × GraphRun × Nat × Branch) :=
  s.disp.launches.findSome? fun e => e.2.graph.bind fun g =>
    (g.branches.zipIdx.find? fun b => match b.1 with
      | .spec _ p x y _ => n = p || n = x || n = y
      | _ => false).map fun b => (e.1, e.2, g, b.2, b.1)

/-- The winner's last task has retired: the graph goes to its SUCC0, or runs the kernel again when its side had
stopped. The tasks of the loser in slot `loser` may have still to retire. -/
def State.specWon (s : State) (gn : Nat) (l : Launch) (g : GraphRun) (i node loser : Nat) (first stopped : Bool) : State :=
  let a := l.asid.toNat
  let table := l.hdr.graph.toNat
  let rest := tailsOf [loser]
  let go := fun (s : State) (bs : List Branch) =>
    ((s.setLaunch gn { l with graph := some (g.replace i (rest ++ bs)) }).causeOnce .launchRetire { n := gn }).causeOnce .dispatchTurn {}
  if g.bad then go s []
  else match s.readNode a table node with
  | none => s.badGraph gn l (g.replace i rest)
  | some v =>
    match s.readNode a table (if first then v.succ0 else v.succ1) with
    | none => s.badGraph gn l (g.replace i rest)
    | some w =>
      if !stopped then go s (toNode w.succ0)
      else match s.startKernel a w.ptr l.index 0 with
        | (_, none) => s.badGraph gn l (g.replace i rest)
        | (t, some m) => go t [.kernel m w.succ0]

/-- A launch that has dispatched everything and whose records and threads have all ended retires (R265). A side that is to
end is brought to its end first. -/
def execLaunchRetire (s : State) : Out :=
  let n := s.ev.n
  match s.launch? n with
  | none => .next s
  | some l =>
    let gone := { s with disp := { s.disp with launches := Tbl.erase s.disp.launches n } }
    match l.graph with
    | some g => .next (if g.branches.isEmpty && l.started then gone.causeOnce .dispatchTurn {} else s)
    | none =>
      if l.cutOff && l.live ≠ 0 then
        let t := (s.threadsOf n).foldl State.cutThread (s.dropRecords n)
        .next ({ t with ev := s.ev }.later .launchRetire)
      else if l.undispatched || l.live ≠ 0 || (l.side ≠ 0 && l.verdict.isNone) then .next s
      else
        match s.specOf n with
        | some (gn, gl, g, i, .spec node p x y won) =>
          let f := fun m => if m = n then noLaunch.toNat else m
          let gone' := gone.setLaunch gn { gl with graph := some (g.replace i [.spec node (f p) (f x) (f y) won]) }
          if n = p then .next (gone'.causeOnce .speculativeDecision { n := gn, id := x })
          else if (won = some true && n = x) || (won = some false && n = y) then
            .next (gone.specWon gn gl g i node (if n = x then y else x) (n = x) l.stopped)
          else .next (gone'.causeOnce .dispatchTurn {})
        | _ =>
          let s := s.disp.launches.foldl (fun s e => if e.2.inner.contains n then s.branchOn e.1 n else s) gone
          .next (s.causeOnce .dispatchTurn {})

/-- The decision of a speculative node whose producer has retired, named by the slot of its SUCC0 (R272). A word that cannot be read makes the graph bad,
and both sides lose. (DEDUCED: log entry 83.) -/
def execSpeculativeDecision (s : State) : Out :=
  let gn := s.ev.n
  match s.launch? gn with
  | none => .next s
  | some l =>
    match l.graph with
    | none => .next s
    | some g =>
      match g.branches.zipIdx.find? fun b => match b.1 with
        | .spec _ p x _ none => p = noLaunch.toNat && x = s.ev.id
        | _ => false with
      | some (.spec node p x y _, i) =>
        let a := l.asid.toNat
        let word := (s.readNode a l.hdr.graph.toNat node).bind fun v => s.dispRead a v.ptr 8
        let set := fun (s : State) (m : Nat) (b : Bool) => (s.updLaunch m fun k => { k with verdict := some b }).causeOnce .launchRetire { n := m }
        let wake := fun (s : State) (m : Nat) => (s.threadsOf m).foldl (fun s k =>
          s.updCtx k fun c => if c.run = .decision && c.tx.isSome then { c with run := .running } else c) s
        match word with
        | none => .next ((set (set s x false) y false).badGraph gn l (g.replace i (tailsOf [x, y])))
        | some w =>
          let s := s.setLaunch gn { l with graph := some (g.replace i [.spec node p x y (some (w ≠ 0))]) }
          let s := set (set s x (w ≠ 0)) y (w = 0)
          .next (wake s (if w ≠ 0 then x else y))
      | _ => .next s

/-! ### Filling slots (R274, R275) -/

/-- Whether a context that left may come back: it was swapped out, `REPLAY` has made it ready, or its HOLD is over.
(DEDUCED: log entry 80.) -/
def State.eligible (s : State) (asid : BitVec 12) (w : Left) : Bool :=
  !(s.space asid.toNat).hold && match w with
    | .swapped => true
    | .hold => true
    | .ready => true
    | _ => false

/-- Something that a slot can be filled with from outside the deque and the inbox. -/
inductive Return where
  | shadow (j : Nat)
  | frame (o : OutEntry)
  deriving DecidableEq, Repr

/-- The contexts of a core that may come back, with why and since when they are away: shadow slots, then the out-list. -/
def State.returns (s : State) (core : Nat) : List (Return × Left × Word) :=
  ([shadowKey core 0, shadowKey core 1].filterMap fun j =>
    match (s.ctx j).why with
    | some w => if (s.ctx j).run ≠ .vacant && s.eligible (s.ctx j).asid w then some (.shadow j, w, (s.ctx j).leftAt) else none
    | none => none) ++
  (s.core core).outlist.filterMap fun o => if s.eligible o.asid o.why then some (.frame o, o.why, o.leftAt) else none

/-- The first of the list with the least time. -/
def earliest (l : List (Return × Left × Word)) : Option Return :=
  (l.foldl (fun (b : Option (Return × Left × Word)) r => match b with
    | none => some r
    | some x => if r.2.2 < x.2.2 then some r else b) none).map (·.1)

/-- The context that a free slot restores: the one swapped out earliest, then those made ready, in shadow slots and in
out-list order. (DEDUCED: log entry 77.) -/
def State.nextReturn (s : State) (core : Nat) : Option Return :=
  let rs := s.returns core
  match earliest (rs.filter fun r => r.2.1 = .swapped) with
  | some r => some r
  | none => rs.head?.map (·.1)

/-- The context that the wait-swap rule moved out last. -/
def State.lastSwapped (s : State) (core : Nat) : Option Return :=
  (((s.returns core).filter fun r => r.2.1 = .swapped).foldl (fun (b : Option (Return × Left × Word)) r => match b with
    | none => some r
    | some x => if x.2.2 ≤ r.2.2 then some r else b) none).map (·.1)

/-- The homes of the lines that a return reads still need something: the state that waits. -/
def State.returnWaits (s : State) : Return → Option State
  | .shadow _ => none
  | .frame o => s.homesNeed o.key false (linesIn (s.frameAddr o.asid.toNat o.frame) 8192)

def State.restore (s : State) (core k : Nat) : Return → State
  | .shadow j => s.fromShadow j k
  | .frame o => s.fromFrame core o k

/-- One step of a steal LFSR (R274). -/
def stealStep (n : BitVec 16) : BitVec 16 := if n.getLsbD 0 then (n >>> 1) ^^^ 0xB400 else n >>> 1

/-- The victim of a thief: the first draw that names another core of the partition on the die, with the LFSR's new state. -/
def pickVictim (own : Nat) (inPart : Nat → Bool) : Nat → BitVec 16 → BitVec 16 × Option Nat
  | 0, n => (n, none)
  | f + 1, n =>
    let v := (stealStep n).toNat % 1024
    if v ≠ own && inPart v then (stealStep n, some v) else pickVictim own inPart f (stealStep n)

/-- The partition that a core lies in. -/
def State.partitionOfCore (s : State) (core : Nat) : Option Nat :=
  (List.range 16).find? fun p => (vat s.parts p).clusters.getLsbD (clusterOf core)

/-- The core sends a steal request, unless one is on its way or the backoff of an EMPTY answer runs. -/
def State.steal (s : State) (core : Nat) : State :=
  let c := s.core core
  let d := dieOf core
  match s.partitionOfCore core with
  | none => s
  | some p =>
    let ok := fun v => (vat s.parts p).clusters.getLsbD (clusterOf (d * 1024 + v))
    if c.stealing.isSome || !((List.range 1024).any fun v => v ≠ core % 1024 && ok v) then s
    else
      let r := pickVictim (core % 1024) ok 65536 c.lfsr
      match r.2 with
      | none => s
      | some v =>
        (s.setCore core { c with lfsr := r.1, stealing := some (d * 1024 + v) }).cause .stealRequest { core := core, n := d * 1024 + v }

/-- Binds the first record of the deque or of the inbox: none where there is none to bind. -/
def State.bindFirst (s : State) (core k : Nat) : Option State :=
  let c := s.core core
  match s.popIndex core with
  | some i => (c.records[i]?).map fun r => (s.setCore core (c.removeRec i)).bind k r
  | none =>
    match s.inboxIndex core with
    | some i => (c.inbox[i]?).map fun r => (s.setCore core { c with inbox := c.inbox.eraseIdx i }).bind k r
    | none => none

/-- The record that the core pops next is one that it forked, and the parent's stores before the fork are not visible yet
(R280). -/
def State.popWaits (s : State) (core : Nat) : Bool :=
  let c := s.core core
  match s.popIndex core with
  | some i => (c.records[i]?).any fun r => !s.storesBefore core r.born
  | none => false

/-- After a slot has been filled: a further free slot is filled too, and with none left the wait-swap rule looks at the records
that are still queued (R275, R277). -/
def State.fillMore (s : State) (core : Nat) : State :=
  if (s.freeResident core).isSome then s.causeOnce .fillSlot { core := core }
  else if s.hasRecord core then s.causeOnce .waitSwap { core := core } else s

/-- A core chooses the work of its lowest free resident slot (R275); `ev.n` 1 says that the wait-swap rule has just freed
it for a queued record, which no other filling of the core's slots may take. -/
def execFillSlot (s : State) : Out :=
  let core := s.ev.core
  if s.coreLost core || !s.mgmt.ready then .next s
  else if s.ev.n ≠ 1 && s.swapFreed core then .next (s.later .fillSlot)
  else match s.freeResident core with
  | none => .next (if s.ev.n = 1 && s.hasRecord core then s.causeOnce .waitSwap { core := core } else s)
  | some k =>
    let more := fun (t : State) => t.fillMore core
    match if s.ev.n = 1 then none else s.nextReturn core with
    | some r => match s.returnWaits r with
      | some t => .next ({ t with ev := s.ev }.later .fillSlot)
      | none => .next (more (s.restore core k r))
    | none =>
      if s.popWaits core then .next (s.later .fillSlot)
      else match s.bindFirst core k with
      | some t => .next (more t)
      | none =>
        match if s.ev.n = 1 then s.lastSwapped core else none with
        | some r => match s.returnWaits r with
          | some t => .next ({ t with ev := s.ev }.later .fillSlot)
          | none => .next (s.restore core k r)
        | none => .next (s.steal core)

/-- A victim answers a steal request: with its top record, once the stores made before are visible, or EMPTY (R274).
(DEDUCED: log entry 84; DEDUCED: log entry 85.) -/
def execStealRequest (s : State) : Out :=
  let thief := s.ev.core
  let victim := s.ev.n
  let v := s.core victim
  let done := fun (s : State) => s.updCore thief fun c => { c with stealing := none }
  match if s.coreLost victim then none else (List.range v.records.length).find? fun i => (v.records[i]?).any (s.bindable thief) with
  | none =>
    let b := (s.core thief).backoff
    let s := s.updCore thief fun c => { c with backoff := min 4096 (2 * c.backoff) }
    .next (s.cause .stealBackoffExpiry { core := thief, value := s.cycles + BitVec.ofNat 64 b })
  | some i =>
    match v.records[i]? with
      | none => .next (done s)
      | some r =>
        if !s.storesBefore victim r.born || ((s.openSlot thief).isNone && 32 ≤ (s.core thief).deque.length) then
          .next (s.later .stealRequest) else
        let s := (done (s.setCore victim (v.removeRec i))).updCore thief fun c => { c with backoff := 64 }
        let s := s.updDie (dieOf victim) fun w => { w with counts := { w.counts with steals := w.counts.steals + 1 } }
        match s.openSlot thief with
        | some k =>
          .next ((s.bind k r).fillMore thief)
        | none => .next ((s.updCore thief fun c => { c with deque := c.deque ++ [r] }).arrived thief)

/-- The wait after an EMPTY answer ends, and the core looks for work again (R275). -/
def execStealBackoffExpiry (s : State) : Out :=
  let core := s.ev.core
  if s.cycles < s.ev.value && !s.hasRecord core then .next (s.later .stealBackoffExpiry)
  else .next ((s.updCore core fun c => { c with stealing := none }).causeOnce .fillSlot { core := core })

/-! ### The wait-swap rule (R277) -/

/-- Since when a resident context waits in `WAITEV`, in `BARWAIT` or for the element of a `QR`; none where it does not. A thread
that waits for anything else, or that spins, does not count (R276). (DEDUCED: log entry 130.) -/
def Ctx.waitsSince (c : Ctx) : Option Word :=
  match c.run with
  | .waitev _ => c.waitSince
  | .barwait _ _ _ => c.waitSince
  | .running => if c.blocked then c.waitSince.filter fun t => c.pops.any fun p => p.since = t else none
  | _ => none

/-- The context that has waited longest, the lowest number among equals; a holder of the token and a context that waits on its
mailbox are not taken (R146, R221). -/
def State.longestWaiter (s : State) (core : Nat) : Option Nat :=
  (((List.range 8).map (keyOf core)).foldl (fun (b : Option (Nat × Word)) k =>
    match (s.ctx k).waitsSince with
    | none => b
    | some t => if s.tokenHolder = some k || (s.ctx k).onMailbox then b
      else match b with
        | some (_, u) => if t < u then some (k, t) else b
        | none => some (k, t)) none).map (·.1)

/-- With every resident context waiting and a record queued, the longest waiter moves to a shadow slot (R277). -/
def execWaitSwap (s : State) : Out :=
  let core := s.ev.core
  let all := ((List.range 8).map (keyOf core)).all fun k => (s.ctx k).waitsSince.isSome
  if !s.hasRecord core || (s.freeResident core).isSome then .next s
  else if !all then .next (s.later .waitSwap)
  else
    let t := [shadowKey core 0, shadowKey core 1].foldl (fun s j => (s.streamOne j).1) s
    match t.longestWaiter core, t.freeShadow core with
    | some k, some _ =>
      .next ((t.updCtx k fun c => { c with why := some .swapped }).causeOnce .contextStream { core := core })
    | _, _ => .next ({ t with ev := s.ev }.later .waitSwap)

end Sys2Proof.Machine
end

