-- ==== Sys2Proof/Machine/System.lean ====
section
/-! DEFINITION. Major 0x30: traps, parks and returns (R313, R314), system registers (R32, R33, R315), event counts (R316),
translation changes (R317), resuming parked threads (R305, R318), and context images in memory (R319, R320). -/

namespace Sys2Proof.Machine

/-! ### Traps and parks (R313) -/

def execTrap (r : FS) (s : State) : Out :=
  s.always [] [] fun s => s.released? (.trap .software (r.code.zeroExtend 64))

/-- Parks the issuing thread with a kind above 3; a speculative transaction aborts with cause pre-emption first (R308).
(DEDUCED: log entry 28.) -/
def State.parkSelf (s : State) (kind code : Nat) (resume : Word) : State :=
  let pc := s.th.pc
  if s.th.speculative then s.startAbort s.cur ⟨5, 0, .stop kind code pc⟩
  else (s.updTh fun c => { c with pc := resume, blocked := false }).parkKind s.cur kind code pc

/-- DEDUCED: log entry 27. -/
def execSyscall (r : FS) (s : State) : Out :=
  s.always [] [] fun s => s.released? (.final (s.parkSelf 4 r.code.toNat (s.th.pc + 8)))

def execHalt (_r : FS) (s : State) : Out :=
  s.always [] [] fun s => s.released? (.final (s.parkSelf 5 0 s.th.pc))

/-! ### Returning from a handler (R314) -/

/-- Returns to an address, with INTRAP cleared. (DEDUCED: log entry 26.) -/
def State.trapReturn (s : State) (i : Instr) (pc : Word) : Done :=
  if s.th.intrap then
    match jumpTo s pc with
    | .goto t pc => .goto (t.updTh fun c => { c with intrap := false }) pc
    | d => d
  else .trap .illegalOp (encode i)

def execEret (r : FS) (s : State) : Out := s.always [] [] fun s => s.trapReturn (.eret r) s.th.trappc
def execEretNext (r : FS) (s : State) : Out := s.always [] [] fun s => s.trapReturn (.eretNext r) (s.th.trappc + 8)

/-! ### System registers (R32, R33, R315) -/

/-- STATUS (R291). -/
def Ctx.status (c : Ctx) : Word := BitVec.ofNat 64 (b2n (c.asid = 0) + 2 * b2n c.intrap)

/-- PARTCFG of a thread (R293). -/
def State.partcfg (s : State) (asid : Nat) : Word :=
  let p := (s.space asid).partition.toNat
  let q := vat s.parts p
  BitVec.ofNat 64 (p + q.l2mask.toNat * 2 ^ 4 + q.qmask.toNat * 2 ^ 20)

/-- The value of a system register for the issuing thread. -/
def State.sysreg (s : State) (n : Nat) : Word :=
  let c := s.th
  let p := s.space c.asid.toNat
  match n with
  | 0x000 => BitVec.ofNat 64 (s.myCore + slotOf s.cur * 2 ^ 12 + c.asid.toNat * 2 ^ 15)
  | 0x001 => s.gtOf s.myDie
  | 0x002 => s.cycles
  | 0x003 => c.r.fpstat
  | 0x004 => c.r.stochseed.zeroExtend 64
  | 0x005 => c.trapcause
  | 0x006 => c.trappc
  | 0x007 => c.trapval
  | 0x008 => c.txstat.word
  | 0x009 => c.info.pscount
  | 0x00A => c.info.workid
  | 0x00B => c.info.taskarg
  | 0x100 => (s.die s.myDie).faultstat
  | 0x101 => p.ptbase
  | 0x102 => s.partcfg c.asid.toNat
  | 0x103 => p.leasecfg
  | 0x104 => p.trapvec
  | 0x105 => (s.core s.myCore).mximage
  | 0x106 => p.ctxframe
  | _ => c.status

/-- A register that unprivileged threads may not read. -/
def sysregPriv (n : BitVec 12) : Bool := 0x100 ≤ n.toNat

def execMfs (r : FS) (s : State) : Out :=
  let run := s.always [] [dx r.d] fun s =>
    if r.code = 0x003 && !s.th.results.isEmpty then .stay s else .next (s.setX r.d (s.sysreg r.code.toNat))
  if sysregPriv r.code then s.privileged (.mfs r) run else run

/-- FPSTAT after a write (R33): RM 5 to 7 leaves RM unchanged, reserved bits stay 0. -/
def fpstatWrite (old w : Word) : Word :=
  let rm := if w.toNat / 256 % 8 ≤ 4 then w.toNat / 256 % 8 else old.toNat / 256 % 8
  BitVec.ofNat 64 (w.toNat % 32 + rm * 256)

/-- Writes a register of the issuing context (R33, R65, R291, R306). (DEDUCED: log entry 24.) -/
def Ctx.writeReg (c : Ctx) (n : Nat) (w : Word) : Ctx :=
  match n with
  | 0x003 => { c with r := { c.r with fpstat := fpstatWrite c.r.fpstat w } }
  | 0x004 => { c with r := { c.r with stochseed := if w.setWidth 32 = 0 then 1 else w.setWidth 32 } }
  | 0x005 => { c with trapcause := w &&& 0xFF }
  | 0x006 => { c with trappc := w }
  | 0x007 => { c with trapval := w }
  | _ => { c with intrap := w.getLsbD 1 }

/-- The offset of an address-space register in the block of R290. -/
def blockWord (n : Nat) : Nat :=
  match n with
  | 0x101 => 1 | 0x103 => 2 | 0x104 => 3 | _ => 4

/-- Writes the masks of a partition (R293). -/
def State.writePartcfg (s : State) (asid : Nat) (w : Word) : State :=
  let p := (s.space asid).partition.toNat
  s.writePartition s.myDie p { vat s.parts p with l2mask := w.extractLsb' 4 16, qmask := w.extractLsb' 20 16 } false

/-- A write of a system register (R315); one to an address-space or partition register fences at system scope. MXIMAGE is a
physical address, of 50 bits. (DEDUCED: log entry 67.) -/
def State.mts (s : State) (n : Nat) (w : Word) : Done :=
  let asid := s.th.asid.toNat
  match n with
  | 0x100 => .next (s.writeFaultstat s.myDie w)
  | 0x101 | 0x103 | 0x104 | 0x106 => s.released? (.next (s.writeSpace s.myDie asid ((s.spaceWords asid).set (blockWord n) w)))
  | 0x102 => s.released? (.next (s.writePartcfg asid w))
  | 0x105 => .next (s.updCore s.myCore fun c => { c with mximage := w &&& 0x3FFFFFFFFFFFF })
  | _ => .next (s.updTh fun c => c.writeReg n w)

/-- DEDUCED: log entry 86. -/
def execMts (r : FS) (s : State) : Out :=
  s.privileged (.mts r) (s.always [sx0 r.d] [] fun s => s.mts r.code.toNat (s.x r.d))

/-! ### Event counts (R316) -/

/-- Event n of a die, as an address space reads it; none for one that is not in the table. -/
def State.event (s : State) (d n asid : Nat) : Word :=
  let v := s.die d
  let ret := fun (i : Nat) (n : Word) => if asid ≠ 0 && (vat v.retAsid i).toNat ≠ asid then 0 else n
  match n with
  | 0x010 => v.pshit.zeroExtend 64
  | 0x011 => v.psmiss.zeroExtend 64
  | 0x020 => v.counts.offered
  | 0x021 => v.counts.dropped
  | 0x022 => v.counts.resumed
  | 0x030 => v.counts.commits
  | 0x031 => v.counts.aborts
  | 0x032 => v.counts.grants
  | 0x060 => v.counts.swaps
  | 0x061 => v.counts.steals
  | 0x062 => v.counts.held
  | _ =>
    let i := (n - 0x40) / 2
    if n % 2 = 0 then ret i (vat v.rethit i) else ret i (vat v.retmiss i)

/-- An event that unprivileged threads may not read. -/
def eventPriv (n : Nat) : Bool := (0x20 ≤ n && n < 0x40) || 0x60 ≤ n

def execRdev (r : FS) (s : State) : Out :=
  let n := r.code.toNat % 1024
  let run := s.always [] [dx r.d] fun s => .next (s.setX r.d (s.event (r.code.toNat / 1024) n s.th.asid.toNat))
  if eventPriv n then s.privileged (.rdev r) run else run

/-! ### Invalidating translations (R200, R317) -/

/-- What a `TLBINV` or the end of an address space targets: a page of an address space, an address space, or everything. -/
inductive InvTarget where
  | page (asid : BitVec 12) (va : Nat)
  | space (asid : BitVec 12)
  | all
  deriving DecidableEq, Repr

def InvTarget.ofAsid : InvTarget → BitVec 12 → Bool
  | .page a _, b => a = b
  | .space a, b => a = b
  | .all, _ => true

/-- A translation that is a target. -/
def InvTarget.hits (t : InvTarget) (e : TlbEntry) : Bool :=
  t.ofAsid e.asid && match t with
    | .page _ va => e.vpage = va / 2 ^ e.bits
    | _ => true

/-- The translations held by clusters that are targets. -/
def State.targets (s : State) (t : InvTarget) : List TlbEntry :=
  s.clusters.flatMap fun c => c.2.tlb.filter t.hits

/-- Every cluster drops the targets. -/
def State.dropTlb (s : State) (t : InvTarget) : State :=
  { s with clusters := Tbl.mapV s.clusters fun _ c =>
      { c with tlb := c.tlb.filter fun e => !t.hits e, wcache := c.wcache.filter fun w => !t.ofAsid w.asid } }

/-- A line of an L1 is a target by its tag: of a page, any line of the address space in the 1 GiB that the largest page may
take. (DEDUCED: log entry 87.) -/
def InvTarget.hitsTag (t : InvTarget) (g : VTag) : Bool :=
  t.ofAsid g.asid && match t with
    | .page _ va => g.vline / 2 ^ 23 = va / 2 ^ 30
    | _ => true

/-- An L1 writes back and invalidates its target lines and gives up the leases and the tiles of which it holds no line any
more (R317). -/
def State.flushL1 (s : State) (core : Nat) (t : InvTarget) : State :=
  let es := (s.core core).lines.filter fun e => e.spec.isNone && t.hitsTag e.tag
  let tiles := (es.map fun e => s.tileOf e.line).eraseDups
  tiles.foldl (fun s n => s.ownerGives core n ((es.head?.map (·.tag.asid)).getD 0)) (es.foldl (fun s e => s.evictLine core e) s)

/-- A declared tile covers one of the target's pages: one of those through which it was translated, or a part of one that a
translation now covers (R200). -/
def InvTarget.covers (t : InvTarget) (es : List TlbEntry) (e : TileEntry) : Bool :=
  t.ofAsid e.asid && match t with
    | .page _ va =>
      let size := es.foldl (fun m x => max m (2 ^ x.bits)) 4096
      let lo := va / size * size
      (e.pages.any fun p => p.1 ≤ va && va < p.2) ||
        (List.range e.rows).any fun r => overlaps (e.base.toNat + r * e.pitch) e.rowbytes lo size
    | _ => true

/-- The declared tiles that cover targets, each with one of its lines. -/
def State.targetTiles (s : State) (t : InvTarget) : List (Nat × Nat) :=
  let es := s.targets t
  (s.tiles.filter fun e => t.covers es e.2).map fun e => (e.1, e.2.lines.headD 0)

/-- A command of the address space that has begun and may have translated addresses is not complete, or a copy of the
palimpsest cache is owed. A KICK translates nothing: its source is translated as its notice lands. (DEDUCED: log entry 87.) -/
def State.engineBusy (s : State) (t : InvTarget) : Bool :=
  s.ctxs.any fun e => t.ofAsid e.2.asid &&
    ((s.palCopies.any fun p => p.k = e.1) ||
      [2, 4, 6, 8].any fun q => (vat e.2.cmds q).any fun c => c.started && !(q = 2 && c.fn = 0x03 && !c.barq))

/-- The translations, walk-cache entries, L1 lines and tiles of a target go, once its tiles are closed. -/
def State.invalidate (s : State) (t : InvTarget) (f : State → Done) : Done :=
  if s.engineBusy t then .stay s
  else
    let ts := (s.targetTiles t).map (·.1)
    let x := s.lexpOf ts
    let lines := ts.flatMap fun n => (Tbl.get? s.tiles n).elim [] (·.lines)
    s.closing (s.targetTiles t) fun s =>
      let s := s.cores.foldl (fun s c => s.flushL1 c.1 t) s
      f (({ s with tiles := Tbl.keep s.tiles fun n _ => !ts.contains n }.inheritLexp (implicitTiles lines) x).dropTlb t)

/-- `TLBINV`: fences and the invalidation between them. -/
def State.tlbinv (s : State) (t : InvTarget) : Done := s.released? (s.invalidate t fun s => .next s)

/-- The ASID and the page that Xs names. -/
def invPage (w : Word) : InvTarget := .page (w.extractLsb' 48 12) (w.toNat / 4096 % 2 ^ 36 * 4096)

def execTlbinvPage (r : FS) (s : State) : Out :=
  s.privileged (.tlbinvPage r) (s.always [sx0 r.d] [] fun s => s.tlbinv (invPage (s.x r.d)))
def execTlbinvAsid (r : FS) (s : State) : Out :=
  s.privileged (.tlbinvAsid r) (s.always [sx0 r.d] [] fun s => s.tlbinv (.space ((s.x r.d).extractLsb' 48 12)))
def execTlbinvAll (r : FS) (s : State) : Out :=
  s.privileged (.tlbinvAll r) (s.always [] [] fun s => s.tlbinv .all)

/-! ### Resuming parked threads (R305, R318) -/

/-- The kinds that `REPLAY` op 0 and op 1 resume (R303). -/
def resumable (kind : Nat) : Bool := 1 ≤ kind && kind ≤ 4

def Ctx.resumes (c : Ctx) : Bool := match c.run with
  | .parked n => resumable n
  | _ => false

/-- A parked context becomes ready: in a resident slot it resumes issue, and leaves as soon as it may where its address space is
held (R308); elsewhere it waits for a slot. -/
def Ctx.ready (c : Ctx) (k : Nat) (held : Bool) : Ctx :=
  if k < 32768 then { c with run := .running, why := if held then some .hold else none, entry := none }
  else { c with why := some .ready, entry := none }

def OutEntry.resumes (o : OutEntry) : Bool := match o.why with
  | .parked n => resumable n
  | _ => false

/-- An out-listed context of a chosen address space becomes ready where it was parked with a resumable kind. -/
def OutEntry.readyIf (sel : BitVec 12 → Bool) (o : OutEntry) : OutEntry :=
  if sel o.asid && o.resumes then { o with why := .ready, entry := none } else o

/-- The threads resumed on a die. -/
def State.resumedOn (s : State) (sel : BitVec 12 → Bool) (d : Nat) : Nat :=
  (s.ctxs.filter fun e => dieOf (coreOf e.1) = d && sel e.2.asid && e.2.resumes && e.2.why ≠ some .ready).length +
    s.cores.foldl (fun n c => if dieOf c.1 = d then n + (c.2.outlist.filter fun o => sel o.asid && o.resumes).length else n) 0

/-- Every parked thread of the chosen address spaces that is of a resumable kind becomes ready. -/
def State.resumeAll (s : State) (sel : BitVec 12 → Bool) : State :=
  let counts := s.dies.zipIdx.map fun (v : Die × Nat) =>
    { v.1 with counts := { v.1.counts with resumed := v.1.counts.resumed + BitVec.ofNat 64 (s.resumedOn sel v.2) } }
  let s := { s with
    dies := counts
    ctxs := Tbl.mapV s.ctxs fun k c => if sel c.asid && c.resumes then c.ready k (s.space c.asid.toNat).hold else c
    cores := Tbl.mapV s.cores fun _ c => { c with outlist := c.outlist.map (OutEntry.readyIf sel) } }
  let waiting := (s.ctxs.filter fun e => 32768 ≤ e.1 && e.2.why = some .ready).map (fun e => coreOf e.1) ++
    (s.cores.filter fun c => c.2.outlist.any fun o => o.why = .ready).map (·.1)
  let leaving := (s.ctxs.filter fun e => e.1 < 32768 && e.2.why = some .hold).map fun e => coreOf e.1
  leaving.eraseDups.foldl (fun s c => s.causeOnce .contextStream { core := c })
    (waiting.eraseDups.foldl (fun s c => s.causeOnce .fillSlot { core := c }) s)

/-- The fault records of the chosen address spaces go: cluster tables, and buffer entries of the kinds 1 to 4. -/
def State.clearFaults (s : State) (sel : BitVec 12 → Bool) : State :=
  let s := (List.range 4).foldl (fun s d => (List.range 8).foldl (fun s i =>
    match vat (s.die d).faults i with
    | some e => if sel e.asid && resumable e.kind.toNat then s.freeFault d i else s
    | none => s) s) s
  let s := { s with clusters := Tbl.mapV s.clusters fun _ c => { c with faults := c.faults.filter fun e => !sel e.asid } }
  (List.range 4).foldl (fun s d =>
    if s.clusters.any fun c => c.1 / 64 = d && c.2.faults.any (·.dropped) then s
    else s.updDie d fun v => { v with dropped := false, dropcount := 0 }) s

/-- `REPLAY` ops 0 and 1, after their fence. -/
def State.replay (s : State) (sel : BitVec 12 → Bool) : Done := s.released? (.next ((s.resumeAll sel).clearFaults sel))

def execReplay (r : FS) (s : State) : Out :=
  s.privileged (.replay r) (s.always [] [] fun s => s.replay fun _ => true)
def execReplayAsid (r : FS) (s : State) : Out :=
  s.privileged (.replayAsid r) (s.always [sx0 r.d] [] fun s => s.replay fun a => a = (s.x r.d).extractLsb' 0 12)

/-- Ends one parked context, as far as its commands allow (R282, R318). -/
def State.dropThread (s : State) (k : Nat) : State :=
  let s := match (s.ctx k).tx with
    | some x => if (s.ctx k).txstat.irrev then s.endTx k x.tiles else (s.forgetTx k x.tiles).updCtx k fun c => { c with tx := none }
    | none => s
  match s.endWork k with
  | (t, true) => if t.released k then t.endFree k else t
  | (t, false) => t

/-- Ends the out-listed parked contexts of an address space and frees their frames; a handler's notice is acknowledged (R282,
R318). -/
def State.dropFrames (s : State) (asid : BitVec 12) : State :=
  let gone := fun (o : OutEntry) => o.asid = asid && match o.why with
    | .parked _ => true
    | .blot => true
    | _ => false
  let es := s.cores.flatMap fun c => (c.2.outlist.filter gone).map fun o => (c.1, o)
  let s := { s with cores := Tbl.mapV s.cores fun _ c => { c with outlist := c.outlist.filter fun o => !gone o } }
  es.foldl (fun s e =>
    let s := match e.2.info.notice with
      | some (j, t) => s.ackNotice j t 0
      | none => s
    let s := (s.returnFrame e.1 asid.toNat e.2.frame).rename e.2.key (goneKey e.1)
    let s := s.updOte fun o => { o with held := Tbl.erase o.held (goneKey e.1) }
    match e.2.info.task with
    | some r => s.ended r.slot e.2.info.triggered
    | none => s) s

/-- The buffer entries of an address space are freed. -/
def State.dropEntries (s : State) (asid : BitVec 12) : State :=
  (List.range 4).foldl (fun s d => (List.range 8).foldl (fun s i =>
    match vat (s.die d).faults i with
    | some e => if e.asid = asid then s.freeFault d i else s
    | none => s) s) s

/-- The parked contexts of an address space in slots. -/
def State.parkedIn (s : State) (asid : BitVec 12) : List Nat :=
  (s.ctxs.filter fun e => e.2.isParked && e.2.asid = asid).map (·.1)

/-- `REPLAY` op 2: it completes once every thread that it ends has ended. (DEDUCED: log entry 88.) -/
def State.replayDrop (s : State) (asid : BitVec 12) : Done :=
  s.released? <|
    let t := (s.parkedIn asid).foldl State.dropThread s
    if (t.parkedIn asid).isEmpty then .next ((t.dropFrames asid).dropEntries asid) else .stay t

def execReplayDrop (r : FS) (s : State) : Out :=
  s.privileged (.replayDrop r) (s.always [sx0 r.d] [] fun s => s.replayDrop ((s.x r.d).extractLsb' 0 12))

/-! ### Images in memory (R319, R320) -/

/-- Why the issuing context's image may not be saved: the TRAPVAL of IMAGE_BUSY. -/
def State.imageBusy (s : State) : Option Nat :=
  if !s.th.queuesEmpty then some 1
  else if (s.mx s.myCore).owner = some s.cur || s.th.mxSaved.isSome then some 2
  else if s.tokenHolder = some s.cur then some 3
  else none

/-- `CTXSAVE` outside a speculative transaction. -/
def State.saveImage (s : State) (va : Word) : Done :=
  if s.th.joined then s.released? (.next s)
  else if va.toNat % 8192 ≠ 0 then .trap .misalignedData va
  else match s.imageBusy with
    | some n => .trap .imageBusy (BitVec.ofNat 64 n)
    | none =>
      if !s.th.results.isEmpty || !s.th.loads.isEmpty || s.postsOut s.cur then .stay s
      else
        let bs := s.th.image (s.th.pc + 8)
        s.access .store 8 ((List.range 576).map fun i => (i, va + BitVec.ofNat 64 (8 * i))) fun ls =>
          match s.storeLocs 8 (fun i => wordOf ((bs.drop (8 * i)).take 8)) 0 ls with
          | .next t => .stay (t.updTh fun c => { c with joined := true })
          | d => d

def execCtxsave (r : FS) (s : State) : Out :=
  s.always [sx0 r.d] [] fun s => if s.th.speculative then .abort 5 0 else s.saveImage (s.x r.d)

/-- The physical addresses of a frame's two pages, with what the translations fill: none where it does not translate. -/
def State.framePages (s : State) (va : Word) : State × Option (Nat × Nat) :=
  if va.toNat % 8192 ≠ 0 || remoteBase < va.toNat + 8192 then (s, none)
  else match s.xlate s.myCore s.th.asid .load va with
    | (s, .error _) => (s, none)
    | (s, .ok (p, _)) => match s.xlate s.myCore s.th.asid .load (va + 4096) with
      | (s, .error _) => (s, none)
      | (s, .ok (q, _)) => (s, some (p, q))

/-- The code with which a `CTXLOAD` of an image fails. -/
def State.loadCode (s : State) (bs : List Byte) (poisoned : Bool) : Option Nat :=
  match s.imageCode s.myCore bs with
  | some n => some n
  | none => if poisoned then some 2 else if (field bs 0 8).testBit 15 then some 5 else none

/-- Step 2 for the frame: it leaves the out-list that holds it, and its thread's launch. (DEDUCED: log entry 79.) -/
def State.takeListed (s : State) (pa : Nat) : State :=
  match s.cores.findSome? fun c => (c.2.outlist.find? fun o => s.frameAddr o.asid.toNat o.frame = pa).map fun o => (c.1, o) with
  | none => s
  | some (c, o) =>
    let s := s.updCore c fun v => { v with outlist := v.outlist.filter fun p => p.key ≠ o.key }
    let s := (s.returnFrame c o.asid.toNat o.frame).rename o.key (goneKey c)
    match o.info.task with
    | some r => s.ended r.slot o.info.triggered
    | none => s

/-- Step 1 of `CTXLOAD`: the image is read into a free shadow slot and checked. -/
def State.loadImage (s : State) (va : Word) : Done :=
  match s.freeShadow s.myCore with
  | none => .stay s
  | some j =>
    match s.framePages va with
    | (_, none) => .trap .badImage 4
    | (s, some (p, q)) =>
      let lines := ((List.range 32).map fun i => p / 128 + i) ++ (List.range 4).map fun i => q / 128 + i
      if lines.any fun l => (s.paKind (l * 128) = .memory && s.lineDead l) || s.lineDevDead l then .blot
      else match s.engNeeds s.cur false lines with
      | some t => .stay t
      | none =>
        let s := s.engServe s.cur s.th.asid false lines
        let bs := s.bytesFor s.cur p 4096 ++ s.bytesFor s.cur q 512
        match s.loadCode bs (lines.any fun l => s.paPoison (l * 128)) with
        | some n => .trap .badImage (BitVec.ofNat 64 n)
        | none =>
          if s.th.speculative then .abort 3 0
          else
            let s := (s.setCtx j { imageCtx bs s.gt with run := .checking s.cur }).takeListed p
            .stay (s.updTh fun c => { c with joined := true })

/-- The shadow slot that holds the image which a context loads. -/
def State.loading (s : State) (k : Nat) : Option Nat :=
  [shadowKey (coreOf k) 0, shadowKey (coreOf k) 1].find? fun j => (s.ctx j).run = .checking k

/-- Steps 2 and 3: the issuing thread ends and the image takes its slot. A trap of the fence is delivered to the thread,
and the shadow slot is freed. -/
def State.loadEnd (s : State) : Done :=
  let k := s.cur
  s.endTransaction fun s =>
  match s.endWork k with
  | (t, false) => .stay t
  | (t, true) =>
    if !t.th.loads.isEmpty then .stay t
    else if !t.released k then .wait (t.causeOnce .releaseComplete { k := k }) .release
    else match t.th.remoteFail, t.loading k with
      | some e, j =>
        let t := match j with
          | some j => { t with ctxs := Tbl.erase t.ctxs j }
          | none => t
        .final ((t.updTh fun c => { c with remoteFail := none }).deliver k .scratchRange e.2 t.th.pc)
      | none, some j => .final (((t.endFree k).fromShadow j k).markHold k)
      | none, none => .final (t.endFree k)

def execCtxload (r : FS) (s : State) : Out :=
  s.privileged (.ctxload r) (s.always [sx0 r.d] [] fun s =>
    if s.th.joined then s.loadEnd else s.loadImage (s.x r.d))

end Sys2Proof.Machine
end

