-- ==== Sys2Proof/Machine/Management.lean ====
section
/-! DEFINITION. What happens to the package from outside its cores: time (R19, R20), the host link and device registers
(R16, R178, R259 to R262), address spaces and partitions (R293, R308, R311), starting and stopping (R21, R330 to R334),
and integrity and containment (R10, R321 to R328). -/

namespace Sys2Proof.Machine

/-! ### Containment (R326 to R328) -/

/-- The partitions that hold a cluster of an agent. -/
def State.agentParts (s : State) (a : Agent) : List Nat :=
  (List.range 16).filter fun p => a.inClusters (vat s.parts p).clusters

/-- A context of a dead core or folio is lost (R328): its transaction holds nothing, its task counts as ended. -/
def State.lose (s : State) (k : Nat) : State :=
  let core := coreOf k
  let c := s.ctx k
  let s := match c.tx with
    | some x => s.forgetTx k x.tiles
    | none => s
  let s := if s.tokenHolder = some k then { s with tokenHolder := none } else s
  let s := { s with dies := s.dies.map fun (v : Die) => { v with tokenq := v.tokenq.filter (· ≠ k) } }
  let s := s.rename k (goneKey core)
  let s := { s with ctxs := Tbl.erase s.ctxs (goneKey core) }
  match c.info.task with
  | some r => if c.run = .vacant then s else s.ended r.slot c.info.triggered
  | none => s

/-- The notices for which a core owes an acknowledgement: those that wait, and those whose lines its rings hold. -/
def State.owedAcks (s : State) (core : Nat) : List Notice :=
  let c := s.core core
  (c.notices ++ c.overflow ++ s.ctxs.flatMap fun e =>
    if coreOf e.1 = core && e.1 < noCtx then (e.2.ring.elim [] (·.allocs)).filterMap fun a => if a.acked then none else some a.notice
    else []).eraseDups

/-- The sender of a notice gets an error in place of its acknowledgement: a `KICK` that a dead core does not answer (R328).
(DEDUCED: log entry 157.) -/
def State.loseAck (s : State) (n : Notice) : State :=
  if (s.cmd? n.k 2 n.id).isNone || s.coreLost (coreOf n.k) then s else (s.dropCmd n.k 2 n.id).blotted n.k

/-- What a dead core holds is lost: its contexts, its out-list and its records. -/
def State.loseCore (s : State) (core : Nat) : State :=
  let owed := s.owedAcks core
  let ks := (s.ctxs.filter fun e => coreOf e.1 = core && e.1 < 65536).map (·.1)
  let s := ks.foldl State.lose s
  let c := s.core core
  let s := c.outlist.foldl (fun s o => match o.info.task with
    | some r => s.ended r.slot o.info.triggered
    | none => s) s
  let s := (c.records ++ c.inbox).foldl (fun s r => s.ended r.slot false) s
  owed.foldl State.loseAck <| s.updCore core fun c =>
    { c with deque := [], inbox := [], spill := Vector.replicate 8 [], spilled := [], outlist := [], notices := []
             overflow := [], handlers := [], stealing := none }

/-- A dead OTE retires its buffers, and its transmits end with TIMEOUT (R328). -/
def State.loseOte (s : State) : State :=
  let s := s.ote.transmits.foldl (fun s t => s.endTransmit t.2.k t.1 0x12 0) s
  s.updOte fun o => { o with buffers := [], receives := [], transmits := [] }

/-- The home of a tile is on an agent (R328). -/
def Agent.homesTile (a : Agent) (home : Nat) : Bool := match a with
  | .folio d => home / 64 = d
  | .slice i => home = i
  | _ => false

/-- Every line homed on an agent is poisoned: by its address, or with its declared tile (R328). -/
def State.poisonHomes (s : State) (a : Agent) : State :=
  let s := { s with poisonBase := .agent a :: s.poisonBase, poison := s.poison.filter fun l => !a.homes l }
  let ls := (s.tiles.filter fun e => a.homesTile e.2.home).flatMap fun e => e.2.lines
  ls.foldl (fun s l => s.setStoreBad l true) (s.poisonLines ls)

/-- The RMC declares an agent dead (R326 to R328). -/
def State.declareDead (s : State) (a : Agent) (reason : Nat) : State :=
  if s.isDead a then s
  else
    let parts := s.agentParts a
    let s := { s with dead := s.dead ++ [a] }.poisonHomes a
    let s := s.updMgmt fun m =>
      { m with deadlog := if m.deadlog.length < 64 then m.deadlog ++ [⟨a, reason, s.gt.toNat % 2 ^ 44⟩] else m.deadlog
               failedParts := m.failedParts ++ parts.filter fun p => !m.failedParts.contains p }
    let s := s.raise 7
    match a with
    | .core c => s.loseCore c
    | .folio d => ((s.cores.filter fun c => dieOf c.1 = d).map (·.1)).foldl State.loseCore
        (((s.ctxs.filter fun e => e.1 < 65536 && dieOf (coreOf e.1) = d).map (·.1)).foldl State.lose s)
    | .ote => s.loseOte
    | _ => s

/-! ### Time (R5, R19 to R21) -/

/-- The copy of GT of a die differs from the reference by more than the guard band (R20). -/
def State.outOfBand (s : State) (d : Nat) : Bool :=
  (s.gtOf d).toNat + 32 < s.gt.toNat || s.gt.toNat + 32 < (s.gtOf d).toNat

/-- A die whose GT is outside the guard band is declared dead (R20). -/
def State.checkBand (s : State) (d : Nat) : State := if s.outOfBand d then s.declareDead (.folio d) 2 else s

/-- How a die's copy of GT passes a nanosecond of the reference: `steer` 1 holds it back, 2 moves it ahead, by one
nanosecond in 1,000 at most; it never goes backward (R19). (DEDUCED: log entry 9.) -/
def Die.tick (v : Die) (steer : Nat) : Die :=
  if steer = 1 && 999 ≤ v.steady then { v with steady := 0 }
  else if steer = 2 && 999 ≤ v.steady then { v with gt := v.gt + 2, steady := 0 }
  else { v with gt := v.gt + 1, steady := v.steady + 1 }

/-- CYCLES stands within the guard band of 32 ns of 1.75 cycles for each nanosecond of GT (R5, R21). -/
def inStep (g c : Nat) : Bool := 4 * c ≤ 7 * (g + 32) && 7 * g ≤ 4 * c + 7 * 32

/-- The core cycles that pass with the nanosecond after g, with c so far: the core clock of 1.75 GHz and GT advance
independently, so that 1 or 2 pass as `pace` 1 or 2 says, within the guard band; else 7 pass for every 4 ns (R5, R21). (DEDUCED:
log entry 7.) -/
def coreCycles (g c pace : Nat) : Nat :=
  if (pace = 1 || pace = 2) && inStep (g + 1) (c + pace) then pace else 7 * (g + 1) / 4 - 7 * g / 4

/-- The reference counter advances by one nanosecond, and while READY is 1 each die's copy follows, as two bits of `ev.n`
steer it, and the core clock runs, as `ev.q` paces it. A die that leaves the guard band is declared dead (R20). -/
def execGtTick (s : State) : Out :=
  let s' := { s with gt := s.gt + 1 }
  if s.mgmt.ready then
    let t := { s' with
      cycles := s.cycles + BitVec.ofNat 64 (coreCycles s.gt.toNat s.cycles.toNat s.ev.q)
      dies := Vector.ofFn fun (d : Fin 4) => (vat s.dies d).tick (s.ev.n / 4 ^ d.val % 4) }
    .next ((List.range 4).foldl State.checkBand t)
  else .next s'

/-- A die's GT is compared with the reference; `ev.n` 1 says that it has stopped (R20). -/
def execGtDrift (s : State) : Out :=
  let d := s.ev.die % 4
  .next (if s.ev.n = 1 then s.declareDead (.folio d) 2 else s.checkBand d)

/-- An agent that the package has. -/
def Agent.exists : Agent → Bool
  | .core c => c < 4096
  | .slice i => i < 256
  | .quire q => q < 8
  | .stack q => q < 8
  | .folio d => d < 4
  | .ote => true

def execHeartbeatTimeout (s : State) : Out :=
  .next (if s.ev.agent.exists then s.declareDead s.ev.agent 1 else s)

/-- Both copies of a register of context k fail: it is halted, its speculative transaction aborted first (R322).
(DEDUCED: log entry 129.) -/
def State.registerError (s : State) (k : Nat) : State :=
  let c := s.ctx k
  if c.run = .vacant then s
  else match c.abort with
    | some q => s.updCtx k fun c => { c with abort := some { q with after := .halted } }
    | none => if c.speculative then s.startAbort k ⟨8, 0, .halted⟩ else s.halt k

/-- A fatal error of an agent; `ev.n` 1 marks an error of both copies of a register of context `ev.k`, which alone is halted
(R322); a thread whose transaction commits reads none until the commit is over. (DESIGN CHOICE: log entry 94.) -/
def execFatalErrorReport (s : State) : Out :=
  if s.ev.n = 1 then
    .next (if 32768 ≤ s.ev.k then s
      else if (s.ctx s.ev.k).tx.any fun x => x.phase ≠ .live then s.later .fatalErrorReport
      else s.registerError s.ev.k)
  else .next (if s.ev.agent.exists then s.declareDead s.ev.agent 3 else s)

/-- A link has failed: the agents behind it are declared dead in one step (R10, R326). -/
def execLinkFailure (s : State) : Out :=
  match s.ev.link with
  | .quire q => .next (if q < 8 then (s.declareDead (.quire q) 4).declareDead (.stack q) 4 else s)
  | .row d => .next (if d < 3 then
      (List.range 4).foldl (fun s i => if d < i then s.declareDead (.folio i) (if i = d + 1 then 4 else 5) else s) s else s)
  | .io => .next ((List.range 4).foldl (fun s i => s.declareDead (.folio i) (if i = 0 then 4 else 5)) s)

/-! ### Integrity (R321, R323) -/

/-- One step of the CRC with the polynomial 0x1EDC_6F41 in reflected form (R324). -/
def crcStep (c : BitVec 32) : BitVec 32 := if c.getLsbD 0 then c >>> 1 ^^^ 0x82F63B78 else c >>> 1

/-- CRC-32C over bytes in ascending address order (R324). -/
def crc32c (bs : List Byte) : BitVec 32 :=
  ~~~(bs.foldl (fun (c : BitVec 32) b => (List.range 8).foldl (fun c _ => crcStep c) (c ^^^ b.setWidth 32)) 0xFFFFFFFF)

/-- The check value that a line of memory carries (R324): where it does not match, the access that verifies it says so.
(DESIGN CHOICE: log entry 94.) -/
def State.checkValue (s : State) (line : Nat) : BitVec 32 := crc32c (Mem.readBytes s.mem (line * 128) 128)

/-- A record that an array of a core has lost counts as ended. -/
def State.loseRec (s : State) (core i : Nat) (rs : List TaskRec) (f : Core → Core) : State := match rs[i]? with
  | some r => (s.updCore core f).ended r.slot false
  | none => s

/-- A double-bit error in an entry of a table: the entry acts as though its object did not exist (R321). The tables are
the tile table (3), a die's barriers (4), palimpsest (5) and hotness entries (6), and a core's deque (7), inbox (8) and shadow
slots (9). (DESIGN CHOICE: log entry 153.) -/
def State.loseEntry (s : State) (table d core i : Nat) : Done :=
  let done := fun (t : State) => Done.next (t.log d (.uncorrectedEntry table i))
  if table = 3 then match Tbl.get? s.tiles i with
    | some e =>
      let x := s.lexpOf [i]
      s.closing [(i, e.lines.headD 0)] fun t =>
        done ({ t with tiles := Tbl.erase t.tiles i }.inheritLexp (implicitTiles e.lines) x)
    | none => done s
  else if table = 4 then done ((s.updDie d fun v => { v with barriers := Tbl.erase v.barriers i }).wakeBarrier d i)
  else if table = 5 then done (s.updDie d fun v =>
    { v with pal := match Tbl.get? v.pal i with
        | some e => Tbl.set v.pal i { e with valid := false, gen := e.gen + 1 }
        | none => v.pal })
  else if table = 7 then done (s.loseRec core i (s.core core).records (·.removeRec i))
  else if table = 8 then done (s.loseRec core i (s.core core).inbox fun c => { c with inbox := c.inbox.eraseIdx i })
  else if table = 9 then
    let k := shadowKey core (i % 2)
    if (s.ctx k).run = .vacant || (s.ctx k).run matches .checking _ then done s
    else
      let t := s.dropThread k
      if (t.ctx k).run = .vacant then done t else .stay t
  else done (s.updDie d fun v => { v with hot := Tbl.erase v.hot i })

/-- What a read of a line in a slice's array finds, of context `spec`'s speculative lines or of the others (R321). -/
def State.scrubSlice (s : State) (d sl line : Nat) (spec : Option Nat) (f : ScrubOutcome) : State :=
  if !(s.slice d sl).any (fun e => e.line = line && e.spec = spec) then s
  else s.found d line false (fun s => s.setSlice d sl ((s.slice d sl).map fun e =>
    if e.line = line && e.spec = spec then { e with bad := true } else e)) f

/-- A stored line or entry is read and what is found in it is put right: a line of a quire or of the DDR5 tier (`ev.q` 0, R323),
a line of an L1 (1), a line of the scratchpad arrays (2), entry `ev.n` of a table (3 to 9), a line of slice `ev.n` (10). A number
above 0 in `ev.n` of an L1's line, or in `ev.id` of a slice's, names the context whose speculative line it is. A scrub verifies no
check value (R324). (DESIGN CHOICE: log entry 94.) -/
def execScrub (s : State) : Out :=
  let e := s.ev
  let spec := fun n => if n = 0 then none else some (n - 1)
  if e.found = .clean || e.found = .mismatch then .next s
  else if e.q = 0 then
    .next (if s.paKind (e.line * 128) = .memory then
      s.found (homeDie (e.line * 128)) e.line false (fun s => s.setBehind e.line true false) e.found else s)
  else if e.q = 1 then .next (s.findInL1 e.core e.line (spec e.n) e.found)
  else if e.q = 2 then
    let core := e.line / 2048
    .next (if e.found = .corrected then s.log (dieOf core) (.correctedArray core e.line)
      else { s with scratchPoison := insertNew s.scratchPoison e.line }.log (dieOf core) (.uncorrectedArray core e.line))
  else if e.q = 10 then .next (s.scrubSlice (e.die % 4) (e.n % 64) e.line (spec e.id) e.found)
  else if e.found = .corrected then .next (s.log (e.die % 4) (.correctedEntry e.q e.n))
  else match s.loseEntry e.q (e.die % 4) (e.core % 4096) e.n with
    | .next t => .next t
    | .stay t => .next ({ t with ev := e }.later .scrub)
    | _ => .next s

/-! ### The host link (R259 to R262) -/

/-- A write of a kick register, by the host or by a store; `ev.n` is its width in bytes, 0 for the 8 that the register
takes (R260). It waits for the host's earlier writes of memory. A discarded one is recorded on folio 0. (DESIGN CHOICE: log
entries 91 and 95.) -/
def execHostKickWrite (s : State) : Out :=
  let a := s.ev.asid % 4096
  let q := s.ev.q % 64
  if !s.mgmt.ready then .next s
  else if s.due.any fun d => d.i = .hostBar4Write then .next (s.later .hostKickWrite)
  else if s.ev.n ≠ 0 && s.ev.n ≠ 8 then .next (s.log 0 (.badKick a q s.ev.value))
  else .next (s.kickQueue 0 a q s.ev.value)

/-- The physical address that an offset in BAR4 reaches. -/
def State.aperture (s : State) (off : Nat) : Nat := (vat s.mgmt.windows (off / 2 ^ 30)).toNat + off % 2 ^ 30

/-- A host write through BAR4, performed at the lines' homes; it meets transactions as a plain store does (R214, R261).
What is written to an address that is not there is discarded and recorded on folio 0, the die beside the I/O die, which is
its issuer. (DESIGN CHOICE: log entry 95.) -/
def execHostBar4Write (s : State) : Out :=
  let pa := s.aperture s.ev.addr
  let n := s.ev.bytes.length
  let ls := linesIn pa n
  if !s.mgmt.ready || 2 ^ 36 < s.ev.addr + n then .next s
  else match s.engNeeds hostKey true ls with
    | some t => .next ({ t with ev := s.ev }.later .hostBar4Write)
    | none =>
      let ws := s.ev.bytes.zipIdx.map fun b => (pa + b.2, b.1)
      let on := fun (q : PaKind) => ws.filter fun w => s.paKind w.1 = q
      let s := (s.engServe hostKey 0 true ls).landBytes ((on .memory).filter fun w => !s.lineDead (w.1 / 128))
      let s := s.devWrite 0 ((on .control).filter fun w => !s.devDead w.1)
      .next (match on .absent with
        | [] => s
        | w :: _ => s.log 0 (.badWrite w.1))

/-- A byte that a host read returns, none where it is poisoned. -/
def State.hostByte (s : State) (pa : Nat) : Option Byte :=
  if s.paKind pa = .control then (if s.devDead pa then none else s.devByte pa)
  else if s.paPoison pa || s.lineDead (pa / 128) then none else some (Mem.read s.mem pa)

/-- MGMTSTAT (R330). -/
def Mgmt.stat (m : Mgmt) : Word :=
  BitVec.ofNat 64 (b2n m.ready + b2n m.lastWarm * 2 + b2n m.recovery * 4 + b2n m.stopclean * 8 + b2n m.thermal * 16 +
    b2n m.starting.isSome * 32 + m.warmfails.toNat * 2 ^ 16 + m.cause.toNat * 2 ^ 32)

/-- An entry of the dead-agent log (R327). -/
def DeadEntry.word (e : DeadEntry) : Word :=
  let k := match e.agent with
    | .core c => (0, c)
    | .slice i => (1, i)
    | .quire q => (2, q)
    | .stack q => (3, q)
    | .folio d => (4, d)
    | .ote => (5, 0)
  BitVec.ofNat 64 (2 ^ 63 + k.1 * 2 ^ 60 + e.reason % 16 * 2 ^ 56 + k.2 % 4096 * 2 ^ 44 + e.gt.toNat % 2 ^ 44)

/-- A byte of a little-endian word. -/
def byteOf (w : Word) (i : Nat) : Byte := w.extractLsb' (8 * (i % 8)) 8

/-- The dword of PARTMEM at an index: base and length of range after range (R330). -/
def Mgmt.partWord (m : Mgmt) (i : Nat) : Word :=
  let r := Tbl.getD m.partmem (i / 2) (0, 0)
  BitVec.ofNat 64 (if i % 2 = 0 then r.1 else r.2)

/-- A byte of the management window (R259, R327, R330). Offsets that the manual does not lay out, and its write-only
registers, read as 0. (DESIGN CHOICE: log entry 90.) -/
def Mgmt.readByte (m : Mgmt) (o : Nat) : Byte :=
  if o < 8 then byteOf m.stat o
  else if 0x100 ≤ o && o < 0x300 then match m.deadlog[(o - 0x100) / 8]? with
    | some e => byteOf e.word o
    | none => 0
  else if 0x2000 ≤ o && o < 0x2800 then byteOf (m.partWord ((o - 0x2000) / 8)) o
  else if 0x100000 ≤ o && o < 0x108000 then
    if o % 16 < 12 then Mem.read m.msixTable o
    else if o % 16 = 12 && !m.unmasked.contains ((o - 0x100000) / 16) then 1 else 0
  else if 0x110000 ≤ o && o < 0x110100 then
    BitVec.ofNat 8 ((List.range 8).foldl (fun n i => if m.pending.contains ((o - 0x110000) * 8 + i) then n + 2 ^ i else n) 0)
  else if 0x200000 ≤ o && o < 0x400000 then Mem.read m.staging (o - 0x200000)
  else 0

/-- A byte of the kick registers: the dispatcher's head index in [31:0] (R260). -/
def State.kickByte (s : State) (o : Nat) : Byte :=
  if o % 4096 < 512 then byteOf (BitVec.ofNat 64 (s.queue (o / 4096) (o % 4096 / 8)).head.toNat) o else 0

/-- What the host has read. -/
def State.hostRead (s : State) (bs : List (Option Byte)) : State := s.updMgmt fun m => { m with hostData := bs }

/-- A host read of `ev.n` bytes: through BAR4 (R261), of the management window where `ev.q` is 1, which alone answers while
READY is 0, or of the kick registers where it is 2. `ev.found` is what the check of `ev.line` finds. -/
def execHostBar4Read (s : State) : Out :=
  let pa := s.aperture s.ev.addr
  let ls := linesIn pa s.ev.n
  if s.ev.q = 1 then .next (s.hostRead ((List.range s.ev.n).map fun i => some (s.mgmt.readByte (s.ev.addr + i))))
  else if !s.mgmt.ready then .next s
  else if s.ev.q = 2 then .next (s.hostRead ((List.range s.ev.n).map fun i => some (s.kickByte (s.ev.addr + i))))
  else if 2 ^ 36 < s.ev.addr + s.ev.n then .next s
  else match s.engNeeds hostKey false ls with
    | some t => .next ({ t with ev := s.ev }.later .hostBar4Read)
    | none =>
      let e := s.ev
      let s := s.engServe hostKey 0 false ls
      let s := if ls.contains e.line && s.paKind (e.line * 128) = .memory then
        s.findError (homeDie (e.line * 128)) e.line true e.found else s
      .next (s.hostRead ((List.range e.n).map fun i => s.hostByte (pa + i)))

/-- A store of a vector number to MSIXRAISE. -/
def execMsixraise (s : State) : Out :=
  .next (if 16 ≤ s.ev.value.toNat && s.ev.value.toNat ≤ 2047 then s.raise s.ev.value.toNat else s)

/-- Changes the mask of a vector; one that is unmasked while pending is raised. (PRESUMED: log entry 89.) -/
def Mgmt.mask (m : Mgmt) (v : Nat) (b : Bool) : Mgmt :=
  if b then { m with unmasked := m.unmasked.filter (· ≠ v) }
  else if m.pending.contains v then
    { m with unmasked := insertNew m.unmasked v, pending := m.pending.filter (· ≠ v), raised := m.raised ++ [v] }
  else { m with unmasked := insertNew m.unmasked v }

/-- The base and the length that a write gives range i of PARTMEM. -/
def Mgmt.newPart (m : Mgmt) (ws : List (Nat × Byte)) (i : Nat) : Nat × Nat :=
  let at' := fun o => natOfBytes ((List.range 8).map fun j =>
    (lastByte ws (0x2000 + 16 * i + o + j)).getD (byteOf (m.partWord (2 * i + o / 8)) j))
  (at' 0, at' 8)

/-- The bytes of a write that lie in PARTMEM. A write that sets a reserved bit is discarded (R330), and so is one with a base or a
length that is no multiple of 64 KiB. (DESIGN CHOICE: log entry 90.) -/
def Mgmt.writeParts (m : Mgmt) (ws : List (Nat × Byte)) : Mgmt :=
  let rs := ((ws.filter fun w => 0x2000 ≤ w.1 && w.1 < 0x2800).map fun w => (w.1 - 0x2000) / 16).eraseDups
  let good := fun n => n < 2 ^ 50 && n % 65536 = 0
  if rs.all fun i => good (m.newPart ws i).1 && good (m.newPart ws i).2 then
    { m with partmem := rs.foldl (fun t i => Tbl.set t i (m.newPart ws i)) m.partmem }
  else m

/-- One byte of a write to the management window: the MSI-X table and the staging buffer. Other bytes are read-only,
reserved, or part of the registers that have steps of their own. -/
def Mgmt.writeByte (m : Mgmt) (o : Nat) (b : Byte) : Mgmt :=
  if 0x100000 ≤ o && o < 0x108000 then
    let v := (o - 0x100000) / 16
    if o % 16 < 12 then { m with msixTable := Mem.write m.msixTable o b }
    else if o % 16 = 12 then m.mask v (b.getLsbD 0) else m
  else if 0x200000 ≤ o && o < 0x400000 then { m with staging := Mem.write m.staging (o - 0x200000) b }
  else m

/-- A host write in the management window. The bases of BAR4's windows and the mailbox have no offsets of their own: `ev.q` 1
marks a write of the base of window `ev.n`, 2 a message that the host posts in the mailbox, 3 one that the RMC posts, with
its interrupt (R259, R262). (DESIGN CHOICE: log entry 90.) -/
def execManagementWindowWrite (s : State) : Out :=
  let ws := s.ev.bytes.zipIdx.map fun b => (s.ev.addr + b.2, b.1)
  .next (if s.ev.q = 1 then s.updMgmt fun m => { m with windows := vput m.windows s.ev.n s.ev.value }
    else if s.ev.q = 2 then s.updMgmt fun m => { m with mailIn := m.mailIn ++ [s.ev.bytes] }
    else if s.ev.q = 3 then (s.updMgmt fun m => { m with mailOut := m.mailOut ++ [s.ev.bytes] }).raise 6
    else s.updMgmt fun m => ws.foldl (fun m w => m.writeByte w.1 w.2) (m.writeParts ws))

/-! ### Device registers and tables (R16, R178, R201, R303, R304) -/

def execFaultEntryFree (s : State) : Out := .next (s.freeFault s.ev.die s.ev.n)
def execFaultstatWrite (s : State) : Out := .next (s.writeFaultstat s.ev.die s.ev.value)
def execHotnessEntryClear (s : State) : Out :=
  .next (s.updDie s.ev.die fun v => { v with hot := Tbl.erase v.hot s.ev.n })
def execLeasecfgWrite (s : State) : Out :=
  let a := s.ev.asid % 4096
  .next (s.updSpace a fun p => { p with leasecfg := clampLease s.ev.value })
def execDeviceRegisterWrite (s : State) : Out :=
  .next (s.devWrite s.ev.die ((s.ev.bytes.zipIdx.map fun b => (s.ev.addr + b.2, b.1)).filter fun w => controlBase ≤ w.1))

/-- A write of partition `ev.n`'s clusters and of the dword of its masks (R293). -/
def execPartitionWrite (s : State) : Out :=
  .next (s.writePartition s.ev.die (s.ev.n % 16)
    ⟨s.ev.clusters, s.ev.value.extractLsb' 0 16, s.ev.value.extractLsb' 16 16⟩ (s.ev.value.toNat / 2 ^ 32 ≠ 0))

/-! ### Address spaces (R308, R311) -/

/-- What an address space owns besides memory goes: retention registers, palimpsest entries, barriers, queues. -/
def State.releaseSpace (s : State) (a : Nat) : State :=
  let s := { s with dies := s.dies.map fun (v : Die) =>
    { v with retention := v.retention.map fun (q : Option Retention) => q.filter fun x => x.asid.toNat ≠ a
             pal := Tbl.mapV v.pal fun _ e => if e.valid && e.asid.toNat = a then { e with valid := false, gen := e.gen + 1 } else e
             barriers := Tbl.keep v.barriers fun _ b => b.asid.toNat ≠ a } }
  { s with queues := Tbl.mapV s.queues fun n q => if n / 64 = a then { q with ctl := q.ctl &&& 0xF7 } else q }

/-- Clearing VALID tears the address space down before its block reads VALID 0 (R311). -/
def execAsidInvalidate (s : State) : Out :=
  let a := s.ev.asid % 4096
  match s.invalidate (.space (BitVec.ofNat 12 a)) fun s => .next (s.releaseSpace a) with
  | .next t => .next (t.updSpace a fun p => { p with valid := false })
  | .stay t => .next ({ t with ev := s.ev }.later .asidInvalidate)
  | _ => .next s

/-- Setting HOLD: every resident context of the address space leaves as soon as it may (R308). -/
def execHold (s : State) : Out :=
  let a := s.ev.asid % 4096
  let mine := fun (k : Nat) (c : Ctx) => c.asid.toNat = a && k < 32768 && c.run ≠ .vacant && c.why.isNone
  let cores := ((s.ctxs.filter fun e => mine e.1 e.2).map fun e => coreOf e.1).eraseDups
  let s := { s with ctxs := Tbl.mapV s.ctxs fun k c => if mine k c then { c with why := some .hold } else c }
  .next (cores.foldl (fun s c => s.causeOnce .contextStream { core := c }) s)

/-! ### Stopping (R21, R330, R332) -/

/-- The lines whose last value is lost with a stop: of a clean one, those that a dead agent held; of any other, every line
that an L1, a slice or a quire has changed and not written back (R21, R330). (DESIGN CHOICE: log entry 92.) -/
def State.lostLines (s : State) (clean : Bool) : List Nat :=
  (s.cores.flatMap fun c => if clean && !s.coreLost c.1 then [] else c.2.l1.flatMap fun t => t.2.dirty) ++
    ((List.range 4).flatMap fun d => (s.die d).slices.flatMap fun e =>
      if clean && !s.isDead (.folio d) && !s.isDead (.slice (d * 64 + e.1)) then []
      else (e.2.filter fun x => x.dirty && x.spec.isNone).map (·.line)) ++
    s.quires.flatMap fun e =>
      if clean && !s.isDead (.quire (e.1 / 2 ^ 20)) then [] else (e.2.filter (·.dirty)).map (·.line)

/-- Lines lose their last value: each byte holds one that the manual does not give. -/
def State.loseLines (s : State) (ls : List Nat) : State :=
  ls.eraseDups.foldl (fun s l =>
    { s with mem := Mem.writeAll s.mem ((List.range 128).map fun i => (l * 128 + i, Config.lostByte s.nextId (l * 128 + i))) }) s

/-- The dirty lines of the cores, the slices and the quires that live go to the stacks and the DDR5 tier with their poison bits
(R324, R330). -/
def State.flushDirty (s : State) : State :=
  let s := s.cores.foldl (fun s c => if s.coreLost c.1 then s
    else (c.2.l1.flatMap fun t => t.2.dirty).foldl (fun s l => s.dirtyHome c.1 l) s) s
  let put := fun (s : State) (line : Nat) (bad : Bool) => if s.lineDead line then s else s.setStoreBad line bad
  let s := s.quires.foldl (fun s e => (e.2.filter (·.dirty)).foldl (fun s x => put s x.line x.bad) s) s
  (s.dies.toList.flatMap fun v => v.slices.flatMap (·.2)).foldl (fun s x =>
    if x.dirty && x.spec.isNone then put s x.line x.bad else s) s

/-- The package with every die stopped: what the cores, the caches and the device's tables held is gone; memory keeps its
poison, and its bytes but for the lines that are lost. (DESIGN CHOICE: log entry 92.) -/
def State.stopped (s : State) (clean : Bool) : State :=
  let m := (if clean then s.flushDirty else s).loseLines (s.lostLines clean)
  { State.reset with
    dies := s.dies.map fun (v : Die) => { Die.start with gt := v.gt, steady := v.steady, errlog := v.errlog }
    gt := s.gt, cycles := s.cycles, mem := m.mem, poison := m.poison, poisonBase := m.poisonBase, parts := s.parts, dead := s.dead
    mgmt := { s.mgmt with ready := false }, cur := s.cur, choices := s.choices, nextId := s.nextId + 1 }

/-- READY changes from 1 to 0, with its interrupt. -/
def State.stop (s : State) (clean : Bool) : State :=
  if s.mgmt.ready then ((s.stopped clean).updMgmt fun m => { m with stopclean := clean }).raise 5 else s.stopped clean

/-- A start begins: warm where it is asked for and two warm starts in a row have not failed (R332). Every start clears the
thermal alert and the dead-agent log (R21, R331). -/
def State.beginStart (s : State) (warm : Bool) : State :=
  let warm := warm && s.mgmt.warmfails.toNat < 2
  ({ s.stop warm with dead := [] }.updMgmt fun m =>
    { m with starting := some warm, thermal := false, coolSince := none, deadlog := [] }).cause
    (if warm then .warmStart else .coldStart) {}

/-- A write of STARTREQ with GO: discarded while a start is in progress, in recovery, or with a reserved bit. -/
def State.startreq (s : State) (warm : Bool) : State :=
  if s.mgmt.starting.isSome || s.mgmt.recovery || 4 ≤ s.ev.value.toNat then s else s.beginStart warm

def execStartreqCold (s : State) : Out := .next (s.startreq false)
def execStartreqWarm (s : State) : Out := .next (s.startreq true)

/-- At power-on the RMC performs a cold start by itself; nothing but the flash and the modules is what it was. -/
def execPowerOn (s : State) : Out :=
  let m := { Mgmt.started with ready := false, starting := some false, flash := s.mgmt.flash, modules := s.mgmt.modules
                               calib := s.mgmt.calib, hostData := s.mgmt.hostData }
  .next ({ State.reset with mgmt := m, cur := s.cur, choices := s.choices, nextId := s.nextId }.cause .coldStart {})

/-- At 95 °C on a die the alert is set, with its interrupt (R21). -/
def execThermalAlert (s : State) : Out :=
  let t := s.updMgmt fun m => { m with thermal := true, coolSince := none }
  .next (if s.mgmt.thermal then t else t.raise 4)

/-- The RMC measures the dies while the alert is set: `ev.n` 0 says that every die is below 90 °C, 1 that one is not. The
alert is cleared once they have all stayed below it for 1,000,000 ns of GT (R21). -/
def execThermalAlertClear (s : State) : Out :=
  .next (if !s.mgmt.thermal then s
    else s.updMgmt fun m =>
      if s.ev.n ≠ 0 then { m with coolSince := none }
      else match m.coolSince with
        | none => { m with coolSince := some s.gt }
        | some g => if 1000000 ≤ (s.gt - g).toNat then { m with thermal := false, coolSince := none } else m)

/-- A warm start that fails counts (R332). -/
def Mgmt.failStart (m : Mgmt) : Mgmt :=
  { m with starting := none, warmfails := if m.starting = some true && m.warmfails ≠ 255 then m.warmfails + 1 else m.warmfails }

/-- The package stops with a cause; a start in progress fails (R21, R332). -/
def State.stopWith (s : State) (cause : Half) : State :=
  let t := (s.stop false).updMgmt fun m => { m.failStart with cause := cause, stopclean := false }
  if s.mgmt.starting.isSome then t.raise 5 else t

def execThermalTrip (s : State) : Out := .next (s.stopWith 0x0009)
def execSupplyFault (s : State) : Out := .next (s.stopWith 0x000A)

/-! ### Firmware and starting (R331 to R334) -/

/-- Why the RMC refuses an image: the cause of R332, 0 where it runs it. The RSA signature is checked first (R333).
(DESIGN CHOICE: log entry 20.) -/
def firmwareCause (image : List Byte) : Half :=
  if !Config.imageReadable image then 0x0008
  else if !Config.rsaVerifies image then 0x0006
  else if !Config.slhVerifies image then 0x0007
  else if Config.imageVersion image < Config.fusedMinimum then 0x000B
  else 0

/-- A firmware cause, which leads to recovery (R334). -/
def firmwareFailure (cause : Half) : Bool := cause = 0x0006 || cause = 0x0007 || cause = 0x0008 || cause = 0x000B

/-- All sixteen channels hold modules of one capacity (R15). -/
def populated (m : Vector Nat 16) : Bool :=
  (vat m 0 = 64 || vat m 0 = 128 || vat m 0 = 256) && m.toList.all fun n => n = vat m 0

/-- The stored calibration serves a warm start: every die lies within 10 °C of the recorded temperature (R331). -/
def Mgmt.calibrated (m : Mgmt) (temps : List Nat) : Bool := match m.calib with
  | some ts => ts.length = temps.length && (ts.zip temps).all fun e => e.1 ≤ e.2 + 10 && e.2 ≤ e.1 + 10
  | none => false

/-- How a start ends: the cause of its failure, 0 where it succeeds; `found` is what calibration and initialisation report,
`reuse` that the stored calibration serves. -/
def State.startCause (s : State) (found : Half) (reuse : Bool) : Half :=
  let f := firmwareCause s.mgmt.flash
  if f ≠ 0 then f
  else if found = 1 || found = 2 || (found = 3 && !reuse) then found
  else if !populated s.mgmt.modules then 0x0004
  else if found = 5 then found
  else 0

/-- A failed start (R332, R334). -/
def State.startFailed (s : State) (cause : Half) : State :=
  (s.updMgmt fun m => { m.failStart with cause := cause, recovery := firmwareFailure cause }).raise 5

/-- A successful start: the tables are clear, GT starts from 0, READY is 1, WARMFAILS is cleared (R331, R332). -/
def State.startDone (s : State) (warm : Bool) (mem : Mem) (poison : List Nat) (base : List PoisonBase) : State :=
  let m := { s.mgmt with ready := true, lastWarm := warm, starting := none, warmfails := 0, cause := 0, failedParts := [] }
  let t : State := { State.reset with mem := mem, poison := poison, poisonBase := base, mgmt := m, cur := s.cur, choices := s.choices
                                      nextId := s.nextId }
  t.raise 5

/-- The calibration of a start that has come so far is stored with the temperatures of the dies (R331). -/
def State.calibrate (s : State) (cause : Half) (reuse : Bool) : State :=
  if firmwareFailure cause || cause = 1 || cause = 2 || cause = 3 || reuse then s
  else s.updMgmt fun m => { m with calib := some (s.ev.bytes.map (·.toNat)) }

/-- A cold start; `ev.value` is what calibration and initialisation report, `ev.bytes` are the temperatures of the dies. -/
def execColdStart (s : State) : Out :=
  match s.mgmt.starting with
  | some false =>
    let c := s.startCause (s.ev.value.extractLsb' 0 16) false
    let t := s.calibrate c false
    .next (if c ≠ 0 then t.startFailed c else t.startDone false [] [] [])
  | _ => .next s

/-- The PARTMEM ranges of the failed partitions, by first and last byte (R330, R331). -/
def Mgmt.failedRanges (m : Mgmt) : List (Nat × Nat) :=
  (m.partmem.filter fun e => m.failedParts.contains (e.1 / 8) && e.2.2 ≠ 0).map fun e => (e.2.1, e.2.1 + e.2.2)

/-- A warm start: memory and its poison are kept, but for the ranges of failed partitions, which are set to zero. -/
def execWarmStart (s : State) : Out :=
  match s.mgmt.starting with
  | some true =>
    let reuse := s.mgmt.calibrated (s.ev.bytes.map (·.toNat))
    let c := s.startCause (s.ev.value.extractLsb' 0 16) reuse
    let t := s.calibrate c reuse
    if c ≠ 0 then .next (t.startFailed c)
    else
      let rs := s.mgmt.failedRanges
      let mem := rs.foldl (fun m r => Mem.clear m r.1 r.2) s.mem
      let poison := s.poison.filter fun l => !rs.any fun r => r.1 ≤ l * 128 && l * 128 < r.2
      .next (t.startDone true mem poison ((rs.map fun r => .zeroed r.1 r.2) ++ s.poisonBase))
  | _ => .next s

/-- The staged image of a length. -/
def Mgmt.staged (m : Mgmt) (n : Nat) : List Byte := Mem.readBytes m.staging 0 n

/-- A write of RECOVCMD: in recovery, with GO and no reserved bit, the staged image is checked; one that verifies goes to
flash and a cold start follows (R334). -/
def execRecovcmd (s : State) : Out :=
  let v := s.ev.value.toNat
  let n := v % 2 ^ 32
  if !s.mgmt.recovery || !s.ev.value.getLsbD 32 || 2 ^ 33 ≤ v then .next s
  else if n = 0 || 2 ^ 21 < n then .next (s.updMgmt fun m => { m with cause := 0x0008 })
  else
    let image := s.mgmt.staged n
    let c := firmwareCause image
    .next (if c ≠ 0 then s.updMgmt fun m => { m with cause := c }
      else (s.updMgmt fun m => { m with flash := image, recovery := false }).beginStart false)

end Sys2Proof.Machine
end

