-- ==== Sys2Proof/Machine/Dispatch.lean ====
section
/-! DEFINITION. The meaning of each instruction and each step of the device, one arm each. -/

namespace Sys2Proof.Machine

def exec (i : Instr) (s : State) : Host.Outcome State Fault Refusal :=
  match i with
  | .add r => Sys2Proof.Machine.execAdd r s
  | .sub r => Sys2Proof.Machine.execSub r s
  | .mul r => Sys2Proof.Machine.execMul r s
  | .mulh r => Sys2Proof.Machine.execMulh r s
  | .div r => Sys2Proof.Machine.execDiv r s
  | .rem r => Sys2Proof.Machine.execRem r s
  | .and r => Sys2Proof.Machine.execAnd r s
  | .or r => Sys2Proof.Machine.execOr r s
  | .xor r => Sys2Proof.Machine.execXor r s
  | .andn r => Sys2Proof.Machine.execAndn r s
  | .shl r => Sys2Proof.Machine.execShl r s
  | .shr r => Sys2Proof.Machine.execShr r s
  | .sra r => Sys2Proof.Machine.execSra r s
  | .rot r => Sys2Proof.Machine.execRot r s
  | .clz r => Sys2Proof.Machine.execClz r s
  | .popc r => Sys2Proof.Machine.execPopc r s
  | .min r => Sys2Proof.Machine.execMin r s
  | .max r => Sys2Proof.Machine.execMax r s
  | .sel r => Sys2Proof.Machine.execSel r s
  | .cmp r => Sys2Proof.Machine.execCmp r s
  | .addi r => Sys2Proof.Machine.execAddi r s
  | .andImm r => Sys2Proof.Machine.execAndImm r s
  | .orImm r => Sys2Proof.Machine.execOrImm r s
  | .xorImm r => Sys2Proof.Machine.execXorImm r s
  | .shlImm r => Sys2Proof.Machine.execShlImm r s
  | .shrImm r => Sys2Proof.Machine.execShrImm r s
  | .sraImm r => Sys2Proof.Machine.execSraImm r s
  | .rotImm r => Sys2Proof.Machine.execRotImm r s
  | .lea r => Sys2Proof.Machine.execLea r s
  | .extr r => Sys2Proof.Machine.execExtr r s
  | .ins r => Sys2Proof.Machine.execIns r s
  | .fadd r => Sys2Proof.Machine.execFadd r s
  | .fsub r => Sys2Proof.Machine.execFsub r s
  | .fmul r => Sys2Proof.Machine.execFmul r s
  | .ffma r => Sys2Proof.Machine.execFfma r s
  | .fdiv r => Sys2Proof.Machine.execFdiv r s
  | .fsqrt r => Sys2Proof.Machine.execFsqrt r s
  | .fmin r => Sys2Proof.Machine.execFmin r s
  | .fmax r => Sys2Proof.Machine.execFmax r s
  | .fcmp r => Sys2Proof.Machine.execFcmp r s
  | .fcvt r => Sys2Proof.Machine.execFcvt r s
  | .fclass r => Sys2Proof.Machine.execFclass r s
  | .br r => Sys2Proof.Machine.execBr r s
  | .brp r => Sys2Proof.Machine.execBrp r s
  | .jmp r => Sys2Proof.Machine.execJmp r s
  | .call r => Sys2Proof.Machine.execCall r s
  | .ret r => Sys2Proof.Machine.execRet r s
  | .brx r => Sys2Proof.Machine.execBrx r s
  | .movi r => Sys2Proof.Machine.execMovi r s
  | .movhi r => Sys2Proof.Machine.execMovhi r s
  | .vadd r => Sys2Proof.Machine.execVadd r s
  | .vsub r => Sys2Proof.Machine.execVsub r s
  | .vmul r => Sys2Proof.Machine.execVmul r s
  | .vmulh r => Sys2Proof.Machine.execVmulh r s
  | .vmad r => Sys2Proof.Machine.execVmad r s
  | .vmin r => Sys2Proof.Machine.execVmin r s
  | .vmax r => Sys2Proof.Machine.execVmax r s
  | .vabs r => Sys2Proof.Machine.execVabs r s
  | .vand r => Sys2Proof.Machine.execVand r s
  | .vor r => Sys2Proof.Machine.execVor r s
  | .vxor r => Sys2Proof.Machine.execVxor r s
  | .vandn r => Sys2Proof.Machine.execVandn r s
  | .vshl r => Sys2Proof.Machine.execVshl r s
  | .vshr r => Sys2Proof.Machine.execVshr r s
  | .vsra r => Sys2Proof.Machine.execVsra r s
  | .vcmp r => Sys2Proof.Machine.execVcmp r s
  | .vfadd r => Sys2Proof.Machine.execVfadd r s
  | .vfsub r => Sys2Proof.Machine.execVfsub r s
  | .vfmul r => Sys2Proof.Machine.execVfmul r s
  | .vffma r => Sys2Proof.Machine.execVffma r s
  | .vfdiv r => Sys2Proof.Machine.execVfdiv r s
  | .vfsqrt r => Sys2Proof.Machine.execVfsqrt r s
  | .vfrsq r => Sys2Proof.Machine.execVfrsq r s
  | .vfmin r => Sys2Proof.Machine.execVfmin r s
  | .vfmax r => Sys2Proof.Machine.execVfmax r s
  | .vfcmp r => Sys2Proof.Machine.execVfcmp r s
  | .vfexp2 r => Sys2Proof.Machine.execVfexp2 r s
  | .vftbl r => Sys2Proof.Machine.execVftbl r s
  | .vfcvt r => Sys2Proof.Machine.execVfcvt r s
  | .vqnt r => Sys2Proof.Machine.execVqnt r s
  | .vdqnt r => Sys2Proof.Machine.execVdqnt r s
  | .vpack r => Sys2Proof.Machine.execVpack r s
  | .vbcast r => Sys2Proof.Machine.execVbcast r s
  | .vperm r => Sys2Proof.Machine.execVperm r s
  | .vrot r => Sys2Proof.Machine.execVrot r s
  | .vexpand r => Sys2Proof.Machine.execVexpand r s
  | .vred r => Sys2Proof.Machine.execVred r s
  | .vscan r => Sys2Proof.Machine.execVscan r s
  | .vmovx r => Sys2Proof.Machine.execVmovx r s
  | .vins r => Sys2Proof.Machine.execVins r s
  | .vcmpt r => Sys2Proof.Machine.execVcmpt r s
  | .vtopk r => Sys2Proof.Machine.execVtopk r s
  | .vsort r => Sys2Proof.Machine.execVsort r s
  | .pset r => Sys2Proof.Machine.execPset r s
  | .pand r => Sys2Proof.Machine.execPand r s
  | .por r => Sys2Proof.Machine.execPor r s
  | .pxor r => Sys2Proof.Machine.execPxor r s
  | .pandn r => Sys2Proof.Machine.execPandn r s
  | .pcnt r => Sys2Proof.Machine.execPcnt r s
  | .pffs r => Sys2Proof.Machine.execPffs r s
  | .ld n r => Sys2Proof.Machine.execLd n r s
  | .lda n r => Sys2Proof.Machine.execLda n r s
  | .st n r => Sys2Proof.Machine.execSt n r s
  | .stl n r => Sys2Proof.Machine.execStl n r s
  | .ldv r => Sys2Proof.Machine.execLdv r s
  | .stv r => Sys2Proof.Machine.execStv r s
  | .ldvs r => Sys2Proof.Machine.execLdvs r s
  | .stvs r => Sys2Proof.Machine.execStvs r s
  | .ldvx r => Sys2Proof.Machine.execLdvx r s
  | .stvx r => Sys2Proof.Machine.execStvx r s
  | .amo n r => Sys2Proof.Machine.execAmo n r s
  | .amov n r => Sys2Proof.Machine.execAmov n r s
  | .red n r => Sys2Proof.Machine.execRed n r s
  | .fenceAcq r => Sys2Proof.Machine.execFenceAcq r s
  | .fenceRel r => Sys2Proof.Machine.execFenceRel r s
  | .fenceFull r => Sys2Proof.Machine.execFenceFull r s
  | .icsync r => Sys2Proof.Machine.execIcsync r s
  | .waitev r => Sys2Proof.Machine.execWaitev r s
  | .pref r => Sys2Proof.Machine.execPref r s
  | .spclaim r => Sys2Proof.Machine.execSpclaim r s
  | .sprel r => Sys2Proof.Machine.execSprel r s
  | .retain r => Sys2Proof.Machine.execRetain r s
  | .unpin r => Sys2Proof.Machine.execUnpin r s
  | .fewait r => Sys2Proof.Machine.execFewait r s
  | .feset r => Sys2Proof.Machine.execFeset r s
  | .feclr r => Sys2Proof.Machine.execFeclr r s
  | .tiledef r => Sys2Proof.Machine.execTiledef r s
  | .tilerel r => Sys2Proof.Machine.execTilerel r s
  | .txb r => Sys2Proof.Machine.execTxb r s
  | .txe r => Sys2Proof.Machine.execTxe r s
  | .txa r => Sys2Proof.Machine.execTxa r s
  | .txq r => Sys2Proof.Machine.execTxq r s
  | .txqClr r => Sys2Proof.Machine.execTxqClr r s
  | .txred r => Sys2Proof.Machine.execTxred r s
  | .qw r => Sys2Proof.Machine.execQw r s
  | .qr r => Sys2Proof.Machine.execQr r s
  | .qstat r => Sys2Proof.Machine.execQstat r s
  | .gset r => Sys2Proof.Machine.execGset r s
  | .gclr r => Sys2Proof.Machine.execGclr r s
  | .gq r => Sys2Proof.Machine.execGq r s
  | .cpy r => Sys2Proof.Machine.execCpy r s
  | .cpy2d r => Sys2Proof.Machine.execCpy2d r s
  | .scat r => Sys2Proof.Machine.execScat r s
  | .kick r => Sys2Proof.Machine.execKick r s
  | .kack r => Sys2Proof.Machine.execKack r s
  | .kackOpen r => Sys2Proof.Machine.execKackOpen r s
  | .kackClose r => Sys2Proof.Machine.execKackClose r s
  | .gath r => Sys2Proof.Machine.execGath r s
  | .gathSel r => Sys2Proof.Machine.execGathSel r s
  | .merge r => Sys2Proof.Machine.execMerge r s
  | .mclaim r => Sys2Proof.Machine.execMclaim r s
  | .mclaimTry r => Sys2Proof.Machine.execMclaimTry r s
  | .mclaimRel r => Sys2Proof.Machine.execMclaimRel r s
  | .mloadw r => Sys2Proof.Machine.execMloadw r s
  | .mloadt r => Sys2Proof.Machine.execMloadt r s
  | .mloadtBias r => Sys2Proof.Machine.execMloadtBias r s
  | .mstream r => Sys2Proof.Machine.execMstream r s
  | .mstreamRing r => Sys2Proof.Machine.execMstreamRing r s
  | .mdrain r => Sys2Proof.Machine.execMdrain r s
  | .mring r => Sys2Proof.Machine.execMring r s
  | .nsend r => Sys2Proof.Machine.execNsend r s
  | .nwrite r => Sys2Proof.Machine.execNwrite r s
  | .npost r => Sys2Proof.Machine.execNpost r s
  | .ncqFence r => Sys2Proof.Machine.execNcqFence r s
  | .ncqUnpost r => Sys2Proof.Machine.execNcqUnpost r s
  | .fopen r => Sys2Proof.Machine.execFopen r s
  | .fadv r => Sys2Proof.Machine.execFadv r s
  | .fadvTo r => Sys2Proof.Machine.execFadvTo r s
  | .ftend r => Sys2Proof.Machine.execFtend r s
  | .fclose r => Sys2Proof.Machine.execFclose r s
  | .fldc r => Sys2Proof.Machine.execFldc r s
  | .fldv r => Sys2Proof.Machine.execFldv r s
  | .launchQ r => Sys2Proof.Machine.execLaunchQ r s
  | .launchCore r => Sys2Proof.Machine.execLaunchCore r s
  | .fork r => Sys2Proof.Machine.execFork r s
  | .join r => Sys2Proof.Machine.execJoin r s
  | .tend r => Sys2Proof.Machine.execTend r s
  | .yield r => Sys2Proof.Machine.execYield r s
  | .yieldSwap r => Sys2Proof.Machine.execYieldSwap r s
  | .trig r => Sys2Proof.Machine.execTrig r s
  | .wid r => Sys2Proof.Machine.execWid r s
  | .barinit r => Sys2Proof.Machine.execBarinit r s
  | .bararr r => Sys2Proof.Machine.execBararr r s
  | .barwait r => Sys2Proof.Machine.execBarwait r s
  | .barfree r => Sys2Proof.Machine.execBarfree r s
  | .barq r => Sys2Proof.Machine.execBarq r s
  | .htclaim r => Sys2Proof.Machine.execHtclaim r s
  | .htrel r => Sys2Proof.Machine.execHtrel r s
  | .htins r => Sys2Proof.Machine.execHtins r s
  | .htprb r => Sys2Proof.Machine.execHtprb r s
  | .htdel r => Sys2Proof.Machine.execHtdel r s
  | .htacc r => Sys2Proof.Machine.execHtacc r s
  | .htdrn r => Sys2Proof.Machine.execHtdrn r s
  | .gbadd r => Sys2Proof.Machine.execGbadd r s
  | .gbelim r => Sys2Proof.Machine.execGbelim r s
  | .gbdamp r => Sys2Proof.Machine.execGbdamp r s
  | .gbpost r => Sys2Proof.Machine.execGbpost r s
  | .gbtake r => Sys2Proof.Machine.execGbtake r s
  | .pschk r => Sys2Proof.Machine.execPschk r s
  | .psput r => Sys2Proof.Machine.execPsput r s
  | .psinv r => Sys2Proof.Machine.execPsinv r s
  | .trap r => Sys2Proof.Machine.execTrap r s
  | .syscall r => Sys2Proof.Machine.execSyscall r s
  | .eret r => Sys2Proof.Machine.execEret r s
  | .eretNext r => Sys2Proof.Machine.execEretNext r s
  | .mfs r => Sys2Proof.Machine.execMfs r s
  | .mts r => Sys2Proof.Machine.execMts r s
  | .halt r => Sys2Proof.Machine.execHalt r s
  | .tlbinvPage r => Sys2Proof.Machine.execTlbinvPage r s
  | .tlbinvAsid r => Sys2Proof.Machine.execTlbinvAsid r s
  | .tlbinvAll r => Sys2Proof.Machine.execTlbinvAll r s
  | .replay r => Sys2Proof.Machine.execReplay r s
  | .replayAsid r => Sys2Proof.Machine.execReplayAsid r s
  | .replayDrop r => Sys2Proof.Machine.execReplayDrop r s
  | .rdev r => Sys2Proof.Machine.execRdev r s
  | .ctxsave r => Sys2Proof.Machine.execCtxsave r s
  | .ctxload r => Sys2Proof.Machine.execCtxload r s
  | .longLatencyResult => Sys2Proof.Machine.execLongLatencyResult s
  | .loadReturn => Sys2Proof.Machine.execLoadReturn s
  | .pageWalkComplete => Sys2Proof.Machine.execPageWalkComplete s
  | .remoteScratchAccess => Sys2Proof.Machine.execRemoteScratchAccess s
  | .leaseRequest => Sys2Proof.Machine.execLeaseRequest s
  | .exclusiveRequest => Sys2Proof.Machine.execExclusiveRequest s
  | .exclusiveGrant => Sys2Proof.Machine.execExclusiveGrant s
  | .reductionPartial => Sys2Proof.Machine.execReductionPartial s
  | .ownerWriteback => Sys2Proof.Machine.execOwnerWriteback s
  | .homeAccess => Sys2Proof.Machine.execHomeAccess s
  | .homeLeaseExpiry => Sys2Proof.Machine.execHomeLeaseExpiry s
  | .l1LeaseExpiry => Sys2Proof.Machine.execL1LeaseExpiry s
  | .recallForLease => Sys2Proof.Machine.execRecallForLease s
  | .recallForExclusive => Sys2Proof.Machine.execRecallForExclusive s
  | .partialRecall => Sys2Proof.Machine.execPartialRecall s
  | .releaseComplete => Sys2Proof.Machine.execReleaseComplete s
  | .waitevWake => Sys2Proof.Machine.execWaitevWake s
  | .txRegistration => Sys2Proof.Machine.execTxRegistration s
  | .txAbort => Sys2Proof.Machine.execTxAbort s
  | .prepare => Sys2Proof.Machine.execPrepare s
  | .commit => Sys2Proof.Machine.execCommit s
  | .txCommitComplete => Sys2Proof.Machine.execTxCommitComplete s
  | .tokenGrant => Sys2Proof.Machine.execTokenGrant s
  | .engineCommandStart => Sys2Proof.Machine.execEngineCommandStart s
  | .engineCommandComplete => Sys2Proof.Machine.execEngineCommandComplete s
  | .queuePopDeliver => Sys2Proof.Machine.execQueuePopDeliver s
  | .gatherExecute => Sys2Proof.Machine.execGatherExecute s
  | .mergeExecute => Sys2Proof.Machine.execMergeExecute s
  | .matrixCommandExecute => Sys2Proof.Machine.execMatrixCommandExecute s
  | .ringHandover => Sys2Proof.Machine.execRingHandover s
  | .ringTimeout => Sys2Proof.Machine.execRingTimeout s
  | .palimpsestCopy => Sys2Proof.Machine.execPalimpsestCopy s
  | .barqArrival => Sys2Proof.Machine.execBarqArrival s
  | .barwaitWake => Sys2Proof.Machine.execBarwaitWake s
  | .postArrival => Sys2Proof.Machine.execPostArrival s
  | .postOutcome => Sys2Proof.Machine.execPostOutcome s
  | .kickArrival => Sys2Proof.Machine.execKickArrival s
  | .noticeFetch => Sys2Proof.Machine.execNoticeFetch s
  | .noticeLanded => Sys2Proof.Machine.execNoticeLanded s
  | .handlerStart => Sys2Proof.Machine.execHandlerStart s
  | .kickAck => Sys2Proof.Machine.execKickAck s
  | .packetArrival => Sys2Proof.Machine.execPacketArrival s
  | .cwordAdd => Sys2Proof.Machine.execCwordAdd s
  | .messageComplete => Sys2Proof.Machine.execMessageComplete s
  | .transmitAck => Sys2Proof.Machine.execTransmitAck s
  | .remoteErrorTimeout => Sys2Proof.Machine.execRemoteErrorTimeout s
  | .retransmissionTimeout => Sys2Proof.Machine.execRetransmissionTimeout s
  | .congestionUpdate => Sys2Proof.Machine.execCongestionUpdate s
  | .hostKickWrite => Sys2Proof.Machine.execHostKickWrite s
  | .hostBar4Write => Sys2Proof.Machine.execHostBar4Write s
  | .hostBar4Read => Sys2Proof.Machine.execHostBar4Read s
  | .msixraise => Sys2Proof.Machine.execMsixraise s
  | .faultEntryFree => Sys2Proof.Machine.execFaultEntryFree s
  | .faultstatWrite => Sys2Proof.Machine.execFaultstatWrite s
  | .hotnessEntryClear => Sys2Proof.Machine.execHotnessEntryClear s
  | .leasecfgWrite => Sys2Proof.Machine.execLeasecfgWrite s
  | .asidInvalidate => Sys2Proof.Machine.execAsidInvalidate s
  | .hold => Sys2Proof.Machine.execHold s
  | .partitionWrite => Sys2Proof.Machine.execPartitionWrite s
  | .deviceRegisterWrite => Sys2Proof.Machine.execDeviceRegisterWrite s
  | .startreqCold => Sys2Proof.Machine.execStartreqCold s
  | .startreqWarm => Sys2Proof.Machine.execStartreqWarm s
  | .recovcmd => Sys2Proof.Machine.execRecovcmd s
  | .powerOn => Sys2Proof.Machine.execPowerOn s
  | .coldStart => Sys2Proof.Machine.execColdStart s
  | .warmStart => Sys2Proof.Machine.execWarmStart s
  | .gtTick => Sys2Proof.Machine.execGtTick s
  | .gtDrift => Sys2Proof.Machine.execGtDrift s
  | .heartbeatTimeout => Sys2Proof.Machine.execHeartbeatTimeout s
  | .fatalErrorReport => Sys2Proof.Machine.execFatalErrorReport s
  | .linkFailure => Sys2Proof.Machine.execLinkFailure s
  | .scrub => Sys2Proof.Machine.execScrub s
  | .thermalAlert => Sys2Proof.Machine.execThermalAlert s
  | .thermalAlertClear => Sys2Proof.Machine.execThermalAlertClear s
  | .thermalTrip => Sys2Proof.Machine.execThermalTrip s
  | .supplyFault => Sys2Proof.Machine.execSupplyFault s
  | .dispatchTurn => Sys2Proof.Machine.execDispatchTurn s
  | .starvationTick => Sys2Proof.Machine.execStarvationTick s
  | .dieDispatchPlace => Sys2Proof.Machine.execDieDispatchPlace s
  | .launchRetire => Sys2Proof.Machine.execLaunchRetire s
  | .speculativeDecision => Sys2Proof.Machine.execSpeculativeDecision s
  | .fillSlot => Sys2Proof.Machine.execFillSlot s
  | .stealRequest => Sys2Proof.Machine.execStealRequest s
  | .stealBackoffExpiry => Sys2Proof.Machine.execStealBackoffExpiry s
  | .waitSwap => Sys2Proof.Machine.execWaitSwap s
  | .contextStream => Sys2Proof.Machine.execContextStream s
  | .retransmission => Sys2Proof.Machine.execRetransmission s
  | .managementWindowWrite => Sys2Proof.Machine.execManagementWindowWrite s

end Sys2Proof.Machine
end

