-- ==== Sys2Proof/Machine/Fetch.lean ====
section
/-! DEFINITION. A thread's turn: deferred poison (R180), the fetch and its checks (R45, R168, R325), and decoding
(R44); and a program word placed where a thread fetches next. -/

namespace Sys2Proof.Machine

/-- The word that a thread issues as it was when it fetched it before (R190). -/
def State.heldWord (s : State) (pa : Nat) : Option Word := if s.how = .stale then Tbl.get? s.th.words pa else none

/-- The instruction word at a physical address, none where it is poisoned for the thread, with the thread's own stores (R187). -/
def State.wordAt (s : State) (pa : Nat) (pol : Policy) : Option Word :=
  match s.heldWord pa with
  | some w => some w
  | none =>
    if s.paKind pa = .control then s.devRead pa 8
    else if s.readBad s.cur pa pol then none
    else some (wordOf (s.bytesFor s.cur pa 8))

/-- The thread holds a fetched word (R190). The first word that it fetches of a line is a read of the L1 or of the line's home
(R177, R178, R299). (DEDUCED: log entry 135.) -/
def State.fetched (s : State) (pa : Nat) (pol : Policy) (w : Word) : State :=
  let line := pa / 128
  let s :=
    if s.paKind pa ≠ .memory || s.th.words.any fun e => e.1 / 128 = line then s
    else if pol = .cached && s.l1Hit s.myCore line then s.useL1 s.myCore line (s.tagFor s.cur s.th.pc) 0
    else s.lookup line (some s.myCore) s.th.asid 0 false
  s.updTh fun c => { c with words := Tbl.set c.words pa w }

/-- What the home of a word must recall before a thread fetches it there (R194, R205); a word that is held, or that the L1 holds,
needs nothing. -/
def State.fetchNeed (s : State) (pa : Nat) (pol : Policy) : HomeNeed :=
  let line := pa / 128
  if s.paKind pa ≠ .memory || (s.heldWord pa).isSome || (pol = .cached && s.l1Hit s.myCore line) then .ready
  else s.homeNeed (s.tileOf line) (if pol = .cached then s.myCore else noCore) false

/-- The line of a word that is fetched has still to be written by a palimpsest copy (R163). -/
def State.fetchPends (s : State) (pa : Nat) : Bool := s.palPending (pa / 128) && (s.heldWord pa).isNone

/-- What fetching at the pc gives: the word, with what the fetch leaves behind, or how the turn ends. (DEDUCED: log entry 113.) -/
def State.fetch (s : State) : (State × Word) ⊕ Done :=
  let pc := s.th.pc
  if pc.toNat % 8 ≠ 0 then .inr (.trap .misalignedPc 0)
  else match regionOf pc with
    | .translated =>
      match s.look s.cur .fetch 8 pc with
      | .at (.phys pa pol) =>
        if s.answerDead .load ⟨0, pc, .phys pa pol⟩ then .inr .blot
        else if s.fetchPends pa then .inr (.stay s)
        else match s.fetchNeed pa pol with
          | .recall i => .inr (.stay (s.causeOnce i { line := pa / 128 }))
          | _ => match s.wordAt pa pol with
            | none => .inr (.trap .dataPoison pc)
            | some w => .inl (s.fetched pa pol w, w)
      | .fault k => .inr (.fault k .fetch pc)
      | _ => .inr (s.startWalk .fetch pc)
    | _ => .inr (.trap .badVaddr pc)

/-- A decoded word runs; the other fates of R44 trap with the word as TRAPVAL (R306). -/
def State.runWord (s : State) (w : Word) (run : Instr → State → Out) : Out :=
  match decode w with
  | .instr i => run i s
  | .illegalOp => s.finish (.trap .illegalOp w)
  | .reservedField => s.finish (.trap .reservedField w)

/-- A thread comes up to issue. A context that holds no thread, or whose thread waits, does nothing. -/
def State.turn (s : State) (run : Instr → State → Out) : Out :=
  if s.th.run ≠ .running || s.coreLost s.myCore then .next { s with stalled := true }
  else
    match s.th.poison with
    | some ea =>
      .next ((s.updTh fun c => { c with poison := none }).deliver s.cur .dataPoison ea s.th.pc)
    | none =>
      match s.fetch with
      | .inl (t, w) => t.runWord w run
      | .inr d => s.finish d

/-- Context 0 with a thread of ASID 0 at address 0x1000. -/
def startedCtx : Ctx := { Ctx.vacantOne with run := .running, pc := 0x1000 }

/-- The translation of the page of a started thread: virtual page 1 to physical page 1, all rights. -/
def startedTlb : TlbEntry := ⟨0, 1, 12, 1, true, true, true, .cached⟩

/-- Where context k would fetch: the physical address of its pc, if it runs and its cluster holds a translation that
allows the fetch. -/
def State.fetchPlace (s : State) : Option Nat :=
  if s.th.run ≠ .running || s.th.poison.isSome || s.th.pc.toNat % 8 ≠ 0 || s.cur ≥ 32768 then none
  else match regionOf s.th.pc with
    | .translated => match s.look s.cur .fetch 8 s.th.pc with
      | .at (.phys pa pol) =>
        if s.paKind pa = .memory && !s.lineDead (pa / 128) && !s.readBad s.cur pa pol && s.fetchNeed pa pol matches .ready && !s.fetchPends pa &&
            ((List.range 8).all fun i => (s.th.ownByte (pa + i)).isNone) then some pa
        else none
      | _ => none
    | _ => none

/-- Places an instruction word where the next step fetches. Where no thread is ready to fetch, a thread of ASID 0
is started in context 0, as a load of the program from outside does. (DESIGN CHOICE: log entry 5.) -/
def State.placeWord (s : State) (bs : List Byte) : State :=
  let s := { s with choices := [], stalled := false, how := .whole, mgmt := { s.mgmt with ready := true } }
  match s.fetchPlace with
  | some pa => s.writeMem pa bs
  | none =>
    let s := { s with cur := 0, dead := s.dead.filter fun a => a ≠ Agent.core 0 && a ≠ Agent.folio 0 }
    let s := s.setCtx 0 startedCtx
    let s := s.updCluster 0 fun c => { c with tlb := startedTlb :: c.tlb }
    s.writeMem 0x1000 bs

end Sys2Proof.Machine
end

