-- ==== Sys2Proof/Machine/Step.lean ====
section
/-! DEFINITION. One step of the package: a thread issues one instruction, or one step of the device happens. -/

namespace Sys2Proof.Machine

/-- A step of the device happens where its event says. An instruction with a word is no step of the device.
(DESIGN CHOICE: log entry 2.) -/
def State.happen (s : State) (d : Due) : Host.Outcome State Fault Refusal :=
  match d.i.form with
  | none => exec d.i { s with ev := d.ev, stalled := false }
  | some _ => .next s

/-- Thread k comes up to issue, in the way that its move says (R190, R192). -/
def State.moves (s : State) (k : Nat) (cs : List Move) (how : How) : Host.Outcome State Fault Refusal :=
  if k < 32768 then
    if s.mgmt.ready then State.turn { s with choices := cs, cur := k, how := how, stalled := false } exec
    else .next { s with choices := cs }
  else .fault .noSuchContext

/-- Who moves is given by `choices`; without a choice the current thread issues, and when it cannot, the device
step that has been due longest happens, and when none is due a nanosecond passes.
(DESIGN CHOICE: log entry 1; DESIGN CHOICE: log entry 6.) -/
def step (s : State) : Host.Outcome State Fault Refusal :=
  match s.choices with
  | .thread k :: cs => s.moves k cs .whole
  | .stale k :: cs => s.moves k cs .stale
  | .part k :: cs => s.moves k cs .part
  | .event d :: cs => State.happen { s with choices := cs } d
  | [] =>
    if s.mgmt.ready && !s.stalled then State.turn { s with how := .whole } exec
    else match s.due with
      | d :: ds => State.happen { s with due := ds } d
      | [] => State.happen s ⟨.gtTick, {}⟩

/-- The state with an instruction, given by its first bits, stored where `step` fetches next. -/
def State.withFetchWord (s : State) (_nbits w : Nat) : State := s.placeWord (bytesOfWord (BitVec.ofNat 64 w))

end Sys2Proof.Machine
end

