-- ==== Sys2Proof/Safety.lean ====
section
/-! DEFINITION. What counts as a safe run, and the conditions and frames in which the statements are made. -/

namespace Sys2Proof.Machine

/-! ### Safe states and runs -/

/-- The memories keep their canonical form. -/
def State.memWf (s : State) : Bool := s.mem.wf && s.scratch.wf

/-- A step that goes on. -/
def State.goesOn (s : State) : Prop := ∃ t, step s = .next t

/-! ### When an instruction issues (R29 to R31) -/

/-- Registers that are full. -/
def State.full (s : State) (rs : List RegRef) : Prop := ∀ q ∈ rs, s.th.r.fe q = .full

/-- Registers of which none is empty-pending. -/
def State.free (s : State) (rs : List RegRef) : Prop := ∀ q ∈ rs, s.th.r.fe q ≠ .pending

/-- The sources are full and no destination waits for a result. -/
def State.Ready (s : State) (srcs dsts : List RegRef) : Prop := s.full srcs ∧ s.free dsts

/-- An instruction that its predicate selects whole, and that is ready. -/
def State.Issues (s : State) (sel : BitVec 3) (neg : BitVec 1) (srcs dsts : List RegRef) : Prop :=
  (s.mask sel neg).getLsbD 0 = true ∧ s.Ready srcs dsts

/-- A vector instruction whose predicate selects a lane, and that is ready. -/
def State.IssuesLanes (s : State) (sel : BitVec 3) (neg : BitVec 1) (srcs dsts : List RegRef) : Prop :=
  s.mask sel neg ≠ 0 ∧ s.Ready srcs dsts

/-! ### When nothing stands in an access's way -/

/-- Nothing of the issuing thread is in flight, it runs no transaction and no fence of its own holds it; nothing travels
between cores, no scratchpad line is pending and no agent is dead. -/
structure State.Calm (s : State) : Prop where
  loads : s.th.loads = []
  stores : s.th.stores = []
  reds : s.th.reds = []
  results : s.th.results = []
  pops : s.th.pops = []
  tx : s.th.tx = none
  depth : s.th.txstat.depth = 0
  fence : s.th.fence = none
  answer : s.th.answer = none
  failed : s.th.remoteFail = none
  visible : s.th.visible ≤ s.gtOf s.myDie
  msgs : s.msgs = []
  copies : s.palCopies = []
  pending : s.scratchPending = []
  dead : s.dead = []

/-- An address in the issuing thread's own scratchpad window, aligned and inside its claim (R168 to R170, R180). -/
def State.ownAddr (s : State) (size : Nat) (ea : Word) : Prop :=
  ea.toNat % size = 0 ∧ ∃ a, regionOf ea = .own a ∧ a < claimBytes s.th.claim

/-- The byte of the L1 arrays at an address of the own window. -/
def State.ownByteAt (s : State) (ea : Word) : Nat := arrayByte s.myCore s.th.claim (ea.toNat - ownBase)

/-- The core's cluster has a translation of an address, which grants the access, to physical address pa with a policy
(R180, R297). -/
def State.pagedAt (s : State) (acc : Access) (ea : Word) (pa : Nat) (pol : Policy) : Prop :=
  ∃ e, s.tlbHit (clusterOf s.myCore) s.th.asid ea.toNat = some e ∧ e.grants acc = true ∧ e.pa ea.toNat = pa ∧ e.policy = pol

/-- An address of the translated range that reaches physical address pa with a policy: through a line of the core's L1 that
hits under its tag, else through its page (R180, R299). -/
def State.mappedAt (s : State) (acc : Access) (size : Nat) (ea : Word) (pa : Nat) (pol : Policy) : Prop :=
  ea.toNat % size = 0 ∧ regionOf ea = .translated ∧
    match s.tagHit s.myCore s.th.asid acc ea.toNat with
    | some e => e.line * 128 + ea.toNat % 128 = pa ∧ pol = .cached
    | none => s.pagedAt acc ea pa pol

/-- A location of some bytes from which a load of the issuing thread returns bs at once: in its own scratchpad, or in
cached memory whose line the core's L1 holds under a lease or as owner, in a tile that no transaction writes (R170, R180,
R203, R206, R214). -/
def State.holds (s : State) (size : Nat) (ea : Word) (bs : List Byte) : Prop :=
  (s.ownAddr size ea ∧ s.scratchPoison.contains (s.ownByteAt ea / 128) = false ∧
      bs = Mem.readBytes s.scratch (s.ownByteAt ea) size) ∨
    ∃ pa, s.mappedAt .load size ea pa .cached ∧ s.paKind pa = .memory ∧ s.l1Hit s.myCore (pa / 128) = true ∧
      s.readBad s.cur pa .cached = false ∧ s.holders (s.tileOf (pa / 128)) (·.writes) = [] ∧ bs = Mem.readBytes s.mem pa size

/-- State u is s but for some bytes of the L1 arrays, which hold the low bytes of a number. -/
def State.storesOwn (s u : State) (b size v : Nat) : Prop :=
  u = { s with scratch := u.scratch } ∧ (∀ j < size, Mem.read u.scratch (b + j) = BitVec.ofNat 8 (v / 256 ^ j)) ∧
    ∀ a, a < b ∨ b + size ≤ a → Mem.read u.scratch a = Mem.read s.scratch a

/-! ### What an instruction leaves alone -/

/-- Every byte of memory and of the L1 arrays reads as before. -/
def State.sameBytes (s t : State) : Prop :=
  (∀ a, Mem.read t.mem a = Mem.read s.mem a) ∧ ∀ a, Mem.read t.scratch a = Mem.read s.scratch a

/-- The X registers but those listed hold the same value and the same full/empty state. -/
def State.sameX (s t : State) (ns : List Nat) : Prop :=
  ∀ n < 32, n ∉ ns → t.th.getX n = s.th.getX n ∧ t.th.r.fe (.x n) = s.th.r.fe (.x n)

/-- The same for the V registers. -/
def State.sameV (s t : State) (ns : List Nat) : Prop :=
  ∀ n < 32, n ∉ ns → t.th.getV n = s.th.getV n ∧ t.th.r.fe (.v n) = s.th.r.fe (.v n)

/-- The P registers but those listed hold the same value. -/
def State.sameP (s t : State) (ns : List Nat) : Prop := ∀ n < 8, n ∉ ns → t.th.getP n = s.th.getP n

/-- FPSTAT, STOCHSEED, the guards and the fibre registers hold the same. -/
def State.sameModes (s t : State) : Prop :=
  t.th.r.fpstat = s.th.r.fpstat ∧ t.th.r.stochseed = s.th.r.stochseed ∧ t.th.r.guards = s.th.r.guards ∧
    t.th.r.fibres = s.th.r.fibres

/-- The registers of traps and transactions, the address space and the claim of the thread are the same. -/
def State.sameThread (s t : State) : Prop :=
  t.th.asid = s.th.asid ∧ t.th.intrap = s.th.intrap ∧ t.th.trapcause = s.th.trapcause ∧ t.th.trappc = s.th.trappc ∧
    t.th.trapval = s.th.trapval ∧ t.th.txstat = s.th.txstat ∧ t.th.tx = s.th.tx ∧ t.th.claim = s.th.claim ∧
    t.th.cmds = s.th.cmds ∧ t.th.elems = s.th.elems ∧ t.th.info = s.th.info

/-- Every other context, and everything of the package outside contexts, the memories, what holds or homes their lines, cores,
clusters and dies, is the same. -/
def State.sameUnits (s t : State) : Prop :=
  (∀ k, k ≠ s.cur → t.ctx k = s.ctx k) ∧ t.cur = s.cur ∧ t.gt = s.gt ∧ t.scratchPoison = s.scratchPoison ∧ t.tiles = s.tiles ∧
    t.spaces = s.spaces ∧ t.parts = s.parts ∧ t.queues = s.queues ∧ t.disp = s.disp ∧ t.ote = s.ote ∧ t.msgs = s.msgs ∧
    t.mgmt = s.mgmt ∧ t.dead = s.dead

/-- Every other context, and everything of the package outside contexts, memory, cores, clusters, dies and quires, is the
same. -/
def State.samePackage (s t : State) : Prop :=
  s.sameUnits t ∧ t.dirs = s.dirs ∧ t.poison = s.poison ∧ t.poisonBase = s.poisonBase

/-- Every other context, and everything of the package outside contexts and memory, is the same. -/
def State.sameOthers (s t : State) : Prop :=
  s.samePackage t ∧ t.cores = s.cores ∧ t.clusters = s.clusters ∧ t.dies = s.dies ∧ t.quires = s.quires

/-- The same but for memory and what holds its lines: lines and states of the L1s, translations of the clusters, lines of
slices and quires with the counts of lookups, tile homes. A walk of tables reads them at their homes, which may recall an
owner or partials for it (R175, R177, R178, R194, R295, R299). -/
def State.sameButCaches (s t : State) : Prop :=
  s.sameUnits t ∧ (∀ a, Mem.read t.scratch a = Mem.read s.scratch a) ∧
    (∀ c, t.core c = { s.core c with lines := (t.core c).lines, l1 := (t.core c).l1 }) ∧
    (∀ n, (t.cluster n).faults = (s.cluster n).faults) ∧
    ∀ d < 4, t.die d = { s.die d with slices := (t.die d).slices, hot := (t.die d).hot, rethit := (t.die d).rethit
                                      retmiss := (t.die d).retmiss }

/-- The core's cluster has the translations of some addresses: to reach them no table is walked (R299). -/
def State.walkless (s : State) (vas : List Word) : Prop :=
  ∀ va ∈ vas, regionOf va = .translated → (s.tlbHit (clusterOf s.myCore) s.th.asid va.toNat).isSome = true

/-- The 3 lines behind the line of an address, which a streaming access prefetches (R175). -/
def streamedLines (ea : Word) : List Word := [1, 2, 3].map fun i => BitVec.ofNat 64 ((ea.toNat / 128 + i) * 128)

/-- What an instruction that reads memory at some addresses leaves behind beside its destination: the use of lines in the
caches, and for the streaming hint what it prefetches; nothing where it reads the own scratchpad only (R175). -/
def State.loadLeaves (s u : State) (hint : BitVec 3) (eas : List Word) (own : Prop) : Prop :=
  u.th = s.th ∧ s.sameButCaches u ∧ (s.walkless (eas.flatMap streamedLines) → u = { s with cores := u.cores, due := u.due }) ∧
    (hint ≠ 4 → u = { s with cores := u.cores }) ∧ (own → u = s)

/-! ### Values -/

/-- The low bits of a word at a type's width, sign- or zero-extended to a register (R80). -/
def extendTo (t : BitVec 5) (x : Word) : Word :=
  if typeSigned t then (x.setWidth (typeWidth t)).signExtend 64 else (x.setWidth (typeWidth t)).setWidth 64

/-! ### Register instructions -/

/-- What a register instruction reads and writes: whether its predicate selects lanes, its predicate, its sources with their
mode bits in field order, the X, V and P registers that it writes, and whether it may change FPSTAT's flags and STOCHSEED (R31, R84 to R136). -/
structure RegForm where
  lanes : Bool
  sel : BitVec 3
  neg : BitVec 1
  srcs : List Src
  xs : List Nat
  vs : List Nat
  ps : List Nat
  fp : Bool
  deriving DecidableEq, Repr

/-- The registers written that have a full/empty bit. -/
def RegForm.dsts (q : RegForm) : List RegRef := q.xs.map .x ++ q.vs.map .v

/-- A scalar form of sources `srcs` that writes Xd. -/
def RegForm.scalar (r : R3) (srcs : List Src) (fp : Bool) : RegForm :=
  ⟨false, r.sel, r.neg, srcs, [r.d.toNat], [], [], fp⟩

/-- A vector form that writes Vd. -/
def RegForm.vector (r : R3) (srcs : List Src) (fp : Bool) : RegForm :=
  ⟨true, r.sel, r.neg, srcs, [], [r.d.toNat], [], fp⟩

/-- A lane form that writes Xd. -/
def RegForm.toX (r : R3) (srcs : List Src) (fp : Bool) : RegForm :=
  ⟨true, r.sel, r.neg, srcs, [r.d.toNat], [], [], fp⟩

/-- A lane form that writes Pd. -/
def RegForm.toP (r : R3) (srcs : List Src) (fp : Bool) : RegForm :=
  ⟨true, r.sel, r.neg, srcs, [], [], [r.d.toNat], fp⟩

/-- A lane form that writes Vd and Vd+1. -/
def RegForm.pair (r : R3) (srcs : List Src) (fp : Bool) : RegForm :=
  ⟨true, r.sel, r.neg, srcs, [], [r.d.toNat, r.d.toNat + 1], [], fp⟩

/-- An immediate form that reads Xa and writes Xd. -/
def RegForm.imm (r : RI) : RegForm := ⟨false, r.sel, r.neg, [sx r.a r.am], [r.d.toNat], [], [], false⟩

end Sys2Proof.Machine

namespace Sys2Proof

open Machine

/-- The form of a register instruction that writes its results at once. -/
def Instr.regForm : Instr → Option RegForm
  | .add r | .sub r | .mul r | .mulh r | .and r | .or r | .xor r | .andn r | .shl r | .shr r | .sra r | .rot r | .min r
  | .max r | .cmp r | .ins r => some (.scalar r [sx r.a r.am, sx r.b r.bm] false)
  | .clz r | .popc r | .extr r => some (.scalar r [sx r.a r.am] false)
  | .sel r => some (.scalar r [sx r.a r.am, sx r.b r.bm, sx r.c r.cm] false)
  | .addi r | .andImm r | .orImm r | .xorImm r | .shlImm r | .shrImm r | .sraImm r | .rotImm r => some (.imm r)
  | .lea r => some ⟨false, r.sel, r.neg, r.srcsIndex, [r.d.toNat], [], [], false⟩
  | .movi r => some ⟨false, r.sel, r.neg, [], [r.d.toNat], [], [], false⟩
  | .movhi r => some ⟨false, r.sel, r.neg, [sx0 r.d], [r.d.toNat], [], [], false⟩
  | .fadd r | .fsub r | .fmul r | .fmin r | .fmax r | .fcmp r => some (.scalar r [sx r.a r.am, sx r.b r.bm] true)
  | .ffma r => some (.scalar r [sx r.a r.am, sx r.b r.bm, sx r.c r.cm] true)
  | .fcvt r | .fclass r => some (.scalar r [sx r.a r.am] true)
  | .vadd r | .vsub r | .vmul r | .vmulh r | .vmin r | .vmax r | .vand r | .vor r | .vxor r | .vandn r | .vshl r | .vshr r
  | .vsra r | .vpack r => some (.vector r [sv r.a r.am, sv r.b r.bm] false)
  | .vmad r => some (.vector r [sv r.a r.am, sv r.b r.bm, sv r.c r.cm] false)
  | .vabs r | .vexpand r => some (.vector r [sv r.a r.am] false)
  | .vcmp r => some (.toP r [sv r.a r.am, sv r.b r.bm] false)
  | .vfadd r | .vfsub r | .vfmul r | .vfmin r | .vfmax r | .vftbl r => some (.vector r [sv r.a r.am, sv r.b r.bm] true)
  | .vffma r => some (.vector r [sv r.a r.am, sv r.b r.bm, sv r.c r.cm] true)
  | .vfexp2 r | .vfcvt r | .vscan r => some (.vector r [sv r.a r.am] true)
  | .vfcmp r => some (.toP r [sv r.a r.am, sv r.b r.bm] true)
  | .vqnt r => some (.pair r [sv r.a r.am] true)
  | .vdqnt r => some (.vector r [sv r.a r.am, sx r.b r.bm] true)
  | .vbcast r => some (.vector r [sx r.a r.am] false)
  | .vperm r => some (.vector r (if r.sub.getLsbD 0 then [sv r.a r.am, sv r.b r.bm, sv r.c r.cm] else [sv r.a r.am, sv r.b r.bm]) false)
  | .vrot r => some (.vector r [sv r.a r.am, sx r.b r.bm] false)
  | .vins r => some (.vector r [sx r.a r.am, sx r.b r.bm] false)
  | .vred r => some (.toX r [sv r.a r.am] true)
  | .vmovx r => some (.toX r [sv r.a r.am, sx r.b r.bm] false)
  | .vcmpt r => some ⟨true, r.sel, r.neg, [sv r.a r.am, sx r.b r.bm], [r.c.toNat, r.c.toNat + 1], [r.d.toNat, r.d.toNat + 1], [], true⟩
  | .vtopk r => some (.pair r [sv r.a r.am] false)
  | .vsort r => some (.pair r (if r.sub.getLsbD 1 then [sv r.a r.am, sv r.b r.bm] else [sv r.a r.am]) false)
  | .pset r => some (.toP r [sx r.a r.am] false)
  | .pand r | .por r | .pxor r | .pandn r => some (.toP r [] false)
  | .pcnt r | .pffs r => some (.toX r [] false)
  | _ => none

end Sys2Proof

namespace Sys2Proof.Machine

/-- The predicate of a register instruction selects it, or one of its lanes (R31). -/
def State.Selects (s : State) (q : RegForm) : Prop :=
  if q.lanes then s.mask q.sel q.neg ≠ 0 else (s.mask q.sel q.neg).getLsbD 0 = true

/-- A register instruction issues: its predicate selects it, or one of its lanes, and it is ready. -/
def State.IssuesRegForm (s : State) (q : RegForm) : Prop :=
  s.Selects q ∧ s.Ready (q.srcs.map (·.reg)) q.dsts

end Sys2Proof.Machine

namespace Sys2Proof

open Machine

/-- The predicate under which an encoded instruction issues, and whether it selects lanes; none for the majors that are
not predicated (R31). -/
def Instr.guardField : Instr → Option (Bool × BitVec 3 × BitVec 1)
  | .br r | .brp r | .jmp r | .call r | .ret r => some (false, r.sel, r.neg)
  | .brx r | .spclaim r | .sprel r | .fewait r | .feset r | .feclr r | .qr r | .qstat r | .gset r | .gclr r | .gq r =>
    some (false, r.sel, r.neg)
  | .div r | .rem r | .fdiv r | .fsqrt r => some (false, r.sel, r.neg)
  | .vfdiv r | .vfsqrt r | .vfrsq r => some (true, r.sel, r.neg)
  | .ld _ r | .lda _ r | .st _ r | .stl _ r | .amo _ r | .red _ r | .fenceAcq r | .fenceRel r | .fenceFull r | .icsync r
  | .waitev r | .pref r | .retain r | .unpin r => some (false, r.sel, r.neg)
  | .ldv r | .stv r | .ldvs r | .stvs r | .ldvx r | .stvx r | .amov _ r => some (true, r.sel, r.neg)
  | .qw r | .cpy r | .cpy2d r | .scat r | .kick r | .kack r | .kackOpen r | .kackClose r | .gath r | .gathSel r | .merge r
  | .mclaim r | .mclaimTry r | .mclaimRel r | .mloadw r | .mloadt r | .mloadtBias r | .mstream r | .mstreamRing r
  | .mdrain r | .mring r | .nsend r | .nwrite r | .npost r | .ncqFence r | .ncqUnpost r => some (false, r.sel, r.neg)
  | .fopen r | .fadv r | .fadvTo r | .ftend r | .fclose r | .fldc r | .fldv r => some (false, r.sel, r.neg)
  | .launchQ r | .launchCore r | .fork r | .join r | .tend r | .yield r | .yieldSwap r | .trig r | .wid r | .barinit r
  | .bararr r | .barwait r | .barfree r | .barq r => some (false, r.sel, r.neg)
  | .htclaim r | .htrel r | .htdrn r => some (false, r.sel, r.neg)
  | .psinv r => if r.mod.getLsbD 0 then none else some (false, r.sel, r.neg)
  | .htins r | .htprb r | .htdel r | .htacc r => some (true, r.sel, r.neg)
  | .gbadd r | .gbelim r | .gbdamp r | .gbpost r | .gbtake r | .pschk r | .psput r => some (false, r.sel, r.neg)
  | i => i.regForm.map fun q => (q.lanes, q.sel, q.neg)

end Sys2Proof

namespace Sys2Proof.Machine

/-- The predicate of an instruction selects nothing of it. -/
def State.skips (s : State) (i : Instr) : Prop :=
  match i.guardField with
  | some (true, sel, neg) => s.mask sel neg = 0
  | some (false, sel, neg) => (s.mask sel neg).getLsbD 0 = false
  | none => False

end Sys2Proof.Machine

namespace Sys2Proof

open Machine

/-- The view that an engine word pushes its command into, the command's function, whether a transaction holds it, and
the word's fields (R26, R118, R119, R220, R233, R251). `KICK` and `KACK` have statements of their own. -/
def Instr.command : Instr → Option (Nat × Nat × Bool × FQ)
  | .cpy r => some (2, 0x00, true, r)
  | .cpy2d r => some (2, 0x01, true, r)
  | .scat r => some (2, 0x02, true, r)
  | .gath r | .gathSel r => some (4, 0x08, true, r)
  | .merge r => some (6, 0x09, true, r)
  | .mclaim r | .mclaimTry r | .mclaimRel r => some (0, 0x10, false, r)
  | .mloadw r => some (0, 0x11, false, r)
  | .mloadt r | .mloadtBias r => some (0, 0x12, false, r)
  | .mstream r | .mstreamRing r => some (0, 0x13, false, r)
  | .mdrain r => some (0, 0x14, false, r)
  | .mring r => some (0, 0x15, false, r)
  | .nsend r => some (8, 0x18, true, r)
  | .nwrite r => some (8, 0x19, true, r)
  | .npost r => some (8, 0x1A, true, r)
  | .ncqFence r | .ncqUnpost r => some (8, 0x1B, true, r)
  | _ => none

end Sys2Proof

namespace Sys2Proof.Machine

/-- The thread is the same but for its queue views, its transaction and what it has in flight. -/
def State.sameButQueues (s t : State) : Prop :=
  t.th.asid = s.th.asid ∧ t.th.intrap = s.th.intrap ∧ t.th.trapcause = s.th.trapcause ∧ t.th.trappc = s.th.trappc ∧
    t.th.trapval = s.th.trapval ∧ t.th.txstat = s.th.txstat ∧ t.th.claim = s.th.claim ∧ t.th.info = s.th.info ∧
    t.th.run = s.th.run

/-! ### Steps of the device -/

/-- No line of memory is poisoned, in a slice, in a quire or behind them (R324). -/
def State.noPoison (s : State) : Prop :=
  s.poison = [] ∧ s.poisonBase = [] ∧ (∀ e ∈ s.quires, ∀ x ∈ e.2, x.bad = false) ∧
    ∀ d < 4, ∀ e ∈ (s.die d).slices, ∀ x ∈ e.2, x.bad = false

/-- Nothing stands in the way of an engine's accesses to memory: no agent is dead, no tile is leased or owned, no
transaction runs, no line is poisoned anywhere and no palimpsest copy has still to be written. -/
structure State.Quiet (s : State) : Prop where
  dead : s.dead = []
  dirs : s.dirs = []
  tx : ∀ e ∈ s.ctxs, e.2.tx = none
  clean : s.noPoison
  scratchPoison : s.scratchPoison = []
  copies : s.palCopies = []

/-- The context of the step that moves has one command in view q, the one that the step is about, and its pop view has
room for an element. -/
def State.serves (s : State) (q : Nat) (m : Cmd) : Prop :=
  vat (s.ctx s.ev.k).cmds q = [m] ∧ m.id = s.ev.id ∧ (vat (s.ctx s.ev.k).elems (q + 1)).length < 16

/-- That command has completed with a status and its information: it has left its view, and its element is there with
NOTIFY or a failure (R119, R233); registers and the other contexts are as before. -/
def State.commandDone (s t : State) (q : Nat) (m : Cmd) (status info : Nat) : Prop :=
  vat (t.ctx s.ev.k).cmds q = [] ∧
    vat (t.ctx s.ev.k).elems (q + 1) = vat (s.ctx s.ev.k).elems (q + 1) ++
      (if m.cmd.getLsbD 14 = true ∨ status ≠ 0 then [elem status m.fn info] else []) ∧
    (t.ctx s.ev.k).r = (s.ctx s.ev.k).r ∧ ∀ j, j ≠ s.ev.k → t.ctx j = s.ctx j

/-- The ways of a claim are ways of the L1, each once. -/
def goodClaim (claim : List Nat) : Prop := claim.Nodup ∧ ∀ w ∈ claim, w < 8

/-- The byte of the L1 arrays at a local address of context k. -/
def State.localAt (s : State) (k a : Nat) : Nat := arrayByte (coreOf k) (s.ctx k).claim a

/-- The engines of context k reach memory at physical address pa through an address that its cluster's TLB translates. -/
def State.engAt (s : State) (k : Nat) (acc : Access) (va pa : Nat) : Prop :=
  va + 4 ≤ remoteBase ∧ s.paKind pa = .memory ∧
    ∃ e, s.tlbHit (clusterOf (coreOf k)) (s.ctx k).asid va = some e ∧ e.grants acc = true ∧ e.pa va = pa

end Sys2Proof.Machine
end

