-- ==== Sys2Proof/Certificates/Slice0/Obligations.lean ====
section
/-! DEFINITION. The statements about the model. -/

open Sys2Proof Sys2Proof.Machine

/-! ### Decoding and stepping -/

/-- R39, R40, R43: words of the formats F-R3, F-M, F-L, F-B, F-Q and F-S decode to the instructions they stand for. -/
def Obligations.WordsDecode : Prop :=
  decode 0x040145183C010000 = .instr (.add ⟨2, 1, 5, 6, 0, 7, 1, 0, 0, 0x10000⟩) ∧
  decode 0x400C06043B000010 = .instr (.ld 3 ⟨0, 0, 6, 1, 0, 7, 0, 3, 0, 0, 16⟩) ∧
  decode 0x7400021028605002 = .instr (.cpy ⟨0, 0, 2, 4, 0, 5, 0, 6, 0, 0, 0, 0x5002⟩) ∧
  decode 0xC00C050050000000 = .instr (.mfs ⟨0, 0, 5, 5, 0⟩) ∧
  decode 0x6008000000400005 = .instr (.txb ⟨0, 0, 0, 0, 0, 0, 0, 1, 5⟩)

/-- R39 to R44: the word of every well-formed encoded instruction decodes to that instruction, every field at every value
that it accepts. -/
def Obligations.DecodeEncode : Prop :=
  ∀ i : Instr, i.form.isSome = true → i.wf = true → decode (encode i) = .instr i

/-- R44: a word that decodes is the word of the instruction that it decodes to, which is well formed: no bit of a word is
ignored. -/
def Obligations.DecodeIsExact : Prop :=
  ∀ (w : Word) (i : Instr), decode w = .instr i → i.wf = true ∧ i.form.isSome = true ∧ encode i = w

/-- R45, R168: when it is the turn of a running thread with no poison to report, and the eight bytes at its pc, in a page
that grants X, decode to an instruction, the step executes that instruction, in that state but for the fetch: the thread
holds the word, and its use of caches is noted. Here for a word that the home can give at once and that no store on its way
changes. (Of the model's readings it rests on log entries 113 and 135.) -/
def Obligations.StepRunsDecodedInstruction : Prop :=
  ∀ (s : State) (i : Instr) (pa : Nat) (pol : Policy),
    s.choices = [] → s.mgmt.ready = true → s.stalled = false → s.th.run = .running → s.coreLost s.myCore = false →
    s.th.poison = none → s.mappedAt .fetch 8 s.th.pc pa pol → s.paKind pa = .memory → s.lineDead (pa / 128) = false →
    s.readBad s.cur pa pol = false → s.palPending (pa / 128) = false → (∀ j < 8, s.th.ownByte (pa + j) = none) →
    (∀ j, ({ s with how := .whole } : State).fetchNeed pa pol ≠ .recall j) →
      let w := wordOf (s.readMem pa 8)
      decode w = .instr i → ∃ u : State, step s = exec i u ∧ s.sameBytes u ∧
        u = { s with how := .whole, ctxs := u.ctxs, cores := u.cores, dies := u.dies, quires := u.quires, poison := u.poison } ∧
        u.th = { s.th with words := Tbl.set s.th.words pa w } ∧ ∀ k, k ≠ s.cur → u.ctx k = s.ctx k

/-- R44, R306, R307: a word with an unassigned operation or a wrong field that a thread fetches traps ILLEGAL_OP or
RESERVED_FIELD, with the word as TRAPVAL and the thread's pc as TRAPPC. -/
def Obligations.BadWordTraps : Prop :=
  ∀ (s : State) (w : Word) (run : Instr → State → Out),
    (decode w = .illegalOp → s.runWord w run = .next (s.deliver s.cur .illegalOp w s.th.pc)) ∧
    (decode w = .reservedField → s.runWord w run = .next (s.deliver s.cur .reservedField w s.th.pc)) ∧
    (s.th.speculative = false → (s.space s.th.asid.toNat).trapvec ≠ 0 → s.th.intrap = false → decode w = .illegalOp →
      ∃ t, s.runWord w run = .next t ∧ t.th.trapcause = 1 ∧ t.th.trapval = w ∧ t.th.trappc = s.th.pc ∧
        t.th.intrap = true ∧ t.th.pc = (s.space s.th.asid.toNat).trapvec ∧ s.sameX t [] ∧ s.sameV t [] ∧ s.sameP t [] ∧
        s.sameBytes t ∧ s.sameOthers t)

/-- Every instruction and every step of the device answers a next state, in every state: none stops the model.
(Of the model's readings it rests on log entry 2.) -/
def Obligations.NothingStops : Prop := ∀ (i : Instr) (s : State), ∃ t, exec i s = .next t

/-! ### Reset and invariants -/

/-- R331, R14, R290, R293: after a cold start GT is 0, every byte of memory reads 0, no context holds a thread, ASID 0
is VALID and no other address space is, in partition 0 with every cluster, and no agent is dead. -/
def Obligations.ResetLeaves : Prop :=
  State.reset.gt = 0 ∧ (∀ d < 4, State.reset.gtOf d = 0) ∧ (∀ a, Mem.read State.reset.mem a = 0) ∧
  (∀ k, (State.reset.ctx k).run = .vacant) ∧ (State.reset.space 0).valid = true ∧
  (∀ a, a ≠ 0 → (State.reset.space a).valid = false) ∧ (vat State.reset.parts 0).clusters = BitVec.allOnes 256 ∧
  State.reset.dead = [] ∧ State.reset.mgmt.ready = true ∧ State.reset.tiles = []

/-- The memories keep their canonical form, addresses rising and no entry equal to what an unlisted address reads as,
through every step from every state. -/
def Obligations.StepKeepsMemoryForm : Prop :=
  ∀ s t : State, s.memWf = true → step s = .next t → t.memWf = true

/-- The memories have their canonical form at reset. -/
def Obligations.ResetMemoryForm : Prop := State.reset.memWf = true

/-! ### How an instruction issues -/

/-- R31: an instruction that its predicate does not select has no effect: the pc goes to the next word and nothing else
that the manual gives the machine changes. -/
def Obligations.SkippedInstruction : Prop :=
  ∀ (s : State) (i : Instr), s.skips i →
    ∃ t, exec i s = .next t ∧ t.th.pc = s.th.pc + 8 ∧ s.sameX t [] ∧ s.sameV t [] ∧ s.sameP t [] ∧ s.sameModes t ∧
      s.sameThread t ∧ s.sameOthers t ∧ s.sameBytes t

/-- R29, R30: a register instruction that its predicate selects, with a source under mode bit 1 that is not full, traps
EMPTY_READ, the first such source's number in its class as TRAPVAL; with no such source, but one that is empty-pending, it
waits: it issues again later, and the thread, memory and every other context are as before; with none of these, but one that
is empty-idle, it traps with the first of these; with every source full it waits for a destination that is empty-pending. A
branch on two registers traps for its sources in the same way. (Of the model's readings it rests on log entries 19 and 29.) -/
def Obligations.SourcesTrapOrWait : Prop :=
  (∀ (s : State) (i : Instr) (q : RegForm), i.wf = true → i.regForm = some q → s.Selects q →
      let fe := fun (y : Src) => s.th.r.fe y.reg
      let bad := fun (y : Src) => y.trap = true ∧ fe y ≠ .full
      let traps := fun (y : Src) => exec i s = .next (s.deliver s.cur .emptyRead (BitVec.ofNat 64 y.reg.num) s.th.pc)
      let waits := ∃ t, exec i s = .next t ∧ t.stalled = true ∧ t.th.pc = s.th.pc ∧ t.th.run = s.th.run ∧ s.sameX t [] ∧ s.sameV t [] ∧
        s.sameP t [] ∧ s.sameModes t ∧ s.sameThread t ∧ s.sameOthers t ∧ s.sameBytes t
      (∀ as y bs, q.srcs = as ++ y :: bs → bad y → (∀ z ∈ as, ¬bad z) → traps y) ∧
      ((∀ y ∈ q.srcs, ¬bad y) →
        (s.th.tx = none → (∃ y ∈ q.srcs, fe y = .pending) → waits) ∧
        (∀ as y bs, q.srcs = as ++ y :: bs → (∀ z ∈ q.srcs, fe z ≠ .pending) → fe y = .idle → (∀ z ∈ as, fe z = .full) → traps y) ∧
        (s.th.tx = none → (∀ y ∈ q.srcs, fe y = .full) → (∃ d ∈ q.dsts, s.th.r.fe d = .pending) → waits))) ∧
  (∀ (s : State) (r : FB), (s.mask r.sel r.neg).getLsbD 0 = true →
      let traps := fun (n : BitVec 6) => exec (.br r) s = .next (s.deliver s.cur .emptyRead (BitVec.ofNat 64 n.toNat) s.th.pc)
      (r.am = 1 → s.th.r.fe (dx r.a) ≠ .full → traps r.a) ∧
      ((r.am = 0 ∨ s.th.r.fe (dx r.a) = .full) → r.bm = 1 → s.th.r.fe (dx r.b) ≠ .full → traps r.b) ∧
      (s.th.r.fe (dx r.a) = .full → s.th.r.fe (dx r.b) = .idle → traps r.b))

/-- R45, R291: a privileged instruction of a thread that is not in ASID 0 traps PRIVILEGED with its word as TRAPVAL and
has no other effect, whatever its predicate and operands. -/
def Obligations.PrivilegedTraps : Prop :=
  ∀ (s : State), s.th.asid ≠ 0 →
    ∀ i : Instr,
      (match i with
        | .mts _ | .tlbinvPage _ | .tlbinvAsid _ | .tlbinvAll _ | .replay _ | .replayAsid _ | .replayDrop _ | .ctxload _ => True
        | .mfs r => 0x100 ≤ r.code.toNat
        | .psinv r => r.mod.getLsbD 0 = true
        | .rdev r => let n := r.code.toNat % 1024; (0x20 ≤ n ∧ n < 0x40) ∨ 0x60 ≤ n
        | _ => False) →
      exec i s = .next (s.deliver s.cur .privileged (encode i) s.th.pc)

/-- R307: outside a speculative transaction a trap with a handler and INTRAP 0 saves the cause, the pc and the value,
sets INTRAP and goes to TRAPVEC, and changes nothing else; without a handler, or in one, the thread parks with KIND 6. -/
def Obligations.TrapIsTaken : Prop :=
  ∀ (s : State) (c : Cause) (v : Word), s.th.speculative = false →
    let vec := (s.space s.th.asid.toNat).trapvec
    let t := s.deliver s.cur c v s.th.pc
    (vec ≠ 0 → s.th.intrap = false →
      t.th.trapcause = c.code.zeroExtend 64 ∧ t.th.trappc = s.th.pc ∧ t.th.trapval = v ∧ t.th.intrap = true ∧ t.th.pc = vec ∧
      s.sameX t [] ∧ s.sameV t [] ∧ s.sameP t [] ∧ s.sameModes t ∧ s.sameBytes t ∧ s.sameOthers t) ∧
    (vec = 0 ∨ s.th.intrap = true → t.th.run = .parked 6 ∧ t.th.pc = s.th.pc ∧ t.th.trapcause = s.th.trapcause ∧
      s.sameX t [] ∧ s.sameV t [] ∧ s.sameP t [] ∧ s.sameBytes t)

/-- R31, R78, R82, R97 to R136: a register instruction that issues with its sources full completes: the pc goes to the
next word, and nothing changes but the registers that the form writes and, for the forms that compute in floating
point, FPSTAT and STOCHSEED. -/
def Obligations.RegisterInstructionsComplete : Prop :=
  ∀ (i : Instr) (q : RegForm) (s : State), i.wf = true → i.regForm = some q → s.IssuesRegForm q →
    ∃ t, exec i s = .next t ∧ t.th.pc = s.th.pc + 8 ∧ s.sameX t q.xs ∧ s.sameV t q.vs ∧ s.sameP t q.ps ∧
      (q.fp = false → s.sameModes t) ∧ t.th.r.guards = s.th.r.guards ∧ t.th.r.fibres = s.th.r.fibres ∧ s.sameThread t ∧
      s.sameOthers t ∧ s.sameBytes t

/-! ### Scalar integer -/

/-- R82, R85: without `.sat` the results of `ADD`, `SUB` and `MUL` are the low bits of the sum, difference and product
of the words, extended; this and no other register changes.

R71, R85: with `.sat` the results of `ADD`, `SUB` and `MUL` are the exact ones clamped to the type's range; `MIN`
and `MAX` are the lesser and the greater operand, and `MULH` the floor of the exact product by 2 to the width. The value
written is the type's extension of its low bits.

R85: the bitwise forms, the shifts by Xb modulo the width, and the counts, on the operands' bits at the type's
width, extended. -/
def Obligations.IntegerResults : Prop :=
  (∀ (s : State) (r : R3), s.Issues r.sel r.neg [dx r.a, dx r.b] [dx r.d] → r.sat = false →
      ((Instr.add r).wf = true →
        exec (.add r) s = .next (s.setX r.d (extendTo r.itype (s.x r.a + s.x r.b))).step8) ∧
      ((Instr.sub r).wf = true →
        exec (.sub r) s = .next (s.setX r.d (extendTo r.itype (s.x r.a - s.x r.b))).step8) ∧
      ((Instr.mul r).wf = true →
        exec (.mul r) s = .next (s.setX r.d (extendTo r.itype (s.x r.a * s.x r.b))).step8)) ∧
  (∀ (s : State) (r : R3), s.Issues r.sel r.neg [dx r.a, dx r.b] [dx r.d] →
      let t := r.itype
      let w := typeWidth t
      let A := ival (s.x r.a) t
      let B := ival (s.x r.b) t
      let lo : Int := if typeSigned t then -2 ^ (w - 1) else 0
      let hi : Int := if typeSigned t then 2 ^ (w - 1) - 1 else 2 ^ w - 1
      let gives := fun (i : Instr) (v : Int) => i.wf = true →
        ∃ x, exec i s = .next (s.setX r.d x).step8 ∧ ival x t = v ∧ extendTo t x = x
      (r.sat = true → gives (.add r) (max lo (min hi (A + B))) ∧ gives (.sub r) (max lo (min hi (A - B))) ∧
        gives (.mul r) (max lo (min hi (A * B)))) ∧
      gives (.min r) (min A B) ∧ gives (.max r) (max A B) ∧ gives (.mulh r) (A * B / 2 ^ w)) ∧
  (∀ (s : State) (r : R3), s.Issues r.sel r.neg [dx r.a, dx r.b] [dx r.d] →
      let t := r.itype
      let w := typeWidth t
      let a := (s.x r.a).setWidth w
      let b := (s.x r.b).setWidth w
      let n := (s.x r.b).toNat % w
      let gives := fun (i : Instr) (v : BitVec w) => i.wf = true → exec i s = .next (s.setX r.d (extendTo t (v.setWidth 64))).step8
      gives (.and r) (a &&& b) ∧ gives (.or r) (a ||| b) ∧ gives (.xor r) (a ^^^ b) ∧ gives (.andn r) (a &&& ~~~b) ∧
      gives (.shl r) (a <<< n) ∧ gives (.shr r) (a >>> n) ∧ gives (.sra r) (a.sshiftRight n) ∧ gives (.rot r) (a.rotateLeft n) ∧
      ((Instr.popc r).wf = true →
        exec (.popc r) s = .next (s.setX r.d (BitVec.ofNat 64 ((List.range w).filter a.getLsbD).length)).step8) ∧
      ((Instr.clz r).wf = true → ∃ c ≤ w, exec (.clz r) s = .next (s.setX r.d (BitVec.ofNat 64 c)).step8 ∧
        (∀ j < c, a.getLsbD (w - 1 - j) = false) ∧ (c < w → a.getLsbD (w - 1 - c) = true)))

/-- R71, R78, R85: `DIV` and `REM` are long-latency producers: Xd becomes empty-pending and its value is on the way:
the quotient toward zero and the remainder with the dividend's sign, all ones and the dividend for a divisor of 0, and
the minimum and 0 for the minimum by −1. -/
def Obligations.IntegerDivision : Prop :=
  ∀ (s : State) (r : R3), s.Issues r.sel r.neg [dx r.a, dx r.b] [dx r.d] →
    let t := r.itype
    let w := typeWidth t
    let A := ival (s.x r.a) t
    let B := ival (s.x r.b) t
    let gives := fun (i : Instr) (v : Int) => i.wf = true →
      ∃ x, exec i s = .next (s.produce s.cur [(r.d.toNat, some x)] [] 0).step8 ∧ ival x t = v ∧ extendTo t x = x
    (B = 0 → gives (.div r) (if typeSigned t then -1 else 2 ^ w - 1) ∧ gives (.rem r) A) ∧
    (typeSigned t = true → A = -2 ^ (w - 1) → B = -1 → gives (.div r) A ∧ gives (.rem r) 0) ∧
    (B ≠ 0 → ¬(typeSigned t = true ∧ A = -2 ^ (w - 1) ∧ B = -1) → gives (.div r) (A.tdiv B) ∧ gives (.rem r) (A.tmod B))

/-- R84, R85, R42: `SEL` tests all 64 bits of Xc and writes the type's extension of Xa or Xb; `CMP` writes 1 or 0 for the
six conditions on the operands' low bits, signed or unsigned.

R86, R87, R89: the immediate forms on 64 bits with the sign-extended immediate, or a count of six bits; `LEA`, `MOVI`
and `MOVHI`.

R88: `EXTR` takes bit pos + j of Xa as bit j below the field's length, and above it the field's top bit when signed,
else 0; `INS` puts the low bits of Xa into the field of Xb. -/
def Obligations.ScalarForms : Prop :=
  (∀ (s : State) (r : R3),
      (s.Issues r.sel r.neg [dx r.a, dx r.b, dx r.c] [dx r.d] → (Instr.sel r).wf = true →
        exec (.sel r) s = .next (s.setX r.d (extendTo r.itype (if s.x r.c = 0 then s.x r.b else s.x r.a))).step8) ∧
      (s.Issues r.sel r.neg [dx r.a, dx r.b] [dx r.d] → (Instr.cmp r).wf = true →
        let w := typeWidth r.itype
        let a := (s.x r.a).setWidth w
        let b := (s.x r.b).setWidth w
        let holds := match r.sub.toNat with
          | 0 => a == b
          | 1 => a != b
          | 2 => a.slt b
          | 3 => !a.slt b
          | 4 => a.ult b
          | _ => !a.ult b
        exec (.cmp r) s = .next (s.setX r.d (if holds then 1 else 0)).step8)) ∧
  (∀ (s : State),
      (∀ r : RI, s.Issues r.sel r.neg [dx r.a] [dx r.d] →
        let k := r.imm.signExtend 64
        let n := r.imm.toNat % 64
        exec (.addi r) s = .next (s.setX r.d (s.x r.a + k)).step8 ∧
        exec (.andImm r) s = .next (s.setX r.d (s.x r.a &&& k)).step8 ∧
        exec (.orImm r) s = .next (s.setX r.d (s.x r.a ||| k)).step8 ∧
        exec (.xorImm r) s = .next (s.setX r.d (s.x r.a ^^^ k)).step8 ∧
        exec (.shlImm r) s = .next (s.setX r.d (s.x r.a <<< n)).step8 ∧
        exec (.shrImm r) s = .next (s.setX r.d (s.x r.a >>> n)).step8 ∧
        exec (.sraImm r) s = .next (s.setX r.d ((s.x r.a).sshiftRight n)).step8 ∧
        exec (.rotImm r) s = .next (s.setX r.d ((s.x r.a).rotateLeft n)).step8) ∧
      (∀ r : FM, s.Issues r.sel r.neg [dx r.base, dx r.idx] [dx r.d] →
        exec (.lea r) s = .next (s.setX r.d (s.x r.base + s.x r.idx <<< r.scale.toNat + r.off.signExtend 64)).step8) ∧
      (∀ r : FL, s.Issues r.sel r.neg [] [dx r.d] → exec (.movi r) s = .next (s.setX r.d (r.imm.signExtend 64)).step8) ∧
      (∀ r : FL, s.Issues r.sel r.neg [dx r.d] [dx r.d] → (Instr.movhi r).wf = true →
        exec (.movhi r) s = .next (s.setX r.d (r.imm.setWidth 64 <<< 40 ||| (s.x r.d &&& 0xFFFFFFFFFF))).step8)) ∧
  (∀ (s : State) (r : R3),
      let pos := (r.mod.extractLsb' 13 6).toNat
      let len := (r.mod.extractLsb' 7 6).toNat + 1
      (s.Issues r.sel r.neg [dx r.a] [dx r.d] → (Instr.extr r).wf = true →
        ∃ v, exec (.extr r) s = .next (s.setX r.d v).step8 ∧ ∀ j < 64,
          v.getLsbD j = if j < len then (s.x r.a).getLsbD (pos + j) else r.mod.getLsbD 6 && (s.x r.a).getLsbD (pos + len - 1)) ∧
      (s.Issues r.sel r.neg [dx r.a, dx r.b] [dx r.d] → (Instr.ins r).wf = true →
        ∃ v, exec (.ins r) s = .next (s.setX r.d v).step8 ∧ ∀ j < 64,
          v.getLsbD j = if pos ≤ j ∧ j < pos + len then (s.x r.a).getLsbD (j - pos) else (s.x r.b).getLsbD j))

/-- R94 to R96, R40: a branch whose condition holds, a jump, a call and a return go to their targets, the pc of the
branch plus 8 times the offset or the register's word; a call writes the address of the next word to Xd; a condition
that fails goes on; a target that is not 8-byte aligned traps MISALIGNED_PC with TRAPVAL 0 and writes no register. -/
def Obligations.ControlTransfers : Prop :=
  ∀ (s : State),
    let go := fun (t : State) (pc : Word) =>
      t.updTh fun c => { c with pc := pc, blocked := false, woken := false, joined := false, waitSince := none }
    let bad := s.deliver s.cur .misalignedPc 0 s.th.pc
    let land := fun (t : State) (pc : Word) => if pc.toNat % 8 = 0 then go t pc else bad
    (∀ r : FB,
      let tgt := s.th.pc + r.off.signExtend 64 * 8
      (s.Issues r.sel r.neg [dx r.a, dx r.b] [] →
        let a := s.x r.a
        let b := s.x r.b
        let holds := match r.cond.toNat with
          | 0 => a == b
          | 1 => a != b
          | 2 => a.slt b
          | 3 => !a.slt b
          | 4 => a.ult b
          | _ => !a.ult b
        exec (.br r) s = .next (if holds then land s tgt else s.step8)) ∧
      (s.Issues r.sel r.neg [] [] →
        (let p := s.p r.a
         let holds := match r.cond.toNat with
          | 0 => p != 0
          | 1 => p == BitVec.allOnes 32
          | 2 => p == 0
          | _ => p.getLsbD 0
         exec (.brp r) s = .next (if holds then land s tgt else s.step8)) ∧
        exec (.jmp r) s = .next (land s tgt)) ∧
      (s.Issues r.sel r.neg [] [dx r.d] → exec (.call r) s = .next (land (s.setX r.d (s.th.pc + 8)) tgt)) ∧
      (s.Issues r.sel r.neg [dx r.a] [] → exec (.ret r) s = .next (land s (s.x r.a)))) ∧
    (∀ r : RI, s.Issues r.sel r.neg [dx r.a] [dx r.d] →
      exec (.brx r) s = .next (land (s.setX r.d (s.th.pc + 8)) (s.x r.a + r.imm.signExtend 64)))

/-! ### Scalar floating point -/

/-- R58, R68, R70, R90, R91: with a NaN operand the result of `FADD`, `FSUB`, `FMUL` and `FFMA` is the first NaN operand,
quieted, in the destination's format, and NV is raised when an operand is a signalling NaN, or a product is 0 × ∞; and a
number minus itself is +0, −0 in RDN, without a flag (R67).

R78, R91, R100: the long-latency float instructions `FDIV`, `FSQRT`, `VFDIV`, `VFSQRT` and `VFRSQ` complete for every
operand: the destination becomes empty-pending, the value and its flags are on their way, and a lane that is not
selected keeps its value in it; a finite dividend but 0 by 0 gives ∞ and DZ, 0 by 0 the canonical NaN and NV, and so does
the root of a number below 0 (R70). -/
def Obligations.FloatResults : Prop :=
  (∀ (s : State) (r : R3),
      let f := r.fmt
      let A := (s.x r.a).toNat % 2 ^ f.width
      let B := (s.x r.b).toNat % 2 ^ f.width
      let C := (s.x r.c).toNat % 2 ^ f.width
      let field := fun (n : Nat) => n / 2 ^ f.man % 2 ^ f.eb
      let isNan := fun (n : Nat) => decide (field n = 2 ^ f.eb - 1) && decide (n % 2 ^ f.man ≠ 0)
      let isSig := fun (n : Nat) => isNan n && !n.testBit (f.man - 1)
      let isInf := fun (n : Nat) => decide (field n = 2 ^ f.eb - 1) && decide (n % 2 ^ f.man = 0)
      let isZero := fun (n : Nat) => decide (n % 2 ^ (f.width - 1) = 0)
      let seed := (s.fp.draw (s.mode r.rnd)).seed
      let res := fun (n : Nat) (fl : BitVec 5) =>
        (s.updTh fun c => (c.setX r.d.toNat (BitVec.ofNat 64 n)).withFp ⟨seed, fl⟩).step8
      let quiet := fun (n : Nat) => n ||| 2 ^ (f.man - 1)
      let nv := fun (b : Bool) => if b then (1 : BitVec 5) else 0
      (s.Issues r.sel r.neg [dx r.a, dx r.b] [dx r.d] → ∀ n, [A, B].find? isNan = some n →
        let t := res (quiet n) (nv ([A, B].any isSig))
        ((Instr.fadd r).wf = true → exec (.fadd r) s = .next t) ∧ ((Instr.fsub r).wf = true → exec (.fsub r) s = .next t) ∧
        ((Instr.fmul r).wf = true → exec (.fmul r) s = .next t)) ∧
      (s.Issues r.sel r.neg [dx r.a, dx r.b, dx r.c] [dx r.d] → (Instr.ffma r).wf = true → ∀ n, [A, B, C].find? isNan = some n →
        exec (.ffma r) s = .next (res (quiet n)
          (nv ([A, B, C].any isSig || (isZero A && isInf B) || (isInf A && isZero B))))) ∧
      (s.Issues r.sel r.neg [dx r.a, dx r.b] [dx r.d] → (Instr.fsub r).wf = true → A = B → field A ≠ 2 ^ f.eb - 1 →
        exec (.fsub r) s = .next (res (if s.mode r.rnd = 3 then 2 ^ (f.width - 1) else 0) 0))) ∧
  (∀ (s : State) (r : R3),
      let f := r.fmt
      let A := (s.x r.a).toNat % 2 ^ f.width
      let B := (s.x r.b).toNat % 2 ^ f.width
      let mag := fun (n : Nat) => n % 2 ^ (f.width - 1)
      let infinity := (2 ^ f.eb - 1) * 2 ^ f.man
      let sent := fun (v : Nat) (e : Fp) (fl : BitVec 5) =>
        ((s.updTh fun c => c.withSeed e).produce s.cur [(r.d.toNat, some (BitVec.ofNat 64 v))] [] fl).step8
      let lanes := fun (i : Instr) => ∃ (l : Lanes) (e : Fp) (fl : BitVec 5),
        exec i s = .next ((s.updTh fun c => c.withSeed e).produce s.cur [] [(r.d.toNat, some l)] fl).step8 ∧
          ∀ k < 32, (s.mask r.sel r.neg).getLsbD k = false → vat l k = vat (s.v r.d) k
      (s.Issues r.sel r.neg [dx r.a, dx r.b] [dx r.d] → (Instr.fdiv r).wf = true →
        (∃ v e fl, exec (.fdiv r) s = .next (sent v e fl)) ∧
        (mag B = 0 → mag A ≠ 0 → mag A < infinity → ∃ e, exec (.fdiv r) s =
          .next (sent (infinity + if (2 ^ (f.width - 1) ≤ A) = (2 ^ (f.width - 1) ≤ B) then 0 else 2 ^ (f.width - 1)) e 2)) ∧
        (mag B = 0 → mag A = 0 → ∃ e, exec (.fdiv r) s = .next (sent (infinity + 2 ^ (f.man - 1)) e 1))) ∧
      (s.Issues r.sel r.neg [dx r.a] [dx r.d] → (Instr.fsqrt r).wf = true →
        (∃ v e fl, exec (.fsqrt r) s = .next (sent v e fl)) ∧
        (2 ^ (f.width - 1) < A → mag A ≤ infinity → ∃ e, exec (.fsqrt r) s = .next (sent (infinity + 2 ^ (f.man - 1)) e 1))) ∧
      (s.IssuesLanes r.sel r.neg [dv r.a, dv r.b] [dv r.d] → (Instr.vfdiv r).wf = true → lanes (.vfdiv r)) ∧
      (s.IssuesLanes r.sel r.neg [dv r.a] [dv r.d] →
        ((Instr.vfsqrt r).wf = true → lanes (.vfsqrt r)) ∧ ((Instr.vfrsq r).wf = true → lanes (.vfrsq r))))

/-- R69, R92: `FMIN` and `FMAX` of two numbers give the lesser and the greater in the order in which −0 lies below +0;
a NaN gives way to a number; `FCMP` compares with +0 equal to −0, every comparison with a NaN but `uno` fails, and lt and
le raise NV for a quiet one; `FCLASS` writes the one bit of the operand's class.

R72, R93: `FCVT` of a float to an integer type gives 0 for a NaN, the largest value for +∞ and the least for −∞, with
NV. -/
def Obligations.FloatOrderAndConversion : Prop :=
  (∀ (s : State) (r : R3),
      let f := r.fmt
      let w := f.width
      let A := (s.x r.a).toNat % 2 ^ w
      let B := (s.x r.b).toNat % 2 ^ w
      let field := fun (n : Nat) => n / 2 ^ f.man % 2 ^ f.eb
      let isNan := fun (n : Nat) => decide (field n = 2 ^ f.eb - 1) && decide (n % 2 ^ f.man ≠ 0)
      let isSig := fun (n : Nat) => isNan n && !n.testBit (f.man - 1)
      let isZero := fun (n : Nat) => decide (n % 2 ^ (w - 1) = 0)
      let place := fun (n : Nat) => if n < 2 ^ (w - 1) then (n : Int) else 2 ^ (w - 1) - 1 - (n : Int)
      let res := fun (x : Word) (fl : BitVec 5) =>
        (s.updTh fun c => { c.setX r.d.toNat x with r := (c.r.setX r.d.toNat x).raise fl }).step8
      let nv := fun (b : Bool) => if b then (1 : BitVec 5) else 0
      let pick := fun (lesser : Bool) =>
        if isNan A then (if isNan B then A ||| 2 ^ (f.man - 1) else B)
        else if isNan B then A
        else if (place A ≤ place B) = (lesser = true) then A else B
      let sig := isSig A || isSig B
      let un := isNan A || isNan B
      let same := place A = place B ∨ (isZero A = true ∧ isZero B = true)
      let less := place A < place B ∧ ¬(isZero A = true ∧ isZero B = true)
      (s.Issues r.sel r.neg [dx r.a, dx r.b] [dx r.d] →
        ((Instr.fmin r).wf = true → exec (.fmin r) s = .next (res (BitVec.ofNat 64 (pick true)) (nv sig))) ∧
        ((Instr.fmax r).wf = true → exec (.fmax r) s = .next (res (BitVec.ofNat 64 (pick false)) (nv sig))) ∧
        ((Instr.fcmp r).wf = true →
          ∃ b : Bool, exec (.fcmp r) s = .next (res (if b then 1 else 0)
              (nv (sig || (un && (r.sub = 1 || r.sub = 2))))) ∧
            (r.sub = 0 → (b = true ↔ un = false ∧ same)) ∧
            (r.sub = 1 ∨ r.sub = 4 → (b = true ↔ un = false ∧ less)) ∧
            (r.sub = 2 ∨ r.sub = 5 → (b = true ↔ un = false ∧ (less ∨ same))) ∧
            (r.sub = 3 → b = un))) ∧
      (s.Issues r.sel r.neg [dx r.a] [dx r.d] → (Instr.fclass r).wf = true →
        let neg := 2 ^ (w - 1) ≤ A
        let bit : Nat :=
          if isNan A then (if isSig A then 8 else 9)
          else if field A = 2 ^ f.eb - 1 then (if neg then 0 else 7)
          else if isZero A then (if neg then 3 else 4)
          else if field A = 0 then (if neg then 2 else 5)
          else if neg then 1 else 6
        exec (.fclass r) s = .next (res (BitVec.ofNat 64 (2 ^ bit)) 0))) ∧
  (∀ (s : State) (r : R3), s.Issues r.sel r.neg [dx r.a] [dx r.d] → (Instr.fcvt r).wf = true →
      let src : BitVec 5 := r.sub.extractLsb' 0 5
      let f := fmtOf src
      let n := (s.x r.a).toNat % 2 ^ f.width
      let w := typeWidth r.typ
      let e : Fp := ⟨(s.fp.draw (s.mode r.rnd)).seed, 1⟩
      let res := fun (x : Word) => (s.updTh fun c => (c.setX r.d.toNat x).withFp e).step8
      let lo : Word := if typeSigned r.typ then BitVec.ofInt 64 (-2 ^ (w - 1)) else 0
      let hi : Word := if typeSigned r.typ then BitVec.ofInt 64 (2 ^ (w - 1) - 1) else BitVec.ofNat 64 (2 ^ w - 1)
      (src = 0x0C ∨ src = 0x0D ∨ src = 0x0E) → 1 ≤ r.typ.toNat ∧ r.typ.toNat ≤ 8 → n / 2 ^ f.man % 2 ^ f.eb = 2 ^ f.eb - 1 →
        exec (.fcvt r) s = .next (res (if n % 2 ^ f.man ≠ 0 then 0 else if n < 2 ^ (f.width - 1) then hi else lo)))

/-! ### Vectors -/

/-- R97, R98, R81: without `.sat` each element of a selected lane becomes the low bits of the sum, difference, product,
product plus third operand, bitwise form or logical shift of the operands' elements; the other lanes keep theirs.

R98, R97, R99: the saturating sums, differences, products and products plus third operand, the minimum, maximum, absolute
value, high product and arithmetic shift of the typed elements, as values of the type; and the six comparisons of `VCMP`
into a predicate. -/
def Obligations.VectorIntegerForms : Prop :=
  (∀ (s : State) (r : R3),
      let w := r.vwidth
      let m := s.mask r.sel r.neg
      let gives := fun (i : Instr) (v : Nat → Nat → Nat → Nat) => i.wf = true →
        ∃ l, exec i s = .next (s.setV r.d l).step8 ∧ ∀ j < 1024 / w,
          velem l w j = if m.getLsbD (w * j / 32) then v (velem (s.v r.a) w j) (velem (s.v r.b) w j) (velem (s.v r.c) w j) % 2 ^ w
            else velem (s.v r.d) w j
      (s.IssuesLanes r.sel r.neg [dv r.a, dv r.b] [dv r.d] →
        (r.sat = false → gives (.vadd r) (fun a b _ => a + b) ∧ gives (.vsub r) (fun a b _ => a + (2 ^ w - b)) ∧
          gives (.vmul r) (fun a b _ => a * b)) ∧
        gives (.vand r) (fun a b _ => a &&& b) ∧ gives (.vor r) (fun a b _ => a ||| b) ∧ gives (.vxor r) (fun a b _ => a ^^^ b) ∧
        gives (.vandn r) (fun a b _ => a ^^^ (a &&& b)) ∧ gives (.vshl r) (fun a b _ => a * 2 ^ (b % w)) ∧
        gives (.vshr r) (fun a b _ => a / 2 ^ (b % w))) ∧
      (s.IssuesLanes r.sel r.neg [dv r.a, dv r.b, dv r.c] [dv r.d] → r.sat = false →
        gives (.vmad r) (fun a b c => a * b + c))) ∧
  (∀ (s : State) (r : R3),
      let w := r.vwidth
      let sg := typeSigned r.vtype
      let m := s.mask r.sel r.neg
      let el := fun (v : Lanes) (j : Nat) => ivalOf sg w (velem v w j)
      let lo : Int := if sg then -2 ^ (w - 1) else 0
      let hi : Int := if sg then 2 ^ (w - 1) - 1 else 2 ^ w - 1
      let gives := fun (i : Instr) (v : Int → Int → Int) => i.wf = true →
        ∃ l, exec i s = .next (s.setV r.d l).step8 ∧ ∀ j < 1024 / w,
          el l j = if m.getLsbD (w * j / 32) then v (el (s.v r.a) j) (el (s.v r.b) j) else el (s.v r.d) j
      (s.IssuesLanes r.sel r.neg [dv r.a, dv r.b] [dv r.d] →
        (r.sat = true → gives (.vadd r) (fun a b => max lo (min hi (a + b))) ∧ gives (.vsub r) (fun a b => max lo (min hi (a - b))) ∧
          gives (.vmul r) (fun a b => max lo (min hi (a * b)))) ∧
        gives (.vmin r) min ∧ gives (.vmax r) max ∧ gives (.vmulh r) (fun a b => a * b / 2 ^ w) ∧
        (sg = true → gives (.vsra r) (fun a b => a / 2 ^ (b % w).toNat))) ∧
      (s.IssuesLanes r.sel r.neg [dv r.a, dv r.b, dv r.c] [dv r.d] → r.sat = true → (Instr.vmad r).wf = true →
        ∃ l, exec (.vmad r) s = .next (s.setV r.d l).step8 ∧ ∀ j < 1024 / w,
          el l j = if m.getLsbD (w * j / 32) then max lo (min hi (el (s.v r.a) j * el (s.v r.b) j + el (s.v r.c) j)) else el (s.v r.d) j) ∧
      (s.IssuesLanes r.sel r.neg [dv r.a] [dv r.d] →
        (r.sat = true → gives (.vabs r) (fun a _ => min hi |a|)) ∧
        (r.sat = false → gives (.vabs r) (fun a _ => if a = lo then lo else |a|))) ∧
      (s.IssuesLanes r.sel r.neg [dv r.a, dv r.b] [] → (Instr.vcmp r).wf = true →
        ∃ p, exec (.vcmp r) s = .next (s.setP r.d p).step8 ∧ ∀ j < 32,
          p.getLsbD j = if m.getLsbD j then
            (let a := el (s.v r.a) j
             let b := el (s.v r.b) j
             match r.sub.toNat with
             | 0 => decide (a = b)
             | 1 => decide (a ≠ b)
             | 2 => decide (a < b)
             | 3 => decide (a ≤ b)
             | 4 => decide (b < a)
             | _ => decide (b ≤ a))
            else (s.p r.d).getLsbD j))

/-- R100 to R102: lane i of `VFADD`, `VFSUB`, `VFMUL`, `VFFMA`, `VFEXP2` and `VFTBL` in FP32, in the modes RNE, RTZ, RUP and RDN,
is what the scalar operation gives for the lanes i of the operands, for `VFTBL` the table's value at lane i; STOCHSEED is as
before, and the flags raised are those of all selected lanes together. A NaN index of `VFTBL` comes back quieted, one of at
most 0 gives the first knot and one of 31 or more the last, where the knots are no NaN.

R69, R92, R100: `VFMIN`, `VFMAX` and `VFCMP` in FP32 order each pair of lanes as `FMIN`, `FMAX` and `FCMP` do.

R72 to R75, R103 to R107: `VFCVT` converts the elements of one part into another as `FCVT` does, and keeps the rest; `VQNT` writes
the codes of the quantised block into a part and its scale code beside them; `VDQNT` gives each lane its element's value
under the scale; `VPACK` narrows the lanes of two registers into one, clamped with `.sat`.

R77, R110: `VSCAN` over the integer types gives each selected lane the sum modulo 2^32 without `.sat`, the least, the greatest, or
the bitwise AND, OR or XOR of the selected lanes up to it, or below it with `.ex`. (Of the model's readings it rests on log
entries 137, 138.) -/
def Obligations.VectorFloatIsScalarByLane : Prop :=
  (∀ (s : State) (r : R3), r.ftype = 0x0C → s.mode r.rnd < 4 →
    let m := s.mask r.sel r.neg
    let mode := s.mode r.rnd
    let at' := fun (n : BitVec 6) (i : Nat) => fmtF32.decode (vat (s.v n) i).toNat
    let gives := fun (i : Instr) (f : Nat → FRes) => i.wf = true →
      ∃ (l : Lanes) (fl : BitVec 5),
        exec i s = .next (s.updTh fun c => (c.setV r.d.toNat l).withFp ⟨s.th.r.stochseed, fl⟩).step8 ∧
        (∀ k < 32, vat l k = if m.getLsbD k then BitVec.ofNat 32 ((f k).put fmtF32 mode false 0).1 else vat (s.v r.d) k) ∧
        fl = (lanesIn m).foldl (fun a k => a ||| ((f k).put fmtF32 mode false 0).2) 0
    (s.IssuesLanes r.sel r.neg [dv r.a, dv r.b] [dv r.d] →
      gives (.vfadd r) (fun k => opAdd mode (at' r.a k) (at' r.b k)) ∧
      gives (.vfsub r) (fun k => opSub mode (at' r.a k) (at' r.b k)) ∧ gives (.vfmul r) (fun k => opMul (at' r.a k) (at' r.b k)) ∧
      gives (.vftbl r) (fun k => opTable mode (at' r.a k) (at' r.b)) ∧
      ∀ k < 32, (∀ j < 32, (at' r.b j).isNan = false) → (at' r.a k).isNan = false →
        ((at' r.a k).lt (.fin true 0 0) = true → opTable mode (at' r.a k) (at' r.b) = .val (at' r.b 0) 0) ∧
        ((FVal.fin false 31 0).lt (at' r.a k) = true → opTable mode (at' r.a k) (at' r.b) = .val (at' r.b 31) 0)) ∧
    (s.IssuesLanes r.sel r.neg [dv r.a] [dv r.d] → gives (.vfexp2 r) (fun k => opExp2 (at' r.a k))) ∧
    (s.IssuesLanes r.sel r.neg [dv r.a, dv r.b, dv r.c] [dv r.d] →
      gives (.vffma r) (fun k => opFma mode (at' r.a k) (at' r.b k) (at' r.c k)))) ∧
  (∀ (s : State) (r : R3), r.ftype = 0x0C →
    let m := s.mask r.sel r.neg
    let A := fun (k : Nat) => (vat (s.v r.a) k).toNat
    let B := fun (k : Nat) => (vat (s.v r.b) k).toNat
    let isNan := fun (n : Nat) => decide (n / 2 ^ 23 % 256 = 255) && decide (n % 2 ^ 23 ≠ 0)
    let isSig := fun (n : Nat) => isNan n && !n.testBit 22
    let isZero := fun (n : Nat) => decide (n % 2 ^ 31 = 0)
    let place := fun (n : Nat) => if n < 2 ^ 31 then (n : Int) else 2 ^ 31 - 1 - (n : Int)
    let pick := fun (lesser : Bool) (a b : Nat) =>
      if isNan a then (if isNan b then a ||| 2 ^ 22 else b)
      else if isNan b then a
      else if (place a ≤ place b) = (lesser = true) then a else b
    let un := fun (k : Nat) => isNan (A k) || isNan (B k)
    let same := fun (k : Nat) => place (A k) = place (B k) ∨ (isZero (A k) = true ∧ isZero (B k) = true)
    let less := fun (k : Nat) => place (A k) < place (B k) ∧ ¬(isZero (A k) = true ∧ isZero (B k) = true)
    let nv := fun (f : Nat → Bool) => if (lanesIn m).any f then (1 : BitVec 5) else 0
    let res := fun (f : Ctx → Ctx) (fl : BitVec 5) => (s.updTh fun c => (f c).withFp ⟨s.th.r.stochseed, fl⟩).step8
    (s.IssuesLanes r.sel r.neg [dv r.a, dv r.b] [dv r.d] →
      let gives := fun (i : Instr) (lesser : Bool) => i.wf = true →
        ∃ l, exec i s = .next (res (fun c => c.setV r.d.toNat l) (nv fun k => isSig (A k) || isSig (B k))) ∧
          ∀ k < 32, vat l k = if m.getLsbD k then BitVec.ofNat 32 (pick lesser (A k) (B k)) else vat (s.v r.d) k
      gives (.vfmin r) true ∧ gives (.vfmax r) false) ∧
    (s.IssuesLanes r.sel r.neg [dv r.a, dv r.b] [] → (Instr.vfcmp r).wf = true →
      ∃ p : W32, exec (.vfcmp r) s = .next (res (fun c => c.setP r.d.toNat p)
          (nv fun k => isSig (A k) || isSig (B k) || (un k && (r.sub = 1 || r.sub = 2)))) ∧
        ∀ k < 32, if m.getLsbD k then
          (r.sub = 0 → (p.getLsbD k = true ↔ un k = false ∧ same k)) ∧
          (r.sub = 1 ∨ r.sub = 4 → (p.getLsbD k = true ↔ un k = false ∧ less k)) ∧
          (r.sub = 2 ∨ r.sub = 5 → (p.getLsbD k = true ↔ un k = false ∧ (less k ∨ same k))) ∧
          (r.sub = 3 → p.getLsbD k = un k)
          else p.getLsbD k = (s.p r.d).getLsbD k)) ∧
  (∀ (s : State) (r : R3),
    let m := s.mask r.sel r.neg
    let mode := s.mode r.rnd
    let w := typeWidth r.typ
    let res := fun (l : Lanes) (e : Fp) => (s.updTh fun c => (c.setV r.d.toNat l).withFp e).step8
    let part := fun (h : Nat) (old new : Lanes) (f : Nat → Nat) => ∀ j < 1024 / w, velem new w j =
      if 32 * h ≤ j ∧ j < 32 * h + 32 then f (j - 32 * h) else velem old w j
    (s.IssuesLanes r.sel r.neg [dv r.a] [dv r.d] → (Instr.vfcvt r).wf = true → mode < 4 →
      let src : BitVec 5 := r.sub.extractLsb' 0 5
      let hd := (r.sub.extractLsb' 7 2).toNat
      let one := fun (i : Nat) =>
        convert mode r.nsat src r.typ (velem (s.v r.a) (typeWidth src) (32 * (r.sub.extractLsb' 5 2).toNat + i)) s.fp
      ∃ l fl, exec (.vfcvt r) s = .next (res l ⟨s.th.r.stochseed, fl⟩) ∧
        fl = (lanesIn m).foldl (fun a i => a ||| (one i).2.flags) 0 ∧
        part hd (s.v r.d) l fun i => if m.getLsbD i then (one i).1 % 2 ^ w else velem (s.v r.d) w (32 * hd + i)) ∧
    (s.IssuesLanes r.sel r.neg [dv r.a] [dv r.d, .v (r.d.toNat + 1)] → (Instr.vqnt r).wf = true →
      let h := r.sub.toNat % 8
      let xs := (List.range 32).map fun i => if m.getLsbD i then fmtF32.decode (vat (s.v r.a) i).toNat else .fin false 0 0
      let q := quantise r.typ mode xs s.fp
      ∃ l sc, exec (.vqnt r) s =
          .next (s.updTh fun c => ((c.setV r.d.toNat l).setV (r.d.toNat + 1) sc).withFp q.2.2).step8 ∧
        part h (s.v r.d) l (fun i => q.2.1.getD i 0 % 2 ^ w) ∧
        (∀ j < 128, velem sc 8 j = if j = h then q.1 % 256 else velem (s.th.getV (r.d.toNat + 1)) 8 j) ∧
        ((∃ i < 32, m.getLsbD i = true ∧ (vat (s.v r.a) i).toNat / 2 ^ 23 % 256 = 255) → q.1 = 255) ∧
        ((∀ i < 32, m.getLsbD i = true → (vat (s.v r.a) i).toNat % 2 ^ 31 = 0) → q.1 = 127)) ∧
    (s.IssuesLanes r.sel r.neg [dv r.a, dx r.b] [dv r.d] → (Instr.vdqnt r).wf = true → mode < 4 →
      let vals := scaledValues r.typ ((s.x r.b).toNat % 256) fun i => velem (s.v r.a) w (32 * (r.sub.toNat % 8) + i)
      let one := fun (i : Nat) => (FRes.val (vals.getD i .canon) 0).put fmtF32 mode false 0
      ∃ l fl, exec (.vdqnt r) s = .next (res l ⟨s.th.r.stochseed, fl⟩) ∧
        fl = (lanesIn m).foldl (fun a i => a ||| (one i).2) 0 ∧
        (∀ k < 32, vat l k = if m.getLsbD k then BitVec.ofNat 32 (one k).1 else vat (s.v r.d) k) ∧
        ((s.x r.b).toNat % 256 = 255 → ∀ k < 32, m.getLsbD k = true → vat l k = 0x7FC00000)) ∧
    (s.IssuesLanes r.sel r.neg [dv r.a, dv r.b] [dv r.d] → (Instr.vpack r).wf = true →
      let lo : Int := if typeSigned r.typ then -2 ^ (w - 1) else 0
      let hi : Int := if typeSigned r.typ then 2 ^ (w - 1) - 1 else 2 ^ w - 1
      let nar := fun (n : BitVec 6) (i : Nat) =>
        let v := (vat (s.v n) i).toInt
        ((if r.sat then max lo (min hi v) else v) % 2 ^ w).toNat
      let o := if w = 8 then 64 * (r.sub.toNat % 2) else 0
      ∃ l, exec (.vpack r) s = .next (s.setV r.d l).step8 ∧ ∀ j < 1024 / w, velem l w j =
        if o ≤ j ∧ j < o + 32 ∧ m.getLsbD (j - o) = true then nar r.a (j - o)
        else if o + 32 ≤ j ∧ j < o + 64 ∧ m.getLsbD (j - o - 32) = true then nar r.b (j - o - 32)
        else velem (s.v r.d) w j)) ∧
  (∀ (s : State) (r : R3), s.IssuesLanes r.sel r.neg [dv r.a] [dv r.d] → (Instr.vscan r).wf = true →
    r.vtype = 3 ∨ r.vtype = 7 → r.sat = false →
    let m := s.mask r.sel r.neg
    let sg := typeSigned r.vtype
    let key := fun (x : W32) => ivalOf sg 32 x.toNat
    let gives := fun (op : BitVec 3) (f : W32 → W32 → W32) (z : W32) => r.sub.extractLsb' 0 3 = op →
      ∃ l, exec (.vscan r) s = .next (s.updTh fun c => (c.setV r.d.toNat l).withFp ⟨s.th.r.stochseed, 0⟩).step8 ∧
        ∀ k < 32, vat l k = if m.getLsbD k then
          ((List.range 32).filter fun j => m.getLsbD j && (if r.sub.getLsbD 3 then decide (j < k) else decide (j ≤ k))).foldl
            (fun a j => f a (vat (s.v r.a) j)) z else vat (s.v r.d) k
    gives 0 (· + ·) 0 ∧ gives 1 (fun a b => if key a ≤ key b then a else b) (if sg then 0x7FFFFFFF else 0xFFFFFFFF) ∧
    gives 2 (fun a b => if key a ≤ key b then b else a) (if sg then 0x80000000 else 0) ∧
    gives 3 (· &&& ·) 0xFFFFFFFF ∧ gives 4 (· ||| ·) 0 ∧ gives 5 (· ^^^ ·) 0)

/-- R109, R111: broadcast, permutation, rotation, expansion, and the moves between an X register and a lane, lane by lane.

R112, R113: predicates bit by bit: `PSET` from Xa or as the first n, the bitwise forms, `PCNT` and `PFFS` over the
selected lanes. (Of the model's readings it rests on log entry 10.) -/
def Obligations.VectorMovesAndPredicates : Prop :=
  (∀ (s : State) (r : R3),
      let m := s.mask r.sel r.neg
      let lanes := fun (i : Instr) (v : Nat → W32) =>
        ∃ l, exec i s = .next (s.setV r.d l).step8 ∧ ∀ k < 32, vat l k = if m.getLsbD k then v k else vat (s.v r.d) k
      (s.IssuesLanes r.sel r.neg [dx r.a] [dv r.d] → (Instr.vbcast r).wf = true →
        ∃ l, exec (.vbcast r) s = .next (s.setV r.d l).step8 ∧ ∀ j < 1024 / r.vwidth,
          velem l r.vwidth j = if m.getLsbD (r.vwidth * j / 32) then (s.x r.a).toNat % 2 ^ r.vwidth else velem (s.v r.d) r.vwidth j) ∧
      (s.IssuesLanes r.sel r.neg [dv r.a, dv r.b] [dv r.d] → r.sub.getLsbD 0 = false →
        lanes (.vperm r) fun k => if (vat (s.v r.b) k).toNat < 32 then vat (s.v r.a) (vat (s.v r.b) k).toNat else 0) ∧
      (s.IssuesLanes r.sel r.neg [dv r.a, dv r.b, dv r.c] [dv r.d] → r.sub.getLsbD 0 = true →
        lanes (.vperm r) fun k => if (vat (s.v r.b) k).toNat < 32 then vat (s.v r.a) (vat (s.v r.b) k).toNat
          else if (vat (s.v r.b) k).toNat < 64 then vat (s.v r.c) ((vat (s.v r.b) k).toNat - 32) else 0) ∧
      (s.IssuesLanes r.sel r.neg [dv r.a, dx r.b] [dv r.d] → lanes (.vrot r) fun k => vat (s.v r.a) ((k + (s.x r.b).toNat) % 32)) ∧
      (s.IssuesLanes r.sel r.neg [dv r.a] [dv r.d] →
        lanes (.vexpand r) fun k => vat (s.v r.a) ((List.range k).filter m.getLsbD).length) ∧
      (s.IssuesLanes r.sel r.neg [dv r.a, dx r.b] [dx r.d] → (Instr.vmovx r).wf = true →
        let n := (s.x r.b).toNat
        let v : W32 := if n < 32 ∧ m.getLsbD n = true then vat (s.v r.a) n else 0
        exec (.vmovx r) s = .next (s.setX r.d (if r.typ = 7 then v.setWidth 64 else v.signExtend 64)).step8) ∧
      (s.IssuesLanes r.sel r.neg [dx r.a, dx r.b] [dv r.d] →
        let n := (s.x r.b).toNat
        if n < 32 ∧ m.getLsbD n = true then
          ∃ l, exec (.vins r) s = .next (s.setV r.d l).step8 ∧
            ∀ k < 32, vat l k = if k = n then (s.x r.a).setWidth 32 else vat (s.v r.d) k
        else exec (.vins r) s = .next s.step8) ∧
      (m = 0 → exec (.vmovx r) s = .next s.step8 ∧ exec (.vins r) s = .next s.step8) ∧
      ((Instr.vperm r).wf = true → r.sub.getLsbD 0 = false → r.c = 0 ∧ r.cm = 0)) ∧
  (∀ (s : State) (r : R3),
      let m := s.mask r.sel r.neg
      let gives := fun (i : Instr) (f : Nat → Bool) =>
        ∃ p, exec i s = .next (s.setP r.d p).step8 ∧ ∀ k < 32, p.getLsbD k = if m.getLsbD k then f k else (s.p r.d).getLsbD k
      let a := fun k => (s.p r.a).getLsbD k
      let b := fun k => (s.p r.b).getLsbD k
      let ones := (List.range 32).filter fun k => m.getLsbD k && a k
      (s.IssuesLanes r.sel r.neg [dx r.a] [] →
        (r.sub.getLsbD 0 = false → gives (.pset r) (s.x r.a).getLsbD) ∧
        (r.sub.getLsbD 0 = true → gives (.pset r) fun k => decide (k < (s.x r.a).toNat))) ∧
      (s.IssuesLanes r.sel r.neg [] [] →
        gives (.pand r) (fun k => a k && b k) ∧ gives (.por r) (fun k => a k || b k) ∧ gives (.pxor r) (fun k => a k != b k) ∧
        gives (.pandn r) (fun k => a k && !b k)) ∧
      (s.IssuesLanes r.sel r.neg [] [dx r.d] →
        exec (.pcnt r) s = .next (s.setX r.d (BitVec.ofNat 64 ones.length)).step8 ∧
        exec (.pffs r) s = .next (s.setX r.d (BitVec.ofNat 64 (ones.headD 32))).step8) ∧
      (m = 0 → exec (.pcnt r) s = .next s.step8 ∧ exec (.pffs r) s = .next s.step8) ∧
      (r.d = 0 → ∀ p, (s.setP r.d p).th = s.th))

/-- R76, R110: over the integer types the fixed tree of `VRED` gives the sum modulo 2^32 without `.sat`, and the bitwise
AND, OR and XOR, of the selected lanes, whatever their order; Xd holds the type's extension of it.

R133 to R136: `VSORT` gives a permutation of the selected lanes in order of their keys, equal keys in lane order;
`VTOPK` the first k lanes of the order from the highest key; `VCMPT` the lanes whose key passes the threshold, ascending,
and their count. Here over the integer types. -/
def Obligations.ReductionsAndSelections : Prop :=
  (∀ (s : State) (r : R3), s.IssuesLanes r.sel r.neg [dv r.a] [dx r.d] → (Instr.vred r).wf = true →
      r.vtype = 3 ∨ r.vtype = 7 → r.sat = false →
      let ls := (lanesIn (s.mask r.sel r.neg)).map fun i => vat (s.v r.a) i
      let gives := fun (op : BitVec 9) (v : W32) => r.sub = op →
        ∃ e : Fp, exec (.vred r) s = .next (s.updTh fun c =>
            (c.setX r.d.toNat (if r.vtype = 3 then v.signExtend 64 else v.setWidth 64)).withFp e).step8 ∧
          e.flags = 0 ∧ e.seed = s.th.r.stochseed
      gives 0 (ls.foldl (· + ·) 0) ∧ gives 3 (ls.foldl (· &&& ·) (BitVec.allOnes 32)) ∧ gives 4 (ls.foldl (· ||| ·) 0) ∧
      gives 5 (ls.foldl (· ^^^ ·) 0)) ∧
  (∀ (s : State) (r : R3), r.vtype = 3 ∨ r.vtype = 7 →
      let m := s.mask r.sel r.neg
      let key := fun (i : Nat) => ivalOf (typeSigned r.vtype) 32 (vat (s.v r.a) i).toNat
      let ranked := fun (up : Bool) (abs : Bool) (ps : List Nat) =>
        ps.Perm ((List.range 32).filter m.getLsbD) ∧ ps.Pairwise fun i j =>
          let x : Int := if abs then |key i| else key i
          let y : Int := if abs then |key j| else key j
          (if up then x < y else y < x) ∨ (x = y ∧ i < j)
      (s.IssuesLanes r.sel r.neg [dv r.a] [dv r.d, .v (r.d.toNat + 1)] →
        ((Instr.vsort r).wf = true → r.sub.getLsbD 1 = false → ∃ ps, ranked (!r.sub.getLsbD 0) false ps ∧
          exec (.vsort r) s = .next (s.selectPair r.d (ps.map fun i => (vat (s.v r.a) i, BitVec.ofNat 32 i))).step8) ∧
        ((Instr.vtopk r).wf = true → ∃ ps, ranked false (r.sub.getLsbD 5) ps ∧
          exec (.vtopk r) s = .next (s.selectPair r.d ((ps.take (r.sub.toNat % 32 + 1)).map fun i =>
            (vat (s.v r.a) i, BitVec.ofNat 32 i))).step8)) ∧
      (s.IssuesLanes r.sel r.neg [dv r.a, dv r.b] [dv r.d, .v (r.d.toNat + 1)] → (Instr.vsort r).wf = true →
        r.sub.getLsbD 1 = true → ∃ ps, ranked (!r.sub.getLsbD 0) false ps ∧
          exec (.vsort r) s = .next (s.selectPair r.d (ps.map fun i => (vat (s.v r.a) i, vat (s.v r.b) i))).step8) ∧
      (s.IssuesLanes r.sel r.neg [dv r.a, dx r.b] [dv r.d, .v (r.d.toNat + 1), dx r.c, .x (r.c.toNat + 1)] →
        (Instr.vcmpt r).wf = true →
        let th := ivalOf (typeSigned r.vtype) 32 ((s.x r.b).toNat % 2 ^ 32)
        let pass := (List.range 32).filter fun i => m.getLsbD i && (let k : Int := if r.sub.getLsbD 0 then |key i| else key i
          if r.sub.getLsbD 1 then decide (th ≤ k) else decide (th < k))
        ∃ t, exec (.vcmpt r) s = .next t ∧ t.th.getX r.c.toNat = BitVec.ofNat 64 pass.length ∧
          ∀ k < 32, vat (t.th.getV r.d.toNat) k = (match pass[k]? with | some i => vat (s.v r.a) i | none => 0) ∧
            vat (t.th.getV (r.d.toNat + 1)) k = BitVec.ofNat 32 (pass[k]?.getD 0)))

/-! ### Memory -/

/-- R168, R175, R180, R181: a load that finds its data in the thread's own scratchpad, or in its core's L1 under a lease or
as owner, writes it zero-extended to its register at once; a vector load writes the selected lanes, from consecutive, strided
or indexed addresses. Beside that only the L1's order of use changes, and the streaming hint prefetches: it causes requests,
and walks the tables for translations that the cluster lacks. -/
def Obligations.LoadsThatHit : Prop :=
  ∀ (s : State), s.Calm →
    (∀ (r : FM) (bs : List Byte), s.Issues r.sel r.neg [dx r.base, dx r.idx] [dx r.d] →
      let gives := fun (i : Instr) (size : Nat) => s.holds size (s.eaIndex r) bs →
        ∃ u : State, exec i s = .next (u.setX r.d (wordOf bs)).step8 ∧
          s.loadLeaves u r.hint [s.eaIndex r] (s.ownAddr size (s.eaIndex r))
      (∀ n : BitVec 2, gives (.ld n r) (2 ^ n.toNat)) ∧ (∀ n : BitVec 1, gives (.lda n r) (4 * 2 ^ n.toNat))) ∧
    (∀ (r : FM) (bs : Nat → List Byte),
      let m := s.mask r.sel r.neg
      let gives := fun (i : Instr) (ea : Nat → Word) =>
        (∀ k < 32, m.getLsbD k = true → s.holds 4 (ea k) (bs k)) →
          ∃ (u : State) (l : Lanes), exec i s = .next (u.setV r.d l).step8 ∧
            s.loadLeaves u r.hint ((lanesIn m).map ea) (∀ k < 32, m.getLsbD k = true → s.ownAddr 4 (ea k)) ∧
            ∀ k < 32, vat l k = if m.getLsbD k then (wordOf (bs k)).setWidth 32 else vat (s.v r.d) k
      (s.IssuesLanes r.sel r.neg [dx r.base, dx r.idx] [dv r.d] →
        gives (.ldv r) (fun k => s.x r.base + s.x r.idx * scaleOf r.scale + r.off.signExtend 64 + BitVec.ofNat 64 (4 * k)) ∧
        gives (.ldvs r) (fun k => s.x r.base + r.off.signExtend 64 + BitVec.ofNat 64 k * (s.x r.idx * scaleOf r.scale))) ∧
      (s.IssuesLanes r.sel r.neg [dx r.base, dv r.idx] [dv r.d] →
        gives (.ldvx r) fun k =>
          s.x r.base + r.off.signExtend 64 + (vat (s.v r.idx) k).setWidth 64 * scaleOf r.scale))

/-- R168, R170, R180: a store into the thread's own scratchpad writes its bytes, the lowest first, and every other byte
of the L1 arrays and of memory, every register, every other context and the rest of the package are as before.

R181: a vector store into the thread's own scratchpad writes lane by lane: the bytes of a lane that no higher lane
overlaps hold that lane, and every byte outside the selected lanes is as before. -/
def Obligations.StoresToOwnScratchpad : Prop :=
  (∀ (s : State), s.Calm → ∀ (r : FM), s.Issues r.sel r.neg [dx r.base, dx r.idx] [] →
      let ea := s.x r.base + r.off.signExtend 64
      let gives := fun (i : Instr) (size : Nat) => s.ownAddr size ea →
        ∃ u : State, exec i s = .next u.step8 ∧ s.storesOwn u (s.ownByteAt ea) size (s.x r.idx).toNat
      (∀ n : BitVec 2, gives (.st n r) (2 ^ n.toNat)) ∧ (∀ n : BitVec 1, gives (.stl n r) (4 * 2 ^ n.toNat))) ∧
  (∀ (s : State), s.Calm → ∀ (r : FM),
      let m := s.mask r.sel r.neg
      let gives := fun (i : Instr) (ea : Nat → Word) (v : Lanes) =>
        (∀ k < 32, m.getLsbD k = true → s.ownAddr 4 (ea k)) →
          ∃ u : State, exec i s = .next u.step8 ∧ u = { s with scratch := u.scratch, scratchPoison := u.scratchPoison } ∧
            (∀ k < 32, m.getLsbD k = true → (∀ j < 32, k < j → m.getLsbD j = true → s.ownByteAt (ea j) ≠ s.ownByteAt (ea k)) →
              ∀ j < 4, Mem.read u.scratch (s.ownByteAt (ea k) + j) = (vat v k).extractLsb' (8 * j) 8) ∧
            (∀ a, (∀ k < 32, m.getLsbD k = true → a < s.ownByteAt (ea k) ∨ s.ownByteAt (ea k) + 4 ≤ a) →
              Mem.read u.scratch a = Mem.read s.scratch a) ∧
            (∀ l, u.scratchPoison.contains l = true ↔ s.scratchPoison.contains l = true ∧
              ¬ ∀ o < 128, ∃ k < 32, m.getLsbD k = true ∧ s.ownByteAt (ea k) ≤ l * 128 + o ∧ l * 128 + o < s.ownByteAt (ea k) + 4)
      let base := s.x r.base + r.off.signExtend 64
      (s.IssuesLanes r.sel r.neg [dx r.base, dv r.idx] [] →
        gives (.stv r) (fun k => base + BitVec.ofNat 64 (4 * k)) (s.v r.idx)) ∧
      (s.IssuesLanes r.sel r.neg [dx r.base, dx r.idx, dv r.d] [] →
        gives (.stvs r) (fun k => base + BitVec.ofNat 64 k * (s.x r.idx * scaleOf r.scale)) (s.v r.d)) ∧
      (s.IssuesLanes r.sel r.neg [dx r.base, dv r.idx, dv r.d] [] →
        gives (.stvx r) (fun k => base + (vat (s.v r.idx) k).setWidth 64 * scaleOf r.scale) (s.v r.d)))

/-- R180, R187, R203: a load of cached memory that misses makes its register empty-pending and asks the line's home for
a lease; a store to translated memory is posted: no byte of memory changes yet, and the thread reads its own bytes. (The
streaming hint may walk tables for the lines behind, and a walk reads them at their homes.)

R168, R170, R180, R301: the checks of a scalar load or store, in their order: a misaligned address, one in no window
and one beyond the claim trap with the address as TRAPVAL; where no line of the L1 hits under the address, a page without the right
parks the thread with a PERMISSION fault, and a page without a translation makes it wait for a walk, of which a cluster does
16 at once (R299). -/
def Obligations.MissesPostsAndChecks : Prop :=
  (∀ (s : State), s.Calm → ∀ (r : FM) (n : BitVec 2) (pa : Nat),
      let size := 2 ^ n.toNat
      (s.Issues r.sel r.neg [dx r.base, dx r.idx] [dx r.d] → (Instr.ld n r).wf = true →
        s.mappedAt .load size (s.eaIndex r) pa .cached → s.paKind pa = .memory → s.l1Hit s.myCore (pa / 128) = false →
        ∃ t, exec (.ld n r) s = .next t ∧ t.th.pc = s.th.pc + 8 ∧ (r.d ≠ 0 → t.th.r.fe (dx r.d) = .pending) ∧
          (∃ ds, t.due = ds ++ [⟨.leaseRequest, { k := s.cur, core := s.myCore, id := s.nextId, line := pa / 128
                                                  q := r.hint.toNat, tag := s.tagFor s.cur (s.eaIndex r) }⟩] ∧
            (r.hint ≠ 4 → ds = s.due)) ∧
          t.th.loads.length = 1 ∧ s.sameX t [r.d.toNat] ∧ s.sameV t [] ∧ s.sameP t [] ∧ s.sameModes t ∧ s.sameThread t ∧
          s.sameButCaches t ∧ (r.hint ≠ 4 ∨ s.walkless (streamedLines (s.eaIndex r)) → s.samePackage t ∧ s.sameBytes t)) ∧
      (∀ pol, s.Issues r.sel r.neg [dx r.base, dx r.idx] [] → s.mappedAt .store size (s.eaPlain r) pa pol → pa % size = 0 →
        ∃ t, exec (.st n r) s = .next t ∧ t.th.pc = s.th.pc + 8 ∧ s.sameX t [] ∧ s.sameV t [] ∧ s.sameP t [] ∧ s.sameModes t ∧
          s.sameThread t ∧ s.sameButCaches t ∧
          (r.hint ≠ 4 ∨ s.walkless (streamedLines (s.eaPlain r)) → s.sameOthers t ∧ s.sameBytes t ∧
            ∀ a, a < pa ∨ pa + size ≤ a → t.byteFor s.cur a = s.byteFor s.cur a) ∧
          (∀ j < size, t.byteFor s.cur (pa + j) = (s.x r.idx).extractLsb' (8 * j) 8) ∧
          ∃ p, t.th.stores = [p] ∧ p.line = pa / 128 ∧ t.due ≠ s.due)) ∧
  (∀ (s : State), s.Calm → ∀ (r : FM) (n : BitVec 2),
      let size := 2 ^ n.toNat
      let checks := fun (i : Instr) (acc : Access) (ea : Word) =>
        let traps := fun (c : Cause) => exec i s = .next (s.deliver s.cur c ea s.th.pc)
        (ea.toNat % size ≠ 0 → traps .misalignedData) ∧
        (ea.toNat % size = 0 →
          (2 ^ 48 ≤ ea.toNat ∨ (0xFF0200000000 ≤ ea.toNat ∧ ea.toNat < 0xFFFF00000000) → traps .badVaddr) ∧
          (0xFFFF00000000 ≤ ea.toNat → ea.toNat < 2 ^ 48 → 0xFFFF00000000 + 32768 * s.th.claim.length ≤ ea.toNat →
            traps .scratchRange) ∧
          (ea.toNat < 0xFF0000000000 → s.tagHit s.myCore s.th.asid acc ea.toNat = none →
            (∀ e, s.tlbHit (clusterOf s.myCore) s.th.asid ea.toNat = some e → e.grants acc = false →
              exec i s = .next (s.parkFault s.cur .permission acc ea) ∧
              (s.parkFault s.cur .permission acc ea).th.run = .parked 2) ∧
            (s.tlbHit (clusterOf s.myCore) s.th.asid ea.toNat = none → (s.walkPages (clusterOf s.myCore)).length < 16 →
              ∃ t, exec i s = .next t ∧ t.th.run = .walking ∧ t.th.walk = some ⟨ea, acc⟩ ∧ t.th.pc = s.th.pc ∧ s.sameX t [] ∧
                s.sameV t [] ∧ s.sameBytes t)))
      (s.Issues r.sel r.neg [dx r.base, dx r.idx] [dx r.d] → checks (.ld n r) .load (s.eaIndex r)) ∧
      (s.Issues r.sel r.neg [dx r.base, dx r.idx] [] → checks (.st n r) .store (s.eaPlain r)))

/-- R191 to R193: an atomic on the thread's own scratchpad writes the new value there and sends the old one to its
register; a reduction writes it and returns nothing.

R193: `RED.fadd` adds in FP32, rounded to nearest even.

R192: `AMOV` on distinct words of the thread's own scratchpad: each selected lane's location takes its new value, and
Vd receives the old ones, the other lanes kept. -/
def Obligations.AtomicForms : Prop :=
  (∀ (s : State), s.Calm → ∀ (r : FM),
      let ea := s.x r.base + r.off.signExtend 64
      let b := s.ownByteAt ea
      let cmpSrc := fun (op : Nat) => if op = 9 then [dx r.d] else []
      let new := fun (op w o v : Nat) =>
        match op with
        | 0 => (o + v) % 2 ^ w
        | 1 => o &&& v
        | 2 => o ||| v
        | 3 => o ^^^ v
        | 4 => if ivalOf true w v < ivalOf true w o then v else o
        | 5 => if ivalOf true w o < ivalOf true w v then v else o
        | 6 => min o v
        | 7 => max o v
        | 8 => v
        | _ => if o = (s.x r.d).toNat % 2 ^ w then v else o
      let old := fun (size : Nat) => natOfBytes (Mem.readBytes s.scratch b size)
      s.scratchPoison.contains (b / 128) = false →
        (∀ n : BitVec 7, (Instr.amo n r).wf = true →
          s.Issues r.sel r.neg ([dx r.base, dx r.idx] ++ cmpSrc (n.toNat % 16)) [dx r.d] →
          let size := if n.getLsbD 6 then 8 else 4
          s.ownAddr size ea →
            ∃ u : State, exec (.amo n r) s =
                .next (u.produce s.cur [(r.d.toNat, some (BitVec.ofNat 64 (old size)))] [] 0).step8 ∧
              s.storesOwn u b size (new (n.toNat % 16) (8 * size) (old size) ((s.x r.idx).toNat % 2 ^ (8 * size)))) ∧
        (∀ n : BitVec 6, (Instr.red n r).wf = true → s.Issues r.sel r.neg [dx r.base, dx r.idx] [] →
          let size := if n.getLsbD 4 then 8 else 4
          s.ownAddr size ea →
            ∃ (u : State) (v : Nat), exec (.red n r) s = .next u.step8 ∧ s.storesOwn u b size v ∧
              (∀ op, [(0, 0), (2, 4), (3, 5), (4, 2), (5, 1)].contains (n.toNat % 16, op) = true →
                v = new op (8 * size) (old size) ((s.x r.idx).toNat % 2 ^ (8 * size))) ∧
              (n.toNat % 16 = 1 → size = 4 ∧
                v = ((opAdd 0 (fmtF32.decode (old 4)) (fmtF32.decode ((s.x r.idx).toNat % 2 ^ 32))).put fmtF32 0 false 0).1))) ∧
  (∀ (s : State), s.Calm → s.how ≠ .part → s.th.amov = none → ∀ (r : FM) (n : BitVec 6), (Instr.amov n r).wf = true →
      s.IssuesLanes r.sel r.neg [dx r.base, dv r.idx, dv r.d] [dv r.d] →
      let m := s.mask r.sel r.neg
      let at' := fun (k : Nat) =>
        s.ownByteAt (s.x r.base + r.off.signExtend 64 + (vat (s.v r.idx) k).setWidth 64 * scaleOf r.scale)
      let old := fun (k : Nat) => natOfBytes (Mem.readBytes s.scratch (at' k) 4)
      (∀ k < 32, m.getLsbD k = true →
        s.ownAddr 4 (s.x r.base + r.off.signExtend 64 + (vat (s.v r.idx) k).setWidth 64 * scaleOf r.scale) ∧
        s.scratchPoison.contains (at' k / 128) = false ∧ ∀ j < 32, j ≠ k → m.getLsbD j = true → at' j ≠ at' k) →
      ∃ (u : State) (l : Lanes), exec (.amov n r) s = .next (u.produce s.cur [] [(r.d.toNat, some l)] 0).step8 ∧
        (∀ k < 32, vat l k = if m.getLsbD k then BitVec.ofNat 32 (old k) else vat (s.v r.d) k) ∧
        u = { s with scratch := u.scratch, ctxs := u.ctxs } ∧ (∀ k, u.ctx k = s.ctx k) ∧
        (∀ k < 32, m.getLsbD k = true →
          let v := (vat (s.v r.d) k).toNat
          ∀ w, [(0, (old k + v) % 2 ^ 32), (1, old k &&& v), (2, old k ||| v), (3, old k ^^^ v),
            (4, if ivalOf true 32 v < ivalOf true 32 (old k) then v else old k),
            (5, if ivalOf true 32 (old k) < ivalOf true 32 v then v else old k), (6, min (old k) v),
            (7, max (old k) v), (8, v)].contains (n.toNat % 16, w) = true → natOfBytes (Mem.readBytes u.scratch (at' k) 4) = w) ∧
        ∀ a, (∀ k < 32, m.getLsbD k = true → a < at' k ∨ at' k + 4 ≤ a) → Mem.read u.scratch a = Mem.read s.scratch a)

/-- R184, R189, R190, R204: with no load in flight `FENCE.acq` and `ICSYNC` go on, and `ICSYNC` discards the words that the
thread has fetched; with every earlier access complete and every earlier store visible so do `FENCE.rel` and `FENCE.full`.
Until then `FENCE.full` waits; `FENCE.rel` goes on and holds the thread's later stores back, not its loads.

R195, R196: `WAITEV` on a word that differs from the comparison value returns it, and on an equal one stops the
thread until it is woken; `PREF` completes, faults or not, and changes no register; it asks for lines, and changes a byte only
where a walk of tables brings one home; with a source that is empty-idle it does nothing.
(Of the model's readings it rests on log entries 15, 16, 17, 18 and 154.) -/
def Obligations.FencesWaitsPrefetches : Prop :=
  (∀ (s : State) (r : FM), s.Issues r.sel r.neg [] [] →
      (s.th.loads = [] → exec (.fenceAcq r) s = .next s.step8 ∧
        exec (.icsync r) s = .next (s.updTh fun c => { c with words := [] }).step8) ∧
      (s.th.loads = [] → s.released s.cur = true → s.th.remoteFail = none →
        exec (.fenceRel r) s = .next s.step8 ∧ exec (.fenceFull r) s = .next s.step8) ∧
      (s.th.speculative = false → s.th.remoteFail = none → s.remoteStores s.cur s.nextId = false →
        s.releasedTo s.cur s.nextId = false → s.th.loads.all (fun q => !q.acq) = true →
        ∃ t, exec (.fenceRel r) s = .next t ∧ t = (s.updTh fun c => { c with fence := some s.nextId }).step8 ∧
          t.heldBack true = true ∧ t.heldBack false = false) ∧
      (s.th.loads ≠ [] → ∃ t, exec (.fenceAcq r) s = .next t ∧ t.th.pc = s.th.pc ∧ t.stalled = true ∧ s.sameX t [] ∧
        s.sameOthers t ∧ s.sameBytes t) ∧
      (s.th.loads = [] → s.th.speculative = false → s.released s.cur = false →
        ∃ t, exec (.fenceFull r) s = .next t ∧ t.th.run = .release ∧ t.th.pc = s.th.pc ∧ s.sameX t [] ∧ s.sameOthers t ∧
          s.sameBytes t)) ∧
  (∀ (s : State),
      (∀ (r : FM) (bs : List Byte), s.Calm → s.Issues r.sel r.neg [dx r.base, dx r.idx] [dx r.d] → (Instr.waitev r).wf = true →
        let size := 2 ^ r.scale.toNat
        s.holds size (s.x r.base + r.off.signExtend 64) bs →
          (natOfBytes bs ≠ (s.x r.idx).toNat % 2 ^ (8 * size) →
            ∃ u : State, exec (.waitev r) s = .next (u.setX r.d (wordOf bs)).step8 ∧
              s.loadLeaves u 0 [] (s.ownAddr size (s.x r.base + r.off.signExtend 64))) ∧
          (natOfBytes bs = (s.x r.idx).toNat % 2 ^ (8 * size) → s.th.woken = false →
            ∃ t line, exec (.waitev r) s = .next t ∧ t.th.run = .waitev line ∧ t.th.pc = s.th.pc ∧ s.sameX t [] ∧ s.sameV t [] ∧
              s.sameP t [] ∧ s.sameThread t ∧ s.sameButCaches t ∧ s.samePackage t ∧ s.sameBytes t)) ∧
      (∀ r : FM, s.Issues r.sel r.neg [dx r.base, dx r.idx] [] →
        ∃ u : State, exec (.pref r) s = .next u.step8 ∧ u.th = s.th ∧ s.sameButCaches u ∧
          (s.walkless (s.eaIndex r :: if r.hint = 4 then streamedLines (s.eaIndex r) else []) → u = { s with due := u.due })) ∧
      (∀ r : FM, (∀ q ∈ [dx r.base, dx r.idx], s.th.r.fe q ≠ .pending) → (∃ q ∈ [dx r.base, dx r.idx], s.th.r.fe q = .idle) →
        exec (.pref r) s = .next s.step8))

/-- R170, R171: `SPCLAIM` takes the lowest free ways of the core's L1 while one way stays a cache, fills them with zeros
and returns the new size of the claim; `SPREL` returns the size that remains. Both wait while an earlier `SPREL` of the
thread has still to give its ways up.

R176, R177: `RETAIN` of a range of a page takes the lowest free retention register of the range's home die, with its counters
at 0, and returns its number; of its ways, the lowest free ones of the partition's share, no slice of the die keeps a line of
other addresses; `UNPIN` of the base frees the register and returns 0. (Of the model's readings it rests on log entries 30, 117 and 155.) -/
def Obligations.ClaimsAndRetention : Prop :=
  (∀ (s : State) (r : RI), s.Issues r.sel r.neg [] [dx r.d] →
      let n := r.imm.toNat % 8
      let free := (s.core s.myCore).freeWays
      let quiet := ∀ q ∈ s.th.results, q.ways = 0
      (quiet → 8 - free.length + n ≤ 7 → (∀ e ∈ (s.core s.myCore).lines, e.spec = none) →
        ∃ u : State, exec (.spclaim r) s = .next (u.produce s.cur [(r.d.toNat, some (BitVec.ofNat 64 (32768 * (s.th.claim.length + n))))] [] 0).step8 ∧
          u.th = { s.th with claim := s.th.claim ++ free.take n } ∧
          (∀ w < 8, vat (u.core s.myCore).ways w =
            if (free.take n).contains w then .scratch s.cur else vat (s.core s.myCore).ways w) ∧
          (∀ w < 8, ∀ o < 32768, Mem.read u.scratch (s.myCore * 2 ^ 18 + w * 32768 + o) =
            if (free.take n).contains w then 0 else Mem.read s.scratch (s.myCore * 2 ^ 18 + w * 32768 + o)) ∧
          (∀ a, Mem.read u.mem a = Mem.read s.mem a)) ∧
      (quiet → 7 < 8 - free.length + n →
        exec (.spclaim r) s = .next (s.produce s.cur [(r.d.toNat, some (0x8000000000000001 : Word))] [] 0).step8) ∧
      (¬quiet → ∀ i ∈ [Instr.spclaim r, .sprel r], ∃ t, exec i s = .next t ∧ t.stalled = true ∧ t.th.pc = s.th.pc ∧ t.th.r = s.th.r ∧
        s.sameThread t ∧ s.sameOthers t ∧ s.sameBytes t) ∧
      (s.th.results = [] → n ≤ s.th.claim.length →
        ∃ t, exec (.sprel r) s = .next t ∧ t.th.pc = s.th.pc + 8 ∧ t.th.claim = s.th.claim ∧ (r.d ≠ 0 → t.th.r.fe (dx r.d) = .pending) ∧
          t.th.results = [⟨s.nextId, [(r.d.toNat, some (BitVec.ofNat 64 (32768 * (s.th.claim.length - n))))], [], 0, n, [], none⟩] ∧
          s.sameV t [] ∧ s.sameP t [] ∧ s.sameOthers t ∧ s.sameBytes t)) ∧
  (∀ (s : State) (r : FM) (pa : Nat) (pol : Policy) (i : Nat),
      let va := s.x r.base + r.off.signExtend 64
      let d := homeDie pa
      let regs := (s.die d).retention
      let p := (s.space s.th.asid.toNat).partition.toNat
      let mask := (vat s.parts p).l2mask
      regionOf va = .translated → s.pagedAt .load va pa pol → s.paKind pa = .memory → i < 8 →
      (s.Issues r.sel r.neg [dx r.base, dx r.idx] [dx r.d] →
        let len := (s.x r.idx).toNat % 2 ^ 32
        let w := (s.x r.idx).toNat / 2 ^ 32
        let held := regs.toList.filterMap id
        va.toNat % 128 = 0 → len % 128 = 0 → len ≠ 0 → 1 ≤ w → w ≤ 8 → va.toNat + len ≤ (s.pageOf va.toNat).2 →
        oneHome pa len = true → vat regs i = none → (∀ j < i, vat regs j ≠ none) →
        held.foldl (fun n q => n + q.ways.length) 0 + w ≤ 8 → s.partWays d p + w ≤ popCount 16 mask.toNat →
        (∀ q ∈ held, q.base + q.len ≤ pa ∨ pa + len ≤ q.base) →
        let free := (List.range 16).filter fun x => mask.getLsbD x && held.all fun q => !q.ways.contains x
        w ≤ free.length → (∀ e ∈ (s.die d).slices, ∀ x ∈ e.2, x.spec = none) →
        let q : Retention := ⟨s.th.asid, pa, len, free.take w⟩
        ∃ u : State, exec (.retain r) s = .next ((u.produce s.cur [(r.d.toNat, some (BitVec.ofNat 64 (d * 8 + i)))] [] 0).step8) ∧
          u.th = s.th ∧ s.sameBytes u ∧ s.sameUnits u ∧ u.dirs = s.dirs ∧ u.cores = s.cores ∧ u.clusters = s.clusters ∧
          (∀ j < 4, u.die j = if j = d then { s.die d with
            retention := vput regs i (some q), retAsid := vput (s.die d).retAsid i s.th.asid, rethit := vput (s.die d).rethit i 0
            retmiss := vput (s.die d).retmiss i 0, slices := (u.die d).slices } else s.die j) ∧
          (∀ sl < 64, ∀ e ∈ u.slice d sl, e.spec = none → q.ways.contains e.way = true → q.holds e.line = true)) ∧
      (s.Issues r.sel r.neg [dx r.base] [dx r.d] →
        (∃ q, vat regs i = some q ∧ q.base = pa ∧ q.asid = s.th.asid) →
        (∀ j < i, ∀ q, vat regs j = some q → ¬(q.base = pa ∧ q.asid = s.th.asid)) →
        exec (.unpin r) s = .next ((s.updDie d fun v => { v with retention := vput v.retention i none }).setX r.d 0).step8))

/-- R197: `FEWAIT`, `FESET` and `FECLR` wait while a register named is empty-pending; `FEWAIT` then traps EMPTY_READ with the
lowest register named that is empty-idle, and goes on when there is none; `FESET` and `FECLR` make every register named full
or empty and leave its value. A nonzero operand field and a mask of X registers that names X0 trap RESERVED_FIELD. (Of the model's
readings it rests on log entry 29.) -/
def Obligations.FullEmptyInstructions : Prop :=
  (∀ (s : State) (r : RI), s.Issues r.sel r.neg [] [] →
    let named := fun (q : RegRef) => match q with
      | .x n => r.imm.getLsbD 32 = false ∧ r.imm.getLsbD n = true
      | .v n => r.imm.getLsbD 32 = true ∧ r.imm.getLsbD n = true
    let all := (List.range 32).map RegRef.x ++ (List.range 32).map RegRef.v
    let reg := fun (n : Nat) => if r.imm.getLsbD 32 then RegRef.v n else RegRef.x n
    let sets := fun (i : Instr) (f : Fe) =>
      ∃ t, exec i s = .next t ∧ t.th.pc = s.th.pc + 8 ∧
        (∀ q ∈ all, (named q → q ≠ .x 0 → t.th.r.fe q = f) ∧ (¬named q → t.th.r.fe q = s.th.r.fe q)) ∧
        (∀ n < 32, t.th.getX n = s.th.getX n ∧ t.th.getV n = s.th.getV n) ∧ s.sameP t [] ∧ s.sameModes t ∧
        s.sameThread t ∧ s.sameOthers t ∧ s.sameBytes t
    let waits := fun (i : Instr) =>
      ∃ t, exec i s = .next t ∧ t.stalled = true ∧ t.th.pc = s.th.pc ∧ t.th.r = s.th.r ∧ s.sameThread t ∧ s.sameOthers t ∧ s.sameBytes t
    ((∀ q ∈ all, named q → s.th.r.fe q = .full) → exec (.fewait r) s = .next s.step8) ∧
    ((∀ q ∈ all, named q → s.th.r.fe q ≠ .pending) → sets (.feset r) .full ∧ sets (.feclr r) .idle ∧
      ∀ n < 32, named (reg n) → s.th.r.fe (reg n) = .idle → (∀ m < n, named (reg m) → s.th.r.fe (reg m) = .full) →
        exec (.fewait r) s = .next (s.deliver s.cur .emptyRead (BitVec.ofNat 64 (reg n).num) s.th.pc)) ∧
    (s.th.tx = none → (∃ q ∈ all, named q ∧ s.th.r.fe q = .pending) → waits (.fewait r) ∧ waits (.feset r) ∧ waits (.feclr r))) ∧
  (∀ (r : RI), ∀ i ∈ [Instr.fewait r, .feset r, .feclr r],
      let good := r.d = 0 ∧ r.a = 0 ∧ r.am = 0 ∧ ¬(r.imm.getLsbD 32 = false ∧ r.imm.getLsbD 0 = true)
      (good → decode (encode i) = .instr i) ∧ (¬good → decode (encode i) = .reservedField))

/-! ### Tiles and transactions -/

/-- R55, R199, R208, R209: `TILEDEF` of a well-formed record, when no home keeps anything for a tile and no transaction
runs, declares the lines of its rows as the lowest free tile, whose number it returns; `TILEREL` of a tile of the
thread's address space makes it a tile no longer. (Of the model's readings it rests on log entry 97.) -/
def Obligations.TilesAreDeclared : Prop :=
  ∀ (s : State), s.Calm → s.dirs = [] → (∀ e ∈ s.ctxs, e.2.tx = none) →
    (∀ (r : FM) (q : Shape) (phys : Nat → Nat) (n : Nat), s.Ready [dx r.base] [dx r.d] →
      let ea := s.x r.base + r.off.signExtend 64
      let w := fun (i : Nat) => natOfBytes (Mem.readBytes s.scratch (s.ownByteAt (ea + BitVec.ofNat 64 (8 * i))) 8)
      ea.toNat % 32 = 0 → (∀ i < 4, s.ownAddr 8 (ea + BitVec.ofNat 64 (8 * i)) ∧
        s.scratchPoison.contains (s.ownByteAt (ea + BitVec.ofNat 64 (8 * i)) / 128) = false) →
      w 0 = q.base → w 1 = q.rows + q.rowbytes * 2 ^ 32 → w 2 = q.pitch → w 3 = 0 →
      q.base % 128 = 0 → 1 ≤ q.rows → q.rows ≤ 4096 → 128 ≤ q.rowbytes → q.rowbytes ≤ 8192 → q.rowbytes % 128 = 0 →
      q.pitch % 128 = 0 → q.rowbytes ≤ q.pitch → q.rows * q.rowbytes ≤ 2 ^ 20 →
      q.base + (q.rows - 1) * q.pitch + q.rowbytes ≤ 0xFF0000000000 →
      let addrs := (List.range q.rows).flatMap fun i => (List.range (q.rowbytes / 128)).map fun j => q.base + i * q.pitch + 128 * j
      (∀ a ∈ addrs, (∃ pol, s.pagedAt .load (BitVec.ofNat 64 a) (phys a) pol) ∧ s.paKind (phys a) = .memory ∧
        4096 ≤ s.tileOf (phys a / 128)) →
      n < 4096 → Tbl.get? s.tiles n = none → (∀ j < n, Tbl.get? s.tiles j ≠ none) →
      ∃ (u : State) (e : TileEntry), exec (.tiledef r) s =
          .next (u.produce s.cur [(r.d.toNat, some (BitVec.ofNat 64 n))] [] 0).step8 ∧
        Tbl.get? u.tiles n = some e ∧ (∀ j, j ≠ n → Tbl.get? u.tiles j = Tbl.get? s.tiles j) ∧ e.asid = s.th.asid ∧
        (∀ l, l ∈ e.lines ↔ ∃ a ∈ addrs, phys a / 128 = l) ∧ e.rows = q.rows ∧ e.rowbytes = q.rowbytes ∧ e.pitch = q.pitch ∧
        u.ctxs = s.ctxs ∧ u.mem = s.mem ∧ u.scratch = s.scratch) ∧
    (∀ (r : RI) (e : TileEntry), s.Ready [dx r.a] [dx r.d] → (s.x r.a).toNat < 4096 →
      Tbl.get? s.tiles (s.x r.a).toNat = some e → e.asid = s.th.asid →
      ∃ u : State, exec (.tilerel r) s = .next (u.produce s.cur [(r.d.toNat, some 0)] [] 0).step8 ∧
        Tbl.get? u.tiles (s.x r.a).toNat = none ∧
        (∀ j, j ≠ (s.x r.a).toNat → Tbl.get? u.tiles j = Tbl.get? s.tiles j) ∧ u.ctxs = s.ctxs ∧ u.mem = s.mem ∧
        u.scratch = s.scratch)

/-- R210, R211, R217, R218: `TXB` at DEPTH 0, with no result on its way, begins a transaction with the registers as its
checkpoint and its age from GT or, after an abort, from the transaction before; inside one it adds to DEPTH, and at 7
aborts a speculative one with cause nest; `TXQ` reads TXSTAT and `txq.clr` clears it.
(Of the model's readings it rests on log entry 39.) -/
def Obligations.TransactionsBegin : Prop :=
  ∀ (s : State) (r : FB),
    let h := s.th.pc + r.off.signExtend 64 * 8
    let st := s.th.txstat
    h.toNat % 8 = 0 →
      (st.depth = 0 → s.th.producing = false → (r.cond ≠ 1 ∨ st.keepage = false ∨ (st.capcount.toNat < 2 ∧ st.aborts.toNat < 8)) →
        ∃ t x, exec (.txb r) s = .next t ∧ t.th.pc = s.th.pc + 8 ∧ t.th.tx = some x ∧ x.handler = some h ∧ x.ckpt = s.th.r ∧
          x.reads = [] ∧ x.writes = [] ∧ x.reds = [] ∧ x.spec = [] ∧ x.partials = [] ∧ x.held = [] ∧
          t.th.txstat.depth = 1 ∧ t.th.txstat.irrev = st.irrev ∧ t.th.txstat.keepage = false ∧
          t.th.txage = (if st.keepage then s.th.txage else s.gtOf s.myDie) ∧
          t.th.txstat.aborts = (if st.keepage then st.aborts else 0) ∧ t.th.r = s.th.r ∧ s.sameOthers t ∧ s.sameBytes t) ∧
      (st.depth ≠ 0 → st.depth ≠ 7 → ∃ t, exec (.txb r) s = .next t ∧ t.th.pc = s.th.pc + 8 ∧
        t.th.txstat = { st with depth := st.depth + 1 } ∧ t.th.tx = s.th.tx ∧ t.th.r = s.th.r ∧ s.sameOthers t ∧ s.sameBytes t) ∧
      (st.depth = 7 → st.irrev = false → exec (.txb r) s = .next (s.startAbort s.cur ⟨6, 0, .handler⟩)) ∧
      (∀ q : RI, s.Ready [] [dx q.d] →
        let b := fun (x : Bool) => if x then 1 else 0
        let word : Word := BitVec.ofNat 64 (st.depth.toNat + 2 ^ 5 * b st.irrev + 2 ^ 6 * b st.keepage + 2 ^ 8 * st.cause.toNat +
          2 ^ 12 * st.capcount.toNat + 2 ^ 16 * st.aborts.toNat + 2 ^ 40 * st.expcode.toNat)
        exec (.txq q) s = .next (s.setX q.d word).step8 ∧
        (st.depth = 0 → exec (.txqClr q) s = .next ((s.setX q.d word).updTh fun c =>
          { c with txstat := { st with keepage := false, aborts := 0, capcount := 0, cause := 0, expcode := 0 } }).step8) ∧
        (st.depth ≠ 0 → exec (.txqClr q) s = .next (s.deliver s.cur .txState 6 s.th.pc)))

/-- R215, R217, R220: `TXE` inside a nested transaction subtracts from DEPTH; of the outermost one it asks every registered
tile's home to prepare, and under the token ends it at once; `TXA` aborts with cause explicit and its code: the registers
are the checkpoint's, the pc is the handler, and nothing that the transaction wrote is visible.

R216: `TXRED` in a speculative transaction, on a tile that it has registered for reductions, holds its contribution;
outside a transaction it traps TX_STATE. (Of the model's readings it rests on log entries 40 and 41.) -/
def Obligations.TransactionsEndAndReduce : Prop :=
  (∀ (s : State) (r : RI) (x : Tx) (h : Word), s.th.tx = some x → x.handler = some h →
      let st := s.th.txstat
      (2 ≤ st.depth.toNat → ∃ t, exec (.txe r) s = .next t ∧ t.th.pc = s.th.pc + 8 ∧ t.th.txstat = { st with depth := st.depth - 1 } ∧
        t.th.tx = some x ∧ t.th.r = s.th.r ∧ s.sameOthers t ∧ s.sameBytes t) ∧
      (st.depth = 1 → s.th.loads = [] → s.released s.cur = true → s.th.remoteFail = none →
        (st.irrev = false → ∃ t, exec (.txe r) s = .next t ∧ t.th.run = .committing ∧ t.th.pc = s.th.pc ∧ t.th.r = s.th.r ∧
          s.sameBytes t ∧ (∀ k, k ≠ s.cur → t.ctx k = s.ctx k) ∧
          (x.tiles ≠ [] → t.due = s.due ++ x.tiles.map fun n => ⟨.prepare, { k := s.cur, id := n }⟩)) ∧
        (st.irrev = true → ∃ t, exec (.txe r) s = .next t ∧ t.th.pc = s.th.pc + 8 ∧ t.th.tx = none ∧ t.th.r = s.th.r ∧
          t.th.txstat.depth = 0 ∧ t.th.txstat.irrev = false ∧ (s.tokenHolder = some s.cur → t.tokenHolder = none) ∧
          s.sameBytes t ∧ (∀ k, k ≠ s.cur → t.ctx k = s.ctx k))) ∧
      (st.depth ≠ 0 → st.irrev = false → s.settled s.cur = true → x.held = [] → s.th.abort = none →
        ∃ t, exec (.txa r) s = .next t ∧ t.th.r = x.ckpt ∧ t.th.pc = h ∧ t.th.run = .running ∧ t.th.tx = none ∧
          t.th.txstat.depth = 0 ∧ t.th.txstat.cause = 3 ∧ t.th.txstat.expcode = r.imm.extractLsb' 0 8 ∧
          t.th.txstat.keepage = true ∧ (∀ n, x.tiles.contains n = false → t.dir n = s.dir n) ∧
          (∀ n, x.tiles.contains n = true → t.dir n = ({ s.dir n with many := (t.dir n).many }).forget s.cur ∧
            ((t.dir n).many.isSome = true ↔ s.unslotted n s.cur ≠ [])) ∧
          s.sameBytes t ∧ ∀ k, k ≠ s.cur → t.ctx k = s.ctx k) ∧
      (st.depth ≠ 0 → st.irrev = true → exec (.txa r) s = .next (s.deliver s.cur .txState 1 s.th.pc))) ∧
  (∀ (s : State) (r : FM), s.Ready [dx r.base, dx r.idx] [] →
      (s.th.txstat.depth = 0 → exec (.txred r) s = .next (s.deliver s.cur .txState 4 s.th.pc)) ∧
      (∀ (x : Tx) (pa : Nat) (pol : Policy),
        let size := if r.d.getLsbD 3 then 8 else 4
        s.th.tx = some x → s.th.speculative = true → s.th.loads = [] → s.th.fence = none → s.th.reds = [] → s.palCopies = [] →
        s.dead = [] → s.mappedAt .atomic size (s.x r.base + r.off.signExtend 64) pa pol → s.paKind pa = .memory →
        x.reds.contains (s.tileOf (pa / 128), r.d.toNat % 8) = true → x.writes.contains (s.tileOf (pa / 128)) = false →
        ∃ t y p, exec (.txred r) s = .next t ∧ t.th.pc = s.th.pc + 8 ∧ t.th.tx = some y ∧ y = { x with partials := x.partials ++ [p] } ∧
          p.pa = pa ∧ p.k = s.cur ∧ p.op = r.d.toNat % 8 ∧ p.det = r.d.getLsbD 4 ∧ p.val = s.x r.idx ∧
          p.dword = r.d.getLsbD 3 ∧ t.th.r = s.th.r ∧ s.sameOthers t ∧ s.sameBytes t))

/-! ### Engines and queue registers -/

/-- R119, R220, R225, R232, R233: an engine word whose view has room, behind no access or fence that orders it, pushes its
command, with the operands as they stand
in the registers and bound to its guard, and causes the engine to look at the view; inside a speculative transaction a
command that can be held is held; a `QW` of the same word does the same (R229). No register and no byte changes.

R225: a push into a full view waits, and traps GUARD_DEADLOCK when its oldest command waits for a pending guard. -/
def Obligations.CommandsAreQueued : Prop :=
  (∀ (s : State) (i : Instr) (q fn : Nat) (holdable : Bool) (r : FQ), i.command = some (q, fn, holdable, r) → i.wf = true →
      (vat s.th.cmds q).length < 8 → s.heldBack true = false → (∀ x, s.th.tx = some x → x.held.length < 16) →
      let g := vat s.th.r.guards r.guard.toNat
      let hold := holdable && s.th.speculative
      let pushes := fun (out : Out) => ∃ t c, out = .next t ∧ t.th.pc = s.th.pc + 8 ∧
        vat t.th.cmds q = vat s.th.cmds q ++ [c] ∧ (∀ p < 12, p ≠ q → vat t.th.cmds p = vat s.th.cmds p) ∧
        c.fn = fn ∧ c.cmd = r.cmd ∧ c.a = s.x r.a ∧ c.b = s.x r.b ∧ c.c = s.x r.c ∧ c.held = hold ∧ c.started = false ∧
        c.bound = (if r.guarded = 0 ∨ g = .yes then .free else if g = .no then .discarded else .heldOn r.guard.toNat) ∧
        (hold = false → t.th.tx = s.th.tx ∧ t.due = s.due ++ [⟨.engineCommandStart, { k := s.cur, q := q }⟩]) ∧
        (hold = true → t.due = s.due ∧ t.th.tx = s.th.tx.map fun x => { x with held := x.held ++ [.cmd q c.id] }) ∧
        s.sameX t [] ∧ s.sameV t [] ∧ s.sameP t [] ∧ s.sameModes t ∧ s.sameButQueues t ∧ s.sameOthers t ∧ s.sameBytes t
      (s.Issues r.sel r.neg [dx r.a, dx r.b, dx r.c] [] → pushes (exec i s)) ∧
      (∀ w : FQ, s.Issues w.sel w.neg [dx w.a] [] → s.full [dx r.a, dx r.b, dx r.c] → w.q = r.q → r.sel = 0 → r.neg = 0 →
        s.x w.a = encode i → pushes (exec (.qw w) s))) ∧
  (∀ (s : State) (i : Instr) (q fn : Nat) (holdable : Bool) (r : FQ), i.command = some (q, fn, holdable, r) →
      s.Issues r.sel r.neg [dx r.a, dx r.b, dx r.c] [] → ∀ (c : Cmd) (cs : List Cmd), vat s.th.cmds q = c :: cs → 7 ≤ cs.length →
      (s.heldBack true = false → (∃ g, c.bound = .heldOn g) → exec i s = .next (s.deliver s.cur .guardDeadlock (BitVec.ofNat 64 q) s.th.pc)) ∧
      (s.heldBack true = true ∨ (∀ g, c.bound ≠ .heldOn g) → ∃ t, exec i s = .next t ∧ t.stalled = true ∧ t.th.pc = s.th.pc ∧ t.th.cmds = s.th.cmds ∧
        s.sameX t [] ∧ s.sameV t [] ∧ s.sameOthers t ∧ s.sameBytes t))

/-- R243: `KICK` of a descriptor pushes its command, with an own-window source named through the remote window, and its
status register becomes empty-pending; a source or descriptor that is not one gives the status 6.

R245: with no command ahead in its view `kack.open` gives the thread a landing ring of lines of its claim; `KACK` of a landed
notice of the ring marks its lines acknowledged, frees the oldest acknowledged ones, which may let the next notice land, and
sends the acknowledgement; `kack.close` ends an idle ring. Behind commands that have still to start, or on a pending guard,
each is pushed as a command, and a full view makes it wait. (Of the model's readings it rests on log entries 48, 49 and 111.) -/
def Obligations.KicksAndRings : Prop :=
  (∀ (s : State) (r : FQ), s.Issues r.sel r.neg [dx r.a, dx r.b, dx r.c] [dx r.c] →
      let a := (s.x r.a).toNat
      let b := (s.x r.b).toNat
      let len := b / 2 ^ 32 % 2 ^ 17
      let source := a % 4 = 0 ∧ (a < 0xFF0000000000 ∨ (0xFFFF00000000 ≤ a ∧ a < 2 ^ 48))
      let desc := b < 2 ^ 49 ∧ b / 2 ^ 15 % 2 = 0 ∧ len % 4 = 0 ∧ 4 ≤ len ∧ len ≤ 65536
      (source → desc → (vat s.th.cmds 2).length < 8 → s.th.speculative = false → s.heldBack true = false →
        ∃ t c, exec (.kick r) s = .next t ∧ t.th.pc = s.th.pc + 8 ∧ vat t.th.cmds 2 = vat s.th.cmds 2 ++ [c] ∧ c.fn = 3 ∧
          c.a.toNat = (if a < 0xFF0000000000 then a
            else 0xFF0000000000 + s.myCore * 2 ^ 21 + s.cur % 8 * 2 ^ 18 + (a - 0xFFFF00000000) % 2 ^ 18) % 2 ^ 64 ∧
          c.b = s.x r.b ∧ c.reg = r.c.toNat ∧ (r.c ≠ 0 → t.th.r.fe (dx r.c) = .pending) ∧
          (r.c.toNat < 32 → s.sameX t [r.c.toNat]) ∧ s.sameV t [] ∧ s.sameP t [] ∧ s.sameModes t ∧ s.sameButQueues t ∧
          s.sameOthers t ∧ s.sameBytes t) ∧
      (¬(source ∧ desc) → exec (.kick r) s = .next (s.produce s.cur [(r.c.toNat, some 6)] [] 0).step8)) ∧
  (∀ (s : State) (r : FQ), s.Issues r.sel r.neg [dx r.a, dx r.b, dx r.c] [] → s.heldBack true = false →
      let a := (s.x r.a).toNat
      let b := (s.x r.b).toNat
      let first := vat s.th.cmds 2 = []
      let free := r.guarded = 0 ∨ vat s.th.r.guards r.guard.toNat = .yes
      (first → free → a % 128 = 0 → b % 128 = 0 → 128 ≤ b → a + b ≤ 32768 * s.th.claim.length → s.th.ring = none →
        exec (.kackOpen r) s = .next (s.updTh fun c => { c with ring := some ⟨a, b, 0, []⟩ }).step8) ∧
      ((a % 128 ≠ 0 ∨ b % 128 ≠ 0 ∨ b < 128 ∨ 32768 * s.th.claim.length < a + b) →
        exec (.kackOpen r) s = .next (s.deliver s.cur .kickOperand 1 s.th.pc)) ∧
      (first → s.th.ring.isSome = true → a % 128 = 0 → b % 128 = 0 → 128 ≤ b → a + b ≤ 32768 * s.th.claim.length →
        exec (.kackOpen r) s = .next (s.deliver s.cur .kickOperand 2 s.th.pc)) ∧
      (∀ (g : Ring) (as : List Alloc) (x : Alloc) (bs : List Alloc), first → free → s.th.ring = some g → g.allocs = as ++ x :: bs →
        x.token = some (s.x r.a) → x.acked = false → (∀ y ∈ as ++ bs, y.token ≠ some (s.x r.a)) →
        ∃ t, exec (.kack r) s = .next t ∧ t.th.pc = s.th.pc + 8 ∧
          t.th.ring = some { g with allocs := (as ++ { x with acked := true } :: bs).dropWhile (·.acked) } ∧
          Tbl.get? t.msgs s.nextId = some (.ack x.notice.k x.notice.id
            (BitVec.ofNat 64 (3 * 2 ^ 16 + r.cmd.toNat % 256 * 2 ^ 24 + x.notice.tag.toNat * 2 ^ 32))) ∧
          (∃ fs, t.due = s.due ++ ⟨.kickAck, { id := s.nextId }⟩ :: fs) ∧ ⟨.noticeFetch, { core := s.myCore }⟩ ∈ t.due ∧
          t.th.r = s.th.r ∧ s.sameBytes t ∧ ∀ k, k ≠ s.cur → t.ctx k = s.ctx k) ∧
      (∀ (g : Ring) (x : Alloc) (c : Cmd) (cs : List Cmd), s.th.ring = some g → x ∈ g.allocs → x.token = some (s.x r.a) →
        x.acked = false → vat s.th.cmds 2 = c :: cs → cs.length < 7 → c.fn < 3 →
        (∀ m ∈ c :: cs, ¬(m.fn = 4 ∧ m.a = s.x r.a)) →
        ∃ t m, exec (.kack r) s = .next t ∧ t.th.pc = s.th.pc + 8 ∧ vat t.th.cmds 2 = c :: cs ++ [m] ∧ m.fn = 4 ∧ m.cmd = r.cmd ∧
          m.a = s.x r.a ∧ m.bound = (if free then .free else if vat s.th.r.guards r.guard.toNat = .no then .discarded
            else .heldOn r.guard.toNat) ∧ t.th.ring = s.th.ring ∧ t.th.r = s.th.r ∧ s.sameOthers t ∧ s.sameBytes t) ∧
      (8 ≤ (vat s.th.cmds 2).length → (∀ m ∈ (vat s.th.cmds 2).head?, m.onGuard = false) →
        ∃ t, exec (.kackClose r) s = .next t ∧ t.stalled = true ∧ t.th.pc = s.th.pc ∧ t.th.ring = s.th.ring ∧ t.th.r = s.th.r ∧
          s.sameOthers t ∧ s.sameBytes t) ∧
      (first → free → (∀ g, s.th.ring = some g → g.allocs = []) →
        ∃ t, exec (.kackClose r) s = .next t ∧ t.th.pc = s.th.pc + 8 ∧ t.th.ring = none ∧ t.th.r = s.th.r ∧ s.sameBytes t ∧
          ∀ k, k ≠ s.cur → t.ctx k = s.ctx k))

/-- R226, R230, R237: a pop takes the oldest element that waits and that no earlier pop waits for, which may let the next
notice or receive record come in; with none its register becomes empty-pending, always so for Q9, Q10 and Q11, and with no
command that owes one to Q1, Q3, Q5 or Q7 it traps QUEUE_UNDERRUN, and GUARD_DEADLOCK when each of those that owe one is held
by a pending guard or by the thread's own transaction. A fifth pop waits (R35).

R224, R231, R232: `QSTAT` reads a view's free entries or waiting elements and its count, for Q10 of the records owed and
waiting, at most 15, with the inbox of the core; `GSET` sets a guard to
whether Xa is not 0 and binds the commands held on it; `GCLR` makes it pending; `GQ` reads it. (Of the model's readings it rests
on log entry 121.) -/
def Obligations.PopsGuardsStatus : Prop :=
  (∀ (s : State) (r : RI),
      let q := r.imm.toNat % 16
      let toV := r.imm.getLsbD 4
      (s.th.pops.length = 4 → (if toV then s.Issues r.sel r.neg [] [dv r.d] else s.Issues r.sel r.neg [] [dx r.d]) →
        ∃ t, exec (.qr r) s = .next t ∧ t.th.pc = s.th.pc ∧ t.stalled = true ∧ t.th.pops = s.th.pops ∧ t.th.r = s.th.r ∧
          s.sameOthers t ∧ s.sameBytes t) ∧
      (s.th.pops = [] →
      (toV = false → s.Issues r.sel r.neg [] [dx r.d] →
        (∀ e es, q ≠ 5 → q < 12 → vat s.th.elems q = e :: es →
          let u := s.updTh fun c => { c.setX r.d.toNat e with elems := vput c.elems q es }
          (q ≠ 9 ∨ Tbl.get? s.ote.held s.cur = none → q ≠ 10 → exec (.qr r) s = .next u.step8) ∧
          (q = 10 → exec (.qr r) s = .next (u.causeOnce .noticeFetch { core := s.myCore }).step8) ∧
          (∀ x xs, q = 9 → es.length < 16 → Tbl.get? s.ote.held s.cur = some ⟨x :: xs, false⟩ →
            ∃ t, exec (.qr r) s = .next t ∧ t.th.pc = s.th.pc + 8 ∧ t.th.getX r.d.toNat = (if r.d = 0 then 0 else e) ∧
              vat t.th.elems 9 = es ++ [x] ∧ Tbl.get? t.ote.held s.cur = (if xs = [] then none else some ⟨xs, false⟩))) ∧
        (q < 9 → q ≠ 5 → vat s.th.elems q = [] → vat s.th.cmds (pushOf q) = [] →
          exec (.qr r) s = .next (s.deliver s.cur .queueUnderrun (BitVec.ofNat 64 q) s.th.pc)) ∧
        (q < 9 → q ≠ 5 → vat s.th.elems q = [] → vat s.th.cmds (pushOf q) ≠ [] →
          (∀ c ∈ vat s.th.cmds (pushOf q), c.onGuard = true ∨ c.held = true) →
          exec (.qr r) s = .next (s.deliver s.cur .guardDeadlock (BitVec.ofNat 64 q) s.th.pc)) ∧
        (q < 9 → q ≠ 5 → vat s.th.elems q = [] → (∃ c ∈ vat s.th.cmds (pushOf q), c.onGuard = false ∧ c.held = false) →
          ∃ t, exec (.qr r) s = .next t ∧ t.th.pc = s.th.pc + 8 ∧ (r.d ≠ 0 → t.th.r.fe (dx r.d) = .pending) ∧
            t.th.pops = [⟨q, .x r.d.toNat, s.gt⟩] ∧ s.sameV t [] ∧ s.sameP t [] ∧ s.sameOthers t ∧ s.sameBytes t) ∧
        (9 ≤ q → q < 12 → vat s.th.elems q = [] →
          ∃ t, exec (.qr r) s = .next t ∧ t.th.pc = s.th.pc + 8 ∧ (r.d ≠ 0 → t.th.r.fe (dx r.d) = .pending) ∧
            t.th.pops = [⟨q, .x r.d.toNat, s.gt⟩] ∧ s.sameV t [] ∧ s.sameP t [] ∧ s.sameOthers t ∧ s.sameBytes t)) ∧
      (toV = true → q = 5 → s.Issues r.sel r.neg [] [dv r.d] → ∀ l ls, s.th.lines = ⟨l, false⟩ :: ls →
        exec (.qr r) s = .next (s.updTh fun c => { c.setV r.d.toNat l with lines := ls }).step8))) ∧
  (∀ (s : State) (r : RI),
      let q := r.imm.toNat % 16
      let g := r.imm.toNat % 8
      (s.Issues r.sel r.neg [] [dx r.d] →
        (q < 10 → q % 2 = 0 →
          exec (.qstat r) s = .next (s.setX r.d (BitVec.ofNat 64 (8 - (vat s.th.cmds q).length + (vat s.th.cmds q).length * 256))).step8) ∧
        (q ∈ [1, 3, 7, 9] → exec (.qstat r) s = .next (s.setX r.d (BitVec.ofNat 64 ((vat s.th.elems q).length +
          ((vat s.th.elems q).length + (vat s.th.cmds (q - 1)).length) * 256))).step8) ∧
        (q = 5 → exec (.qstat r) s = .next (s.setX r.d (BitVec.ofNat 64 (s.th.lines.length +
          (s.th.lines.length + (vat s.th.cmds 4).length) * 256))).step8) ∧
        (q = 10 →
          let n := (vat s.th.elems 10).length
          let owed := match s.th.ring with
            | none => 0
            | some g => (g.allocs.filter fun a => a.token.isNone && a.notice.handler = 0).length
          owed + n ≤ 15 → (s.core s.myCore).notices.length ≤ 16 → (s.core s.myCore).overflow.length ≤ 256 →
          exec (.qstat r) s = .next (s.setX r.d (BitVec.ofNat 64 (n + (owed + n) * 256 +
            (s.core s.myCore).notices.length * 2 ^ 16 + (s.core s.myCore).overflow.length * 2 ^ 32))).step8) ∧
        (q = 11 → exec (.qstat r) s = .next (s.setX r.d (BitVec.ofNat 64 ((vat s.th.elems 11).length +
          ((vat s.th.elems 11).length + (s.th.pops.filter fun p => p.q = 11).length) * 256))).step8) ∧
        exec (.gq r) s = .next (s.setX r.d (match vat s.th.r.guards g with | .no => 0 | .yes => 1 | .pending => 2)).step8) ∧
      (s.Issues r.sel r.neg [] [] →
        exec (.gclr r) s = .next (s.updTh fun c =>
          { c with r := { c.r with guards := vput c.r.guards g .pending } }).step8) ∧
      (s.Issues r.sel r.neg [dx r.a] [] →
        ∃ t, exec (.gset r) s = .next t ∧ t.th.pc = s.th.pc + 8 ∧
          (∀ j < 8, vat t.th.r.guards j = if j = g then (if s.x r.a = 0 then .no else .yes) else vat s.th.r.guards j) ∧
          (∀ p < 12, vat t.th.cmds p = (vat s.th.cmds p).map fun c =>
            if c.bound = .heldOn g then { c with bound := if s.x r.a = 0 then .discarded else .free } else c) ∧
          s.sameX t [] ∧ s.sameV t [] ∧ s.sameP t [] ∧ s.sameButQueues t ∧ s.sameOthers t ∧ s.sameBytes t))

/-! ### Fibres and barriers -/

/-- R34, R240, R241: `FOPEN` opens a fibre at POS 0, at its end when LEN is 0; `FADV` moves POS by Xa and not beyond LEN,
`fadv.to` to the first element from POS on whose coordinate reaches the target; `FTEND` tells whether POS is LEN; `FCLOSE`
closes it; on a closed fibre they trap FIBRE_OPERAND 4.

R241, R242: `FLDC` and `FLDV` of an open fibre whose elements are there read the coordinates and the values at POS into
Xd, or from POS on into the lanes of Vd, with all ones and 0 beyond the end, and `.adv` moves POS behind them. Here the
value formats FP32, INT32, `.n32` and INT8, the integers sign-extended to the register or to the lane. (Of the model's readings
it rests on log entries 58, 59 and 60.) -/
def Obligations.Fibres : Prop :=
  (∀ (s : State) (r : R3),
      let put := fun (n : BitVec 6) (f : Fibre) =>
        (s.updTh fun c => { c with r := { c.r with fibres := vput c.r.fibres n.toNat f } }).step8
      let f := vat s.th.r.fibres r.d.toNat
      let g := vat s.th.r.fibres r.a.toNat
      let at' := fun (p : Nat) => { f with pos := BitVec.ofNat 22 p, state := if p = f.len.toNat then .atEnd else .opened }
      let base := fun (w : Word) => w.toNat % 4 = 0 ∧ (w.toNat < 0xFF0000000000 ∨ (0xFFFF00000000 ≤ w.toNat ∧ w.toNat < 2 ^ 48))
      let shut := s.deliver s.cur .fibreOperand 4 s.th.pc
      (s.Issues r.sel r.neg [dx r.a, dx r.b, dx r.c] [] → base (s.x r.a) → base (s.x r.b) → (s.x r.c).toNat < 2 ^ 27 →
        (s.x r.c).extractLsb' 22 2 ≠ 3 →
        let len : BitVec 22 := (s.x r.c).extractLsb' 0 22
        exec (.fopen r) s = .next (put r.d ⟨if len = 0 then .atEnd else .opened, (s.x r.c).extractLsb' 24 4,
          (s.x r.c).extractLsb' 22 2, 0, len, (s.x r.b).extractLsb' 2 46, (s.x r.a).extractLsb' 2 46⟩)) ∧
      (s.Issues r.sel r.neg [dx r.a, dx r.b, dx r.c] [] →
        let traps := fun (v : Word) => exec (.fopen r) s = .next (s.deliver s.cur .fibreOperand v s.th.pc)
        (¬(base (s.x r.a) ∧ base (s.x r.b)) → traps 1) ∧
        (base (s.x r.a) → base (s.x r.b) →
          ((s.x r.c).extractLsb' 22 2 = 3 ∨ (s.x r.c).getLsbD 27 = true → traps 2) ∧
          ((s.x r.c).extractLsb' 22 2 ≠ 3 → (s.x r.c).getLsbD 27 = false → 2 ^ 28 ≤ (s.x r.c).toNat → traps 3))) ∧
      (s.Issues r.sel r.neg [dx r.a] [] →
        (f.state ≠ .closed → exec (.fadv r) s = .next (put r.d (at' (min (f.pos.toNat + (s.x r.a).toNat) f.len.toNat)))) ∧
        (f.state = .closed → exec (.fadv r) s = .next shut ∧ exec (.fadvTo r) s = .next shut) ∧
        (∀ (bs : Nat → List Byte) (q : Nat), s.Calm → f.state ≠ .closed → f.pos.toNat ≤ q → q ≤ f.len.toNat →
          let ea := fun (p : Nat) => BitVec.ofNat 64 (f.cptr.toNat * 4 + p * 2 ^ f.cwidth.toNat)
          let read := fun (p : Nat) => f.pos.toNat ≤ p ∧ p < f.len.toNat ∧ p ≤ q
          (∀ p, read p → s.holds (2 ^ f.cwidth.toNat) (ea p) (bs p)) →
          (∀ p, f.pos.toNat ≤ p → p < q → natOfBytes (bs p) < (s.x r.a).toNat % 2 ^ 32) →
          (q = f.len.toNat ∨ (s.x r.a).toNat % 2 ^ 32 ≤ natOfBytes (bs q)) →
          ∃ u : State, s.loadLeaves u 0 [] (∀ p, read p → s.ownAddr (2 ^ f.cwidth.toNat) (ea p)) ∧ exec (.fadvTo r) s =
            .next (u.updTh fun c => { c with r := { c.r with fibres := vput c.r.fibres r.d.toNat (at' q) } }).step8)) ∧
      (s.Issues r.sel r.neg [] [] →
        (g.state ≠ .closed → exec (.ftend r) s = .next (s.setP r.d (if g.pos = g.len then 0xFFFFFFFF else 0)).step8) ∧
        (f.state ≠ .closed → exec (.fclose r) s = .next (put r.d { f with state := .closed })) ∧
        (f.state = .closed → exec (.fclose r) s = .next shut))) ∧
  (∀ (s : State) (r : R3) (bs : Nat → List Byte), s.Calm →
      s.Issues r.sel r.neg [] [if r.mod.getLsbD 0 then dv r.d else dx r.d] →
      let f := vat s.th.r.fibres r.a.toNat
      let n := if r.mod.getLsbD 0 then 32 else 1
      let p := f.pos.toNat
      let reads := fun (i : Instr) (ptr w : Nat) (conv : Nat → Word) (past : Word) =>
        let ea := fun (j : Nat) => BitVec.ofNat 64 (ptr + (p + j) * w)
        let at' := fun (j : Nat) => if p + j < f.len.toNat then conv (natOfBytes (bs j)) else past
        (∀ j < n, p + j < f.len.toNat → s.holds w (ea j) (bs j)) →
          ∃ (t : State) (l : Lanes), s.loadLeaves t 0 [] (∀ j < n, p + j < f.len.toNat → s.ownAddr w (ea j)) ∧
            (∀ j < n, vat l j = (at' j).setWidth 32) ∧
            let u := if r.mod.getLsbD 0 then t.produce s.cur [] [(r.d.toNat, some l)] 0
              else t.produce s.cur [(r.d.toNat, some (at' 0))] [] 0
            let q := min (p + n) f.len.toNat
            let g : Fibre := { f with pos := BitVec.ofNat 22 q, state := if q = f.len.toNat then .atEnd else .opened }
            exec i s = .next (if r.mod.getLsbD 1 then
              u.updTh fun c => { c with r := { c.r with fibres := vput c.r.fibres r.a.toNat g } } else u).step8
      f.state ≠ .closed →
        reads (.fldc r) (f.cptr.toNat * 4) (2 ^ f.cwidth.toNat) (BitVec.ofNat 64) 0xFFFFFFFF ∧
        (f.vfmt = 0 ∨ f.vfmt = 6 → reads (.fldv r) (f.vptr.toNat * 4) 4 (BitVec.ofNat 64) 0) ∧
        (f.vfmt = 5 → reads (.fldv r) (f.vptr.toNat * 4) 4 (fun n => (BitVec.ofNat 32 n).signExtend 64) 0) ∧
        (f.vfmt = 7 → reads (.fldv r) (f.vptr.toNat * 4) 1 (fun n => (BitVec.ofNat 8 n).signExtend 64) 0))

/-- R285 to R288: `BARINIT` takes a free object of the core's die for an expected count from 1 to 65535; `BARARR` counts an
arrival at an open phase and completes the current one with its last; `BARWAIT` answers 1 for a completed phase and waits
for an open one, or answers 0 at once with `.try`; `BARFREE` frees an object without arrivals; `BARQ` queues an arrival
for the copy engine. (Of the model's readings it rests on log entries 22, 30.) -/
def Obligations.Barriers : Prop :=
  ∀ (s : State) (r : R3), s.Calm →
    let h := (s.x r.a).toNat
    let d := h / 2048
    let o := h % 2048
    let n := (s.x r.b).setWidth 32
    let δ := fun (b : Barrier) => (n - b.p).toNat
    (s.Issues r.sel r.neg [dx r.a] [dx r.d] →
      (1 ≤ h → h < 65536 → (∃ j < 2048, s.barrier? s.myDie j = none) →
        ∃ j < 2048, s.barrier? s.myDie j = none ∧ exec (.barinit r) s =
          .next ((s.setBarrier s.myDie j ⟨s.th.asid, h, 0, Vector.replicate 4 0⟩).setX r.d
            (BitVec.ofNat 64 (s.myDie * 2048 + j))).step8) ∧
      (h = 0 ∨ 65536 ≤ h → exec (.barinit r) s = .next (s.setX r.d 0x8000000000000002).step8) ∧
      (∀ b, h < 8192 → s.barrier? d o = some b → b.asid = s.th.asid → (∀ i < 4, vat b.a i = 0) →
        ∃ u : State, exec (.barfree r) s = .next (u.setX r.d 0).step8 ∧ u.barrier? d o = none ∧
          (∀ j, j ≠ o → u.barrier? d j = s.barrier? d j) ∧ u.ctxs = s.ctxs ∧ u.mem = s.mem ∧ u.scratch = s.scratch) ∧
      (∀ b, h < 8192 → s.barrier? d o = some b → b.asid = s.th.asid → (∃ i < 4, vat b.a i ≠ 0) →
        exec (.barfree r) s = .next (s.setX r.d 0x8000000000000003).step8)) ∧
    (∀ b, h < 8192 → s.barrier? d o = some b → b.asid = s.th.asid →
      (s.Issues r.sel r.neg [dx r.a, dx r.b] [] →
        let q := n.toNat % 4
        let counts := fun (b' : Barrier) =>
          ∃ u : State, exec (.bararr r) s = .next u.step8 ∧ u.barrier? d o = some b' ∧
            (∀ j, j ≠ o → u.barrier? d j = s.barrier? d j) ∧ u.ctxs = s.ctxs ∧ u.mem = s.mem ∧ u.scratch = s.scratch
        (δ b ≤ 3 → vat b.a q < b.e → vat b.a (b.p.toNat % 4) ≠ b.e → (n ≠ b.p ∨ vat b.a q + 1 < b.e) →
          counts { b with a := vput b.a q (vat b.a q + 1) }) ∧
        (n = b.p → vat b.a q + 1 = b.e → vat b.a ((b.p + 1).toNat % 4) ≠ b.e →
          counts { b with a := vput b.a q 0, p := b.p + 1 }) ∧
        (3 < δ b → δ b < 2 ^ 31 → exec (.bararr r) s = .next (s.deliver s.cur .barrierAhead (n.setWidth 64) s.th.pc)) ∧
        (2 ^ 31 ≤ δ b → exec (.bararr r) s = .next (s.deliver s.cur .barrierOperand 2 s.th.pc))) ∧
      (s.Issues r.sel r.neg [dx r.a, dx r.b] [dx r.d] →
        (2 ^ 31 ≤ δ b → exec (.barwait r) s = .next (s.setX r.d 1).step8) ∧
        (δ b ≤ 3 → r.mod.getLsbD 0 = true → exec (.barwait r) s = .next (s.setX r.d 0).step8) ∧
        (δ b ≤ 3 → r.mod.getLsbD 0 = false → s.th.woken = false →
          ∃ t, exec (.barwait r) s = .next t ∧ t.th.run = .barwait d o n ∧ t.th.pc = s.th.pc ∧ s.sameX t [] ∧ s.sameOthers t ∧
            s.sameBytes t))) ∧
    (s.Issues r.sel r.neg [dx r.a, dx r.b] [] → (vat s.th.cmds 2).length < 8 →
      ∃ t c, exec (.barq r) s = .next t ∧ t.th.pc = s.th.pc + 8 ∧ vat t.th.cmds 2 = vat s.th.cmds 2 ++ [c] ∧ c.barq = true ∧
        c.a = s.x r.a ∧ c.b = s.x r.b ∧ t.due = s.due ++ [⟨.engineCommandStart, { k := s.cur, q := 2 }⟩] ∧ s.sameX t [] ∧
        s.sameV t [] ∧ s.sameButQueues t ∧ s.sameOthers t ∧ s.sameBytes t)

/-! ### Tasks and launches -/

/-- R269, R280, R281: `FORK` pushes a record with its entry, argument and join address, and the forking thread's
identifier, launch, priority and shape, at the bottom of its core's deque; `JOIN` takes 1 from its counter: a counter of 1
goes on, a higher one ends the thread, and 0 traps.

R282: `TEND` of a thread that holds nothing, with every command complete and every store visible, ends it: its slot
holds no thread, and its record counts toward its launch's retirement; `JOIN` after its count does the same.
(Of the model's readings it rests on log entries 70, 72, 74, 75.) -/
def Obligations.ThreadsForkJoinEnd : Prop :=
  (∀ (s : State) (r : R3), s.Calm →
      (s.Issues r.sel r.neg [dx r.a, dx r.b, dx r.c] [dx r.d] → (Instr.fork r).wf = true →
        ((s.x r.a).toNat % 8 ≠ 0 → exec (.fork r) s = .next (s.setX r.d 2).step8) ∧
        ((s.x r.a).toNat % 8 = 0 → (s.core s.myCore).deque.length < 32 →
          ∃ t q, exec (.fork r) s = .next t ∧ t.th.pc = s.th.pc + 8 ∧ (r.d ≠ 0 → t.th.getX r.d.toNat = 0) ∧
            (t.core s.myCore).deque = (s.core s.myCore).deque ++ [q] ∧ q.entry = s.x r.a ∧ q.arg = s.x r.b ∧ q.joinctr = s.x r.c ∧
            q.workid = s.th.info.workid ∧ q.asid = s.th.asid.toNat ∧
            (∀ p, s.th.info.task = some p → q.launch = p.launch ∧ q.prio = p.prio ∧ q.widshape = p.widshape ∧
              ∀ l, s.launch? p.slot = some l → t.launch? p.slot = some { l with live := l.live + 1, untriggered := l.untriggered + 1 }) ∧
            s.sameX t [r.d.toNat] ∧ s.sameV t [] ∧ s.sameP t [] ∧ s.sameModes t ∧ s.sameThread t ∧ s.sameBytes t) ∧
        ((s.x r.a).toNat % 8 = 0 → (s.core s.myCore).deque.length = 32 → (vat (s.core s.myCore).spill (slotOf s.cur)).length = 64 →
          exec (.fork r) s = .next (s.setX r.d 1).step8)) ∧
      (s.Issues r.sel r.neg [dx r.a] [] → s.ownAddr 8 (s.x r.a) → s.scratchPoison.contains (s.ownByteAt (s.x r.a) / 128) = false →
        s.th.joined = false →
        let b := s.ownByteAt (s.x r.a)
        let old := natOfBytes (Mem.readBytes s.scratch b 8)
        (old = 0 → exec (.join r) s = .next (s.deliver s.cur .taskOperand 2 s.th.pc)) ∧
        (old = 1 → ∃ u : State, exec (.join r) s = .next u.step8 ∧ s.storesOwn u b 8 0) ∧
        (2 ≤ old → ∃ (u t : State), exec (.join r) s = .next t ∧ s.storesOwn u b 8 (old - 1) ∧ t.scratch = u.scratch ∧ t.mem = s.mem ∧
          t.th.joined = true ∧ t.th.pc = s.th.pc ∧ t.th.r = s.th.r ∧ s.sameOthers t))) ∧
  (∀ (s : State) (r : R3), s.Calm → s.cur < 32768 → (∀ q ∈ [0, 2, 4, 6, 8], vat s.th.cmds q = []) → s.th.ring = none →
      s.th.claim = [] → s.th.info.notice = none → (∀ n < 4, ∀ t, s.ink s.myCore n = some t → t.owner ≠ s.cur) →
      let ends := fun (i : Instr) =>
        ∃ t, exec i s = .next t ∧ t.ctx s.cur = Ctx.vacantOne ∧
          (∀ k < 32768, k ≠ s.cur → (t.ctx k).r = (s.ctx k).r ∧ (t.ctx k).pc = (s.ctx k).pc ∧ (t.ctx k).run = (s.ctx k).run) ∧
          (∀ p l, s.th.info.task = some p → s.launch? p.slot = some l → t.launch? p.slot = some { l with
            live := l.live - 1, untriggered := if s.th.info.triggered then l.untriggered else l.untriggered - 1 }) ∧
          s.sameBytes t
      (s.Issues r.sel r.neg [] [] → ends (.tend r)) ∧
      (s.Issues r.sel r.neg [dx r.a] [] → s.th.joined = true → ends (.join r)))

/-- R271, R277, R283, R284: `YIELD` passes the turn to a ready context of its core; `yield.swap` does so and leaves the slot
when a record waits and no slot is free; `TRIG` counts the thread's trigger toward its launch once; `WID` extracts a
field of an identifier.

R56, R264, R279: `launch.q` with an enabled queue that has room writes the header's address into the ring and advances
TAIL, and answers 0; a queue that is not there, a misaligned header and a full ring give the codes 2, 3 and 1;
`launch.core` of a valid kernel header for a core of the partition takes a launch slot and answers 0.
(Of the model's readings it rests on log entries 55, 76.) -/
def Obligations.YieldTriggerLaunch : Prop :=
  (∀ (s : State) (r : R3),
      (s.Issues r.sel r.neg [] [] → s.cur < 32768 →
        let passes := fun (i : Instr) (u : State) => ∃ j, exec i s = .next { u.step8 with cur := j } ∧
          (j = s.cur ∨ (coreOf j = s.myCore ∧ (s.ctx j).run = .running))
        passes (.yield r) s ∧
        ((s.hasRecord s.myCore = false ∨ (s.freeResident s.myCore).isSome = true ∨ s.tokenHolder = some s.cur) →
          passes (.yieldSwap r) s) ∧
        (s.hasRecord s.myCore = true → s.freeResident s.myCore = none → s.tokenHolder ≠ some s.cur →
          ∃ t, exec (.yieldSwap r) s = .next t ∧ (t.ctx s.cur).why = some .swapped ∧ (t.ctx s.cur).pc = s.th.pc + 8 ∧
            (t.ctx s.cur).r = s.th.r ∧ (⟨.contextStream, { core := s.myCore }⟩ : Due) ∈ t.due ∧ s.sameBytes t ∧
            ∀ k, k ≠ s.cur → t.ctx k = s.ctx k)) ∧
      (s.Calm → s.Issues r.sel r.neg [] [] → ∀ p l, s.th.info.task = some p → s.launch? p.slot = some l →
        (s.th.info.triggered = false → ∃ t, exec (.trig r) s = .next t ∧ t.th.pc = s.th.pc + 8 ∧ t.th.info.triggered = true ∧
          t.launch? p.slot = some { l with untriggered := l.untriggered - 1 } ∧ t.th.r = s.th.r ∧ s.sameBytes t ∧
          ∀ k, k ≠ s.cur → t.ctx k = s.ctx k) ∧
        (s.th.info.triggered = true → exec (.trig r) s = .next s.step8)) ∧
      (s.Issues r.sel r.neg [dx r.a, dx r.b] [dx r.d] → (Instr.wid r).wf = true →
        let w := fun (k : Nat) => (s.x r.b).toNat / 2 ^ (5 * k) % 32
        let below := fun (k : Nat) => ((List.range k).map w).sum
        let k := r.sub.toNat % 8
        exec (.wid r) s = .next (s.setX r.d (if (∀ j < 6, w j ≤ 16) ∧ below 6 ≤ 64 then
          BitVec.ofNat 64 ((s.x r.a).toNat / 2 ^ below k % 2 ^ w k) else 0)).step8)) ∧
  (∀ (p : TaskRec) (gt : Word), (p.thread gt).getX 3 = p.widshape) ∧
  (∀ (s : State) (r : R3), s.Calm → s.Issues r.sel r.neg [dx r.a, dx r.b] [dx r.d] →
      let a := s.th.asid.toNat
      let n := (s.x r.b).toNat
      let answers := fun (u : State) (v : Word) => (u.produce s.cur [(r.d.toNat, some v)] [] 0).step8
      let c := s.queue a n
      let ready := n < 64 ∧ c.enabled = true ∧ c.invalid = false
      let ea := BitVec.ofNat 64 (c.ring.toNat + 8 * (c.tail.toNat % c.size.toNat))
      (n < 64 → (c.enabled = false ∨ c.invalid = true) → exec (.launchQ r) s = .next (answers s 2)) ∧
      (64 ≤ n → exec (.launchQ r) s = .next (answers s 2)) ∧
      (ready → (s.x r.a).toNat % 128 ≠ 0 → exec (.launchQ r) s = .next (answers s 3)) ∧
      (ready → (s.x r.a).toNat % 128 = 0 → c.tail - c.head = c.size → exec (.launchQ r) s = .next (answers s 1)) ∧
      (ready → (s.x r.a).toNat % 128 = 0 → c.tail - c.head ≠ c.size → s.ownAddr 8 ea →
        s.scratchPoison.contains (s.ownByteAt ea / 128) = false →
        ∃ u : State, exec (.launchQ r) s = .next (answers u 0) ∧ u.queue a n = { c with tail := c.tail + 1 } ∧
          u.mem = s.mem ∧ u.ctxs = s.ctxs ∧
          (∀ j < 8, Mem.read u.scratch (s.ownByteAt ea + j) = (s.x r.a).extractLsb' (8 * j) 8) ∧
          ∀ b, b < s.ownByteAt ea ∨ s.ownByteAt ea + 8 ≤ b → Mem.read u.scratch b = Mem.read s.scratch b) ∧
      (4096 ≤ n ∨ s.inPartition a n = false → exec (.launchCore r) s = .next (answers s 2)) ∧
      (∀ ws, n < 4096 → s.inPartition a n = true → (s.x r.a).toNat % 128 = 0 → s.headerWords a (s.x r.a).toNat = some ws →
        headerCode ws = none → (headerOf ws).kind = 0 → s.disp.launches = [] →
        ∃ (u : State) (l : Launch), exec (.launchCore r) s = .next (answers u 0) ∧ u.launch? 0 = some l ∧ l.core = some n ∧
          l.asid = s.th.asid ∧ l.hdr = headerOf ws ∧ l.shares = [⟨n / 1024, 0, (headerOf ws).tasks⟩] ∧
          u.ctxs = s.ctxs ∧ u.mem = s.mem ∧ u.scratch = s.scratch))

/-! ### Inkwell tables, Gaussian messages, the palimpsest cache -/

/-- R150 to R155: `HTCLAIM` of a good header takes the lowest free table and the lowest free ways of the core, which hold
no entry, and returns the table's handle; `HTREL` by its owner, once what the table has accepted is complete, posts
SPILLCOUNT and FLAGS to the header and gives the ways back.

R151, R153, R156 to R159: the keyed forms with one selected lane: `HTPRB` returns the value of the first entry of the
probe sequence that holds the key, `HTINS` and `HTACC` replace it or combine with it, `HTDEL` deletes it, and without one
the first free entry takes the key; the lane's status says which. `HTDRN` returns the entries from its cursor on, and with
`.clr` empties them. The other entries, and the lanes that are not selected, are as before. (Of the model's readings it rests on log entry 61.) -/
def Obligations.Inkwell : Prop :=
  (∀ (s : State) (r : R3), s.Calm →
      (∀ (pa n base cap cnt flags : Nat), s.Issues r.sel r.neg [dx r.a] [dx r.d] →
        let hdr := s.x r.a
        let w := fun (i : Nat) => natOfBytes (Mem.readBytes s.mem (pa + 8 * i) 8)
        let free := (s.core s.myCore).freeWays
        let want := 2 ^ (r.mod.toNat % 4)
        hdr.toNat % 64 = 0 → hdr.toNat + 64 ≤ 0xFF0000000000 → s.mappedAt .store 64 hdr pa .cached → pa % 64 = 0 →
        s.paKind pa = .memory → s.l1Hit s.myCore (pa / 128) = true → s.readBad s.cur pa .cached = false →
        s.holders (s.tileOf (pa / 128)) (·.writes) = [] → (∀ e ∈ (s.core s.myCore).lines, e.spec = none) →
        w 0 = base → base % 8 = 0 → base + 8 * cap ≤ 0xFF0000000000 → w 1 = cap + cnt * 2 ^ 32 → cap ≤ 131072 → cnt ≤ cap →
        w 2 = flags → flags < 4 → (∀ i < 8, 3 ≤ i → w i = 0) →
        (∀ a ∈ spillPages base cap, ∃ pb pol, s.pagedAt .store (BitVec.ofNat 64 a) pb pol) →
        n < 4 → s.ink s.myCore n = none → (∀ j < n, s.ink s.myCore j ≠ none) → 8 - free.length + want ≤ 7 →
        ∃ (u : State) (t : InkTable), exec (.htclaim r) s = .next (u.produce s.cur [(r.d.toNat, some (BitVec.ofNat 64 n))] [] 0).step8 ∧
          u.ink s.myCore n = some t ∧ (∀ p, t.entry p = (0xFFFFFFFF, 0)) ∧ t.owner = s.cur ∧ t.asid = s.th.asid ∧
          t.ways = free.take want ∧ t.header = hdr ∧ t.spillbase.toNat = base ∧ t.spillcap = cap ∧ t.spillcount = cnt ∧
          (∀ v < 8, vat (u.core s.myCore).ways v = if t.ways.contains v then .ink n else vat (s.core s.myCore).ways v) ∧
          u.ctxs = s.ctxs ∧ u.mem = s.mem) ∧
      (∀ t, s.Issues r.sel r.neg [dx r.a] [] → (s.x r.a).toNat < 4 → s.ink s.myCore (s.x r.a).toNat = some t →
        t.asid = s.th.asid → t.owner = s.cur → (∀ v ∈ t.ways, v < 8) → s.inkBusy s.myCore (s.x r.a).toNat = false →
        (∀ e ∈ (s.core s.myCore).lines, e.spec = none) →
        ∃ u : State, exec (.htrel r) s = .next u.step8 ∧ u.ink s.myCore (s.x r.a).toNat = none ∧
          (∀ v < 8, vat (u.core s.myCore).ways v = if t.ways.contains v then .cache else vat (s.core s.myCore).ways v) ∧
          u.th.r = s.th.r ∧ (∀ a, Mem.read u.mem a = Mem.read s.mem a) ∧
          ∀ pa pol, s.pagedAt .store (t.header + 0x0C) pa pol → ∃ q, u.th.stores = [q] ∧ q.line = pa / 128 ∧
            q.bytes = (bytesOfNat 4 t.spillcount ++ bytesOfNat 4 t.flags).zipIdx.map fun b => (pa + b.2, b.1))) ∧
  (∀ (s : State) (r : R3) (t : InkTable),
      let n := (s.x r.c).toNat
      n < 4 → s.ink s.myCore n = some t → t.asid = s.th.asid →
        (∀ i < 32, s.mask r.sel r.neg = BitVec.ofNat 32 (2 ^ i) → s.full [dv r.a, dv r.b, dx r.c] →
          s.free [dv r.d, .v (r.d.toNat + 1)] →
          let k := vat (s.v r.a) i
          let g := vat (s.v r.b) i
          let ps := t.probe k
          let here := ps.find? fun p => (t.entry p).1 = k
          let room := ps.find? fun p => (t.entry p).1 = 0xFFFFFFFF || (t.entry p).1 = 0xFFFFFFFE
          let absent := if t.spillcount = 0 then 3 else 4
          let gives := fun (j : Instr) (status : W32) (put : Option (Nat × W32 × W32)) =>
            ∃ (u : State) (t' : InkTable) (l : Lanes), exec j s = .next (u.produce s.cur [] [(r.d.toNat, some l)] 0 [] (some n)).step8 ∧
              vat l i = status ∧ (∀ m < 32, m ≠ i → vat l m = vat (s.v r.d) m) ∧ u.ink s.myCore n = some t' ∧
              (∀ p, t'.entry p = match put with | some q => if p = q.1 then q.2 else t.entry p | none => t.entry p) ∧
              u.ctxs = s.ctxs ∧ u.mem = s.mem ∧ u.scratch = s.scratch
          k ≠ 0xFFFFFFFF → k ≠ 0xFFFFFFFE →
          (∀ p, here = some p → gives (.htins r) 1 (some (p, k, g)) ∧ gives (.htdel r) 5 (some (p, 0xFFFFFFFE, (t.entry p).2)) ∧
            (r.vtype = 3 → r.mod.toNat % 4 = 0 → gives (.htacc r) 1 (some (p, k, (t.entry p).2 + g)))) ∧
          (∀ p, here = none → room = some p → gives (.htins r) 0 (some (p, k, g)) ∧ gives (.htacc r) 0 (some (p, k, g)) ∧
            gives (.htdel r) (BitVec.ofNat 32 absent) none) ∧
          (∃ (u : State) (v l : Lanes), exec (.htprb r) s =
              .next (u.produce s.cur [] [(r.d.toNat, some v), (r.d.toNat + 1, some l)] 0 [] (some n)).step8 ∧
            vat v i = (match here with | some p => (t.entry p).2 | none => 0) ∧
            vat l i = (match here with | some _ => 2 | none => BitVec.ofNat 32 absent) ∧
            (∀ m < 32, m ≠ i → vat v m = vat (s.v r.d) m ∧ vat l m = vat (s.th.getV (r.d.toNat + 1)) m) ∧
            u.ink s.myCore n = some t ∧ u.ctxs = s.ctxs ∧ u.mem = s.mem ∧ u.scratch = s.scratch)) ∧
        (s.Issues r.sel r.neg [dx r.a, dx r.c] [dx r.a, dv r.d, .v (r.d.toNat + 1)] →
          let p := (s.x r.a).toNat % 2 ^ 63
          t.ways.length ≤ 8 → p ≤ 4096 * t.ways.length →
          ∃ (u : State) (q : Nat) (ks vs : Lanes), p ≤ q ∧ q ≤ 4096 * t.ways.length ∧
            exec (.htdrn r) s = .next (u.produce s.cur
              [(r.a.toNat, some (BitVec.ofNat 64 (q + if q = 4096 * t.ways.length then 2 ^ 63 else 0)))]
              [(r.d.toNat, some ks), (r.d.toNat + 1, some vs)] 0 [] (some n)).step8 ∧
            (let found := ((List.range (q - p)).map fun i => t.entry (p + i)).filter fun e => e.1 ≠ 0xFFFFFFFF && e.1 ≠ 0xFFFFFFFE
             found.length ≤ 32 ∧ (found.length = 32 ∨ q = 4096 * t.ways.length) ∧
               ∀ i < 32, vat ks i = ((found[i]?).map (·.1)).getD 0xFFFFFFFF ∧ vat vs i = ((found[i]?).map (·.2)).getD 0) ∧
            (∃ t', u.ink s.myCore n = some t' ∧
              ∀ m, t'.entry m = if r.mod.getLsbD 0 = true ∧ p ≤ m ∧ m < q then (0xFFFFFFFF, 0) else t.entry m) ∧
            u.ctxs = s.ctxs ∧ u.mem = s.mem ∧ u.scratch = s.scratch))

/-- R137, R140 to R143: `GBADD` adds a message, negated with `.neg`, into its place in a joint, with one rounding and its
flags for each element; `GBDAMP` mixes each element of two messages with one rounding, keeps the new one for β = 0, takes
the old one for β = 1, and traps for a β outside 0 to 1. `GBELIM` with no pivot selected returns the joint's own block; with one
pivot the message of R142, or where the pivot is NaN, not above 0, or infinite, the singular block as the predicate or
as a trap; and with several a message, or a singular block in one of the two ways.

R144, R145, R147, R149: `GBPOST` outside a transaction sends its message with the header fields of its descriptor, and inside
a speculative one holds it, until 16 commands and posts are held; its outcome register becomes empty-pending; a descriptor
with a reserved bit gives 6. `GBTAKE` of a full slot with a newer sequence number returns its header and its message and
clears FULL, and otherwise only the header with its code; it traps where the slot lies wrong or is poisoned.
(Of the model's readings it rests on log entries 62, 63, 127.) -/
def Obligations.Gaussian : Prop :=
  (∀ (s : State) (r : R3),
      let same := fun (t : State) (vs : List Nat) (fl : BitVec 5) => t.th.pc = s.th.pc + 8 ∧ s.sameV t vs ∧ s.sameX t [] ∧ s.sameP t [] ∧
        t.th.r.fpstat = (s.th.r.raise fl).fpstat ∧ t.th.r.stochseed = s.th.r.stochseed ∧ t.th.r.guards = s.th.r.guards ∧
        t.th.r.fibres = s.th.r.fibres ∧ s.sameThread t ∧ s.sameOthers t ∧ s.sameBytes t
      let put := fun (q : FRes) => q.put fmtF32 0 false 0
      let num := fun (n : Nat) => fmtF32.decode n
      let all := fun (fs : List (Nat × BitVec 5)) => fs.foldl (fun f q => f ||| q.2) 0
      (s.Issues r.sel r.neg (dv r.a :: dvs r.b 3 ++ dvs r.d 8) [] →
        let off := r.mod.toNat % 16
        let dim := r.mod.toNat / 16 % 8 + 1
        let d := r.d.toNat
        let sum := fun (x m : Nat) => put (opAdd 0 (num x) (if r.mod.getLsbD 7 then (num m).flip else num m))
        let lam := fun (i j : Nat) => sum (s.jointAt d i j) (s.msgAt r.b.toNat (i - off) (j - off))
        let eta := fun (i : Nat) => sum (s.etaAt r.a.toNat i) (s.etaAt (r.b.toNat + 2) (i - off))
        let is := (List.range dim).map (off + ·)
        off + dim ≤ 16 → d + 8 ≤ 32 → r.a.toNat < 32 → r.b.toNat + 3 ≤ 32 → (r.a.toNat < d ∨ d + 8 ≤ r.a.toNat) →
        ∃ t, exec (.gbadd r) s = .next t ∧
          same t (r.a.toNat :: (List.range 8).map (d + ·)) (all ((is.flatMap fun i => is.map fun j => lam i j) ++ is.map eta)) ∧
          (∀ i < 16, ∀ j < 16, BitVec.ofNat 32 (t.jointAt d i j) = BitVec.ofNat 32
            (if off ≤ i ∧ i < off + dim ∧ off ≤ j ∧ j < off + dim then (lam i j).1 else s.jointAt d i j)) ∧
          ∀ i < 32, vat (t.v r.a) i = if off ≤ i ∧ i < off + dim then BitVec.ofNat 32 (eta i).1 else vat (s.v r.a) i) ∧
      (s.Issues r.sel r.neg (dvs r.a 3 ++ [dx r.b] ++ dvs r.d 3) [] → r.a.toNat + 3 ≤ 32 → r.d.toNat + 3 ≤ 32 →
        (r.a.toNat + 3 ≤ r.d.toNat ∨ r.d.toNat + 3 ≤ r.a.toNat) →
        let β := fmtF16.decode ((s.x r.b).toNat / 2 ^ 32 % 2 ^ 16)
        let ds := (List.range 3).map (r.d.toNat + ·)
        let mix := fun (n l : Nat) => put (dampSum β (num (s.etaAt (r.d.toNat + n) l)) (num (s.etaAt (r.a.toNat + n) l)))
        let becomes := fun (t : State) (f : Nat → Nat → W32) => ∀ n < 3, ∀ l < 32, vat (t.th.getV (r.d.toNat + n)) l =
          if n < 2 ∨ l < 8 then f n l else vat (s.th.getV (r.d.toNat + n)) l
        let bad := β.isNan = true ∨ β.lt (.fin false 0 0) = true ∨ (FVal.fin false 1 0).lt β = true
        (β.isZero = true → ∃ t, exec (.gbdamp r) s = .next t ∧ same t [] 0) ∧
        (β.same (.fin false 1 0) = true → ∃ t, exec (.gbdamp r) s = .next t ∧ same t ds 0 ∧
          becomes t fun n l => vat (s.th.getV (r.a.toNat + n)) l) ∧
        (¬bad → β.isZero = false → β.same (.fin false 1 0) = false → ∃ t, exec (.gbdamp r) s = .next t ∧
          same t ds (all ((List.range 3).flatMap fun n => (List.range (if n < 2 then 32 else 8)).map (mix n))) ∧
          becomes t fun n l => BitVec.ofNat 32 (mix n l).1) ∧
        (bad → exec (.gbdamp r) s = .next (s.deliver s.cur .gaussOperand 2 s.th.pc))) ∧
      (s.Issues r.sel r.neg (dvs r.a 8 ++ [dv r.b]) (dvs r.d 3) →
        let n := r.mod.toNat % 16 + 1
        let a := (List.range n).filter fun i => !(s.p r.c).getLsbD i
        let lam := s.jointAt r.a.toNat
        let eta := s.etaAt r.b.toNat
        let flag := fun (w : W32) => if r.mod.getLsbD 4 then s.updTh (·.setP (r.mod.extractLsb' 5 3).toNat w) else s
        let gives := fun (f : Nat → Lanes) (M : Nat → Nat → Nat) (h : Nat → Nat) =>
          ∀ i < 8, (∀ j < 8, vat (f (i / 4)) (8 * (i % 4) + j) = if i < a.length ∧ j < a.length then BitVec.ofNat 32 (M i j) else 0) ∧
            (vat (f 2) i = if i < a.length then BitVec.ofNat 32 (h i) else 0) ∧ ∀ l < 32, 8 ≤ l → vat (f 2) l = 0
        let sends := fun (u : State) (f : Nat → Lanes) (fl : BitVec 5) => (u.produce s.cur []
          [(r.d.toNat, some (f 0)), (r.d.toNat + 1, some (f 1)), (r.d.toNat + 2, some (f 2))] fl).step8
        1 ≤ a.length → a.length ≤ 8 →
        (r.mod.getLsbD 4 = false →
          (∃ f fl, exec (.gbelim r) s = .next (sends s f fl)) ∨
          (∃ (t : State) (v : Word), exec (.gbelim r) s = .next (t.deliver s.cur .singularBlock v s.th.pc) ∧ s.sameX t [] ∧
            s.sameOthers t ∧ s.sameBytes t)) ∧
        (r.mod.getLsbD 4 = true → ∃ w f fl, exec (.gbelim r) s = .next (sends (flag w) f fl) ∧ (w = 0 ∨ w = 1)) ∧
        (a = List.range n → ∃ f, exec (.gbelim r) s = .next (sends (flag 0) f 0) ∧ gives f lam eta) ∧
        (∀ k < n, a = (List.range n).filter (· ≠ k) →
          let p := num (lam k k)
          let singular := p.isNan = true ∨ p.isInf = true ∨ (FVal.fin false 0 0).lt p = false
          let neg := fun (x y z : Nat) => put (opFma 0 (num x).flip (num y) (num z))
          let c := put (opSqrt p)
          let quo := fun (x : Nat) => put (opDiv (num x) (num c.1))
          let at' := fun (i : Nat) => a.getD i 0
          let M := fun (i j : Nat) => neg (quo (lam k (at' i))).1 (quo (lam k (at' j))).1 (lam (at' i) (at' j))
          let h := fun (i : Nat) => neg (quo (lam k (at' i))).1 (quo (eta k)).1 (eta (at' i))
          let is := List.range a.length
          (¬singular → ∃ f, exec (.gbelim r) s = .next (sends (flag 0) f (all (c :: quo (eta k) :: a.map (fun i => quo (lam k i)) ++
              (is.flatMap fun i => is.map fun j => M i j) ++ is.map h))) ∧
            gives f (fun i j => (M i j).1) fun i => (h i).1) ∧
          (singular → r.mod.getLsbD 4 = true → exec (.gbelim r) s = .next (sends (flag 1) (fun _ => zeroLanes) 0)) ∧
          (singular → r.mod.getLsbD 4 = false → r.d.toNat + 3 ≤ 32 →
            ∃ t : State, exec (.gbelim r) s = .next (t.deliver s.cur .singularBlock (BitVec.ofNat 64 k) s.th.pc) ∧
              (∀ m < 3, t.th.r.fe (.v (r.d.toNat + m)) = .full) ∧ (∀ m, t.th.getV m = s.th.getV m) ∧ s.sameX t [] ∧ s.sameP t [] ∧
              s.sameModes t ∧ s.sameThread t ∧ s.sameOthers t ∧ s.sameBytes t)))) ∧
  (∀ (s : State) (r : R3), s.Calm →
      (s.Issues r.sel r.neg (dvs r.a 3 ++ [dx r.b, dx r.c]) [dx r.d] →
        let b := (s.x r.b).toNat
        (let p := s.postOf r
         p.k = s.cur ∧ p.reg = r.d.toNat ∧ p.sender = s.myCore + s.cur % 8 * 2 ^ 12 ∧ p.asid = s.th.asid ∧ p.core = b % 4096 ∧
           p.ctx = b / 2 ^ 12 % 8 ∧ p.slot = b / 2 ^ 15 % 2 ^ 11 ∧ p.dim = b / 2 ^ 26 % 8 + 1 ∧ p.beta.toNat = b / 2 ^ 32 % 2 ^ 16 ∧
           p.handler = s.x r.c ∧ p.m0 = s.th.getV r.a.toNat ∧ p.m1 = s.th.getV (r.a.toNat + 1) ∧
           p.m2 = s.th.getV (r.a.toNat + 2)) ∧
        (b < 2 ^ 48 → b / 2 ^ 29 % 8 = 0 →
          ∃ t, exec (.gbpost r) s = .next t ∧ t.th.pc = s.th.pc + 8 ∧ t.msgs = [(s.nextId, .post (s.postOf r))] ∧
            t.due = s.due ++ [⟨.postArrival, { id := s.nextId }⟩] ∧
            t = { s with ctxs := t.ctxs, msgs := t.msgs, due := t.due, nextId := t.nextId } ∧ (∀ k, k ≠ s.cur → t.ctx k = s.ctx k) ∧
            (r.d ≠ 0 → t.th.r.fe (dx r.d) = .pending) ∧ s.sameX t [r.d.toNat] ∧ s.sameV t [] ∧ s.sameP t [] ∧
            s.sameModes t ∧ s.sameThread t) ∧
        (¬(b < 2 ^ 48 ∧ b / 2 ^ 29 % 8 = 0) → exec (.gbpost r) s = .next (s.produce s.cur [(r.d.toNat, some 6)] [] 0).step8)) ∧
      (s.Issues r.sel r.neg [dx r.a, dx r.b] (dvs r.d 3 ++ [dx r.c, .x (r.c.toNat + 1)]) →
        let a := (s.x r.a).toNat
        let byte := fun (i : Nat) => Mem.read s.scratch (arrayByte s.myCore s.th.claim (a + i))
        let num := fun (o n : Nat) => natOfBytes ((List.range n).map fun i => byte (o + i))
        let seq := num 0 8
        let w := num 8 8
        let code := if !w.testBit 56 then 1 else if seq ≤ (s.x r.b).toNat then 2 else 0
        let inside := a % 128 = 0 ∧ a + 384 ≤ 32768 * s.th.claim.length
        (¬inside → exec (.gbtake r) s = .next (s.deliver s.cur .gaussOperand 3 s.th.pc)) ∧
        (inside → (∃ i < 3, s.scratchPoison.contains (claimLine s.myCore s.th.claim (a / 128 + i)) = true) →
          exec (.gbtake r) s = .next (s.deliver s.cur .dataPoison 0 s.th.pc)) ∧
        (inside → (∀ i < 3, s.scratchPoison.contains (claimLine s.myCore s.th.claim (a / 128 + i)) = false) →
        ∃ (u : State) (f : Nat → Lanes), exec (.gbtake r) s = .next (u.produce s.cur
            [(r.c.toNat, some (BitVec.ofNat 64 seq)), (r.c.toNat + 1, some (BitVec.ofNat 64 (w % 2 ^ 56 + code * 2 ^ 56)))]
            [(r.d.toNat, some (f 0)), (r.d.toNat + 1, some (f 1)), (r.d.toNat + 2, some (f 2))] 0).step8 ∧
          (code ≠ 0 → u = s ∧ ∀ n < 3, f n = s.th.getV (r.d.toNat + n)) ∧
          (code = 0 → (∀ l < 32, (vat (f 0) l).toNat = num (32 + 4 * l) 4 ∧ (vat (f 1) l).toNat = num (160 + 4 * l) 4 ∧
              (vat (f 2) l).toNat = if l < 8 then num (288 + 4 * l) 4 else 0) ∧ u.mem = s.mem ∧ u.ctxs = s.ctxs ∧
            ∀ x, Mem.read u.scratch x = if x = arrayByte s.myCore s.th.claim (a + 15) then byte 15 &&& 0xFE else Mem.read s.scratch x)))) ∧
  (∀ (s : State) (r : R3) (x : Tx), s.Issues r.sel r.neg (dvs r.a 3 ++ [dx r.b, dx r.c]) [dx r.d] → s.th.speculative = true →
      s.th.tx = some x → (s.x r.b).toNat < 2 ^ 48 → (s.x r.b).toNat / 2 ^ 29 % 8 = 0 →
      (x.held.length < 16 → ∃ t, exec (.gbpost r) s = .next t ∧ t.th.pc = s.th.pc + 8 ∧
        t.th.tx = some { x with held := x.held ++ [.post (s.postOf r)] } ∧ t.msgs = s.msgs ∧ t.due = s.due ∧
        (r.d ≠ 0 → t.th.r.fe (dx r.d) = .pending) ∧ s.sameX t [r.d.toNat] ∧ s.sameV t [] ∧ s.sameP t [] ∧ s.sameModes t ∧
        s.sameOthers t ∧ s.sameBytes t) ∧
      (16 ≤ x.held.length → exec (.gbpost r) s = .next (s.startAbort s.cur ⟨2, 0, .handler⟩)))

/-- R161, R163 to R166: `PSCHK` whose entry is not of the address space, block and step before, or has changed since the check
began, is a miss: Pd is 0 and the miss is counted; one whose inputs are there and close enough is a hit: Pd is all ones, the entry's step advances and the
copy of its output is due; `PSPUT` of a good record fills an entry; `PSINV` makes a range of entries invalid and
returns their number. (Of the model's readings it rests on log entry 65.) -/
def Obligations.PalimpsestCache : Prop :=
  ∀ (s : State) (r : R3), s.Calm →
    (s.Issues r.sel r.neg [dx r.a, dx r.b, dx r.c, .x (r.c.toNat + 1)] [] →
      let c0 := s.x r.c
      let c1 := s.th.getX (r.c.toNat + 1)
      let θ := fmtF16.decode (c1.toNat / 2 ^ 48)
      let i := c1.toNat % 4096
      let e := Tbl.getD (s.die s.myDie).pal i PalEntry.free
      let mine := e.valid = true ∧ e.asid = s.th.asid ∧ e.block = c0.extractLsb' 32 32 ∧ e.tag = c0.setWidth 32 - 1
      θ.isNan = false → θ.isInf = false → θ.lt (.fin false 0 0) = false → c1.toNat / 2 ^ 12 % 2 ^ 36 = 0 →
      (s.x r.a).toNat % 4 = 0 → (s.x r.b).toNat % 128 = 0 →
      (¬mine ∨ (∃ g, s.th.palGen = some g ∧ g ≠ e.gen) → ∃ t, exec (.pschk r) s = .next t ∧ t.th.pc = s.th.pc + 8 ∧ (r.d.toNat % 8 ≠ 0 → t.th.getP r.d.toNat = 0) ∧
        (t.die s.myDie).psmiss = (s.die s.myDie).psmiss + 1 ∧ (t.die s.myDie).pshit = (s.die s.myDie).pshit ∧
        t.palCopies = [] ∧ s.sameX t [] ∧ s.sameV t [] ∧ s.sameBytes t) ∧
      (∀ (xs ys : Nat → List Byte), mine → s.th.palGen = none ∨ s.th.palGen = some e.gen →
        (∀ j < e.inlen.toNat, s.holds 4 (s.x r.a + BitVec.ofNat 64 (4 * j)) (xs j) ∧
          s.holds 4 (e.inptr.setWidth 64 + BitVec.ofNat 64 (4 * j)) (ys j)) →
        palClose θ ((List.range e.inlen.toNat).map fun j => fmtF32.decode (natOfBytes (xs j)))
          ((List.range e.inlen.toNat).map fun j => fmtF32.decode (natOfBytes (ys j))) = true →
        (∀ j < e.outbytes.toNat / 128, (∃ b, s.look s.cur .store 128 (s.x r.b + BitVec.ofNat 64 (128 * j)) = .at (.own b)) ∧
          ∃ pa pol, (e.outptr.setWidth 64 + BitVec.ofNat 64 (128 * j) : Word).toNat % 128 = 0 ∧
            regionOf (e.outptr.setWidth 64 + BitVec.ofNat 64 (128 * j)) = .translated ∧
            s.pagedAt .load (e.outptr.setWidth 64 + BitVec.ofNat 64 (128 * j)) pa pol) →
        ∃ t, exec (.pschk r) s = .next t ∧ t.th.pc = s.th.pc + 8 ∧
          (r.d.toNat % 8 ≠ 0 → t.th.getP r.d.toNat = 0xFFFFFFFF) ∧
          (t.die s.myDie).pshit = (s.die s.myDie).pshit + 1 ∧
          (Tbl.getD (t.die s.myDie).pal i PalEntry.free).tag = c0.setWidth 32 ∧
          (∃ p, t.palCopies = [p] ∧ p.id = s.nextId ∧ p.k = s.cur ∧ p.lines.length = e.outbytes.toNat / 128) ∧
          (⟨.palimpsestCopy, { k := s.cur, id := s.nextId }⟩ : Due) ∈ t.due ∧ s.sameX t [] ∧ s.sameV t [] ∧ s.sameBytes t)) ∧
    (s.Issues r.sel r.neg [dx r.a, dx r.c] [dx r.d] →
      let a := s.x r.a
      let i := (s.x r.c).toNat
      let w := fun (j : Nat) => natOfBytes (Mem.readBytes s.scratch (s.ownByteAt (a + BitVec.ofNat 64 (8 * j))) 8)
      (a.toNat % 64 ≠ 0 ∨ 4096 ≤ i → exec (.psput r) s = .next (s.setX r.d 1).step8) ∧
      (a.toNat % 64 = 0 → i < 4096 → (∀ j < 8, s.ownAddr 8 (a + BitVec.ofNat 64 (8 * j)) ∧
          s.scratchPoison.contains (s.ownByteAt (a + BitVec.ofNat 64 (8 * j)) / 128) = false) →
        w 1 % 4 = 0 → w 1 < 2 ^ 48 → w 2 % 128 = 0 → w 2 < 2 ^ 48 → 1 ≤ w 3 % 2 ^ 32 → w 3 % 2 ^ 32 ≤ 65536 →
        128 ≤ w 3 / 2 ^ 32 → w 3 / 2 ^ 32 ≤ 1048576 → w 3 / 2 ^ 32 % 128 = 0 → (∀ j < 8, 4 ≤ j → w j = 0) →
        ∃ (u : State) (e : PalEntry), exec (.psput r) s = .next (u.setX r.d 0).step8 ∧ Tbl.get? (u.die s.myDie).pal i = some e ∧
          e.valid = true ∧ e.asid = s.th.asid ∧ e.block.toNat = w 0 % 2 ^ 32 ∧ e.tag.toNat = w 0 / 2 ^ 32 ∧ e.inptr.toNat = w 1 ∧
          e.outptr.toNat = w 2 ∧ e.inlen.toNat = w 3 % 2 ^ 32 ∧ e.outbytes.toNat = w 3 / 2 ^ 32 ∧
          (∀ j, j ≠ i → Tbl.get? (u.die s.myDie).pal j = Tbl.get? (s.die s.myDie).pal j) ∧ u.ctxs = s.ctxs ∧ u.mem = s.mem ∧
          u.scratch = s.scratch)) ∧
    (s.Issues r.sel r.neg [dx r.a, dx r.b] [dx r.d] → (r.mod.getLsbD 0 = true → s.th.asid = 0) →
      let a := (s.x r.a).toNat
      let n := (s.x r.b).toNat
      let entry := fun (v : Die) (i : Nat) => Tbl.getD v.pal i PalEntry.free
      let hit := fun (i : Nat) => (entry (s.die s.myDie) i).valid && (r.mod.getLsbD 0 || (entry (s.die s.myDie) i).asid = s.th.asid)
      (4096 < a + n → exec (.psinv r) s = .next (s.deliver s.cur .palimpsestOperand 4 s.th.pc)) ∧
      (a + n ≤ 4096 → ∃ u : State, exec (.psinv r) s =
          .next (u.setX r.d (BitVec.ofNat 64 ((List.range n).filter fun i => hit (a + i)).length)).step8 ∧
        (∀ i, (entry (u.die s.myDie) i).valid = ((entry (s.die s.myDie) i).valid && !(decide (a ≤ i ∧ i < a + n) && hit i))) ∧
        u.ctxs = s.ctxs ∧ u.mem = s.mem ∧ u.scratch = s.scratch))

/-! ### System instructions -/

/-- R313, R314: once earlier stores are visible `TRAP` traps SOFTWARE with its code, `SYSCALL` parks the thread with KIND 4
and its pc behind the instruction, `HALT` with KIND 5 and its pc on it; `ERET` returns to TRAPPC and `eret.next` behind
it, with INTRAP cleared; with INTRAP 0 they trap ILLEGAL_OP at the handler, or the thread parks with KIND 6 where TRAPVEC is
0; a TRAPPC that is not 8-byte aligned traps MISALIGNED_PC (R96).
(Of the model's readings it rests on log entries 26, 27.) -/
def Obligations.TrapsParksReturns : Prop :=
  ∀ (s : State) (r : FS),
    let parks := fun (i : Instr) (kind : Nat) (pc : Word) =>
      ∃ t, exec i s = .next t ∧ t.th.run = .parked kind ∧ t.th.pc = pc ∧ s.sameX t [] ∧ s.sameV t [] ∧ s.sameP t [] ∧
        s.sameModes t ∧ s.sameThread t ∧ s.sameBytes t ∧ ∀ k, k ≠ s.cur → t.ctx k = s.ctx k
    let vec := (s.space s.th.asid.toNat).trapvec
    let returns := fun (i : Instr) (pc : Word) =>
      (s.th.intrap = true → pc.toNat % 8 = 0 → exec i s = .next (s.updTh fun c =>
        { c with intrap := false, pc := pc, blocked := false, woken := false, joined := false, waitSince := none })) ∧
      (s.th.intrap = true → pc.toNat % 8 ≠ 0 → exec i s = .next (s.deliver s.cur .misalignedPc 0 s.th.pc)) ∧
      (s.th.intrap = false → exec i s = .next (s.deliver s.cur .illegalOp (encode i) s.th.pc)) ∧
      (s.th.intrap = false → s.th.speculative = false → vec ≠ 0 →
        ∃ t, exec i s = .next t ∧ t.th.pc = vec ∧ t.th.trapcause = 1 ∧ t.th.trappc = s.th.pc ∧ t.th.intrap = true) ∧
      (s.th.intrap = false → s.th.speculative = false → vec = 0 → ∃ t, exec i s = .next t ∧ t.th.run = .parked 6)
    (s.Calm → exec (.trap r) s = .next (s.deliver s.cur .software (r.code.setWidth 64) s.th.pc) ∧
      parks (.syscall r) 4 (s.th.pc + 8) ∧ parks (.halt r) 5 s.th.pc) ∧
    returns (.eret r) s.th.trappc ∧ returns (.eretNext r) (s.th.trappc + 8)

/-- R32, R210, R290, R291, R293, R304, R315, R316: the value that `MFS` reads of every system register, and `RDEV` of every
event count, into Xd.

R33, R65, R201, R290, R291, R306, R315: what `MTS` in ASID 0 writes: the registers of the context, with FPSTAT's reserved
bits 0 and a mode above 4 ignored, a STOCHSEED of 0 as 1, and INTRAP alone of STATUS; MXIMAGE of the core; and the
words of ASID 0's block, LEASECFG clamped. (Of the model's readings it rests on log entries 24, 67, 86.) -/
def Obligations.SystemRegisters : Prop :=
  (∀ (s : State) (r : FS), s.Ready [] [dx r.d] → s.th.results = [] →
      let c := s.th
      let b := fun (x : Bool) => if x then 1 else 0
      let p := s.space c.asid.toNat
      let q := vat s.parts p.partition.toNat
      let v := s.die s.myDie
      let reads := fun (i : Instr) (w : Word) => exec i s = .next (s.setX r.d w).step8
      (c.asid = 0 ∨ r.code.toNat < 0x100 →
        ∀ n w, (n, w) ∈ [
            (0x000, BitVec.ofNat 64 (s.myCore + s.cur % 8 * 2 ^ 12 + c.asid.toNat * 2 ^ 15)), (0x001, v.gt), (0x002, s.cycles),
            (0x003, c.r.fpstat), (0x004, c.r.stochseed.setWidth 64), (0x005, c.trapcause), (0x006, c.trappc), (0x007, c.trapval),
            (0x008, BitVec.ofNat 64 (c.txstat.depth.toNat + 2 ^ 5 * b c.txstat.irrev + 2 ^ 6 * b c.txstat.keepage +
              2 ^ 8 * c.txstat.cause.toNat + 2 ^ 12 * c.txstat.capcount.toNat + 2 ^ 16 * c.txstat.aborts.toNat +
              2 ^ 40 * c.txstat.expcode.toNat)),
            (0x009, c.info.pscount), (0x00A, c.info.workid), (0x00B, c.info.taskarg),
            (0x100, BitVec.ofNat 64 ((v.faults.toList.filter Option.isSome).length + 2 ^ 16 * b v.dropped + v.dropcount.toNat * 2 ^ 32)),
            (0x101, p.ptbase),
            (0x102, BitVec.ofNat 64 (p.partition.toNat + q.l2mask.toNat * 2 ^ 4 + q.qmask.toNat * 2 ^ 20)), (0x103, p.leasecfg),
            (0x104, p.trapvec), (0x105, (s.core s.myCore).mximage), (0x106, p.ctxframe),
            (0x107, BitVec.ofNat 64 (b (c.asid = 0) + 2 * b c.intrap))] →
          r.code.toNat = n → reads (.mfs r) w) ∧
      (let d := s.die (r.code.toNat / 1024)
       let n := r.code.toNat % 1024
       (c.asid = 0 ∨ n < 0x20 ∨ (0x40 ≤ n ∧ n < 0x60) →
        (∀ m w, (m, w) ∈ [(0x010, d.pshit.setWidth 64), (0x011, d.psmiss.setWidth 64), (0x020, d.counts.offered),
            (0x021, d.counts.dropped), (0x022, d.counts.resumed), (0x030, d.counts.commits), (0x031, d.counts.aborts),
            (0x032, d.counts.grants), (0x060, d.counts.swaps), (0x061, d.counts.steals), (0x062, d.counts.held)] →
          n = m → reads (.rdev r) w) ∧
        (∀ j < 8, n = 0x40 + 2 * j ∨ n = 0x41 + 2 * j →
          reads (.rdev r) (if c.asid = 0 ∨ vat d.retAsid j = c.asid then (if n % 2 = 0 then vat d.rethit j else vat d.retmiss j)
            else 0))))) ∧
  (∀ (s : State) (r : FS), s.Ready [dx r.d] [] → s.th.asid = 0 →
      let w := s.x r.d
      let n := r.code.toNat
      let writes := fun (f : Ctx → Ctx) => exec (.mts r) s = .next (s.updTh f).step8
      let rm := fun (x : Word) => x.toNat / 256 % 8
      (n = 3 → writes fun c => { c with r := { c.r with
        fpstat := BitVec.ofNat 64 (w.toNat % 32 + 256 * if rm w ≤ 4 then rm w else rm c.r.fpstat) } }) ∧
      (n = 4 → writes fun c => { c with r := { c.r with stochseed := if w.toNat % 2 ^ 32 = 0 then 1 else w.setWidth 32 } }) ∧
      (n = 5 → writes fun c => { c with trapcause := w &&& 0xFF }) ∧
      (n = 6 → writes fun c => { c with trappc := w }) ∧
      (n = 7 → writes fun c => { c with trapval := w }) ∧
      (n = 0x107 → writes fun c => { c with intrap := w.getLsbD 1 }) ∧
      (n = 0x105 → exec (.mts r) s = .next (s.updCore s.myCore fun c => { c with mximage := w &&& 0x3FFFFFFFFFFFF }).step8) ∧
      (n = 0x100 → exec (.mts r) s = .next (if w.getLsbD 16 then
        s.updDie s.myDie fun v => { v with dropped := false, dropcount := 0 } else s).step8) ∧
      (∀ p, s.Calm → s.space 0 = p → p.valid = true → clampLease p.leasecfg = p.leasecfg →
        let sets := fun (i : Nat) (q : Space) => spaceReserved ((s.spaceWords 0).set i w) = false →
          ∃ u : State, exec (.mts r) s = .next u.step8 ∧ u.space 0 = q ∧ (∀ a, a ≠ 0 → u.space a = s.space a) ∧ u.ctxs = s.ctxs ∧
            u.mem = s.mem ∧ u.scratch = s.scratch
        (n = 0x101 → sets 1 { p with ptbase := w }) ∧ (n = 0x104 → sets 3 { p with trapvec := w }) ∧
        (n = 0x106 → sets 4 { p with ctxframe := w }) ∧
        (n = 0x103 → ∃ c : Word, sets 2 { p with leasecfg := c } ∧ c.toNat % 2 ^ 32 = min (max (w.toNat % 2 ^ 32) 64) 4096 ∧
          c.toNat / 2 ^ 32 = min (max (w.toNat / 2 ^ 32) 256) 65536)) ∧
      (s.Calm → n = 0x102 → w.extractLsb' 4 16 ≠ 0 → w.extractLsb' 20 16 ≠ 0 →
        let i := (s.space 0).partition.toNat
        (∀ j < 16, j ≠ i → (vat s.parts j).clusters &&& (vat s.parts i).clusters = 0) →
        exec (.mts r) s = .next ({ s with parts := vput s.parts i { vat s.parts i with
          l2mask := w.extractLsb' 4 16, qmask := w.extractLsb' 20 16 } } : State).step8))

/-- R200, R317: `TLBINV` in ASID 0, with no declared tile, no transaction and no engine at work, drops from every cluster
exactly the translations of its page, address space, or all, with their pointers, and changes no register and no byte.

R303 to R305, R318: `REPLAY` in ASID 0 makes every context of its address spaces that is parked with one of the kinds 1
to 4 run again where it stopped, and their fault records go; `replay.drop` ends a parked context.
(Of the model's readings it rests on log entry 87.) -/
def Obligations.TranslationsAndParkedThreads : Prop :=
  (∀ (s : State) (r : FS), s.Calm → s.th.asid = 0 → s.tiles = [] → s.dirs = [] →
      (∀ e ∈ s.ctxs, e.2.tx = none ∧ ∀ q ∈ [2, 4, 6, 8], vat e.2.cmds q = []) →
      let asid : BitVec 12 := (s.x r.d).extractLsb' 48 12
      let page := (s.x r.d).toNat / 4096 % 2 ^ 36 * 4096
      let drops := fun (i : Instr) (p : TlbEntry → Bool) (a : BitVec 12 → Bool) =>
        ∃ t, exec i s = .next t ∧ t.th.pc = s.th.pc + 8 ∧
          (∀ c, (t.cluster c).tlb = (s.cluster c).tlb.filter (fun e => !p e) ∧
            (t.cluster c).wcache = (s.cluster c).wcache.filter fun w => !a w.asid) ∧
          s.sameX t [] ∧ s.sameV t [] ∧ s.sameP t [] ∧ s.sameModes t ∧ s.sameThread t ∧ s.sameBytes t
      (s.full [dx r.d] →
        drops (.tlbinvPage r) (fun e => e.asid = asid && e.vpage = page / 2 ^ e.bits) (fun a => a = asid) ∧
        drops (.tlbinvAsid r) (fun e => e.asid = asid) (fun a => a = asid)) ∧
      drops (.tlbinvAll r) (fun _ => true) (fun _ => true)) ∧
  (∀ (s : State) (r : FS), s.Calm → s.th.asid = 0 →
      let resumes := fun (i : Instr) (sel : BitVec 12 → Bool) =>
        ∃ t, exec i s = .next t ∧ t.th.pc = s.th.pc + 8 ∧
          (∀ k < 32768, (∃ n, (s.ctx k).run = .parked n ∧ 1 ≤ n ∧ n ≤ 4) → sel (s.ctx k).asid = true → (t.ctx k).run = .running) ∧
          (∀ k, (∀ n, (s.ctx k).run = .parked n → n = 0 ∨ 5 ≤ n) ∨ sel (s.ctx k).asid = false → (t.ctx k).run = (s.ctx k).run) ∧
          (∀ k, k ≠ s.cur → (t.ctx k).pc = (s.ctx k).pc ∧ (t.ctx k).r = (s.ctx k).r) ∧
          (∀ c, ∀ e ∈ (t.cluster c).faults, sel e.asid = false) ∧ s.sameX t [] ∧ s.sameV t [] ∧ s.sameP t [] ∧ s.sameBytes t
      resumes (.replay r) (fun _ => true) ∧
      (s.full [dx r.d] → resumes (.replayAsid r) fun a => a = (s.x r.d).extractLsb' 0 12) ∧
      (s.full [dx r.d] → s.cur < 32768 → ∀ k < 32768, k ≠ s.cur → s.parkedIn ((s.x r.d).extractLsb' 0 12) = [k] → (s.ctx k).tx = none →
        s.released k = true →
        (∀ q ∈ [0, 2, 4, 6, 8], vat (s.ctx k).cmds q = []) → (s.ctx k).ring = none → (s.ctx k).claim = [] →
        (s.ctx k).info.notice = none → (∀ n < 4, ∀ x, s.ink (coreOf k) n = some x → x.owner ≠ k) →
        (∀ c ∈ s.cores, c.2.outlist = []) →
        ∃ t, exec (.replayDrop r) s = .next t ∧ t.th.pc = s.th.pc + 8 ∧ t.ctx k = Ctx.vacantOne ∧ s.sameX t [] ∧ s.sameV t [] ∧
          s.sameP t [] ∧ s.sameBytes t))

/-- R34 to R36, R319, R320: `CTXSAVE` writes the 4,608 bytes of its image, here to its own scratchpad, and then goes on;
`CTXLOAD` in ASID 0 of a valid image reads it into a free shadow slot, and then ends its thread, whose slot takes the
image's thread. (Of the model's readings it rests on log entry 66.) -/
def Obligations.ContextImages : Prop :=
  ∀ (s : State) (r : FS), s.Calm → s.cur < 32768 → s.full [dx r.d] →
    let va := s.x r.d
    (s.th.joined = true → exec (.ctxsave r) s = .next s.step8) ∧
    (s.th.joined = false → va.toNat % 8192 = 0 → s.imageBusy = none →
      (∀ i < 576, s.ownAddr 8 (va + BitVec.ofNat 64 (8 * i))) →
      ∃ t, exec (.ctxsave r) s = .next t ∧ t.th.joined = true ∧ t.th.pc = s.th.pc ∧ t.th.r = s.th.r ∧
        (∀ i < 576, ∀ j < 8, Mem.read t.scratch (s.ownByteAt (va + BitVec.ofNat 64 (8 * i)) + j) =
          (s.th.image (s.th.pc + 8)).getD (8 * i + j) 0) ∧
        (∀ a, (∀ i < 576, a < s.ownByteAt (va + BitVec.ofNat 64 (8 * i)) ∨ s.ownByteAt (va + BitVec.ofNat 64 (8 * i)) + 8 ≤ a) →
          Mem.read t.scratch a = Mem.read s.scratch a) ∧ ∀ a, Mem.read t.mem a = Mem.read s.mem a) ∧
    (s.th.asid = 0 → s.th.joined = false → ∀ (j p q : Nat) (pol pol' : Policy), s.freeShadow s.myCore = some j →
      va.toNat % 8192 = 0 → va.toNat + 8192 ≤ 0xFF0000000000 → s.pagedAt .load va p pol → s.pagedAt .load (va + 4096) q pol' →
      p % 4096 = 0 → q % 4096 = 0 → s.paKind p = .memory → s.paKind q = .memory → s.noPoison → s.dirs = [] → (∀ e ∈ s.ctxs, e.2.tx = none) → (∀ c ∈ s.cores, c.2.outlist = []) →
      let bs := Mem.readBytes s.mem p 4096 ++ Mem.readBytes s.mem q 512
      s.imageCode s.myCore bs = none → (field bs 0 8).testBit 15 = false →
      ∃ t, exec (.ctxload r) s = .next t ∧ t.th.joined = true ∧ t.th.pc = s.th.pc ∧ t.th.r = s.th.r ∧
        (t.ctx j).run = .checking s.cur ∧ (t.ctx j).pc.toNat = field bs 0x1100 8 ∧ (t.ctx j).asid.toNat = field bs 0 8 / 2 ^ 20 % 4096 ∧
        (∀ n < 32, 1 ≤ n → ((t.ctx j).getX n).toNat = field bs (8 * n) 8) ∧ s.sameBytes t) ∧
    (s.th.asid = 0 → s.th.joined = true → ∀ j, s.loading s.cur = some j → (s.ctx j).pops = [] →
      (s.ctx j).mxSaved = none → (∀ q ∈ [0, 2, 4, 6, 8], vat s.th.cmds q = []) → s.th.ring = none → s.th.claim = [] →
      s.th.info.notice = none → (∀ n < 4, ∀ x, s.ink s.myCore n = some x → x.owner ≠ s.cur) →
      ∃ t, exec (.ctxload r) s = .next t ∧ (t.ctx s.cur).run = .running ∧ (t.ctx s.cur).pc = (s.ctx j).pc ∧
        (t.ctx s.cur).asid = (s.ctx j).asid ∧ (t.ctx s.cur).r = (s.ctx j).r ∧ t.ctx j = Ctx.vacantOne ∧ s.sameBytes t)

/-! ### Steps of the device: results, waits and the memory system -/

/-- R28, R169, R180, R195, R204, R288, R299: a result, the data of a load, a translation, the answer of another core's
scratchpad, and the end of a wait reach their thread: its register is full with the value, or it runs again; a walk that
meets poison traps. (Of the model's readings it rests on log entries 33, 45, 152.) -/
def Obligations.ResultsAndWakes : Prop :=
  ∀ (s : State),
    let k := s.ev.k
    let c := s.ctx k
    let only := fun (t : State) => (∀ j, j ≠ k → t.ctx j = s.ctx j) ∧ (∀ a, Mem.read t.mem a = Mem.read s.mem a)
    (∀ q n w, c.results.find? (fun x => x.id = s.ev.id) = some q → q.ways = 0 → q.xs = [(n, some w)] → q.vs = [] → 1 ≤ n → n < 32 →
      (∀ p ∈ c.stores, q.after.contains p.id = false) →
      ∃ t, exec .longLatencyResult s = .next t ∧ (t.ctx k).getX n = w ∧ (t.ctx k).r.fe (.x n) = .full ∧
        (t.ctx k).r.fpstat = c.r.fpstat ||| q.flags.setWidth 64 ∧ (t.ctx k).results = c.results.filter (fun x => x.id ≠ s.ev.id) ∧
        (∀ m < 32, m ≠ n → (t.ctx k).getX m = c.getX m) ∧ only t) ∧
    (∀ q n p pa pol, c.loads.find? (fun x => x.id = s.ev.id) = some q → q.wanted = [] → q.dst = .x n → q.pieces = [p] →
      p.src = .phys pa pol → s.readBad k pa pol = false → s.ev.found = .clean → 1 ≤ n → n < 32 →
      ∃ t, exec .loadReturn s = .next t ∧ (t.ctx k).getX n = wordOf (s.bytesFor k pa q.size) ∧ (t.ctx k).r.fe (.x n) = .full ∧
        (t.ctx k).loads = c.loads.filter (fun x => x.id ≠ s.ev.id) ∧ (∀ m < 32, m ≠ n → (t.ctx k).getX m = c.getX m) ∧ only t) ∧
    (∀ w, c.run = .walking → c.walk = some w → (s.ctxs.Pairwise fun a b => a.1 < b.1) →
      let cl := clusterOf (coreOf k)
      let waits := fun (j : Nat) => clusterOf (coreOf j) = cl ∧ (s.ctx j).run = .walking ∧ (s.ctx j).asid = c.asid ∧
        ∃ v, (s.ctx j).walk = some v ∧ v.va.toNat / 4096 = w.va.toNat / 4096
      let r := s.walked cl (coreOf k) c.asid w.va.toNat
      let become := fun (t : State) (run : Run) => (∀ a, Mem.read t.mem a = Mem.read r.mem a) ∧
        (∀ j, waits j → (t.ctx j).run = run ∧ (t.ctx j).pc = (s.ctx j).pc ∧ (t.ctx j).r = (s.ctx j).r) ∧
        ∀ j, ¬waits j → t.ctx j = s.ctx j
      s.walkDead cl c.asid w.va.toNat = false →
      (s.dirs = [] → ∀ a, Mem.read r.mem a = Mem.read s.mem a) ∧
      (∀ e ptrs, r.walk cl c.asid w.va.toNat = .leaf e ptrs →
        ∃ t, exec .pageWalkComplete s = .next t ∧ (t.cluster cl).tlb.head? = some e ∧ become t .running) ∧
      (∀ e, r.walk cl c.asid w.va.toNat = .bad e → (∀ j, waits j → (s.ctx j).speculative = false) →
        ∃ t, exec .pageWalkComplete s = .next t ∧ become t (.parked e.code)) ∧
      (r.walk cl c.asid w.va.toNat = .poison →
        (∀ j, waits j → (s.ctx j).speculative = false ∧ (s.ctx j).intrap = false ∧ (s.space c.asid.toNat).trapvec ≠ 0) →
        ∃ t, exec .pageWalkComplete s = .next t ∧ (∀ a, Mem.read t.mem a = Mem.read r.mem a) ∧
          (∀ j, waits j → (t.ctx j).run = .running ∧ (t.ctx j).pc = (s.space c.asid.toNat).trapvec ∧ (t.ctx j).trapcause = 9 ∧
            (t.ctx j).trappc = (s.ctx j).pc ∧ (s.ctx j).walk.any (fun v => v.va = (t.ctx j).trapval) = true) ∧
          ∀ j, ¬waits j → t.ctx j = s.ctx j)) ∧
    (∀ k' asid size l op v, s.msgs = [(s.ev.id, .remote k' asid size [l] op)] → s.dead = [] → s.scratchPending = [] →
      (s.ctx (keyOf l.core l.slot)).run ≠ .vacant → (s.ctx (keyOf l.core l.slot)).asid = asid →
      l.a + size ≤ claimBytes (s.ctx (keyOf l.core l.slot)).claim → size < 128 →
      let b := arrayByte l.core (s.ctx (keyOf l.core l.slot)).claim l.a
      s.scratchPoison.contains (b / 128) = false →
      (op = .load → (s.ctx k').run = .remote → v = wordOf (Mem.readBytes s.scratch b size) →
        ∃ t, exec .remoteScratchAccess s = .next t ∧ (t.ctx k').run = .running ∧ (t.ctx k').answer = some (.values [(l.lane, v)]) ∧
          t.scratch = s.scratch ∧ t.mem = s.mem ∧ t.msgs = []) ∧
      (op = .store → ∃ t, exec .remoteScratchAccess s = .next t ∧ t.msgs = [] ∧ t.ctxs = s.ctxs ∧ t.mem = s.mem ∧
        (∀ j < size, Mem.read t.scratch (b + j) = BitVec.ofNat 8 (l.val.toNat / 256 ^ j)) ∧
        ∀ a, a < b ∨ b + size ≤ a → Mem.read t.scratch a = Mem.read s.scratch a)) ∧
    (c.run = .release → s.released k = true → exec .releaseComplete s = .next (s.updCtx k fun c => { c with run := .running })) ∧
    (∀ l, c.run = .waitev l → exec .waitevWake s = .next (s.updCtx k fun c => { c with run := .running, woken := true })) ∧
    (∀ d o n, c.run = .barwait d o n → exec .barwaitWake s = .next (s.updCtx k fun c => { c with run := .running, woken := true }))

/-- R201 to R206: the steps of leases and owners at a tile's home: a lease request of an idle tile is granted, an exclusive
request waits for its turn and gives its own lease up, an exclusive grant needs every lease to have ended by the guard
band, at the home and at the core, and makes the waiting store visible; owners are recalled, write back and give tiles up; leases end.

R175, R193, R194, R205: a store to uncached memory becomes visible at its home; a contribution of a reduction joins
the partials of its tile; a recall of the partials combines them into memory and leaves the tile invalid.
(Of the model's readings it rests on log entries 34, 35, 36, 118, 145.) -/
def Obligations.Homes : Prop :=
  (∀ (s : State), s.dead = [] → (∀ e ∈ s.ctxs, e.2.tx = none) →
      let line := s.ev.line
      let n := s.tileOf line
      let core := s.ev.core
      let d := s.dir n
      let home := fun (i : Instr) (st : HomeState) (owner : Nat) =>
        ∃ t, exec i s = .next t ∧ (t.dir n).st = st ∧ (t.dir n).owner = owner ∧ (∀ m, m ≠ n → t.dir m = s.dir m) ∧ t.mem = s.mem ∧
          t.ctxs = s.ctxs
      let gone := fun (i : Instr) (c : Nat) (st : HomeState) =>
        ∃ t, exec i s = .next t ∧ (t.dir n).st = st ∧ t.l1 c n = L1Tile.absent ∧ t.mem = s.mem ∧ t.ctxs = s.ctxs
      (d.st = .i → d.waiting = [] → d.owner = 0 → s.tileDie n = dieOf core → (s.l1 core n).st = .i → s.ev.q = 0 → s.ev.n = 0 →
        s.ev.found = .clean → (∀ e ∈ (s.core core).lines, e.spec = none) → ∃ t, exec .leaseRequest s = .next t ∧ (t.dir n).st = .l ∧
          (t.l1 core n).st = .l (s.gtOf (dieOf core) + ((s.space (s.ctx s.ev.k).asid.toNat).leasecfg &&& 0xFFFFFFFF)) ∧
          ((s.core core).freeWays ≠ [] → ((t.core core).copyOf line).isSome = true) ∧ t.mem = s.mem) ∧
      (s.l1Owns core line = false → ∃ t, exec .exclusiveRequest s = .next t ∧
        (t.dir n).waiting = (if d.waiting.contains core then d.waiting else d.waiting ++ [core]) ∧
        Tbl.get? (t.dir n).leases core = none ∧ (t.dir n).st = d.st ∧ t.mem = s.mem ∧ t.ctxs = s.ctxs) ∧
      (∀ q cs, d.st = .l ∨ d.st = .i → core < 4096 → d.waiting = core :: cs → s.leasesOver n core = true →
        s.l1Owns core line = false → (s.ctx s.ev.k).storeOn line = some q → s.ev.n = 1 →
        ¬s.gtOf (dieOf core) < s.writeFloor n → (∀ e ∈ (s.core core).lines, e.spec = none) →
        ∃ t, exec .exclusiveGrant s = .next t ∧ (t.dir n).st = .m ∧ (t.dir n).owner = core ∧ (t.dir n).leases = [] ∧
          (t.dir n).waiting = cs.filter (fun w => w ≠ core ∧ w ≠ 8192 + s.ev.k) ∧ (t.l1 core n).st = .m ∧ t.mem = Mem.writeAll s.mem q.bytes ∧
          (t.ctx s.ev.k).stores = (s.ctx s.ev.k).stores.filter (fun x => x.id ≠ q.id)) ∧
      (d.st = .l → core < 4096 → s.leasesOver n core = false → d.waiting.head? = some core → s.l1Owns core line = false →
        ∃ t, exec .exclusiveGrant s = .next t ∧ t.dirs = s.dirs ∧ t.mem = s.mem ∧ t.ctxs = s.ctxs) ∧
      (d.st = .e ∨ d.st = .m →
        (d.owner = core → s.holdsTile core n = false → gone .ownerWriteback core .i) ∧ gone .recallForExclusive d.owner .i ∧
        (d.st = .e → (s.l1 d.owner n).dirty = [] → gone .recallForLease d.owner .l) ∧
        (d.st = .m ∨ (s.l1 d.owner n).dirty ≠ [] → home .recallForLease .o d.owner)) ∧
      (d.st = .o → (d.owner = core → s.holdsTile core n = false → gone .ownerWriteback core .l) ∧
        (s.leasesOver n noCore = true → gone .recallForExclusive d.owner .i) ∧
        (s.leasesOver n noCore = false → exec .recallForExclusive s = .next s)) ∧
      (¬s.gtOf (s.tileDie n) < d.lexp + 32 → (d.st = .l → home .homeLeaseExpiry .i d.owner) ∧
        (d.st = .o → ∃ t, exec .homeLeaseExpiry s = .next t ∧ (t.dir n).st = .m ∧ (t.dir n).owner = d.owner ∧
          (∀ m, m ≠ n → t.dir m = s.dir m) ∧ (t.l1 d.owner n).st = .m ∧ ¬(t.l1 d.owner n).bound < s.writeFloor n ∧ t.mem = s.mem ∧
          t.ctxs = s.ctxs)) ∧
      (∀ x, (s.l1 core n).st = .l x → x ≤ s.gtOf (dieOf core) →
        ∃ t, exec .l1LeaseExpiry s = .next t ∧ t.l1 core n = L1Tile.absent ∧ t.dirs = s.dirs ∧ t.mem = s.mem ∧ t.ctxs = s.ctxs)) ∧
  (∀ (s : State), s.dead = [] → (∀ e ∈ s.ctxs, e.2.tx = none) →
      let k := s.ev.k
      let n := s.tileOf s.ev.line
      (∀ q, s.paKind (s.ev.line * 128) = .memory → (s.dir n).st = .i → s.leasesOver n noCore = true → s.ev.n = 1 →
        (s.ctx k).storeOn s.ev.line = some q →
        ∃ t, exec .homeAccess s = .next t ∧ t.mem = Mem.writeAll s.mem q.bytes ∧
          (t.ctx k).stores = (s.ctx k).stores.filter (fun x => x.id ≠ q.id) ∧ ∀ j, j ≠ k → t.ctx j = s.ctx j) ∧
      (∀ p, (s.ctx k).reds.find? (fun x => x.id = s.ev.id) = some p → (s.ctx k).stores = [] → s.paKind p.pa = .memory →
        ((s.dir n).st = .i ∧ s.leasesOver n noCore = true) ∨ (s.dir n).st = .u → s.l1Owns s.ev.core s.ev.line = false →
        ∃ t, exec .reductionPartial s = .next t ∧ (t.dir n).st = .u ∧ (t.dir n).partials = (s.dir n).partials ++ [p] ∧
          (t.ctx k).reds = (s.ctx k).reds.filter (fun x => x.id ≠ s.ev.id) ∧ t.mem = s.mem) ∧
      (∀ p, (s.dir n).st = .u → (s.dir n).partials = [p] → s.paPoison p.pa = false → p.op = 0 → p.det = false →
        ∃ t, exec .partialRecall s = .next t ∧ (t.dir n).st = .i ∧ (t.dir n).partials = [] ∧ t.ctxs = s.ctxs ∧
          let size := if p.dword then 8 else 4
          natOfBytes (Mem.readBytes t.mem p.pa size) = (natOfBytes (Mem.readBytes s.mem p.pa size) + p.val.toNat) % 256 ^ size ∧
          ∀ a, a < p.pa ∨ p.pa + size ≤ a → Mem.read t.mem a = Mem.read s.mem a))

/-- R212, R213, R215, R217, R221: a tile that no other transaction holds is registered; `PREPARE`s are answered, and the
last answer gives the commit time, at least 32 ns after every lease that the commit's writes must outlast; `COMMIT` is
received; at the commit time the writes of the transaction become visible together, and the thread goes on; an abort
that waited restores the checkpoint; the token goes to the die whose turn it is.
(Of the model's readings it rests on log entry 38.) -/
def Obligations.TransactionSteps : Prop :=
  ∀ (s : State), s.dead = [] →
    let k := s.ev.k
    let c := s.ctx k
    (∀ x, c.tx = some x → x.phase = .live → c.abort = none → x.reds = [] → (∀ e ∈ s.ctxs, e.1 ≠ k → e.2.tx = none) →
      let n := s.tileOf s.ev.line
      (s.dir n).st ≠ .u → (s.dir n).readers = [] → (s.dir n).reducers = [] →
      (s.ev.n = 0 → x.reads.contains n = false → x.writes.contains n = false →
        ∃ t, exec .txRegistration s = .next t ∧ (t.ctx k).tx = some { x with reads := x.reads ++ [n] } ∧ (t.dir n).readers = [k] ∧
          t.mem = s.mem) ∧
      (s.ev.n = 1 → x.writes.contains n = false → x.partials = [] →
        ∃ t, exec .txRegistration s = .next t ∧ (t.ctx k).tx = some { x with writes := x.writes ++ [n] } ∧
          (t.dir n).writer = some k ∧ t.mem = s.mem)) ∧
    (∀ x lexp, c.tx = some x → x.phase = .preparing [s.ev.id] lexp → c.abort = none → (s.dir s.ev.id).st = .l →
      x.writes.contains s.ev.id = true →
      ∃ t tc, exec .prepare s = .next t ∧ (t.ctx k).tx = some { x with phase := .committing tc x.tiles } ∧
        s.gtOf (dieOf (coreOf k)) + 32 ≤ tc ∧ (lexp.toNat + 32 < 2 ^ 64 → (s.dir s.ev.id).lexp.toNat + 32 < 2 ^ 64 →
          lexp + 32 ≤ tc ∧ (s.dir s.ev.id).lexp + 32 ≤ tc) ∧ t.mem = s.mem) ∧
    (∀ x tc left, c.tx = some x → x.phase = .committing tc left →
      (∃ t, exec .commit s = .next t ∧ (t.ctx k).tx = some { x with phase := .committing tc (left.filter (· ≠ s.ev.id)) } ∧ t.mem = s.mem) ∧
      (left = [] → s.before k x tc = false → (∀ w ∈ x.spec, s.paKind w.1 = .memory) → x.partials = [] → x.held = [] →
        (∀ e ∈ (s.core (coreOf k)).lines, e.spec = none ∨ e.spec = some k) →
        ∃ t, exec .txCommitComplete s = .next t ∧ t.mem = Mem.writeAll s.mem x.spec ∧ (t.ctx k).tx = none ∧
          (t.ctx k).run = .running ∧ (t.ctx k).txstat.depth = 0 ∧ (t.ctx k).r = c.r ∧
          (t.ctx k).pc = (if x.handler.isSome then c.pc + 8 else c.pc) ∧ ∀ j, j ≠ k → t.ctx j = s.ctx j)) ∧
    (∀ x h q, c.tx = some x → x.handler = some h → x.held = [] → c.abort = some q → s.settled k = true → q.after = .handler →
      ∃ t, exec .txAbort s = .next t ∧ (t.ctx k).tx = none ∧ (t.ctx k).r = x.ckpt ∧ (t.ctx k).pc = h ∧
        (t.ctx k).txstat.cause = q.cause ∧ (t.ctx k).txstat.depth = 0 ∧ t.mem = s.mem) ∧
    (∀ j, s.tokenHolder = none → s.tokenTurn < 4 → (s.die s.tokenTurn).tokenq.head? = some j → (s.ctx j).run = .token →
      ∃ t, exec .tokenGrant s = .next t ∧ t.tokenHolder = some j ∧ t.tokenTurn = (s.tokenTurn + 1) % 4 ∧
        (t.ctx j).run = .running ∧ (t.die s.tokenTurn).tokenq = (s.die s.tokenTurn).tokenq.drop 1 ∧ t.mem = s.mem)

/-! ### Steps of the device: engines -/

/-- R224, R226, R232, R233, R235, R287, R163: an engine takes the head of the view whose turn it is to its work, discards a command
whose guard is false, and leaves one that is held; an element reaches the pop that waits for it; a copy between two areas of
scratchpad moves every byte and completes; a queued arrival is counted; a hit's output is copied.
(Of the model's readings it rests on log entries 17, 47, 156.) -/
def Obligations.EngineSteps : Prop :=
  ∀ (s : State), s.dead = [] →
    let k := s.ev.k
    let c := s.ctx k
    let others := fun (t : State) => ∀ j, j ≠ k → t.ctx j = s.ctx j
    (∀ q ∈ [0, 2, 4, 6, 8], ∀ m ms, s.ev.q = q → vat c.cmds q = m :: ms → m.started = false → (∀ n ∈ ms, n.id ≠ m.id) →
      ((m.held = true ∨ ∃ g, m.bound = .heldOn g) → exec .engineCommandStart s = .next s) ∧
      (m.held = false → m.bound = .free → s.pushReleased k m.id = true → s.turnOf (coreOf k) q = some k →
        let runs : Due := if q = 0 then ⟨.matrixCommandExecute, { k := k, id := m.id }⟩
          else if q = 4 then ⟨.gatherExecute, { k := k, id := m.id }⟩
          else if q = 6 then ⟨.mergeExecute, { die := dieOf (coreOf k), n := coreOf k % 1024 / 512 }⟩
          else if q = 8 then ⟨.engineCommandComplete, { k := k, q := 8, id := m.id }⟩
          else if m.barq then ⟨.barqArrival, { k := k, id := m.id }⟩
          else if m.fn = 3 then ⟨.kickArrival, { id := s.nextId }⟩ else ⟨.engineCommandComplete, { k := k, id := m.id }⟩
        ∃ t, exec .engineCommandStart s = .next t ∧ vat (t.ctx k).cmds q = { m with started := true } :: ms ∧ runs ∈ t.due ∧
          others t ∧ t.mem = s.mem ∧ t.scratch = s.scratch) ∧
      (q ∈ [0, 6, 8] → m.held = false → m.bound = .discarded → (vat c.elems (q + 1)).length < 16 →
        s.turnOf (coreOf k) q = some k →
        ∃ t, exec .engineCommandStart s = .next t ∧ vat (t.ctx k).cmds q = ms ∧
          vat (t.ctx k).elems (q + 1) = vat c.elems (q + 1) ++ [elem 1 m.fn m.postInfo] ∧ others t ∧ t.mem = s.mem ∧ t.scratch = s.scratch)) ∧
    (∀ p, k < 32768 → c.pops = [p] → s.ev.q = p.q → p.q < 12 → (p.q = 9 → Tbl.get? s.ote.held k = none) →
      (∀ n e es, p.dst = .x n → 1 ≤ n → n < 32 → p.q ≠ 5 → vat c.elems p.q = e :: es →
        ∃ t, exec .queuePopDeliver s = .next t ∧ (t.ctx k).getX n = e ∧ (t.ctx k).r.fe (.x n) = .full ∧
          vat (t.ctx k).elems p.q = es ∧ (t.ctx k).pops = [] ∧ (∀ i < 32, i ≠ n → (t.ctx k).getX i = c.getX i) ∧ others t) ∧
      (∀ n l ls, p.dst = .v n → n < 32 → p.q = 5 → c.lines = ⟨l, false⟩ :: ls →
        ∃ t, exec .queuePopDeliver s = .next t ∧ (t.ctx k).getV n = l ∧ (t.ctx k).r.fe (.v n) = .full ∧
          (t.ctx k).lines = ls ∧ (t.ctx k).pops = [] ∧ (∀ i < 32, (t.ctx k).getX i = c.getX i) ∧ others t)) ∧
    (∀ m, s.ev.q ≠ 8 → s.serves 2 m → m.fn = 0 → m.barq = false → m.cmd.getLsbD 0 = true → m.cmd.getLsbD 1 = true →
      s.scratchPoison = [] → s.scratchPending = m.destLines (coreOf k) c.claim → goodClaim c.claim →
      let a := m.a.toNat
      let b := m.b.toNat
      let n := m.c.toNat
      n % 4 = 0 → 4 ≤ n → n ≤ 16777216 → a % 4 = 0 → b % 4 = 0 → a + n ≤ 32768 * c.claim.length → b + n ≤ 32768 * c.claim.length →
      (a + n ≤ b ∨ b + n ≤ a) →
      ∃ t, exec .engineCommandComplete s = .next t ∧ s.commandDone t 2 m 0 n ∧ t.mem = s.mem ∧ t.scratchPending = [] ∧
        (∀ i < n, Mem.read t.scratch (s.localAt k (a + i)) = Mem.read s.scratch (s.localAt k (b + i))) ∧
        ∀ x, (∀ i < n, x ≠ s.localAt k (a + i)) → Mem.read t.scratch x = Mem.read s.scratch x) ∧
    (∀ m b, s.serves 2 m → m.cmd = 0 → m.a.toNat < 8192 →
      let d := m.a.toNat / 2048
      let o := m.a.toNat % 2048
      let n := m.b.setWidth 32
      let q := n.toNat % 4
      s.barrier? d o = some b → b.asid = c.asid → (n - b.p).toNat ≤ 3 → vat b.a q < b.e → vat b.a (b.p.toNat % 4) ≠ b.e →
      (n ≠ b.p ∨ vat b.a q + 1 < b.e) →
      ∃ t, exec .barqArrival s = .next t ∧ t.barrier? d o = some { b with a := vput b.a q (vat b.a q + 1) } ∧
        (∀ j, j ≠ o → t.barrier? d j = s.barrier? d j) ∧ vat (t.ctx k).cmds 2 = [] ∧ others t ∧ t.mem = s.mem ∧ t.scratch = s.scratch) ∧
    (∀ p x y, s.dirs = [] → (∀ e ∈ s.ctxs, e.2.tx = none) → s.noPoison → s.scratchPoison = [] → s.palCopies = [p] → p.id = s.ev.id → p.k = k → p.lines = [((true, x), (false, y))] → x % 128 = 0 → y % 128 = 0 →
      s.paKind y = .memory →
      ∃ t, exec .palimpsestCopy s = .next t ∧ t.palCopies = [] ∧ t.mem = s.mem ∧ t.ctxs = s.ctxs ∧
        (∀ i < 128, Mem.read t.scratch (x + i) = Mem.read s.mem (y + i)) ∧
        ∀ a, a < x ∨ x + 128 ≤ a → Mem.read t.scratch a = Mem.read s.scratch a)

/-- R237, R238, R239: a gather of up to 32 words posts the line of the words that its indices name, and after its last line
the trailer with its counts; a merge with a good descriptor writes the coordinates and values of its output to the two
output arrays and completes with their number.

R239: the output of a merge names every coordinate of its fibres once, in ascending order; a merge of integers gives
with each the sum of its values modulo 2^32. (Of the model's readings it rests on log entries 47, 52, 53.) -/
def Obligations.GathersAndMergesRun : Prop :=
  (∀ (s : State), s.Quiet → s.scratchPending = [] →
      (∀ m, let k := s.ev.k
        let c := s.ctx k
        let n := m.c.toNat
        vat c.cmds 4 = [m] → m.id = s.ev.id → c.lines.length < 16 → m.cmd.getLsbD 11 = false → m.cmd.toNat / 256 % 8 = 0 →
        1 ≤ n → n ≤ 32 → m.b.toNat % 4 = 0 → m.b.toNat + 4 * n ≤ 32768 * c.claim.length →
        (∀ pa : Nat → Nat, m.done = 0 → m.tally = [] → m.a.toNat % 4 = 0 →
          (∀ i < n, s.engAt k .load
            (m.a.toNat + 4 * natOfBytes (Mem.readBytes s.scratch (s.localAt k (m.b.toNat + 4 * i)) 4)) (pa i)) →
          ∃ t l, exec .gatherExecute s = .next t ∧ (t.ctx k).lines = c.lines ++ [⟨l, false⟩] ∧
            (∀ i < 32, vat l i = if i < n then BitVec.ofNat 32 (natOfBytes (Mem.readBytes s.mem (pa i) 4)) else 0) ∧
            vat (t.ctx k).cmds 4 = [{ m with done := 1, tally := [0, 0, 0] }] ∧
            (⟨.gatherExecute, { k := k, id := m.id }⟩ : Due) ∈ t.due ∧ (∀ j, j ≠ k → t.ctx j = s.ctx j) ∧ t.mem = s.mem ∧
            t.scratch = s.scratch) ∧
        (∀ st replaced poisoned, m.done = 1 → m.tally = [st, replaced, poisoned] →
          ∃ t l, exec .gatherExecute s = .next t ∧ (t.ctx k).lines = c.lines ++ [⟨l, false⟩] ∧
            (∀ i < 32, vat l i = if i = 0 then BitVec.ofNat 32 n else if i = 1 then BitVec.ofNat 32 st else if i = 2 then 8
              else if i = 4 then BitVec.ofNat 32 replaced else if i = 5 then BitVec.ofNat 32 poisoned else 0) ∧
            vat (t.ctx k).cmds 4 = [] ∧ (∀ j, j ≠ k → t.ctx j = s.ctx j) ∧ t.mem = s.mem ∧ t.scratch = s.scratch)) ∧
      (∀ turn rest m head body d ps fs (u v w x : State) (cp vp : Nat → Nat), s.ev.n = 0 → (s.die s.ev.die).merge0 = turn :: rest →
        let k := turn.k
        let c := s.ctx k
        vat c.cmds 6 = [m] → m.id = turn.id → (vat c.elems 7).length < 16 → m.a.toNat % 8 = 0 → m.a.toNat + 32 ≤ remoteBase →
        s.engWords k m.a.toNat 8 = (u, .ok head) → u.engWords k (m.a.toNat + 32) (6 * (head.getD 5 0 % 256)) = (v, .ok body) →
        mergeDesc head body = some d → { v with ev := s.ev }.fibrePlaces k d.fibres = (w, ps) →
        (w.engServe k c.asid false (memLines ps)).readFibres k d.fibres = (x, fs) →
        (∀ f ∈ fs, f.2 = 0 ∧ ∀ e ∈ f.1, e.2.2 = false) →
        let out := mergeOut d.int (fs.map (·.1))
        let n := out.length
        n ≤ d.cap →
        (∀ i < n, x.engAt k .store (d.outCoord + 4 * i) (cp i) ∧ x.engAt k .store (d.outVal + 4 * i) (vp i)) →
        (∀ i < n, ∀ j < n, (i ≠ j → (cp i + 4 ≤ cp j ∨ cp j + 4 ≤ cp i) ∧ (vp i + 4 ≤ vp j ∨ vp j + 4 ≤ vp i)) ∧
          (cp i + 4 ≤ vp j ∨ vp j + 4 ≤ cp i)) →
        ∃ t, exec .mergeExecute s = .next t ∧ vat (t.ctx k).cmds 6 = [] ∧
          vat (t.ctx k).elems 7 = vat c.elems 7 ++ (if m.cmd.getLsbD 14 then [elem 0 m.fn n] else []) ∧
          (t.die s.ev.die).merge0 = rest ∧
          (∀ i < n, natOfBytes (Mem.readBytes t.mem (cp i) 4) = (out.getD i (0, 0, false)).1 % 2 ^ 32 ∧
            natOfBytes (Mem.readBytes t.mem (vp i) 4) = (out.getD i (0, 0, false)).2.1 % 2 ^ 32) ∧
          (∀ a, (∀ i < n, (a < cp i ∨ cp i + 4 ≤ a) ∧ (a < vp i ∨ vp i + 4 ≤ a)) → Mem.read t.mem a = Mem.read s.mem a) ∧
          t.scratch = s.scratch ∧ ∀ j, j ≠ k → t.ctx j = s.ctx j)) ∧
  (∀ (int : Bool) (fs : List (List (Nat × Nat × Bool))),
      let o := mergeOut int fs
      (o.map (·.1)).Pairwise (· < ·) ∧ (∀ c, c ∈ o.map (·.1) ↔ ∃ f ∈ fs, ∃ e ∈ f, e.1 = c) ∧
      ((∀ f ∈ fs, ∀ e ∈ f, e.2.1 < 2 ^ 32) → int = true →
        ∀ e ∈ o, e.2.1 = ((fs.flatten.filter fun x => x.1 = e.1).map (·.2.1)).sum % 2 ^ 32))

/-- R114, R117, R119, R123 to R129: the matrix unit executes the command at the head of its owner's view: a claim of a free
unit, a claim with `.try` of an owned one, a release, and a command without ownership; a weight tile; a knot table with its
range and scale, or BAD_OPERAND where lo and hi give none, and a bias vector; a stream of INT8 rows, which adds the 32
products of each row and column to the accumulators modulo 2^32; a stream of float rows, which adds them with one
alignment and one rounding; a drain of INT32 rows; a drain of any other output format, each element through bias,
activation and scale; a ring's size. A tile of the ring passes into the next core's latch, and a send or a receive that waits for 2^20 cycles ends.
(Of the model's readings it rests on log entries 12, 110.) -/
def Obligations.MatrixSteps : Prop :=
  ∀ (s : State) (m : Cmd), s.Quiet →
    let k := s.ev.k
    let c := s.ctx k
    let u := s.mx (coreOf k)
    let a := m.a.toNat
    let room := 32768 * c.claim.length
    let byte := fun (i : Nat) => Mem.read s.scratch (s.localAt k (a + i))
    let claims := fun (t : State) (st : Nat) => vat (t.ctx k).cmds 0 = [] ∧
      vat (t.ctx k).elems 1 = vat c.elems 1 ++ [elem st 0x10 0] ∧ (∀ j, j ≠ k → t.ctx j = s.ctx j) ∧ t.mem = s.mem ∧ t.scratch = s.scratch
    (k < 32768 → c.mxSaved = none → s.serves 0 m →
      (m.fn = 0x10 →
        (m.cmd.getLsbD 1 = false → u.owner = none → u.claimers = [] →
          ∃ t, exec .matrixCommandExecute s = .next t ∧ t.mx (coreOf k) = { Matrix.idle with owner := some k } ∧ claims t 0) ∧
        (∀ j, m.cmd.getLsbD 1 = false → m.cmd.getLsbD 0 = true → u.owner = some j → j ≠ k →
          ∃ t, exec .matrixCommandExecute s = .next t ∧ t.mx (coreOf k) = u ∧ claims t 3) ∧
        (m.cmd.getLsbD 1 = true → u.owner = some k →
          ∃ t, exec .matrixCommandExecute s = .next t ∧ t.mx (coreOf k) = { Matrix.idle with claimers := u.claimers } ∧ claims t 0)) ∧
      (m.fn ≠ 0x10 → u.owner ≠ some k →
        ∃ t, exec .matrixCommandExecute s = .next t ∧ t.mx (coreOf k) = u ∧ s.commandDone t 0 m 2 0 ∧ t.mem = s.mem ∧ t.scratch = s.scratch) ∧
      (u.owner = some k → goodClaim c.claim → a % 128 = 0 →
        (let f : BitVec 5 := m.cmd.extractLsb' 0 5
         let n := tileBytes f 32 32
         m.fn = 0x11 → s.scratchPending = [] → a + n ≤ room →
          ∃ t, exec .matrixCommandExecute s = .next t ∧ s.commandDone t 0 m 0 0 ∧
            t.mx (coreOf k) = { u with wfmt := some f, weights := (List.range n).map byte, wsrc := m.a } ∧ t.mem = s.mem ∧
            t.scratch = s.scratch) ∧
        (let lo := m.b.extractLsb' 0 32
         let hi := m.c.extractLsb' 0 32
         m.fn = 0x12 → m.cmd.getLsbD 0 = false →
          (knotScale lo hi = none →
            ∃ t, exec .matrixCommandExecute s = .next t ∧ t.mx (coreOf k) = u ∧ s.commandDone t 0 m 0x0B 0 ∧ t.mem = s.mem ∧
              t.scratch = s.scratch) ∧
          (∀ sc, knotScale lo hi = some sc → s.scratchPending = [] → a + 514 ≤ room →
            ∃ t ks, exec .matrixCommandExecute s = .next t ∧ s.commandDone t 0 m 0 0 ∧ ks.length = 257 ∧
              (∀ i < 257, (ks.getD i 0).toNat = natOfBytes [byte (2 * i), byte (2 * i + 1)]) ∧
              t.mx (coreOf k) = { u with knots := some ks, lo := lo, hi := hi, s := sc } ∧ t.mem = s.mem ∧ t.scratch = s.scratch)) ∧
        (m.fn = 0x12 → m.cmd.getLsbD 0 = true → s.scratchPending = [] → a + 128 ≤ room →
          ∃ t b, exec .matrixCommandExecute s = .next t ∧ s.commandDone t 0 m 0 0 ∧
            (∀ j < 32, (vat b j).toNat = natOfBytes ((List.range 4).map fun i => byte (4 * j + i))) ∧
            t.mx (coreOf k) = { u with bias := b } ∧ t.mem = s.mem ∧ t.scratch = s.scratch) ∧
        (let first := m.b.toNat % 256
         let rows := m.b.toNat / 256
         let f := m.streamFmt
         ∀ wf, m.fn = 0x13 → s.scratchPending = [] → m.streamRing = false → tileInt f = false → u.wfmt = some wf → tileInt wf = false →
          1 ≤ rows → rows ≤ 128 → first / 128 = (first + rows - 1) / 128 → u.dirty (1 - first / 128) = false →
          a + tileBytes f rows rows ≤ room →
          let bs := (List.range (tileBytes f rows rows)).map byte
          ∃ t, exec .matrixCommandExecute s = .next t ∧ s.commandDone t 0 m 0 rows ∧ t.mem = s.mem ∧ t.scratch = s.scratch ∧
            (t.mx (coreOf k)).dirty (first / 128) = true ∧
            (∀ r < rows, ∀ j < 32, (vat (vat (t.mx (coreOf k)).acc (first + r)) j).toNat =
              alignedSum (((List.range 32).map fun i =>
                mulExact ((activationRow f bs rows r).getD i .canon) ((weightColumn wf u.weights j).getD i .canon)) ++
                [fmtF32.decode (if m.streamClear then 0 else (vat (vat u.acc (first + r)) j).toNat)])) ∧
            ∀ r < 256, (r < first ∨ first + rows ≤ r) → vat (t.mx (coreOf k)).acc r = vat u.acc r) ∧
        (let first := m.b.toNat % 256
         let rows := m.b.toNat / 256
         m.fn = 0x13 → s.scratchPending = [] → m.cmd.getLsbD 12 = false → m.cmd.toNat / 64 % 32 = 1 → u.wfmt = some 1 → 1 ≤ rows → rows ≤ 128 →
          first / 128 = (first + rows - 1) / 128 → u.dirty (1 - first / 128) = false → a + 32 * rows ≤ room →
          ∃ t, exec .matrixCommandExecute s = .next t ∧ s.commandDone t 0 m 0 rows ∧ t.mem = s.mem ∧ t.scratch = s.scratch ∧
            (t.mx (coreOf k)).dirty (first / 128) = true ∧
            (∀ r < rows, ∀ j < 32, vat (vat (t.mx (coreOf k)).acc (first + r)) j = BitVec.ofInt 32
              ((if m.cmd.getLsbD 13 then 0 else (vat (vat u.acc (first + r)) j).toInt) +
                ((List.range 32).map fun i => (byte (32 * r + i)).toInt * (u.weights.getD (32 * i + j) 0).toInt).sum)) ∧
            ∀ r < 256, (r < first ∨ first + rows ≤ r) → vat (t.mx (coreOf k)).acc r = vat u.acc r) ∧
        (let bank := m.cmd.toNat / 128 % 2
         let n := m.cmd.toNat % 128 + 1
         m.fn = 0x14 → s.scratchPending = m.destLines (coreOf k) c.claim → m.cmd.toNat / 256 % 8 = 6 → m.cmd.getLsbD 12 = false → u.wfmt = some 1 → m.c.toNat + n ≤ 128 →
          a + 128 * n ≤ room →
          ∃ t, exec .matrixCommandExecute s = .next t ∧ s.commandDone t 0 m 0 n ∧ t.mem = s.mem ∧ t.scratchPending = [] ∧
            t.mx (coreOf k) = u.setDirty bank false ∧
            (∀ i < n, ∀ j < 32, natOfBytes (Mem.readBytes t.scratch (s.localAt k (a + 128 * i + 4 * j)) 4) =
              (vat (vat u.acc (128 * bank + m.c.toNat + i)) j).toNat) ∧
            ∀ x, (∀ i < 128 * n, x ≠ s.localAt k (a + i)) → Mem.read t.scratch x = Mem.read s.scratch x) ∧
        (let bank := m.cmd.toNat / 128 % 2
         let n := m.cmd.toNat % 128 + 1
         let f := m.cmd.toNat / 256 % 8
         let f32 := fun (x : Nat) => fmtF32.decode x
         let y := fun (i j : Nat) =>
          let c := (vat (vat u.acc (128 * bank + m.c.toNat + i)) j).toNat
          let x := if u.ints then toF32 (.num (exactOfInt (ivalOf true 32 c)) 0) else c
          let x := if m.cmd.getLsbD 13 then toF32 (opAdd 0 (f32 x) (f32 (vat u.bias j).toNat)) else x
          let x := if m.cmd.getLsbD 12 then knotEval (u.knots.getD []) u.lo u.hi u.s x else x
          mulExact (f32 x) (f32 (if m.cmd.getLsbD 11 then m.b.toNat % 2 ^ 32 else 0x3F800000))
         let num := fun (t : State) (o w : Nat) => natOfBytes (Mem.readBytes t.scratch (s.localAt k (a + o)) w)
         m.fn = 0x14 → s.scratchPending = m.destLines (coreOf k) c.claim → f ≤ 5 → (m.cmd.getLsbD 12 = true → u.knots.isSome = true) →
          m.c.toNat + n ≤ 128 → a + m.drainBytes ≤ room →
          ∃ t, exec .matrixCommandExecute s = .next t ∧ s.commandDone t 0 m 0 n ∧ t.mem = s.mem ∧ t.scratchPending = [] ∧
            t.mx (coreOf k) = u.setDirty bank false ∧
            (f ≤ 3 → ∀ i < n, ∀ j < 32, num t (drainRow f * i + (drainFmt f).width / 8 * j) ((drainFmt f).width / 8) =
              drainFloat (drainFmt f) (y i j)) ∧
            (f = 4 → ∀ i < n, ∀ j < 32, num t (32 * i + j) 1 = drainInt8 (y i j)) ∧
            (f = 5 → ∀ i < n,
              let q := quantise 0x13 0 ((List.range 32).map fun j => f32 (match y i j with
                | .fin s m e => toF32 (.num ⟨s, m, e, false⟩ 0)
                | v => toF32 (.val v 0))) ⟨1, 0⟩
              (∀ j < 16, num t (16 * i + j) 1 = q.2.1.getD (2 * j) 0 + 16 * q.2.1.getD (2 * j + 1) 0) ∧ num t (16 * n + i) 1 = q.1) ∧
            ∀ x, (∀ i < m.drainBytes, x ≠ s.localAt k (a + i)) → Mem.read t.scratch x = Mem.read s.scratch x)) ∧
      (m.fn = 0x15 → u.owner = some k →
        ∃ t, exec .matrixCommandExecute s = .next t ∧ t.mx (coreOf k) = { u with ringSize := m.cmd.toNat % 8 } ∧ s.commandDone t 0 m 0 0 ∧
          t.mem = s.mem ∧ t.scratch = s.scratch)) ∧
    (∀ r, s.ev.core = coreOf k → s.serves 0 m → u.running = some r → 2 ^ 20 ≤ (s.cycles - r.since).toNat →
      (r.sent = false ∨ u.latch = []) →
      ∃ t, exec .ringTimeout s = .next t ∧ t.mx (coreOf k) = { u with running := none } ∧ s.commandDone t 0 m 9 (r.step + 1) ∧
        t.mem = s.mem ∧ t.scratch = s.scratch) ∧
    (∀ z r, let core := s.ev.core
      let prev := ringPrev z core
      z ∈ [1, 2, 3, 4, 5] → prev ≠ core →
      (s.mx prev).ringSize = z → (s.mx prev).running = some r → r.sent = false → r.step + 1 < r.tile.steps →
      (s.mx core).owner.isSome = true → (s.mx core).ringSize = z → (s.mx core).latch.length < 2 →
      ∃ t, exec .ringHandover s = .next t ∧ t.mx core = { s.mx core with latch := (s.mx core).latch ++ [r.tile] } ∧
        t.mx prev = { s.mx prev with running := some { r with sent := true, since := s.cycles } } ∧ t.ctxs = s.ctxs ∧ t.mem = s.mem ∧ t.scratch = s.scratch)

/-! ### Steps of the device: messages and the transport engine -/

/-- R145, R243 to R246: a post writes its slot with the next sequence number and FULL, or is refused, and its outcome reaches
the sender's register; a kick is accepted, held in the overflow ring, or refused, and its status reaches the sender; a
notice takes lines of the landing ring, its data lands there and its token is posted; the first handler whose address
space lets it starts in a free slot with its token and address; an acknowledgement is posted and ends the kick. (Of the model's
readings it rests on log entries 121, 122.) -/
def Obligations.MessageSteps : Prop :=
  ∀ (s : State), s.Quiet →
    let id := s.ev.id
    let k := s.ev.k
    let core := s.ev.core
    let still := fun (t : State) (j : Nat) => (∀ i, i ≠ j → t.ctx i = s.ctx i) ∧ t.mem = s.mem
    (∀ p, s.msgs = [(id, .post p)] → s.scratchPending = [] →
      let c := s.ctx (keyOf p.core p.ctx)
      let place := fun (i : Nat) => arrayByte p.core c.claim (128 * p.slot + i)
      let num := fun (t : State) (i n : Nat) => natOfBytes (Mem.readBytes t.scratch (place i) n)
      let good := c.run ≠ .vacant ∧ c.asid = p.asid ∧ 128 * p.slot + 384 ≤ 32768 * c.claim.length
      (¬good → ∃ t, exec .postArrival s = .next t ∧ t.msgs = [(s.nextId, .outcome p.k p.reg 3)] ∧ t.ctxs = s.ctxs ∧ t.mem = s.mem ∧
        t.scratch = s.scratch) ∧
      (good → p.handler = 0 → goodClaim c.claim →
        ∃ t, exec .postArrival s = .next t ∧ t.msgs = [(s.nextId, .outcome p.k p.reg 0)] ∧ t.ctxs = s.ctxs ∧ t.mem = s.mem ∧
          num t 0 8 = (num s 0 8 + 1) % 2 ^ 64 ∧ num t 8 4 = p.sender % 2 ^ 32 ∧ num t 12 2 = p.beta.toNat ∧
          num t 14 1 = p.dim % 256 ∧ num t 15 1 = 1 ∧
          (∀ l < 32, num t (32 + 4 * l) 4 = (vat p.m0 l).toNat ∧ num t (160 + 4 * l) 4 = (vat p.m1 l).toNat) ∧
          (∀ l < 8, num t (288 + 4 * l) 4 = (vat p.m2 l).toNat) ∧
          ∀ x, (∀ i < 384, x ≠ place i) → Mem.read t.scratch x = Mem.read s.scratch x)) ∧
    (∀ j reg code, s.msgs = [(id, .outcome j reg code)] → j < 65536 → 1 ≤ reg → reg < 32 →
      ∃ t, exec .postOutcome s = .next t ∧ t.msgs = [] ∧ (t.ctx j).getX reg = BitVec.ofNat 64 code ∧
        (t.ctx j).r.fe (.x reg) = .full ∧ (∀ n < 32, n ≠ reg → (t.ctx j).getX n = (s.ctx j).getX n) ∧ still t j ∧ t.scratch = s.scratch) ∧
    (∀ reg c n, s.msgs = [(id, .kick reg c n)] → 1 ≤ reg → reg < 32 →
      let gives := fun (code : Word) (v : Core) => ∃ t, exec .kickArrival s = .next t ∧ t.msgs = [] ∧ (t.ctx n.k).getX reg = code ∧
        t.core c = v ∧ still t n.k ∧ t.scratch = s.scratch
      ((s.ctx n.ctx).ring = none → gives 3 (s.core c)) ∧
      (∀ r, (s.ctx n.ctx).ring = some r → (s.ctx n.ctx).run ≠ .vacant → (s.ctx n.ctx).asid = n.asid →
        (r.size < n.len → gives 3 (s.core c)) ∧
        (n.len ≤ r.size → n.handler = 0 →
          gives (if (s.core c).notices.length < 16 then 0 else if (s.core c).overflow.length < 256 then 1 else 2)
            (if (s.core c).notices.length < 16 then { s.core c with notices := (s.core c).notices ++ [n] }
              else if (s.core c).overflow.length < 256 then { s.core c with overflow := (s.core c).overflow ++ [n] }
              else s.core c)))) ∧
    (∀ n r, (s.core core).notices = [n] → n.fetching = false → (s.ctx n.ctx).ring = some r → r.allocs = [] →
      let lines := (n.len + 127) / 128
      lines ≤ r.size / 128 - r.point → (n.handler = 0 → (s.ctx n.ctx).count 10 < 15) →
      ∃ t, exec .noticeFetch s = .next t ∧ (t.ctx n.ctx).ring = some { r with
          point := (r.point + lines) % (r.size / 128), allocs := [⟨r.point, lines, none, n, false⟩] } ∧
        (t.core core).notices = [{ n with fetching := true }] ∧
        (∀ i < lines, claimLine core (s.ctx n.ctx).claim (r.base / 128 + r.point + i) ∈ t.scratchPending) ∧
        (⟨.noticeLanded, { core := core, k := n.ctx, id := n.id }⟩ : Due) ∈ t.due ∧ still t n.ctx ∧ t.scratch = s.scratch) ∧
    (∀ r a (pa : Nat → Nat), (s.ctx k).ring = some r → r.allocs = [a] → a.notice.id = id → a.token = none → s.palCopies = [] →
      s.scratchPending = (List.range a.lines).map (fun i => claimLine core (s.ctx k).claim (r.base / 128 + a.line + i)) →
      let n := a.notice
      let claim := (s.ctx k).claim
      let line := r.base / 128 + a.line
      let place := fun (i : Nat) => arrayByte core claim (r.base + 128 * a.line + i)
      n.handler = 0 → n.len % 4 = 0 → r.base % 128 = 0 → goodClaim claim → r.base + 128 * a.line + n.len ≤ 32768 * claim.length →
      (∀ i < n.len / 4, regionOf (n.src + BitVec.ofNat 64 (4 * i)) = .translated ∧ s.paKind (pa i) = .memory ∧
        ∃ e, s.tlbHit (clusterOf core) n.asid (n.src + BitVec.ofNat 64 (4 * i)).toNat = some e ∧ e.rd = true ∧
          e.pa (n.src + BitVec.ofNat 64 (4 * i)).toNat = pa i) →
      let token := BitVec.ofNat 64 (line * 2 ^ 49 + n.len % 2 ^ 17 * 2 ^ 32 + n.tag.toNat * 2 ^ 16 + n.sender)
      ∃ t, exec .noticeLanded s = .next t ∧ (t.ctx k).ring = some { r with allocs := [{ a with token := some token }] } ∧
        vat (t.ctx k).elems 10 = vat (s.ctx k).elems 10 ++ [token] ∧ still t k ∧
        (∀ i < n.len / 4, ∀ j < 4, Mem.read t.scratch (place (4 * i + j)) = Mem.read s.mem (pa i + j)) ∧
        (∀ x, (∀ i < n.len, x ≠ place i) → Mem.read t.scratch x = Mem.read s.scratch x) ∧ t.scratchPending = []) ∧
    (∀ gs h hs j, (s.core core).handlers = gs ++ h :: hs → s.openSlot core = some j →
      (∀ g ∈ gs, s.inPartition g.asid.toNat core = false ∨ (s.space g.asid.toNat).hold = true) →
      s.inPartition h.asid.toNat core = true → (s.space h.asid.toNat).hold = false →
      ∃ t, exec .handlerStart s = .next t ∧ (t.core core).handlers = gs ++ hs ∧ (t.ctx j).run = .running ∧ (t.ctx j).pc = h.pc ∧
        (t.ctx j).asid = h.asid ∧ (t.ctx j).getX 1 = h.x1 ∧ (t.ctx j).getX 2 = h.x2 ∧ (∀ n < 32, 3 ≤ n → (t.ctx j).getX n = 0) ∧
        (t.ctx j).info.workid = h.x1 ∧ (t.ctx j).info.taskarg = h.x2 ∧ still t j ∧ t.scratch = s.scratch) ∧
    (∀ j i e m, s.msgs = [(id, .ack j i e)] → vat (s.ctx j).cmds 2 = [m] → m.id = i → (vat (s.ctx j).elems 3).length < 16 →
      ∃ t, exec .kickAck s = .next t ∧ t.msgs = [] ∧ vat (t.ctx j).cmds 2 = [] ∧
        vat (t.ctx j).elems 3 = vat (s.ctx j).elems 3 ++ [e] ∧ still t j ∧ t.scratch = s.scratch)

/-- R252, R253, R255 to R258: a transmit ends with the remote end's answer, which one under ROD takes only when no earlier
one to its destination is under way, with REMOTE_ERROR after 1,000,000 ns without a matching buffer, or with TIMEOUT; a
resent packet leaves it as it was read. A packet of a send whose buffer is posted is placed there, one without a buffer
is refused, as one of a job without an endpoint is, and one that begins a message out of its context's order under ROD
changes nothing; its bytes are added to CWORD, in the context's order; the last one makes the receive record, and a
message that has failed its check makes one with CHECK. A congestion entry is written in three steps: its version becomes odd, the
fields are stored, its version becomes even. (Of the model's readings it rests on log entries 101, 102, 103, 106, 125 and 158.) -/
def Obligations.TransportSteps : Prop :=
  ∀ (s : State), s.Quiet → s.mgmt.ready = true →
    let id := s.ev.id
    (∀ x m, Tbl.get? s.ote.transmits id = some x → vat (s.ctx x.k).cmds 8 = [m] → m.id = id →
      (vat (s.ctx x.k).elems 9).length < 16 →
      let sent := min s.ev.value.toNat x.bytes.length
      let ends := fun (i : Instr) (st info : Nat) => ∃ t, exec i s = .next t ∧ Tbl.get? t.ote.transmits id = none ∧
        vat (t.ctx x.k).cmds 8 = [] ∧ vat (t.ctx x.k).elems 9 = vat (s.ctx x.k).elems 9 ++
          (if m.cmd.getLsbD 14 = true ∨ st ≠ 0 then [elem st m.fn info] else []) ∧
        (∀ j, j ≠ x.k → t.ctx j = s.ctx j) ∧ t.mem = s.mem ∧ t.scratch = s.scratch
      (s.rodBehind x = false →
        (s.ev.n = 0 → ends .transmitAck 0 x.bytes.length) ∧
        (s.ev.n = 2 ∨ s.ev.n = 3 ∨ s.ev.n = 4 → ends .transmitAck 0x11 s.ev.n) ∧
        (s.ev.n = 5 → ends .transmitAck 0x13 sent)) ∧
      (∀ g, x.since = some g → g + 1000000 ≤ s.gt → ends .remoteErrorTimeout 0x11 1) ∧
      ends .retransmissionTimeout 0x12 sent ∧
      ∃ t, exec .retransmission s = .next t ∧ Tbl.get? t.ote.transmits id = some { x with
          since := if s.ev.n = 1 then some (x.since.getD s.gt) else x.since, resends := x.resends + 1 } ∧
        t.ctxs = s.ctxs ∧ t.mem = s.mem ∧ t.scratch = s.scratch) ∧
    (let p := s.ev.packet
     let n := p.bytes.length
     let c := Tbl.getD s.ote.pdcs p.pdc ⟨p.rod, 0⟩
     p.kind = .send → s.ote.receives = [] → 1 ≤ p.total → p.total ≤ 2 ^ 30 → p.port < 8 → p.pdc < 65536 → c.rod = p.rod →
      (p.rod = true → p.seq ≠ c.begun → exec .packetArrival s = .next s) ∧
      (s.admits p.asid p.job = false → (p.rod = true → p.seq = c.begun) →
        ∃ t, exec .packetArrival s = .next t ∧ t.ctxs = s.ctxs ∧ t.mem = s.mem ∧
          t.ote = { s.ote with pdcs := Tbl.set s.ote.pdcs p.pdc ⟨p.rod, p.seq + 1⟩, answers := s.ote.answers ++ [(p.msg, 4)] }) ∧
      (s.ote.buffers = [] → s.admits p.asid p.job = true → (p.rod = true → p.seq = c.begun) →
        ∃ t, exec .packetArrival s = .next t ∧ t.ote = { s.ote with answers := s.ote.answers ++ [(p.msg, 1)] } ∧
          t.ctxs = s.ctxs ∧ t.mem = s.mem) ∧
      (∀ key b, s.ote.buffers = [(key, b)] → s.admits p.asid p.job = true → (p.rod = true → p.seq = c.begun) → key / 4096 = p.asid.toNat → b.flags.getLsbD 0 = false → b.flags.getLsbD 1 = false →
        b.taken = none → p.total ≤ b.len → p.crcOk = true → 1 ≤ n → p.offset + n ≤ p.total →
        let va := b.base.toNat + p.offset
        let pa := b.pages.getD (va / 4096 - b.base.toNat / 4096) 0 + va % 4096
        va % 128 + n ≤ 128 → s.paKind pa = .memory →
        ∃ t r, exec .packetArrival s = .next t ∧ t.ote.receives = [(s.nextId, r)] ∧ r.msg = p.msg ∧ r.buffer = key ∧ r.posted = b ∧
          Tbl.get? t.ote.pdcs p.pdc = some ⟨p.rod, p.seq + 1⟩ ∧ r.total = p.total ∧ r.placed = [p.offset] ∧ r.uncounted = [n] ∧ r.counted = 0 ∧ r.done = false ∧
          t.ote.buffers = [(key, { b with taken := some s.nextId })] ∧ t.ote.answers = s.ote.answers ++ [(p.msg, 0)] ∧
          (⟨.cwordAdd, { id := s.nextId }⟩ : Due) ∈ t.due ∧ (∀ i < n, Mem.read t.mem (pa + i) = p.bytes.getD i 0) ∧
          (∀ a, a < pa ∨ pa + n ≤ a → Mem.read t.mem a = Mem.read s.mem a) ∧ t.ctxs = s.ctxs ∧ t.scratch = s.scratch)) ∧
    (∀ r, Tbl.get? s.ote.receives id = some r →
      let b := r.posted
      (∀ n ns, r.uncounted = n :: ns → s.deliveredBehind r = false → b.cword ≠ 0 → s.paKind b.cwordPa = .memory →
        ∃ t, exec .cwordAdd s = .next t ∧
          Tbl.get? t.ote.receives id = some { r with uncounted := ns, counted := r.counted + n } ∧
          natOfBytes (Mem.readBytes t.mem b.cwordPa 8) = (natOfBytes (Mem.readBytes s.mem b.cwordPa 8) + n) % 2 ^ 64 ∧
          (∀ a, a < b.cwordPa ∨ b.cwordPa + 8 ≤ a → Mem.read t.mem a = Mem.read s.mem a) ∧
          (r.counted + n = r.total → (⟨.messageComplete, { id := id }⟩ : Due) ∈ t.due) ∧ t.ctxs = s.ctxs ∧ t.scratch = s.scratch) ∧
      (r.done = false → s.deliveredBehind r = false → b.flags.getLsbD 2 = true →
        b.poster < 32768 → (s.ctx b.poster).run ≠ .vacant → Tbl.get? s.ote.held b.poster = none →
        (vat (s.ctx b.poster).elems 9).length < 16 →
        let ends := fun (st : Nat) (buffers : Tbl Buffer) =>
          ∃ t, exec .messageComplete s = .next t ∧ Tbl.get? t.ote.receives id = some { r with done := true } ∧ t.ote.buffers = buffers ∧
            vat (t.ctx b.poster).elems 9 = vat (s.ctx b.poster).elems 9 ++ [elem st 0x1A (r.buffer % 4096)] ∧
            (∀ j, j ≠ b.poster → t.ctx j = s.ctx j) ∧ t.mem = s.mem ∧ t.scratch = s.scratch
        (r.failed = true → ends 0x13 s.ote.buffers) ∧
        (r.failed = false → (∀ q, Tbl.get? s.ote.buffers r.buffer = some q → q.order = b.order) → b.flags.getLsbD 0 = false →
          b.handler = 0 → b.barrier.getLsbD 15 = false → ends 0 (Tbl.erase s.ote.buffers r.buffer)))) ∧
    (let v := s.congestion s.ev.asid id
     let odd := v.version.getLsbD 0
     let gives := fun (w : Congestion) (due : List Due) => ∃ t, exec .congestionUpdate s = .next t ∧
       t.congestion s.ev.asid id = w ∧ t.due = s.due ++ due ∧
       (∀ j, j ≠ id → j < 4096 → t.congestion s.ev.asid j = s.congestion s.ev.asid j) ∧ t.ctxs = s.ctxs ∧ t.mem = s.mem
     id < 4096 → s.ev.asid < 4096 →
      (s.ev.n = 0 → odd = false → (s.endpoint s.ev.asid id).valid = true → ¬s.gt < v.next →
        gives { v with version := v.version + 1, next := s.gt + 256 } [⟨.congestionUpdate, { s.ev with n := 1 }⟩]) ∧
      (s.ev.n = 1 → odd = true → gives { v with fields := s.ev.fields, updated := s.gt.setWidth 32 }
        [⟨.congestionUpdate, { s.ev with n := 2 }⟩]) ∧
      (2 ≤ s.ev.n → odd = true → gives { v with version := v.version + 1 } []))

/-! ### Steps of the device: host, starts, containment -/

/-- R16, R178, R201, R250, R259 to R262, R264, R293, R303, R304, R308, R311, R327, R330: what the host and the device registers
do: a kick register moves TAIL within its bounds, once the host's earlier writes are made, and reads as the head index;
BAR4 writes and reads bytes of memory; MGMTSTAT and the entries of the dead-agent log are read; a vector is raised, or
pending while it is masked; staging bytes, window bases, PARTMEM and mailbox messages are written; LEASECFG is clamped;
fault, FAULTSTAT and hotness entries are cleared; a partition is written; an endpoint is written; an address space is
torn down or held.
(Of the model's readings it rests on log entries 89, 90, 91, 95, 107.) -/
def Obligations.HostSteps : Prop :=
  ∀ (s : State), s.Quiet →
    let e := s.ev
    let a := e.asid % 4096
    (s.mgmt.ready = true → e.n = 0 ∨ e.n = 8 → (∀ d ∈ s.due, d.i ≠ .hostBar4Write) →
      let q := e.q % 64
      let c := s.queue a q
      let tail : W32 := e.value.setWidth 32
      let good := c.invalid = false ∧ e.value.toNat < 2 ^ 32 ∧ tail - c.head ≤ c.size ∧ c.tail - c.head ≤ tail - c.head
      (good → ∃ t, exec .hostKickWrite s = .next t ∧ t.queue a q = { c with tail := tail } ∧
        (∀ n, n ≠ a * 64 + q → Tbl.get? t.queues n = Tbl.get? s.queues n) ∧ (⟨.dispatchTurn, {}⟩ : Due) ∈ t.due ∧
        t.ctxs = s.ctxs ∧ t.mem = s.mem) ∧
      (¬good → ∃ t, exec .hostKickWrite s = .next t ∧ t.queues = s.queues ∧
        (t.die 0).errlog = (s.die 0).errlog ++ [.badKick a q e.value] ∧ t.ctxs = s.ctxs ∧ t.mem = s.mem)) ∧
    (s.mgmt.ready = true →
      let pa := (vat s.mgmt.windows (e.addr / 2 ^ 30)).toNat + e.addr % 2 ^ 30
      (e.addr + e.bytes.length ≤ 2 ^ 36 → (∀ i < e.bytes.length, s.paKind (pa + i) = .memory) →
        ∃ t, exec .hostBar4Write s = .next t ∧ (∀ i < e.bytes.length, Mem.read t.mem (pa + i) = e.bytes.getD i 0) ∧
          (∀ x, x < pa ∨ pa + e.bytes.length ≤ x → Mem.read t.mem x = Mem.read s.mem x) ∧ t.ctxs = s.ctxs ∧ t.scratch = s.scratch) ∧
      (e.q ≠ 1 → e.q ≠ 2 → e.found = .clean → e.addr + e.n ≤ 2 ^ 36 → (∀ i < e.n, s.paKind (pa + i) = .memory) →
        ∃ t, exec .hostBar4Read s = .next t ∧ t.mgmt.hostData = (List.range e.n).map (fun i => some (Mem.read s.mem (pa + i))) ∧
          t.ctxs = s.ctxs ∧ t.mem = s.mem ∧ t.scratch = s.scratch)) ∧
    (let m := s.mgmt
     let bit := fun (b : Bool) => if b then 1 else 0
     let kind := fun (x : Agent) => (match x with
       | .core c => (0, c) | .slice i => (1, i) | .quire q => (2, q) | .stack q => (3, q) | .folio d => (4, d) | .ote => (5, 0) : Nat × Nat)
     let reads := fun (v : Nat) => ∃ t, exec .hostBar4Read s = .next t ∧ t.mgmt.hostData = (bytesOfNat 8 v).map some ∧
       t.ctxs = s.ctxs ∧ t.mem = s.mem
     e.n = 8 →
      (e.q = 1 → e.addr = 0 → reads (bit m.ready + 2 * bit m.lastWarm + 4 * bit m.recovery + 8 * bit m.stopclean + 16 * bit m.thermal +
        32 * bit m.starting.isSome + m.warmfails.toNat * 2 ^ 16 + m.cause.toNat * 2 ^ 32)) ∧
      (∀ i < 64, e.q = 1 → e.addr = 0x100 + 8 * i →
        (∀ x, m.deadlog[i]? = some x → x.agent.exists = true → x.reason < 16 → reads (2 ^ 63 + (kind x.agent).1 * 2 ^ 60 + x.reason * 2 ^ 56 +
          (kind x.agent).2 * 2 ^ 44 + x.gt.toNat % 2 ^ 44)) ∧
        (m.deadlog[i]? = none → reads 0)) ∧
      (∀ b q, e.q = 2 → m.ready = true → q < 64 → e.addr = b * 4096 + q * 8 → reads (s.queue b q).head.toNat)) ∧
    (e.q = 2 → ∃ t, exec .managementWindowWrite s = .next t ∧ t.mgmt.mailIn = s.mgmt.mailIn ++ [e.bytes] ∧
      t.mgmt.mailOut = s.mgmt.mailOut ∧ t.mem = s.mem) ∧
    (e.q = 3 → ∃ t, exec .managementWindowWrite s = .next t ∧ t.mgmt.mailOut = s.mgmt.mailOut ++ [e.bytes] ∧
      t.mgmt.mailIn = s.mgmt.mailIn ∧ (6 ∈ t.mgmt.raised ∨ 6 ∈ t.mgmt.pending) ∧ t.mem = s.mem) ∧
    (∀ i < 256, ¬(e.q = 1 ∨ e.q = 2 ∨ e.q = 3) → e.addr = 0x2000 + 8 * i → e.bytes.length = 8 →
      let n := natOfBytes e.bytes
      let old := Tbl.getD s.mgmt.partmem (i / 2) (0, 0)
      (2 ^ 50 ≤ n → exec .managementWindowWrite s = .next s) ∧
      (n < 2 ^ 50 → n % 65536 = 0 → (let o := if i % 2 = 0 then old.2 else old.1; o < 2 ^ 50 ∧ o % 65536 = 0) →
        ∃ t, exec .managementWindowWrite s = .next t ∧
          Tbl.getD t.mgmt.partmem (i / 2) (0, 0) = (if i % 2 = 0 then (n, old.2) else (old.1, n)) ∧ t.mem = s.mem)) ∧
    (∀ i < 128, ¬(e.q = 1 ∨ e.q = 2 ∨ e.q = 3) → e.addr = 0x2000 + 16 * i → e.bytes.length = 16 →
      let base := natOfBytes (e.bytes.take 8)
      let len := natOfBytes (e.bytes.drop 8)
      (2 ^ 50 ≤ base ∨ 2 ^ 50 ≤ len → exec .managementWindowWrite s = .next s) ∧
      (base < 2 ^ 50 → len < 2 ^ 50 → base % 65536 = 0 → len % 65536 = 0 → ∃ t, exec .managementWindowWrite s = .next t ∧
        Tbl.getD t.mgmt.partmem i (0, 0) = (base, len) ∧ t.mem = s.mem)) ∧
    (let v := e.value.toNat
     (16 ≤ v → v ≤ 2047 →
      (v ∈ s.mgmt.unmasked → exec .msixraise s = .next { s with mgmt := { s.mgmt with raised := s.mgmt.raised ++ [v] } }) ∧
      (v ∉ s.mgmt.unmasked → ∃ t, exec .msixraise s = .next t ∧ v ∈ t.mgmt.pending ∧ t.mgmt.raised = s.mgmt.raised)) ∧
     (v < 16 ∨ 2047 < v → exec .msixraise s = .next s)) ∧
    (e.q = 1 → e.n < 64 → ∃ t, exec .managementWindowWrite s = .next t ∧ vat t.mgmt.windows e.n = e.value ∧
      (∀ i < 64, i ≠ e.n → vat t.mgmt.windows i = vat s.mgmt.windows i) ∧ t.mem = s.mem) ∧
    (∀ b, ¬(e.q = 1 ∨ e.q = 2 ∨ e.q = 3) → e.bytes = [b] →
      (0x200000 ≤ e.addr → e.addr < 0x400000 → ∃ t, exec .managementWindowWrite s = .next t ∧
        Mem.read t.mgmt.staging (e.addr - 0x200000) = b ∧
        (∀ o, o ≠ e.addr - 0x200000 → Mem.read t.mgmt.staging o = Mem.read s.mgmt.staging o) ∧ t.mem = s.mem) ∧
      (∀ v < 2048, e.addr = 0x10000C + 16 * v → b.getLsbD 0 = false → v ∈ s.mgmt.pending →
        ∃ t, exec .managementWindowWrite s = .next t ∧ v ∈ t.mgmt.unmasked ∧ v ∉ t.mgmt.pending ∧
          t.mgmt.raised = s.mgmt.raised ++ [v])) ∧
    (∃ t, exec .leasecfgWrite s = .next t ∧
      (t.space a).leasecfg.toNat % 2 ^ 32 = min (max (e.value.toNat % 2 ^ 32) 64) 4096 ∧
      (t.space a).leasecfg.toNat / 2 ^ 32 = min (max (e.value.toNat / 2 ^ 32) 256) 65536 ∧
      (∀ i, i ≠ a → t.space i = s.space i) ∧ t.ctxs = s.ctxs ∧ t.mem = s.mem) ∧
    (e.n < 8 → ∃ t, exec .faultEntryFree s = .next t ∧ vat (t.die e.die).faults e.n = none ∧
      (∀ i < 8, i ≠ e.n → vat (t.die e.die).faults i = vat (s.die e.die).faults i) ∧ t.mem = s.mem) ∧
    (exec .faultstatWrite s = .next (if e.value.getLsbD 16 then
      s.updDie e.die fun v => { v with dropped := false, dropcount := 0 } else s)) ∧
    (∃ t, exec .hotnessEntryClear s = .next t ∧ Tbl.get? (t.die e.die).hot e.n = none ∧
      (∀ i, i ≠ e.n → Tbl.get? (t.die e.die).hot i = Tbl.get? (s.die e.die).hot i) ∧ t.mem = s.mem) ∧
    (let i := e.n % 16
     e.value.toNat < 2 ^ 32 → e.value.toNat % 2 ^ 16 ≠ 0 → e.value.toNat / 2 ^ 16 ≠ 0 →
      (∀ j < 16, j ≠ i → (vat s.parts j).clusters &&& e.clusters = 0) →
      (e.clusters = (vat s.parts i).clusters ∨ s.partitionBusy i = false) →
      exec .partitionWrite s = .next { s with parts := vput s.parts i ⟨e.clusters, e.value.setWidth 16, e.value.extractLsb' 16 16⟩ }) ∧
    (∀ d < 4096, e.asid < 4096 → e.bytes.length = 32 → e.addr = controlBase + 5 * 2 ^ 32 + e.asid * 0x20000 + d * 32 →
      ∃ t, exec .deviceRegisterWrite s = .next t ∧ (t.endpoint e.asid d).valid = (e.bytes.getD 0 0).getLsbD 0 ∧
        (t.endpoint e.asid d).rod = (e.bytes.getD 0 0).getLsbD 1 ∧
        (t.endpoint e.asid d).addr.toNat = natOfBytes ((e.bytes.drop 4).take 16) ∧
        (∀ n, n ≠ e.asid * 4096 + d → Tbl.get? t.ote.endpoints n = Tbl.get? s.ote.endpoints n) ∧ t.ctxs = s.ctxs ∧ t.mem = s.mem) ∧
    (s.tiles = [] → s.palCopies = [] → (∀ x ∈ s.ctxs, ∀ q ∈ [2, 4, 6, 8], vat x.2.cmds q = []) →
      ∃ t, exec .asidInvalidate s = .next t ∧ (t.space a).valid = false ∧ (∀ i, i ≠ a → t.space i = s.space i) ∧
        (∀ c, ∀ x ∈ (t.cluster c).tlb, x.asid.toNat ≠ a) ∧ (∀ d o b, t.barrier? d o = some b → b.asid.toNat ≠ a) ∧
        (∀ q < 64, (t.queue a q).enabled = false) ∧ t.ctxs = s.ctxs ∧ t.mem = s.mem) ∧
    (∃ t, exec .hold s = .next t ∧ t.mem = s.mem ∧ ∀ k, t.ctx k =
      (if (s.ctx k).asid.toNat = a ∧ k < 32768 ∧ (s.ctx k).run ≠ .vacant ∧ (s.ctx k).why = none then
        { s.ctx k with why := some .hold } else s.ctx k))

/-- R21, R330 to R334: a start is accepted only while none is in progress, not in recovery, and runs warm only where WARM is
set and two warm starts have not failed; it clears the thermal alert and the dead-agent log; a cold start that succeeds
sets memory to zero and the tables, GT and the address spaces to their start; a warm one keeps memory but for the
PARTMEM ranges of failed partitions, and reuses the stored calibration where every die is within 10 °C of its recorded
temperature; a start that fails leaves its cause, and a firmware cause leads to recovery; an image that verifies there
is written to flash. A thermal trip or a supply fault stops the package and fails a start in progress. The thermal alert
is cleared once every die has stayed below 90 °C for 1,000,000 ns. (What the firmware checks answer is open: log entry
20. Which lines lose their last value with a stop is the model's reading: log entry 92.) -/
def Obligations.StartsAndStops : Prop :=
  ∀ (s : State),
    let m := s.mgmt
    let firmware := fun (image : List Byte) => (if !Config.imageReadable image then 0x0008 else if !Config.rsaVerifies image then 0x0006
      else if !Config.slhVerifies image then 0x0007 else if Config.imageVersion image < Config.fusedMinimum then 0x000B else 0 : Half)
    let found : Half := s.ev.value.setWidth 16
    let one : Bool := [64, 128, 256].contains (vat m.modules 0) && (List.range 16).all fun i => vat m.modules i = vat m.modules 0
    let begins := fun (i : Instr) (warm : Bool) => ∃ t, exec i s = .next t ∧ t.mgmt.ready = false ∧ t.mgmt.starting = some warm ∧
      t.mgmt.stopclean = (if m.ready then warm else m.stopclean) ∧ t.mgmt.thermal = false ∧ t.mgmt.deadlog = [] ∧ t.ctxs = [] ∧
      (∀ a, a / 128 ∉ s.lostLines warm → Mem.read t.mem a = Mem.read s.mem a) ∧
      t.due = [⟨if warm then .warmStart else .coldStart, {}⟩]
    let temps := s.ev.bytes.map (·.toNat)
    let ended := fun (i : Instr) (warm : Bool) =>
      let reuse := warm = true ∧ ∃ ts, m.calib = some ts ∧ ts.length = temps.length ∧
        ∀ i < ts.length, ts.getD i 0 ≤ temps.getD i 0 + 10 ∧ temps.getD i 0 ≤ ts.getD i 0 + 10
      ∃ (t : State) (cause : Half), exec i s = .next t ∧ t.mgmt.cause = cause ∧ t.mgmt.starting = none ∧
        (firmware m.flash ≠ 0 → cause = firmware m.flash) ∧
        (firmware m.flash = 0 →
          (found = 1 ∨ found = 2 ∨ (found = 3 ∧ ¬reuse) → cause = found) ∧
          (found = 0 ∨ (found = 3 ∧ reuse) ∨ (4 ≤ found ∧ found ≠ 5) → cause = if one then 0 else 4) ∧
          (found = 5 → cause = if one then 5 else 4)) ∧
        (cause = 0 ∨ cause = 4 ∨ cause = 5 → (reuse → t.mgmt.calib = m.calib) ∧ (¬reuse → t.mgmt.calib = some temps)) ∧
        (cause ≠ 0 → t.mgmt.ready = m.ready ∧ t.mem = s.mem ∧
          (t.mgmt.recovery = true ↔ cause = 6 ∨ cause = 7 ∨ cause = 8 ∨ cause = 11) ∧
          (warm = true → m.warmfails.toNat < 255 → t.mgmt.warmfails = m.warmfails + 1)) ∧
        (cause = 0 → t.mgmt.ready = true ∧ t.mgmt.lastWarm = warm ∧ t.mgmt.warmfails = 0 ∧ t.mgmt.deadlog = m.deadlog ∧ t.gt = 0 ∧ t.ctxs = [] ∧
          t.spaces = State.reset.spaces ∧ t.parts = startParts ∧ t.dead = [] ∧ t.scratch = [] ∧
          ∀ a, Mem.read t.mem a = if warm = false ∨ ∃ r ∈ m.partmem, m.failedParts.contains (r.1 / 8) = true ∧ r.2.1 ≤ a ∧ a < r.2.1 + r.2.2
            then 0 else Mem.read s.mem a)
    let trips := fun (i : Instr) (cause : Half) => ∃ t, exec i s = .next t ∧ t.mgmt.ready = false ∧ t.mgmt.cause = cause ∧
      t.mgmt.stopclean = false ∧ t.mgmt.starting = none ∧ t.ctxs = [] ∧
      (m.ready = true ∨ m.starting.isSome = true → 5 ∈ t.mgmt.raised ∨ 5 ∈ t.mgmt.pending) ∧
      (m.starting = some true → m.warmfails.toNat < 255 → t.mgmt.warmfails = m.warmfails + 1) ∧
      ∀ a, a / 128 ∉ s.lostLines false → Mem.read t.mem a = Mem.read s.mem a
    (m.starting = none → m.recovery = false → s.ev.value.toNat < 4 →
      begins .startreqCold false ∧ begins .startreqWarm (decide (m.warmfails.toNat < 2))) ∧
    (m.starting.isSome = true ∨ m.recovery = true ∨ 4 ≤ s.ev.value.toNat →
      exec .startreqCold s = .next s ∧ exec .startreqWarm s = .next s) ∧
    (m.starting = some false → ended .coldStart false) ∧ (m.starting = some true → ended .warmStart true) ∧
    (∃ t, exec .powerOn s = .next t ∧ t.mgmt.ready = false ∧ t.mgmt.starting = some false ∧ t.ctxs = [] ∧ t.mgmt.flash = m.flash ∧
      t.due = [⟨.coldStart, {}⟩]) ∧
    (let n := s.ev.value.toNat % 2 ^ 32
     let image := Mem.readBytes m.staging 0 n
     m.recovery = true → s.ev.value.toNat / 2 ^ 32 = 1 →
      (n = 0 ∨ 2 ^ 21 < n → exec .recovcmd s = .next { s with mgmt := { m with cause := 8 } }) ∧
      (1 ≤ n → n ≤ 2 ^ 21 → m.ready = false → ∃ t, exec .recovcmd s = .next t ∧
        (firmware image ≠ 0 → t.mgmt = { m with cause := firmware image } ∧ t.mem = s.mem) ∧
        (firmware image = 0 → (⟨.coldStart, {}⟩ : Due) ∈ t.due ∧
          t.mgmt = { m with flash := image, recovery := false, starting := some false, thermal := false, coolSince := none, deadlog := [] } ∧
          ∀ a, a / 128 ∉ s.lostLines false → Mem.read t.mem a = Mem.read s.mem a))) ∧
    (∃ t, exec .thermalAlert s = .next t ∧ t.mgmt.thermal = true ∧
      (m.thermal = false → 4 ∈ t.mgmt.raised ∨ 4 ∈ t.mgmt.pending) ∧ t.ctxs = s.ctxs ∧ t.mem = s.mem) ∧
    (m.thermal = false → exec .thermalAlertClear s = .next s) ∧
    (m.thermal = true →
      (s.ev.n ≠ 0 → exec .thermalAlertClear s = .next { s with mgmt := { m with coolSince := none } }) ∧
      (s.ev.n = 0 →
        (m.coolSince = none → exec .thermalAlertClear s = .next { s with mgmt := { m with coolSince := some s.gt } }) ∧
        ∀ g, m.coolSince = some g → exec .thermalAlertClear s = .next (if (s.gt - g).toNat < 1000000 then s
          else { s with mgmt := { m with thermal := false, coolSince := none } }))) ∧
    trips .thermalTrip 9 ∧ trips .supplyFault 10

/-- R10, R19, R20, R321 to R328: time advances by 1 ns, each die's GT with it, held back or moved ahead by one step in 1,000 at
most, and the core clock runs at 1.75 GHz within the guard band; a die's GT never goes back and leaves the guard band only as a dead folio;
a missed heartbeat, a fatal error or a failed link declares its agents dead, with a log entry and vector 7, and what a
dead core held is lost; an error of both copies of a register file halts its context, a speculative transaction aborted
first; a scrub of a line of a quire or the DDR5 tier logs what it finds and poisons there a line that it cannot correct, but
no copy that its home slice holds. (Of the model's readings it rests on log entries 7, 9, 94 and 129.) -/
def Obligations.TimeAndContainment : Prop :=
  ∀ (s : State),
    let e := s.ev
    let m := s.mgmt
    let dies := fun (i : Instr) (a : Agent) (reason : Nat) => s.isDead a = false →
      ∃ t, exec i s = .next t ∧ t.dead = s.dead ++ [a] ∧ t.mem = s.mem ∧
        (m.deadlog.length < 64 → t.mgmt.deadlog = m.deadlog ++ [⟨a, reason, s.gt.toNat % 2 ^ 44⟩]) ∧
        (64 ≤ m.deadlog.length → t.mgmt.deadlog = m.deadlog) ∧ (7 ∈ t.mgmt.raised ∨ 7 ∈ t.mgmt.pending) ∧
        ∀ c, a = .core c → (∀ k < 65536, coreOf k = c → t.ctx k = Ctx.vacantOne) ∧ (t.core c).deque = [] ∧ (t.core c).inbox = [] ∧
          (t.core c).outlist = [] ∧ (t.core c).notices = []
    let near := fun (x y : Word) => x.toNat ≤ y.toNat + 32 ∧ y.toNat ≤ x.toNat + 32
    (let late := fun (d : Nat) => 999 ≤ (s.die d).steady
     let moved := fun (d : Nat) => s.gtOf d + (if e.n / 4 ^ d % 4 = 1 ∧ late d then 0 else if e.n / 4 ^ d % 4 = 2 ∧ late d then 2 else 1)
     let g := s.gt.toNat
     let c := s.cycles.toNat
     let pace := if (e.q = 1 ∨ e.q = 2) ∧ 4 * (c + e.q) ≤ 7 * (g + 1 + 32) ∧ 7 * (g + 1) ≤ 4 * (c + e.q) + 7 * 32 then e.q
      else 7 * (g + 1) / 4 - 7 * g / 4
     ∃ t, exec .gtTick s = .next t ∧ t.gt = s.gt + 1 ∧ t.mem = s.mem ∧
      (m.ready = true → t.cycles = s.cycles + BitVec.ofNat 64 pace ∧
        (∀ d < 4, t.gtOf d = moved d ∧ (¬near (moved d) (s.gt + 1) → t.isDead (.folio d) = true) ∧
          (t.die d).steady = if moved d = s.gtOf d + 1 then (s.die d).steady + 1 else 0) ∧
        ((∀ d < 4, near (moved d) (s.gt + 1)) → t.ctxs = s.ctxs ∧ t.dead = s.dead)) ∧
      (m.ready = false → t.cycles = s.cycles ∧ t.dies = s.dies ∧ t.ctxs = s.ctxs)) ∧
    (let d := e.die % 4
     (e.n = 1 ∨ ¬near (s.gtOf d) s.gt → ∃ t, exec .gtDrift s = .next t ∧ t.isDead (.folio d) = true ∧ t.mem = s.mem) ∧
     (e.n ≠ 1 → near (s.gtOf d) s.gt → exec .gtDrift s = .next s)) ∧
    (e.agent.exists = true → dies .heartbeatTimeout e.agent 1 ∧ (e.n ≠ 1 → dies .fatalErrorReport e.agent 3)) ∧
    (e.n = 1 → e.k < 32768 → (s.ctx e.k).run ≠ .vacant → (s.ctx e.k).abort = none →
      (∀ x, (s.ctx e.k).tx = some x → x.phase = .live) →
      let halts := fun (p : State → Prop) => ∃ t, exec .fatalErrorReport s = .next t ∧ (t.ctx e.k).run = .blot ∧ p t ∧
        (∀ k, k ≠ e.k → t.ctx k = s.ctx k) ∧ t.dead = s.dead ∧ t.mem = s.mem
      ((s.ctx e.k).speculative = false → halts fun t => (t.ctx e.k).r = (s.ctx e.k).r) ∧
      (∀ x, (s.ctx e.k).speculative = true → s.settled e.k = true → (s.ctx e.k).tx = some x → x.handler.isSome = true → x.held = [] →
        halts fun t => (t.ctx e.k).r = x.ckpt ∧ (t.ctx e.k).tx = none)) ∧
    (∀ q < 8, e.link = .quire q → s.isDead (.quire q) = false → s.isDead (.stack q) = false →
      ∃ t, exec .linkFailure s = .next t ∧ t.dead = s.dead ++ [.quire q, .stack q] ∧ t.ctxs = s.ctxs ∧ t.mem = s.mem) ∧
    (∀ d < 3, e.link = .row d → ∃ t, exec .linkFailure s = .next t ∧ t.mem = s.mem ∧
      ∀ i < 4, t.isDead (.folio i) = (s.isDead (.folio i) || decide (d < i))) ∧
    (e.link = .io → ∃ t, exec .linkFailure s = .next t ∧ t.mem = s.mem ∧ ∀ i < 4, t.isDead (.folio i) = true) ∧
    (e.q = 0 → s.paKind (e.line * 128) = .memory →
      let d := homeDie (e.line * 128)
      let logs := fun (x : ErrEntry) (bad : Bool) => ∃ t, exec .scrub s = .next t ∧ (t.die d).errlog = (s.die d).errlog ++ [x] ∧
        t.behindBad e.line = bad ∧ (∀ l, l ≠ e.line ∨ (s.homeCopy l).isSome = true → t.lineBad l = s.lineBad l) ∧ t.ctxs = s.ctxs ∧ t.mem = s.mem ∧
        t.scratch = s.scratch
      (e.found = .clean ∨ e.found = .mismatch → exec .scrub s = .next s) ∧
      (e.found = .corrected → logs (.corrected e.line) (s.behindBad e.line)) ∧
      (e.found = .uncorrectable → logs (.uncorrected e.line) true))

/-! ### Steps of the device: scheduling -/

/-- R264 to R268, R272: a turn of the dispatcher gives the queue's launch a batch of up to 64 tasks, in order, with the
identifiers of its shape; a queue that starves rises; an invalid header is consumed with its code in LASTERR; a record
goes to the inbox of the core that takes it; a launch with nothing left retires; a speculative node's word chooses the
winning side.

R274, R275, R277, R301, R308: a free slot takes the youngest record of its core's deque, or the inbox's; a steal takes
the victim's oldest record, and an EMPTY answer doubles the backoff, whose end looks for work again; with every context
waiting, the longest waiter is to leave; a parked context without a frame pool goes to a shadow slot with its
registers. (Of the model's readings it rests on log entries 73, 77, 81, 83.) -/
def Obligations.DispatchAndSlotFilling : Prop :=
  (∀ (s : State),
      (∀ a q c, q < 64 → s.queues = [(a * 64 + q, c)] → s.served a q = true →
        (∀ n l h, s.disp.launches = [(n, l)] → l.queue = some (a * 64 + q) → l.graph = none → l.started = true → l.shares = [h] →
          h.next < h.stop → h.die < 4 → c.head = c.tail →
          let count := min 64 (h.stop - h.next)
          ∃ t recs, exec .dispatchTurn s = .next t ∧ (t.die h.die).placing = (s.die h.die).placing ++ recs ∧ recs.length = count ∧
            (∀ i < count, ∀ x, recs[i]? = some x → x.entry = l.hdr.entry ∧ x.arg = l.hdr.arg ∧ x.joinctr = l.hdr.joinctr ∧
              x.widshape = l.hdr.widshape ∧ x.workid = BitVec.ofNat 64 (l.hdr.workid (h.next + i)) ∧ x.launch = BitVec.ofNat 16 n) ∧
            t.launch? n = some { l with turn := 0, shares := [{ h with next := h.next + count }], live := l.live + count,
                                        untriggered := l.untriggered + count } ∧
            (t.queue a q).since = some s.gt ∧ (t.queue a q).waited = 0 ∧ (⟨.dispatchTurn, {}⟩ : Due) ∈ t.due ∧
            (⟨.dieDispatchPlace, { die := h.die }⟩ : Due) ∈ t.due ∧ t.ctxs = s.ctxs ∧ t.mem = s.mem) ∧
        (∀ ws code, s.disp.launches = [] → c.head ≠ c.tail → c.since = none → s.headEntry a q = some ws → headerCode ws = some code →
          ∃ t, exec .dispatchTurn s = .next t ∧ t.disp.launches = [] ∧
            t.queue a q = { c with head := c.head + 1, lasterr := BitVec.ofNat 32 (code + c.head.toNat % 2 ^ 24 * 256) } ∧
            t.ctxs = s.ctxs ∧ t.mem = s.mem)) ∧
      (let c := s.queue s.ev.asid s.ev.q
       ∀ g, c.since = some g → 1000000 * (c.waited + 1) ≤ (s.gt - g).toNat →
        ∃ t, exec .starvationTick s = .next t ∧ t.queue s.ev.asid s.ev.q = { c with waited := c.waited + 1 } ∧
          (⟨.starvationTick, s.ev⟩ : Due) ∈ t.due ∧ t.ctxs = s.ctxs ∧ t.mem = s.mem) ∧
      (∀ r rs c, (s.die s.ev.die).placing = r :: rs → s.refused r = false → s.placeFor s.ev.die r = some c →
        ∃ t, exec .dieDispatchPlace s = .next t ∧ (t.die s.ev.die).placing = rs ∧ (t.die s.ev.die).lastCore = c % 1024 ∧
          (t.core c).inbox = (s.core c).inbox ++ [r] ∧ s.inPartition r.asid c = true ∧ (s.core c).inbox.length < 64 ∧
          (∀ i, i ≠ c → t.core i = s.core i) ∧ t.ctxs = s.ctxs ∧ t.mem = s.mem) ∧
      (∀ l, s.disp.launches = [(s.ev.n, l)] → l.graph = none → (∀ h ∈ l.shares, h.stop ≤ h.next) → l.live = 0 → l.side = 0 →
        ∃ t, exec .launchRetire s = .next t ∧ t.disp.launches = [] ∧ t.ctxs = s.ctxs ∧ t.mem = s.mem) ∧
      (∀ l g node x y v w lx ly bs cs, s.launch? s.ev.n = some l → l.graph = some g → s.ev.id = x →
        g.branches = bs ++ .spec node 0xFFFF x y none :: cs → (∀ b ∈ bs, ∀ n z, b ≠ .spec n 0xFFFF x z none) → s.readNode l.asid.toNat l.hdr.graph.toNat node = some v → s.dispRead l.asid.toNat v.ptr 8 = some w →
        s.launch? x = some lx → s.launch? y = some ly → x ≠ y → x ≠ s.ev.n → y ≠ s.ev.n →
        ∃ t, exec .speculativeDecision s = .next t ∧ t.launch? x = some { lx with verdict := some (decide (w ≠ 0)) } ∧
          t.launch? y = some { ly with verdict := some (decide (w = 0)) } ∧
          t.launch? s.ev.n = some { l with graph := some (g.replace bs.length [.spec node 0xFFFF x y (some (decide (w ≠ 0)))]) } ∧
          (∀ k, (t.ctx k).r = (s.ctx k).r ∧ (t.ctx k).tx = (s.ctx k).tx) ∧ t.mem = s.mem)) ∧
  (∀ (s : State), s.dead = [] → s.mgmt.ready = true →
      let core := s.ev.core
      let starts := fun (t : State) (k : Nat) (r : TaskRec) => (t.ctx k).run = .running ∧ (t.ctx k).pc = r.entry ∧
        (t.ctx k).asid.toNat = r.asid ∧ (t.ctx k).getX 1 = r.arg ∧ (t.ctx k).getX 2 = r.workid ∧ (t.ctx k).getX 3 = r.widshape ∧
        (t.ctx k).getX 4 = r.joinctr ∧ (∀ n < 32, 5 ≤ n → (t.ctx k).getX n = 0) ∧ (t.ctx k).info.task = some r ∧
        (∀ j, j ≠ k → t.ctx j = s.ctx j) ∧ t.mem = s.mem
      (∀ k, s.freeResident core = some k → s.ev.n = 0 → (⟨.fillSlot, { core := core, n := 1 }⟩ : Due) ∉ s.due →
        (s.core core).outlist = [] → (s.core core).spilled = [] → (∀ j ∈ [0, 1], (s.ctx (shadowKey core j)).why = none) →
        (∀ rs r, (s.core core).deque = rs ++ [r] → s.bindable core r = true → s.refused r = false → s.storesBefore core r.born = true →
          ∃ t, exec .fillSlot s = .next t ∧ starts t k r ∧ (t.core core).deque = rs ∧ (t.core core).inbox = (s.core core).inbox) ∧
        (∀ r, (s.core core).deque = [] → (s.core core).inbox = [r] → s.bindable core r = true → s.refused r = false →
          ∃ t, exec .fillSlot s = .next t ∧ starts t k r ∧ (t.core core).deque = [] ∧ (t.core core).inbox = [])) ∧
      (let victim := s.ev.n
       victim ≠ core → (s.core victim).spilled = [] →
        (∀ r rs k, (s.core victim).deque = r :: rs → s.bindable core r = true → s.storesBefore victim r.born = true → s.refused r = false →
          s.openSlot core = some k →
          ∃ t, exec .stealRequest s = .next t ∧ starts t k r ∧ (t.core victim).deque = rs ∧ (t.core core).stealing = none ∧
            (t.core core).backoff = 64 ∧ (t.die (dieOf victim)).counts.steals = (s.die (dieOf victim)).counts.steals + 1) ∧
        ((s.core victim).deque = [] →
          ∃ t, exec .stealRequest s = .next t ∧ (t.core core).backoff = min 4096 (2 * (s.core core).backoff) ∧
            t.due = s.due ++ [⟨.stealBackoffExpiry, { core := core, value := s.cycles + BitVec.ofNat 64 (s.core core).backoff }⟩] ∧
            t.ctxs = s.ctxs ∧ t.mem = s.mem)) ∧
      (¬s.cycles < s.ev.value → ∃ t, exec .stealBackoffExpiry s = .next t ∧ (t.core core).stealing = none ∧
        (⟨.fillSlot, { core := core }⟩ : Due) ∈ t.due ∧ t.ctxs = s.ctxs ∧ t.mem = s.mem) ∧
      (∀ k, s.hasRecord core = true → s.freeResident core = none → (∀ i < 8, (s.ctx (keyOf core i)).waitsSince.isSome = true) →
        (s.ctx (shadowKey core 0)).run = .vacant → (s.ctx (shadowKey core 1)).run = .vacant → s.longestWaiter core = some k →
        ∃ t, exec .waitSwap s = .next t ∧ (t.ctx k).why = some .swapped ∧ (t.ctx k).r = (s.ctx k).r ∧
          (⟨.contextStream, { core := core }⟩ : Due) ∈ t.due ∧ (∀ j, j ≠ k → t.ctx j = s.ctx j) ∧ t.mem = s.mem) ∧
      (∀ i < 8, core < 4096 →
        let k := keyOf core i
        let c := s.ctx k
        let j := shadowKey core 0
        c.run = .parked 4 → c.why = some (.parked 4) → (s.space c.asid.toNat).ctxframe.getLsbD 0 = false →
        (∀ n ∈ [0, 1], (s.ctx (shadowKey core n)).run = .vacant) → (∀ n < 8, n ≠ i → (s.ctx (keyOf core n)).why = none) →
        c.results = [] → c.loads = [] → c.abort = none → c.answer = none → c.joined = false → c.speculative = false →
        c.amov = none → c.onMailbox = false → s.postsOut k = false → c.draining = false → (s.mx core).owner ≠ some k → s.tokenHolder ≠ some k →
        ∃ t, exec .contextStream s = .next t ∧ t.ctx k = Ctx.vacantOne ∧ (t.ctx j).run = .parked 4 ∧ (t.ctx j).r = c.r ∧
          (t.ctx j).pc = c.pc ∧ (t.ctx j).asid = c.asid ∧ (t.ctx j).leftAt = s.gt ∧ t.mem = s.mem ∧ t.scratch = s.scratch))
end

