-- ==== Sys2Proof/Laws/Table.lean ====
section
/-! SUPPORT. Sparse tables, memory's canonical form and vectors by number: reading after writing, and that every
memory operation keeps the form. -/

namespace Sys2Proof.Machine

/-! ### Sparse tables -/

namespace Tbl

@[simp] theorem get?_set {α : Type} (t : Tbl α) (k : Nat) (v : α) : get? (set t k v) k = some v := by
  induction t with
  | nil => simp [set, get?]
  | cons e t ih =>
    obtain ⟨a, w⟩ := e
    simp only [set]
    split
    · simp [get?]
    · split
      · simp [get?]
      · rename_i h1 h2
        simp [get?, Ne.symm h2, ih]

@[simp] theorem get?_set_ne {α : Type} (t : Tbl α) (k j : Nat) (v : α) (h : j ≠ k) : get? (set t k v) j = get? t j := by
  induction t with
  | nil => simp [set, get?, Ne.symm h]
  | cons e t ih =>
    obtain ⟨a, w⟩ := e
    simp only [set]
    split
    · simp [get?, Ne.symm h]
    · split
      · rename_i h1 h2
        subst h2
        simp [get?, Ne.symm h]
      · simp [get?, ih]

@[simp] theorem getD_set {α : Type} (t : Tbl α) (k : Nat) (v d : α) : getD (set t k v) k d = v := by
  simp [getD]

@[simp] theorem getD_set_ne {α : Type} (t : Tbl α) (k j : Nat) (v d : α) (h : j ≠ k) :
    getD (set t k v) j d = getD t j d := by
  simp [getD, h]

theorem get?_erase {α : Type} (t : Tbl α) (k : Nat) : get? (erase t k) k = none := by
  induction t with
  | nil => simp [erase, get?]
  | cons e t ih =>
    obtain ⟨a, w⟩ := e
    simp only [erase] at ih ⊢
    by_cases h : a = k
    · simpa [h] using ih
    · simpa [h, get?] using ih

theorem get?_erase_ne {α : Type} (t : Tbl α) (k j : Nat) (h : j ≠ k) : get? (erase t k) j = get? t j := by
  induction t with
  | nil => simp [erase]
  | cons e t ih =>
    obtain ⟨a, w⟩ := e
    simp only [erase] at ih ⊢
    by_cases h' : a = k
    · subst h'
      simpa [get?, Ne.symm h] using ih
    · simp only [ne_eq, decide_not] at ih
      simp [h', get?, ih]

end Tbl

/-! ### Vectors by number -/

@[simp] theorem vat_vput {α : Type} {n : Nat} [NeZero n] (v : Vector α n) (i : Nat) (a : α) : vat (vput v i a) i = a := by
  simp [vat, vput]

theorem vat_vput_ne {α : Type} {n : Nat} [NeZero n] (v : Vector α n) (i j : Nat) (a : α) (h : j % n ≠ i % n) :
    vat (vput v i a) j = vat v j := by
  simp [vat, vput, Ne.symm h]

/-! ### Memory -/

namespace Mem

theorem read_write (m : Mem) (a : Nat) (b : Byte) : read (write m a b) a = b := by
  unfold write read
  split
  · rename_i h
    simp [Tbl.getD, Tbl.get?_erase, h]
  · simp

theorem read_write_ne (m : Mem) (a c : Nat) (b : Byte) (h : c ≠ a) : read (write m a b) c = read m c := by
  unfold write read
  split
  · simp [Tbl.getD, Tbl.get?_erase_ne, h]
  · simp [h]

theorem read_writeBytes_below (m : Mem) (a c : Nat) (bs : List Byte) (h : c < a) : read (writeBytes m a bs) c = read m c := by
  induction bs generalizing m a with
  | nil => rfl
  | cons b bs ih =>
    simp only [writeBytes]
    rw [ih _ _ (by omega), read_write_ne _ _ _ _ (by omega)]

/-- Outside the bytes written, memory reads as before. -/
theorem read_writeBytes_out (m : Mem) (a c : Nat) (bs : List Byte) (h : c < a ∨ a + bs.length ≤ c) :
    read (writeBytes m a bs) c = read m c := by
  induction bs generalizing m a with
  | nil => rfl
  | cons b bs ih =>
    simp only [List.length_cons] at h
    simp only [writeBytes]
    rw [ih _ _ (by omega), read_write_ne _ _ _ _ (by omega)]

/-- Bytes written read back. -/
theorem readBytes_writeBytes (m : Mem) (a : Nat) (bs : List Byte) : readBytes (writeBytes m a bs) a bs.length = bs := by
  induction bs generalizing m a with
  | nil => rfl
  | cons b bs ih =>
    simp only [List.length_cons, readBytes, writeBytes]
    rw [ih, read_writeBytes_below _ _ _ _ (by omega), read_write]

/-- The canonical form as a statement about neighbours. -/
theorem wf_iff (m : Mem) : m.wf = true ↔ m.Pairwise (fun e f => e.1 < f.1) ∧ ∀ e ∈ m, e.2 ≠ unlisted := by
  induction m with
  | nil => simp [wf]
  | cons e t ih =>
    obtain ⟨a, b⟩ := e
    cases t with
    | nil => simp [wf]
    | cons e' t' =>
      obtain ⟨a', b'⟩ := e'
      simp only [wf, Bool.and_eq_true, decide_eq_true_eq, ih]
      constructor
      · rintro ⟨⟨hb, ha⟩, hp, hz⟩
        refine ⟨List.pairwise_cons.2 ⟨?_, hp⟩, ?_⟩
        · intro f hf
          rcases List.mem_cons.1 hf with rfl | hf
          · exact ha
          · exact Nat.lt_trans ha ((List.pairwise_cons.1 hp).1 f hf)
        · intro f hf
          rcases List.mem_cons.1 hf with rfl | hf
          · exact hb
          · exact hz f hf
      · rintro ⟨hp, hz⟩
        have hp' := List.pairwise_cons.1 hp
        exact ⟨⟨hz (a, b) (by simp), hp'.1 (a', b') (by simp)⟩, hp'.2, fun f hf => hz f (List.mem_cons_of_mem _ hf)⟩

theorem filter_wf (m : Mem) (p : Nat × Byte → Bool) (h : m.wf = true) : wf (m.filter p) = true := by
  rw [wf_iff] at h ⊢
  exact ⟨h.1.filter p, fun e he => h.2 e (List.mem_filter.1 he).1⟩

theorem mem_set {k : Nat} {v : Byte} (m : Mem) (e : Nat × Byte) (h : e ∈ Tbl.set m k v) : e = (k, v) ∨ e ∈ m := by
  induction m with
  | nil => simpa [Tbl.set] using h
  | cons x t ih =>
    obtain ⟨a, w⟩ := x
    simp only [Tbl.set] at h
    split at h
    · simpa using h
    · split at h
      · rcases List.mem_cons.1 h with h | h
        · exact .inl h
        · exact .inr (List.mem_cons_of_mem _ h)
      · rcases List.mem_cons.1 h with h | h
        · exact .inr (by simp [h])
        · rcases ih h with h | h
          · exact .inl h
          · exact .inr (List.mem_cons_of_mem _ h)

theorem set_wf (m : Mem) (k : Nat) (v : Byte) (hv : v ≠ unlisted) (h : m.wf = true) : wf (Tbl.set m k v) = true := by
  rw [wf_iff] at h ⊢
  obtain ⟨hp, hz⟩ := h
  refine ⟨?_, ?_⟩
  · induction m with
    | nil => simp [Tbl.set]
    | cons x t ih =>
      obtain ⟨a, w⟩ := x
      have hp' := List.pairwise_cons.1 hp
      simp only [Tbl.set]
      split
      · rename_i hk
        refine List.pairwise_cons.2 ⟨?_, hp⟩
        intro f hf
        rcases List.mem_cons.1 hf with rfl | hf
        · exact hk
        · exact Nat.lt_trans hk (hp'.1 f hf)
      · split
        · rename_i h1 h2
          subst h2
          exact List.pairwise_cons.2 ⟨hp'.1, hp'.2⟩
        · rename_i h1 h2
          refine List.pairwise_cons.2 ⟨?_, ih hp'.2 fun e he => hz e (List.mem_cons_of_mem _ he)⟩
          intro f hf
          rcases mem_set t f hf with rfl | hf
          · simp only; omega
          · exact hp'.1 f hf
  · intro e he
    rcases mem_set m e he with rfl | he
    · exact hv
    · exact hz e he

theorem write_wf (m : Mem) (a : Nat) (b : Byte) (h : m.wf = true) : wf (write m a b) = true := by
  unfold write
  split
  · exact filter_wf m _ h
  · exact set_wf m a b ‹_› h

theorem writeBytes_wf (m : Mem) (a : Nat) (bs : List Byte) (h : m.wf = true) : wf (writeBytes m a bs) = true := by
  induction bs generalizing m a with
  | nil => exact h
  | cons b bs ih => exact ih _ _ (write_wf m a b h)

theorem writeAll_wf (m : Mem) (ws : List (Nat × Byte)) (h : m.wf = true) : wf (writeAll m ws) = true := by
  unfold writeAll
  induction ws generalizing m with
  | nil => exact h
  | cons w ws ih => exact ih _ (write_wf m w.1 w.2 h)

theorem clear_wf (m : Mem) (lo hi : Nat) (h : m.wf = true) : wf (clear m lo hi) = true := filter_wf m _ h

end Mem

end Sys2Proof.Machine
end

