-- ==== Sys2Proof/Laws/State.lean ====
section
/-! SUPPORT. What each update of the state leaves alone, one lemma for each update and field, and what it writes. -/

namespace Sys2Proof.Machine

/-! ### Fields that an update leaves alone -/

@[simp] theorem State.setCtx_cores (s : State) (k : Nat) (c : Ctx) : (s.setCtx k c).cores = s.cores := rfl
@[simp] theorem State.setCtx_clusters (s : State) (k : Nat) (c : Ctx) : (s.setCtx k c).clusters = s.clusters := rfl
@[simp] theorem State.setCtx_dies (s : State) (k : Nat) (c : Ctx) : (s.setCtx k c).dies = s.dies := rfl
@[simp] theorem State.setCtx_quires (s : State) (k : Nat) (c : Ctx) : (s.setCtx k c).quires = s.quires := rfl
@[simp] theorem State.setCtx_gt (s : State) (k : Nat) (c : Ctx) : (s.setCtx k c).gt = s.gt := rfl
@[simp] theorem State.setCtx_cycles (s : State) (k : Nat) (c : Ctx) : (s.setCtx k c).cycles = s.cycles := rfl
@[simp] theorem State.setCtx_mem (s : State) (k : Nat) (c : Ctx) : (s.setCtx k c).mem = s.mem := rfl
@[simp] theorem State.setCtx_scratch (s : State) (k : Nat) (c : Ctx) : (s.setCtx k c).scratch = s.scratch := rfl
@[simp] theorem State.setCtx_poison (s : State) (k : Nat) (c : Ctx) : (s.setCtx k c).poison = s.poison := rfl
@[simp] theorem State.setCtx_poisonBase (s : State) (k : Nat) (c : Ctx) : (s.setCtx k c).poisonBase = s.poisonBase := rfl
@[simp] theorem State.setCtx_scratchPoison (s : State) (k : Nat) (c : Ctx) : (s.setCtx k c).scratchPoison = s.scratchPoison := rfl
@[simp] theorem State.setCtx_scratchPending (s : State) (k : Nat) (c : Ctx) : (s.setCtx k c).scratchPending = s.scratchPending := rfl
@[simp] theorem State.setCtx_tiles (s : State) (k : Nat) (c : Ctx) : (s.setCtx k c).tiles = s.tiles := rfl
@[simp] theorem State.setCtx_dirs (s : State) (k : Nat) (c : Ctx) : (s.setCtx k c).dirs = s.dirs := rfl
@[simp] theorem State.setCtx_tokenHolder (s : State) (k : Nat) (c : Ctx) : (s.setCtx k c).tokenHolder = s.tokenHolder := rfl
@[simp] theorem State.setCtx_tokenTurn (s : State) (k : Nat) (c : Ctx) : (s.setCtx k c).tokenTurn = s.tokenTurn := rfl
@[simp] theorem State.setCtx_spaces (s : State) (k : Nat) (c : Ctx) : (s.setCtx k c).spaces = s.spaces := rfl
@[simp] theorem State.setCtx_parts (s : State) (k : Nat) (c : Ctx) : (s.setCtx k c).parts = s.parts := rfl
@[simp] theorem State.setCtx_queues (s : State) (k : Nat) (c : Ctx) : (s.setCtx k c).queues = s.queues := rfl
@[simp] theorem State.setCtx_disp (s : State) (k : Nat) (c : Ctx) : (s.setCtx k c).disp = s.disp := rfl
@[simp] theorem State.setCtx_ote (s : State) (k : Nat) (c : Ctx) : (s.setCtx k c).ote = s.ote := rfl
@[simp] theorem State.setCtx_msgs (s : State) (k : Nat) (c : Ctx) : (s.setCtx k c).msgs = s.msgs := rfl
@[simp] theorem State.setCtx_palCopies (s : State) (k : Nat) (c : Ctx) : (s.setCtx k c).palCopies = s.palCopies := rfl
@[simp] theorem State.setCtx_mgmt (s : State) (k : Nat) (c : Ctx) : (s.setCtx k c).mgmt = s.mgmt := rfl
@[simp] theorem State.setCtx_dead (s : State) (k : Nat) (c : Ctx) : (s.setCtx k c).dead = s.dead := rfl
@[simp] theorem State.setCtx_cur (s : State) (k : Nat) (c : Ctx) : (s.setCtx k c).cur = s.cur := rfl
@[simp] theorem State.setCtx_choices (s : State) (k : Nat) (c : Ctx) : (s.setCtx k c).choices = s.choices := rfl
@[simp] theorem State.setCtx_due (s : State) (k : Nat) (c : Ctx) : (s.setCtx k c).due = s.due := rfl
@[simp] theorem State.setCtx_ev (s : State) (k : Nat) (c : Ctx) : (s.setCtx k c).ev = s.ev := rfl
@[simp] theorem State.setCtx_how (s : State) (k : Nat) (c : Ctx) : (s.setCtx k c).how = s.how := rfl
@[simp] theorem State.setCtx_stalled (s : State) (k : Nat) (c : Ctx) : (s.setCtx k c).stalled = s.stalled := rfl
@[simp] theorem State.setCtx_nextId (s : State) (k : Nat) (c : Ctx) : (s.setCtx k c).nextId = s.nextId := rfl

@[simp] theorem State.updCtx_cores (s : State) (k : Nat) (f : Ctx → Ctx) : (s.updCtx k f).cores = s.cores := rfl
@[simp] theorem State.updCtx_clusters (s : State) (k : Nat) (f : Ctx → Ctx) : (s.updCtx k f).clusters = s.clusters := rfl
@[simp] theorem State.updCtx_dies (s : State) (k : Nat) (f : Ctx → Ctx) : (s.updCtx k f).dies = s.dies := rfl
@[simp] theorem State.updCtx_quires (s : State) (k : Nat) (f : Ctx → Ctx) : (s.updCtx k f).quires = s.quires := rfl
@[simp] theorem State.updCtx_gt (s : State) (k : Nat) (f : Ctx → Ctx) : (s.updCtx k f).gt = s.gt := rfl
@[simp] theorem State.updCtx_cycles (s : State) (k : Nat) (f : Ctx → Ctx) : (s.updCtx k f).cycles = s.cycles := rfl
@[simp] theorem State.updCtx_mem (s : State) (k : Nat) (f : Ctx → Ctx) : (s.updCtx k f).mem = s.mem := rfl
@[simp] theorem State.updCtx_scratch (s : State) (k : Nat) (f : Ctx → Ctx) : (s.updCtx k f).scratch = s.scratch := rfl
@[simp] theorem State.updCtx_poison (s : State) (k : Nat) (f : Ctx → Ctx) : (s.updCtx k f).poison = s.poison := rfl
@[simp] theorem State.updCtx_poisonBase (s : State) (k : Nat) (f : Ctx → Ctx) : (s.updCtx k f).poisonBase = s.poisonBase := rfl
@[simp] theorem State.updCtx_scratchPoison (s : State) (k : Nat) (f : Ctx → Ctx) : (s.updCtx k f).scratchPoison = s.scratchPoison := rfl
@[simp] theorem State.updCtx_scratchPending (s : State) (k : Nat) (f : Ctx → Ctx) : (s.updCtx k f).scratchPending = s.scratchPending := rfl
@[simp] theorem State.updCtx_tiles (s : State) (k : Nat) (f : Ctx → Ctx) : (s.updCtx k f).tiles = s.tiles := rfl
@[simp] theorem State.updCtx_dirs (s : State) (k : Nat) (f : Ctx → Ctx) : (s.updCtx k f).dirs = s.dirs := rfl
@[simp] theorem State.updCtx_tokenHolder (s : State) (k : Nat) (f : Ctx → Ctx) : (s.updCtx k f).tokenHolder = s.tokenHolder := rfl
@[simp] theorem State.updCtx_tokenTurn (s : State) (k : Nat) (f : Ctx → Ctx) : (s.updCtx k f).tokenTurn = s.tokenTurn := rfl
@[simp] theorem State.updCtx_spaces (s : State) (k : Nat) (f : Ctx → Ctx) : (s.updCtx k f).spaces = s.spaces := rfl
@[simp] theorem State.updCtx_parts (s : State) (k : Nat) (f : Ctx → Ctx) : (s.updCtx k f).parts = s.parts := rfl
@[simp] theorem State.updCtx_queues (s : State) (k : Nat) (f : Ctx → Ctx) : (s.updCtx k f).queues = s.queues := rfl
@[simp] theorem State.updCtx_disp (s : State) (k : Nat) (f : Ctx → Ctx) : (s.updCtx k f).disp = s.disp := rfl
@[simp] theorem State.updCtx_ote (s : State) (k : Nat) (f : Ctx → Ctx) : (s.updCtx k f).ote = s.ote := rfl
@[simp] theorem State.updCtx_msgs (s : State) (k : Nat) (f : Ctx → Ctx) : (s.updCtx k f).msgs = s.msgs := rfl
@[simp] theorem State.updCtx_palCopies (s : State) (k : Nat) (f : Ctx → Ctx) : (s.updCtx k f).palCopies = s.palCopies := rfl
@[simp] theorem State.updCtx_mgmt (s : State) (k : Nat) (f : Ctx → Ctx) : (s.updCtx k f).mgmt = s.mgmt := rfl
@[simp] theorem State.updCtx_dead (s : State) (k : Nat) (f : Ctx → Ctx) : (s.updCtx k f).dead = s.dead := rfl
@[simp] theorem State.updCtx_cur (s : State) (k : Nat) (f : Ctx → Ctx) : (s.updCtx k f).cur = s.cur := rfl
@[simp] theorem State.updCtx_choices (s : State) (k : Nat) (f : Ctx → Ctx) : (s.updCtx k f).choices = s.choices := rfl
@[simp] theorem State.updCtx_due (s : State) (k : Nat) (f : Ctx → Ctx) : (s.updCtx k f).due = s.due := rfl
@[simp] theorem State.updCtx_ev (s : State) (k : Nat) (f : Ctx → Ctx) : (s.updCtx k f).ev = s.ev := rfl
@[simp] theorem State.updCtx_how (s : State) (k : Nat) (f : Ctx → Ctx) : (s.updCtx k f).how = s.how := rfl
@[simp] theorem State.updCtx_stalled (s : State) (k : Nat) (f : Ctx → Ctx) : (s.updCtx k f).stalled = s.stalled := rfl
@[simp] theorem State.updCtx_nextId (s : State) (k : Nat) (f : Ctx → Ctx) : (s.updCtx k f).nextId = s.nextId := rfl

@[simp] theorem State.setTh_cores (s : State) (c : Ctx) : (s.setTh c).cores = s.cores := rfl
@[simp] theorem State.setTh_clusters (s : State) (c : Ctx) : (s.setTh c).clusters = s.clusters := rfl
@[simp] theorem State.setTh_dies (s : State) (c : Ctx) : (s.setTh c).dies = s.dies := rfl
@[simp] theorem State.setTh_quires (s : State) (c : Ctx) : (s.setTh c).quires = s.quires := rfl
@[simp] theorem State.setTh_gt (s : State) (c : Ctx) : (s.setTh c).gt = s.gt := rfl
@[simp] theorem State.setTh_cycles (s : State) (c : Ctx) : (s.setTh c).cycles = s.cycles := rfl
@[simp] theorem State.setTh_mem (s : State) (c : Ctx) : (s.setTh c).mem = s.mem := rfl
@[simp] theorem State.setTh_scratch (s : State) (c : Ctx) : (s.setTh c).scratch = s.scratch := rfl
@[simp] theorem State.setTh_poison (s : State) (c : Ctx) : (s.setTh c).poison = s.poison := rfl
@[simp] theorem State.setTh_poisonBase (s : State) (c : Ctx) : (s.setTh c).poisonBase = s.poisonBase := rfl
@[simp] theorem State.setTh_scratchPoison (s : State) (c : Ctx) : (s.setTh c).scratchPoison = s.scratchPoison := rfl
@[simp] theorem State.setTh_scratchPending (s : State) (c : Ctx) : (s.setTh c).scratchPending = s.scratchPending := rfl
@[simp] theorem State.setTh_tiles (s : State) (c : Ctx) : (s.setTh c).tiles = s.tiles := rfl
@[simp] theorem State.setTh_dirs (s : State) (c : Ctx) : (s.setTh c).dirs = s.dirs := rfl
@[simp] theorem State.setTh_tokenHolder (s : State) (c : Ctx) : (s.setTh c).tokenHolder = s.tokenHolder := rfl
@[simp] theorem State.setTh_tokenTurn (s : State) (c : Ctx) : (s.setTh c).tokenTurn = s.tokenTurn := rfl
@[simp] theorem State.setTh_spaces (s : State) (c : Ctx) : (s.setTh c).spaces = s.spaces := rfl
@[simp] theorem State.setTh_parts (s : State) (c : Ctx) : (s.setTh c).parts = s.parts := rfl
@[simp] theorem State.setTh_queues (s : State) (c : Ctx) : (s.setTh c).queues = s.queues := rfl
@[simp] theorem State.setTh_disp (s : State) (c : Ctx) : (s.setTh c).disp = s.disp := rfl
@[simp] theorem State.setTh_ote (s : State) (c : Ctx) : (s.setTh c).ote = s.ote := rfl
@[simp] theorem State.setTh_msgs (s : State) (c : Ctx) : (s.setTh c).msgs = s.msgs := rfl
@[simp] theorem State.setTh_palCopies (s : State) (c : Ctx) : (s.setTh c).palCopies = s.palCopies := rfl
@[simp] theorem State.setTh_mgmt (s : State) (c : Ctx) : (s.setTh c).mgmt = s.mgmt := rfl
@[simp] theorem State.setTh_dead (s : State) (c : Ctx) : (s.setTh c).dead = s.dead := rfl
@[simp] theorem State.setTh_cur (s : State) (c : Ctx) : (s.setTh c).cur = s.cur := rfl
@[simp] theorem State.setTh_choices (s : State) (c : Ctx) : (s.setTh c).choices = s.choices := rfl
@[simp] theorem State.setTh_due (s : State) (c : Ctx) : (s.setTh c).due = s.due := rfl
@[simp] theorem State.setTh_ev (s : State) (c : Ctx) : (s.setTh c).ev = s.ev := rfl
@[simp] theorem State.setTh_how (s : State) (c : Ctx) : (s.setTh c).how = s.how := rfl
@[simp] theorem State.setTh_stalled (s : State) (c : Ctx) : (s.setTh c).stalled = s.stalled := rfl
@[simp] theorem State.setTh_nextId (s : State) (c : Ctx) : (s.setTh c).nextId = s.nextId := rfl

@[simp] theorem State.updTh_cores (s : State) (f : Ctx → Ctx) : (s.updTh f).cores = s.cores := rfl
@[simp] theorem State.updTh_clusters (s : State) (f : Ctx → Ctx) : (s.updTh f).clusters = s.clusters := rfl
@[simp] theorem State.updTh_dies (s : State) (f : Ctx → Ctx) : (s.updTh f).dies = s.dies := rfl
@[simp] theorem State.updTh_quires (s : State) (f : Ctx → Ctx) : (s.updTh f).quires = s.quires := rfl
@[simp] theorem State.updTh_gt (s : State) (f : Ctx → Ctx) : (s.updTh f).gt = s.gt := rfl
@[simp] theorem State.updTh_cycles (s : State) (f : Ctx → Ctx) : (s.updTh f).cycles = s.cycles := rfl
@[simp] theorem State.updTh_mem (s : State) (f : Ctx → Ctx) : (s.updTh f).mem = s.mem := rfl
@[simp] theorem State.updTh_scratch (s : State) (f : Ctx → Ctx) : (s.updTh f).scratch = s.scratch := rfl
@[simp] theorem State.updTh_poison (s : State) (f : Ctx → Ctx) : (s.updTh f).poison = s.poison := rfl
@[simp] theorem State.updTh_poisonBase (s : State) (f : Ctx → Ctx) : (s.updTh f).poisonBase = s.poisonBase := rfl
@[simp] theorem State.updTh_scratchPoison (s : State) (f : Ctx → Ctx) : (s.updTh f).scratchPoison = s.scratchPoison := rfl
@[simp] theorem State.updTh_scratchPending (s : State) (f : Ctx → Ctx) : (s.updTh f).scratchPending = s.scratchPending := rfl
@[simp] theorem State.updTh_tiles (s : State) (f : Ctx → Ctx) : (s.updTh f).tiles = s.tiles := rfl
@[simp] theorem State.updTh_dirs (s : State) (f : Ctx → Ctx) : (s.updTh f).dirs = s.dirs := rfl
@[simp] theorem State.updTh_tokenHolder (s : State) (f : Ctx → Ctx) : (s.updTh f).tokenHolder = s.tokenHolder := rfl
@[simp] theorem State.updTh_tokenTurn (s : State) (f : Ctx → Ctx) : (s.updTh f).tokenTurn = s.tokenTurn := rfl
@[simp] theorem State.updTh_spaces (s : State) (f : Ctx → Ctx) : (s.updTh f).spaces = s.spaces := rfl
@[simp] theorem State.updTh_parts (s : State) (f : Ctx → Ctx) : (s.updTh f).parts = s.parts := rfl
@[simp] theorem State.updTh_queues (s : State) (f : Ctx → Ctx) : (s.updTh f).queues = s.queues := rfl
@[simp] theorem State.updTh_disp (s : State) (f : Ctx → Ctx) : (s.updTh f).disp = s.disp := rfl
@[simp] theorem State.updTh_ote (s : State) (f : Ctx → Ctx) : (s.updTh f).ote = s.ote := rfl
@[simp] theorem State.updTh_msgs (s : State) (f : Ctx → Ctx) : (s.updTh f).msgs = s.msgs := rfl
@[simp] theorem State.updTh_palCopies (s : State) (f : Ctx → Ctx) : (s.updTh f).palCopies = s.palCopies := rfl
@[simp] theorem State.updTh_mgmt (s : State) (f : Ctx → Ctx) : (s.updTh f).mgmt = s.mgmt := rfl
@[simp] theorem State.updTh_dead (s : State) (f : Ctx → Ctx) : (s.updTh f).dead = s.dead := rfl
@[simp] theorem State.updTh_cur (s : State) (f : Ctx → Ctx) : (s.updTh f).cur = s.cur := rfl
@[simp] theorem State.updTh_choices (s : State) (f : Ctx → Ctx) : (s.updTh f).choices = s.choices := rfl
@[simp] theorem State.updTh_due (s : State) (f : Ctx → Ctx) : (s.updTh f).due = s.due := rfl
@[simp] theorem State.updTh_ev (s : State) (f : Ctx → Ctx) : (s.updTh f).ev = s.ev := rfl
@[simp] theorem State.updTh_how (s : State) (f : Ctx → Ctx) : (s.updTh f).how = s.how := rfl
@[simp] theorem State.updTh_stalled (s : State) (f : Ctx → Ctx) : (s.updTh f).stalled = s.stalled := rfl
@[simp] theorem State.updTh_nextId (s : State) (f : Ctx → Ctx) : (s.updTh f).nextId = s.nextId := rfl

@[simp] theorem State.setCore_ctxs (s : State) (n : Nat) (v : Core) : (s.setCore n v).ctxs = s.ctxs := rfl
@[simp] theorem State.setCore_clusters (s : State) (n : Nat) (v : Core) : (s.setCore n v).clusters = s.clusters := rfl
@[simp] theorem State.setCore_dies (s : State) (n : Nat) (v : Core) : (s.setCore n v).dies = s.dies := rfl
@[simp] theorem State.setCore_quires (s : State) (n : Nat) (v : Core) : (s.setCore n v).quires = s.quires := rfl
@[simp] theorem State.setCore_gt (s : State) (n : Nat) (v : Core) : (s.setCore n v).gt = s.gt := rfl
@[simp] theorem State.setCore_cycles (s : State) (n : Nat) (v : Core) : (s.setCore n v).cycles = s.cycles := rfl
@[simp] theorem State.setCore_mem (s : State) (n : Nat) (v : Core) : (s.setCore n v).mem = s.mem := rfl
@[simp] theorem State.setCore_scratch (s : State) (n : Nat) (v : Core) : (s.setCore n v).scratch = s.scratch := rfl
@[simp] theorem State.setCore_poison (s : State) (n : Nat) (v : Core) : (s.setCore n v).poison = s.poison := rfl
@[simp] theorem State.setCore_poisonBase (s : State) (n : Nat) (v : Core) : (s.setCore n v).poisonBase = s.poisonBase := rfl
@[simp] theorem State.setCore_scratchPoison (s : State) (n : Nat) (v : Core) : (s.setCore n v).scratchPoison = s.scratchPoison := rfl
@[simp] theorem State.setCore_scratchPending (s : State) (n : Nat) (v : Core) : (s.setCore n v).scratchPending = s.scratchPending := rfl
@[simp] theorem State.setCore_tiles (s : State) (n : Nat) (v : Core) : (s.setCore n v).tiles = s.tiles := rfl
@[simp] theorem State.setCore_dirs (s : State) (n : Nat) (v : Core) : (s.setCore n v).dirs = s.dirs := rfl
@[simp] theorem State.setCore_tokenHolder (s : State) (n : Nat) (v : Core) : (s.setCore n v).tokenHolder = s.tokenHolder := rfl
@[simp] theorem State.setCore_tokenTurn (s : State) (n : Nat) (v : Core) : (s.setCore n v).tokenTurn = s.tokenTurn := rfl
@[simp] theorem State.setCore_spaces (s : State) (n : Nat) (v : Core) : (s.setCore n v).spaces = s.spaces := rfl
@[simp] theorem State.setCore_parts (s : State) (n : Nat) (v : Core) : (s.setCore n v).parts = s.parts := rfl
@[simp] theorem State.setCore_queues (s : State) (n : Nat) (v : Core) : (s.setCore n v).queues = s.queues := rfl
@[simp] theorem State.setCore_disp (s : State) (n : Nat) (v : Core) : (s.setCore n v).disp = s.disp := rfl
@[simp] theorem State.setCore_ote (s : State) (n : Nat) (v : Core) : (s.setCore n v).ote = s.ote := rfl
@[simp] theorem State.setCore_msgs (s : State) (n : Nat) (v : Core) : (s.setCore n v).msgs = s.msgs := rfl
@[simp] theorem State.setCore_palCopies (s : State) (n : Nat) (v : Core) : (s.setCore n v).palCopies = s.palCopies := rfl
@[simp] theorem State.setCore_mgmt (s : State) (n : Nat) (v : Core) : (s.setCore n v).mgmt = s.mgmt := rfl
@[simp] theorem State.setCore_dead (s : State) (n : Nat) (v : Core) : (s.setCore n v).dead = s.dead := rfl
@[simp] theorem State.setCore_cur (s : State) (n : Nat) (v : Core) : (s.setCore n v).cur = s.cur := rfl
@[simp] theorem State.setCore_choices (s : State) (n : Nat) (v : Core) : (s.setCore n v).choices = s.choices := rfl
@[simp] theorem State.setCore_due (s : State) (n : Nat) (v : Core) : (s.setCore n v).due = s.due := rfl
@[simp] theorem State.setCore_ev (s : State) (n : Nat) (v : Core) : (s.setCore n v).ev = s.ev := rfl
@[simp] theorem State.setCore_how (s : State) (n : Nat) (v : Core) : (s.setCore n v).how = s.how := rfl
@[simp] theorem State.setCore_stalled (s : State) (n : Nat) (v : Core) : (s.setCore n v).stalled = s.stalled := rfl
@[simp] theorem State.setCore_nextId (s : State) (n : Nat) (v : Core) : (s.setCore n v).nextId = s.nextId := rfl

@[simp] theorem State.updCore_ctxs (s : State) (n : Nat) (f : Core → Core) : (s.updCore n f).ctxs = s.ctxs := rfl
@[simp] theorem State.updCore_clusters (s : State) (n : Nat) (f : Core → Core) : (s.updCore n f).clusters = s.clusters := rfl
@[simp] theorem State.updCore_dies (s : State) (n : Nat) (f : Core → Core) : (s.updCore n f).dies = s.dies := rfl
@[simp] theorem State.updCore_quires (s : State) (n : Nat) (f : Core → Core) : (s.updCore n f).quires = s.quires := rfl
@[simp] theorem State.updCore_gt (s : State) (n : Nat) (f : Core → Core) : (s.updCore n f).gt = s.gt := rfl
@[simp] theorem State.updCore_cycles (s : State) (n : Nat) (f : Core → Core) : (s.updCore n f).cycles = s.cycles := rfl
@[simp] theorem State.updCore_mem (s : State) (n : Nat) (f : Core → Core) : (s.updCore n f).mem = s.mem := rfl
@[simp] theorem State.updCore_scratch (s : State) (n : Nat) (f : Core → Core) : (s.updCore n f).scratch = s.scratch := rfl
@[simp] theorem State.updCore_poison (s : State) (n : Nat) (f : Core → Core) : (s.updCore n f).poison = s.poison := rfl
@[simp] theorem State.updCore_poisonBase (s : State) (n : Nat) (f : Core → Core) : (s.updCore n f).poisonBase = s.poisonBase := rfl
@[simp] theorem State.updCore_scratchPoison (s : State) (n : Nat) (f : Core → Core) : (s.updCore n f).scratchPoison = s.scratchPoison := rfl
@[simp] theorem State.updCore_scratchPending (s : State) (n : Nat) (f : Core → Core) : (s.updCore n f).scratchPending = s.scratchPending := rfl
@[simp] theorem State.updCore_tiles (s : State) (n : Nat) (f : Core → Core) : (s.updCore n f).tiles = s.tiles := rfl
@[simp] theorem State.updCore_dirs (s : State) (n : Nat) (f : Core → Core) : (s.updCore n f).dirs = s.dirs := rfl
@[simp] theorem State.updCore_tokenHolder (s : State) (n : Nat) (f : Core → Core) : (s.updCore n f).tokenHolder = s.tokenHolder := rfl
@[simp] theorem State.updCore_tokenTurn (s : State) (n : Nat) (f : Core → Core) : (s.updCore n f).tokenTurn = s.tokenTurn := rfl
@[simp] theorem State.updCore_spaces (s : State) (n : Nat) (f : Core → Core) : (s.updCore n f).spaces = s.spaces := rfl
@[simp] theorem State.updCore_parts (s : State) (n : Nat) (f : Core → Core) : (s.updCore n f).parts = s.parts := rfl
@[simp] theorem State.updCore_queues (s : State) (n : Nat) (f : Core → Core) : (s.updCore n f).queues = s.queues := rfl
@[simp] theorem State.updCore_disp (s : State) (n : Nat) (f : Core → Core) : (s.updCore n f).disp = s.disp := rfl
@[simp] theorem State.updCore_ote (s : State) (n : Nat) (f : Core → Core) : (s.updCore n f).ote = s.ote := rfl
@[simp] theorem State.updCore_msgs (s : State) (n : Nat) (f : Core → Core) : (s.updCore n f).msgs = s.msgs := rfl
@[simp] theorem State.updCore_palCopies (s : State) (n : Nat) (f : Core → Core) : (s.updCore n f).palCopies = s.palCopies := rfl
@[simp] theorem State.updCore_mgmt (s : State) (n : Nat) (f : Core → Core) : (s.updCore n f).mgmt = s.mgmt := rfl
@[simp] theorem State.updCore_dead (s : State) (n : Nat) (f : Core → Core) : (s.updCore n f).dead = s.dead := rfl
@[simp] theorem State.updCore_cur (s : State) (n : Nat) (f : Core → Core) : (s.updCore n f).cur = s.cur := rfl
@[simp] theorem State.updCore_choices (s : State) (n : Nat) (f : Core → Core) : (s.updCore n f).choices = s.choices := rfl
@[simp] theorem State.updCore_due (s : State) (n : Nat) (f : Core → Core) : (s.updCore n f).due = s.due := rfl
@[simp] theorem State.updCore_ev (s : State) (n : Nat) (f : Core → Core) : (s.updCore n f).ev = s.ev := rfl
@[simp] theorem State.updCore_how (s : State) (n : Nat) (f : Core → Core) : (s.updCore n f).how = s.how := rfl
@[simp] theorem State.updCore_stalled (s : State) (n : Nat) (f : Core → Core) : (s.updCore n f).stalled = s.stalled := rfl
@[simp] theorem State.updCore_nextId (s : State) (n : Nat) (f : Core → Core) : (s.updCore n f).nextId = s.nextId := rfl

@[simp] theorem State.setCluster_ctxs (s : State) (n : Nat) (v : Cluster) : (s.setCluster n v).ctxs = s.ctxs := rfl
@[simp] theorem State.setCluster_cores (s : State) (n : Nat) (v : Cluster) : (s.setCluster n v).cores = s.cores := rfl
@[simp] theorem State.setCluster_dies (s : State) (n : Nat) (v : Cluster) : (s.setCluster n v).dies = s.dies := rfl
@[simp] theorem State.setCluster_quires (s : State) (n : Nat) (v : Cluster) : (s.setCluster n v).quires = s.quires := rfl
@[simp] theorem State.setCluster_gt (s : State) (n : Nat) (v : Cluster) : (s.setCluster n v).gt = s.gt := rfl
@[simp] theorem State.setCluster_cycles (s : State) (n : Nat) (v : Cluster) : (s.setCluster n v).cycles = s.cycles := rfl
@[simp] theorem State.setCluster_mem (s : State) (n : Nat) (v : Cluster) : (s.setCluster n v).mem = s.mem := rfl
@[simp] theorem State.setCluster_scratch (s : State) (n : Nat) (v : Cluster) : (s.setCluster n v).scratch = s.scratch := rfl
@[simp] theorem State.setCluster_poison (s : State) (n : Nat) (v : Cluster) : (s.setCluster n v).poison = s.poison := rfl
@[simp] theorem State.setCluster_poisonBase (s : State) (n : Nat) (v : Cluster) : (s.setCluster n v).poisonBase = s.poisonBase := rfl
@[simp] theorem State.setCluster_scratchPoison (s : State) (n : Nat) (v : Cluster) : (s.setCluster n v).scratchPoison = s.scratchPoison := rfl
@[simp] theorem State.setCluster_scratchPending (s : State) (n : Nat) (v : Cluster) : (s.setCluster n v).scratchPending = s.scratchPending := rfl
@[simp] theorem State.setCluster_tiles (s : State) (n : Nat) (v : Cluster) : (s.setCluster n v).tiles = s.tiles := rfl
@[simp] theorem State.setCluster_dirs (s : State) (n : Nat) (v : Cluster) : (s.setCluster n v).dirs = s.dirs := rfl
@[simp] theorem State.setCluster_tokenHolder (s : State) (n : Nat) (v : Cluster) : (s.setCluster n v).tokenHolder = s.tokenHolder := rfl
@[simp] theorem State.setCluster_tokenTurn (s : State) (n : Nat) (v : Cluster) : (s.setCluster n v).tokenTurn = s.tokenTurn := rfl
@[simp] theorem State.setCluster_spaces (s : State) (n : Nat) (v : Cluster) : (s.setCluster n v).spaces = s.spaces := rfl
@[simp] theorem State.setCluster_parts (s : State) (n : Nat) (v : Cluster) : (s.setCluster n v).parts = s.parts := rfl
@[simp] theorem State.setCluster_queues (s : State) (n : Nat) (v : Cluster) : (s.setCluster n v).queues = s.queues := rfl
@[simp] theorem State.setCluster_disp (s : State) (n : Nat) (v : Cluster) : (s.setCluster n v).disp = s.disp := rfl
@[simp] theorem State.setCluster_ote (s : State) (n : Nat) (v : Cluster) : (s.setCluster n v).ote = s.ote := rfl
@[simp] theorem State.setCluster_msgs (s : State) (n : Nat) (v : Cluster) : (s.setCluster n v).msgs = s.msgs := rfl
@[simp] theorem State.setCluster_palCopies (s : State) (n : Nat) (v : Cluster) : (s.setCluster n v).palCopies = s.palCopies := rfl
@[simp] theorem State.setCluster_mgmt (s : State) (n : Nat) (v : Cluster) : (s.setCluster n v).mgmt = s.mgmt := rfl
@[simp] theorem State.setCluster_dead (s : State) (n : Nat) (v : Cluster) : (s.setCluster n v).dead = s.dead := rfl
@[simp] theorem State.setCluster_cur (s : State) (n : Nat) (v : Cluster) : (s.setCluster n v).cur = s.cur := rfl
@[simp] theorem State.setCluster_choices (s : State) (n : Nat) (v : Cluster) : (s.setCluster n v).choices = s.choices := rfl
@[simp] theorem State.setCluster_due (s : State) (n : Nat) (v : Cluster) : (s.setCluster n v).due = s.due := rfl
@[simp] theorem State.setCluster_ev (s : State) (n : Nat) (v : Cluster) : (s.setCluster n v).ev = s.ev := rfl
@[simp] theorem State.setCluster_how (s : State) (n : Nat) (v : Cluster) : (s.setCluster n v).how = s.how := rfl
@[simp] theorem State.setCluster_stalled (s : State) (n : Nat) (v : Cluster) : (s.setCluster n v).stalled = s.stalled := rfl
@[simp] theorem State.setCluster_nextId (s : State) (n : Nat) (v : Cluster) : (s.setCluster n v).nextId = s.nextId := rfl

@[simp] theorem State.updCluster_ctxs (s : State) (n : Nat) (f : Cluster → Cluster) : (s.updCluster n f).ctxs = s.ctxs := rfl
@[simp] theorem State.updCluster_cores (s : State) (n : Nat) (f : Cluster → Cluster) : (s.updCluster n f).cores = s.cores := rfl
@[simp] theorem State.updCluster_dies (s : State) (n : Nat) (f : Cluster → Cluster) : (s.updCluster n f).dies = s.dies := rfl
@[simp] theorem State.updCluster_quires (s : State) (n : Nat) (f : Cluster → Cluster) : (s.updCluster n f).quires = s.quires := rfl
@[simp] theorem State.updCluster_gt (s : State) (n : Nat) (f : Cluster → Cluster) : (s.updCluster n f).gt = s.gt := rfl
@[simp] theorem State.updCluster_cycles (s : State) (n : Nat) (f : Cluster → Cluster) : (s.updCluster n f).cycles = s.cycles := rfl
@[simp] theorem State.updCluster_mem (s : State) (n : Nat) (f : Cluster → Cluster) : (s.updCluster n f).mem = s.mem := rfl
@[simp] theorem State.updCluster_scratch (s : State) (n : Nat) (f : Cluster → Cluster) : (s.updCluster n f).scratch = s.scratch := rfl
@[simp] theorem State.updCluster_poison (s : State) (n : Nat) (f : Cluster → Cluster) : (s.updCluster n f).poison = s.poison := rfl
@[simp] theorem State.updCluster_poisonBase (s : State) (n : Nat) (f : Cluster → Cluster) : (s.updCluster n f).poisonBase = s.poisonBase := rfl
@[simp] theorem State.updCluster_scratchPoison (s : State) (n : Nat) (f : Cluster → Cluster) : (s.updCluster n f).scratchPoison = s.scratchPoison := rfl
@[simp] theorem State.updCluster_scratchPending (s : State) (n : Nat) (f : Cluster → Cluster) : (s.updCluster n f).scratchPending = s.scratchPending := rfl
@[simp] theorem State.updCluster_tiles (s : State) (n : Nat) (f : Cluster → Cluster) : (s.updCluster n f).tiles = s.tiles := rfl
@[simp] theorem State.updCluster_dirs (s : State) (n : Nat) (f : Cluster → Cluster) : (s.updCluster n f).dirs = s.dirs := rfl
@[simp] theorem State.updCluster_tokenHolder (s : State) (n : Nat) (f : Cluster → Cluster) : (s.updCluster n f).tokenHolder = s.tokenHolder := rfl
@[simp] theorem State.updCluster_tokenTurn (s : State) (n : Nat) (f : Cluster → Cluster) : (s.updCluster n f).tokenTurn = s.tokenTurn := rfl
@[simp] theorem State.updCluster_spaces (s : State) (n : Nat) (f : Cluster → Cluster) : (s.updCluster n f).spaces = s.spaces := rfl
@[simp] theorem State.updCluster_parts (s : State) (n : Nat) (f : Cluster → Cluster) : (s.updCluster n f).parts = s.parts := rfl
@[simp] theorem State.updCluster_queues (s : State) (n : Nat) (f : Cluster → Cluster) : (s.updCluster n f).queues = s.queues := rfl
@[simp] theorem State.updCluster_disp (s : State) (n : Nat) (f : Cluster → Cluster) : (s.updCluster n f).disp = s.disp := rfl
@[simp] theorem State.updCluster_ote (s : State) (n : Nat) (f : Cluster → Cluster) : (s.updCluster n f).ote = s.ote := rfl
@[simp] theorem State.updCluster_msgs (s : State) (n : Nat) (f : Cluster → Cluster) : (s.updCluster n f).msgs = s.msgs := rfl
@[simp] theorem State.updCluster_palCopies (s : State) (n : Nat) (f : Cluster → Cluster) : (s.updCluster n f).palCopies = s.palCopies := rfl
@[simp] theorem State.updCluster_mgmt (s : State) (n : Nat) (f : Cluster → Cluster) : (s.updCluster n f).mgmt = s.mgmt := rfl
@[simp] theorem State.updCluster_dead (s : State) (n : Nat) (f : Cluster → Cluster) : (s.updCluster n f).dead = s.dead := rfl
@[simp] theorem State.updCluster_cur (s : State) (n : Nat) (f : Cluster → Cluster) : (s.updCluster n f).cur = s.cur := rfl
@[simp] theorem State.updCluster_choices (s : State) (n : Nat) (f : Cluster → Cluster) : (s.updCluster n f).choices = s.choices := rfl
@[simp] theorem State.updCluster_due (s : State) (n : Nat) (f : Cluster → Cluster) : (s.updCluster n f).due = s.due := rfl
@[simp] theorem State.updCluster_ev (s : State) (n : Nat) (f : Cluster → Cluster) : (s.updCluster n f).ev = s.ev := rfl
@[simp] theorem State.updCluster_how (s : State) (n : Nat) (f : Cluster → Cluster) : (s.updCluster n f).how = s.how := rfl
@[simp] theorem State.updCluster_stalled (s : State) (n : Nat) (f : Cluster → Cluster) : (s.updCluster n f).stalled = s.stalled := rfl
@[simp] theorem State.updCluster_nextId (s : State) (n : Nat) (f : Cluster → Cluster) : (s.updCluster n f).nextId = s.nextId := rfl

@[simp] theorem State.setDie_ctxs (s : State) (d : Nat) (v : Die) : (s.setDie d v).ctxs = s.ctxs := rfl
@[simp] theorem State.setDie_cores (s : State) (d : Nat) (v : Die) : (s.setDie d v).cores = s.cores := rfl
@[simp] theorem State.setDie_clusters (s : State) (d : Nat) (v : Die) : (s.setDie d v).clusters = s.clusters := rfl
@[simp] theorem State.setDie_gt (s : State) (d : Nat) (v : Die) : (s.setDie d v).gt = s.gt := rfl
@[simp] theorem State.setDie_cycles (s : State) (d : Nat) (v : Die) : (s.setDie d v).cycles = s.cycles := rfl
@[simp] theorem State.setDie_mem (s : State) (d : Nat) (v : Die) : (s.setDie d v).mem = s.mem := rfl
@[simp] theorem State.setDie_scratch (s : State) (d : Nat) (v : Die) : (s.setDie d v).scratch = s.scratch := rfl
@[simp] theorem State.setDie_poison (s : State) (d : Nat) (v : Die) : (s.setDie d v).poison = s.poison := rfl
@[simp] theorem State.setDie_poisonBase (s : State) (d : Nat) (v : Die) : (s.setDie d v).poisonBase = s.poisonBase := rfl
@[simp] theorem State.setDie_scratchPoison (s : State) (d : Nat) (v : Die) : (s.setDie d v).scratchPoison = s.scratchPoison := rfl
@[simp] theorem State.setDie_scratchPending (s : State) (d : Nat) (v : Die) : (s.setDie d v).scratchPending = s.scratchPending := rfl
@[simp] theorem State.setDie_tiles (s : State) (d : Nat) (v : Die) : (s.setDie d v).tiles = s.tiles := rfl
@[simp] theorem State.setDie_dirs (s : State) (d : Nat) (v : Die) : (s.setDie d v).dirs = s.dirs := rfl
@[simp] theorem State.setDie_tokenHolder (s : State) (d : Nat) (v : Die) : (s.setDie d v).tokenHolder = s.tokenHolder := rfl
@[simp] theorem State.setDie_tokenTurn (s : State) (d : Nat) (v : Die) : (s.setDie d v).tokenTurn = s.tokenTurn := rfl
@[simp] theorem State.setDie_spaces (s : State) (d : Nat) (v : Die) : (s.setDie d v).spaces = s.spaces := rfl
@[simp] theorem State.setDie_parts (s : State) (d : Nat) (v : Die) : (s.setDie d v).parts = s.parts := rfl
@[simp] theorem State.setDie_queues (s : State) (d : Nat) (v : Die) : (s.setDie d v).queues = s.queues := rfl
@[simp] theorem State.setDie_disp (s : State) (d : Nat) (v : Die) : (s.setDie d v).disp = s.disp := rfl
@[simp] theorem State.setDie_ote (s : State) (d : Nat) (v : Die) : (s.setDie d v).ote = s.ote := rfl
@[simp] theorem State.setDie_msgs (s : State) (d : Nat) (v : Die) : (s.setDie d v).msgs = s.msgs := rfl
@[simp] theorem State.setDie_palCopies (s : State) (d : Nat) (v : Die) : (s.setDie d v).palCopies = s.palCopies := rfl
@[simp] theorem State.setDie_mgmt (s : State) (d : Nat) (v : Die) : (s.setDie d v).mgmt = s.mgmt := rfl
@[simp] theorem State.setDie_dead (s : State) (d : Nat) (v : Die) : (s.setDie d v).dead = s.dead := rfl
@[simp] theorem State.setDie_cur (s : State) (d : Nat) (v : Die) : (s.setDie d v).cur = s.cur := rfl
@[simp] theorem State.setDie_choices (s : State) (d : Nat) (v : Die) : (s.setDie d v).choices = s.choices := rfl
@[simp] theorem State.setDie_due (s : State) (d : Nat) (v : Die) : (s.setDie d v).due = s.due := rfl
@[simp] theorem State.setDie_ev (s : State) (d : Nat) (v : Die) : (s.setDie d v).ev = s.ev := rfl
@[simp] theorem State.setDie_how (s : State) (d : Nat) (v : Die) : (s.setDie d v).how = s.how := rfl
@[simp] theorem State.setDie_stalled (s : State) (d : Nat) (v : Die) : (s.setDie d v).stalled = s.stalled := rfl
@[simp] theorem State.setDie_nextId (s : State) (d : Nat) (v : Die) : (s.setDie d v).nextId = s.nextId := rfl

@[simp] theorem State.updDie_ctxs (s : State) (d : Nat) (f : Die → Die) : (s.updDie d f).ctxs = s.ctxs := rfl
@[simp] theorem State.updDie_cores (s : State) (d : Nat) (f : Die → Die) : (s.updDie d f).cores = s.cores := rfl
@[simp] theorem State.updDie_clusters (s : State) (d : Nat) (f : Die → Die) : (s.updDie d f).clusters = s.clusters := rfl
@[simp] theorem State.updDie_gt (s : State) (d : Nat) (f : Die → Die) : (s.updDie d f).gt = s.gt := rfl
@[simp] theorem State.updDie_cycles (s : State) (d : Nat) (f : Die → Die) : (s.updDie d f).cycles = s.cycles := rfl
@[simp] theorem State.updDie_mem (s : State) (d : Nat) (f : Die → Die) : (s.updDie d f).mem = s.mem := rfl
@[simp] theorem State.updDie_scratch (s : State) (d : Nat) (f : Die → Die) : (s.updDie d f).scratch = s.scratch := rfl
@[simp] theorem State.updDie_poison (s : State) (d : Nat) (f : Die → Die) : (s.updDie d f).poison = s.poison := rfl
@[simp] theorem State.updDie_poisonBase (s : State) (d : Nat) (f : Die → Die) : (s.updDie d f).poisonBase = s.poisonBase := rfl
@[simp] theorem State.updDie_scratchPoison (s : State) (d : Nat) (f : Die → Die) : (s.updDie d f).scratchPoison = s.scratchPoison := rfl
@[simp] theorem State.updDie_scratchPending (s : State) (d : Nat) (f : Die → Die) : (s.updDie d f).scratchPending = s.scratchPending := rfl
@[simp] theorem State.updDie_tiles (s : State) (d : Nat) (f : Die → Die) : (s.updDie d f).tiles = s.tiles := rfl
@[simp] theorem State.updDie_dirs (s : State) (d : Nat) (f : Die → Die) : (s.updDie d f).dirs = s.dirs := rfl
@[simp] theorem State.updDie_tokenHolder (s : State) (d : Nat) (f : Die → Die) : (s.updDie d f).tokenHolder = s.tokenHolder := rfl
@[simp] theorem State.updDie_tokenTurn (s : State) (d : Nat) (f : Die → Die) : (s.updDie d f).tokenTurn = s.tokenTurn := rfl
@[simp] theorem State.updDie_spaces (s : State) (d : Nat) (f : Die → Die) : (s.updDie d f).spaces = s.spaces := rfl
@[simp] theorem State.updDie_parts (s : State) (d : Nat) (f : Die → Die) : (s.updDie d f).parts = s.parts := rfl
@[simp] theorem State.updDie_queues (s : State) (d : Nat) (f : Die → Die) : (s.updDie d f).queues = s.queues := rfl
@[simp] theorem State.updDie_disp (s : State) (d : Nat) (f : Die → Die) : (s.updDie d f).disp = s.disp := rfl
@[simp] theorem State.updDie_ote (s : State) (d : Nat) (f : Die → Die) : (s.updDie d f).ote = s.ote := rfl
@[simp] theorem State.updDie_msgs (s : State) (d : Nat) (f : Die → Die) : (s.updDie d f).msgs = s.msgs := rfl
@[simp] theorem State.updDie_palCopies (s : State) (d : Nat) (f : Die → Die) : (s.updDie d f).palCopies = s.palCopies := rfl
@[simp] theorem State.updDie_mgmt (s : State) (d : Nat) (f : Die → Die) : (s.updDie d f).mgmt = s.mgmt := rfl
@[simp] theorem State.updDie_dead (s : State) (d : Nat) (f : Die → Die) : (s.updDie d f).dead = s.dead := rfl
@[simp] theorem State.updDie_cur (s : State) (d : Nat) (f : Die → Die) : (s.updDie d f).cur = s.cur := rfl
@[simp] theorem State.updDie_choices (s : State) (d : Nat) (f : Die → Die) : (s.updDie d f).choices = s.choices := rfl
@[simp] theorem State.updDie_due (s : State) (d : Nat) (f : Die → Die) : (s.updDie d f).due = s.due := rfl
@[simp] theorem State.updDie_ev (s : State) (d : Nat) (f : Die → Die) : (s.updDie d f).ev = s.ev := rfl
@[simp] theorem State.updDie_how (s : State) (d : Nat) (f : Die → Die) : (s.updDie d f).how = s.how := rfl
@[simp] theorem State.updDie_stalled (s : State) (d : Nat) (f : Die → Die) : (s.updDie d f).stalled = s.stalled := rfl
@[simp] theorem State.updDie_nextId (s : State) (d : Nat) (f : Die → Die) : (s.updDie d f).nextId = s.nextId := rfl

@[simp] theorem State.setSpace_ctxs (s : State) (a : Nat) (v : Space) : (s.setSpace a v).ctxs = s.ctxs := rfl
@[simp] theorem State.setSpace_cores (s : State) (a : Nat) (v : Space) : (s.setSpace a v).cores = s.cores := rfl
@[simp] theorem State.setSpace_clusters (s : State) (a : Nat) (v : Space) : (s.setSpace a v).clusters = s.clusters := rfl
@[simp] theorem State.setSpace_dies (s : State) (a : Nat) (v : Space) : (s.setSpace a v).dies = s.dies := rfl
@[simp] theorem State.setSpace_quires (s : State) (a : Nat) (v : Space) : (s.setSpace a v).quires = s.quires := rfl
@[simp] theorem State.setSpace_gt (s : State) (a : Nat) (v : Space) : (s.setSpace a v).gt = s.gt := rfl
@[simp] theorem State.setSpace_cycles (s : State) (a : Nat) (v : Space) : (s.setSpace a v).cycles = s.cycles := rfl
@[simp] theorem State.setSpace_mem (s : State) (a : Nat) (v : Space) : (s.setSpace a v).mem = s.mem := rfl
@[simp] theorem State.setSpace_scratch (s : State) (a : Nat) (v : Space) : (s.setSpace a v).scratch = s.scratch := rfl
@[simp] theorem State.setSpace_poison (s : State) (a : Nat) (v : Space) : (s.setSpace a v).poison = s.poison := rfl
@[simp] theorem State.setSpace_poisonBase (s : State) (a : Nat) (v : Space) : (s.setSpace a v).poisonBase = s.poisonBase := rfl
@[simp] theorem State.setSpace_scratchPoison (s : State) (a : Nat) (v : Space) : (s.setSpace a v).scratchPoison = s.scratchPoison := rfl
@[simp] theorem State.setSpace_scratchPending (s : State) (a : Nat) (v : Space) : (s.setSpace a v).scratchPending = s.scratchPending := rfl
@[simp] theorem State.setSpace_tiles (s : State) (a : Nat) (v : Space) : (s.setSpace a v).tiles = s.tiles := rfl
@[simp] theorem State.setSpace_dirs (s : State) (a : Nat) (v : Space) : (s.setSpace a v).dirs = s.dirs := rfl
@[simp] theorem State.setSpace_tokenHolder (s : State) (a : Nat) (v : Space) : (s.setSpace a v).tokenHolder = s.tokenHolder := rfl
@[simp] theorem State.setSpace_tokenTurn (s : State) (a : Nat) (v : Space) : (s.setSpace a v).tokenTurn = s.tokenTurn := rfl
@[simp] theorem State.setSpace_parts (s : State) (a : Nat) (v : Space) : (s.setSpace a v).parts = s.parts := rfl
@[simp] theorem State.setSpace_queues (s : State) (a : Nat) (v : Space) : (s.setSpace a v).queues = s.queues := rfl
@[simp] theorem State.setSpace_disp (s : State) (a : Nat) (v : Space) : (s.setSpace a v).disp = s.disp := rfl
@[simp] theorem State.setSpace_ote (s : State) (a : Nat) (v : Space) : (s.setSpace a v).ote = s.ote := rfl
@[simp] theorem State.setSpace_msgs (s : State) (a : Nat) (v : Space) : (s.setSpace a v).msgs = s.msgs := rfl
@[simp] theorem State.setSpace_palCopies (s : State) (a : Nat) (v : Space) : (s.setSpace a v).palCopies = s.palCopies := rfl
@[simp] theorem State.setSpace_mgmt (s : State) (a : Nat) (v : Space) : (s.setSpace a v).mgmt = s.mgmt := rfl
@[simp] theorem State.setSpace_dead (s : State) (a : Nat) (v : Space) : (s.setSpace a v).dead = s.dead := rfl
@[simp] theorem State.setSpace_cur (s : State) (a : Nat) (v : Space) : (s.setSpace a v).cur = s.cur := rfl
@[simp] theorem State.setSpace_choices (s : State) (a : Nat) (v : Space) : (s.setSpace a v).choices = s.choices := rfl
@[simp] theorem State.setSpace_due (s : State) (a : Nat) (v : Space) : (s.setSpace a v).due = s.due := rfl
@[simp] theorem State.setSpace_ev (s : State) (a : Nat) (v : Space) : (s.setSpace a v).ev = s.ev := rfl
@[simp] theorem State.setSpace_how (s : State) (a : Nat) (v : Space) : (s.setSpace a v).how = s.how := rfl
@[simp] theorem State.setSpace_stalled (s : State) (a : Nat) (v : Space) : (s.setSpace a v).stalled = s.stalled := rfl
@[simp] theorem State.setSpace_nextId (s : State) (a : Nat) (v : Space) : (s.setSpace a v).nextId = s.nextId := rfl

@[simp] theorem State.updSpace_ctxs (s : State) (a : Nat) (f : Space → Space) : (s.updSpace a f).ctxs = s.ctxs := rfl
@[simp] theorem State.updSpace_cores (s : State) (a : Nat) (f : Space → Space) : (s.updSpace a f).cores = s.cores := rfl
@[simp] theorem State.updSpace_clusters (s : State) (a : Nat) (f : Space → Space) : (s.updSpace a f).clusters = s.clusters := rfl
@[simp] theorem State.updSpace_dies (s : State) (a : Nat) (f : Space → Space) : (s.updSpace a f).dies = s.dies := rfl
@[simp] theorem State.updSpace_quires (s : State) (a : Nat) (f : Space → Space) : (s.updSpace a f).quires = s.quires := rfl
@[simp] theorem State.updSpace_gt (s : State) (a : Nat) (f : Space → Space) : (s.updSpace a f).gt = s.gt := rfl
@[simp] theorem State.updSpace_cycles (s : State) (a : Nat) (f : Space → Space) : (s.updSpace a f).cycles = s.cycles := rfl
@[simp] theorem State.updSpace_mem (s : State) (a : Nat) (f : Space → Space) : (s.updSpace a f).mem = s.mem := rfl
@[simp] theorem State.updSpace_scratch (s : State) (a : Nat) (f : Space → Space) : (s.updSpace a f).scratch = s.scratch := rfl
@[simp] theorem State.updSpace_poison (s : State) (a : Nat) (f : Space → Space) : (s.updSpace a f).poison = s.poison := rfl
@[simp] theorem State.updSpace_poisonBase (s : State) (a : Nat) (f : Space → Space) : (s.updSpace a f).poisonBase = s.poisonBase := rfl
@[simp] theorem State.updSpace_scratchPoison (s : State) (a : Nat) (f : Space → Space) : (s.updSpace a f).scratchPoison = s.scratchPoison := rfl
@[simp] theorem State.updSpace_scratchPending (s : State) (a : Nat) (f : Space → Space) : (s.updSpace a f).scratchPending = s.scratchPending := rfl
@[simp] theorem State.updSpace_tiles (s : State) (a : Nat) (f : Space → Space) : (s.updSpace a f).tiles = s.tiles := rfl
@[simp] theorem State.updSpace_dirs (s : State) (a : Nat) (f : Space → Space) : (s.updSpace a f).dirs = s.dirs := rfl
@[simp] theorem State.updSpace_tokenHolder (s : State) (a : Nat) (f : Space → Space) : (s.updSpace a f).tokenHolder = s.tokenHolder := rfl
@[simp] theorem State.updSpace_tokenTurn (s : State) (a : Nat) (f : Space → Space) : (s.updSpace a f).tokenTurn = s.tokenTurn := rfl
@[simp] theorem State.updSpace_parts (s : State) (a : Nat) (f : Space → Space) : (s.updSpace a f).parts = s.parts := rfl
@[simp] theorem State.updSpace_queues (s : State) (a : Nat) (f : Space → Space) : (s.updSpace a f).queues = s.queues := rfl
@[simp] theorem State.updSpace_disp (s : State) (a : Nat) (f : Space → Space) : (s.updSpace a f).disp = s.disp := rfl
@[simp] theorem State.updSpace_ote (s : State) (a : Nat) (f : Space → Space) : (s.updSpace a f).ote = s.ote := rfl
@[simp] theorem State.updSpace_msgs (s : State) (a : Nat) (f : Space → Space) : (s.updSpace a f).msgs = s.msgs := rfl
@[simp] theorem State.updSpace_palCopies (s : State) (a : Nat) (f : Space → Space) : (s.updSpace a f).palCopies = s.palCopies := rfl
@[simp] theorem State.updSpace_mgmt (s : State) (a : Nat) (f : Space → Space) : (s.updSpace a f).mgmt = s.mgmt := rfl
@[simp] theorem State.updSpace_dead (s : State) (a : Nat) (f : Space → Space) : (s.updSpace a f).dead = s.dead := rfl
@[simp] theorem State.updSpace_cur (s : State) (a : Nat) (f : Space → Space) : (s.updSpace a f).cur = s.cur := rfl
@[simp] theorem State.updSpace_choices (s : State) (a : Nat) (f : Space → Space) : (s.updSpace a f).choices = s.choices := rfl
@[simp] theorem State.updSpace_due (s : State) (a : Nat) (f : Space → Space) : (s.updSpace a f).due = s.due := rfl
@[simp] theorem State.updSpace_ev (s : State) (a : Nat) (f : Space → Space) : (s.updSpace a f).ev = s.ev := rfl
@[simp] theorem State.updSpace_how (s : State) (a : Nat) (f : Space → Space) : (s.updSpace a f).how = s.how := rfl
@[simp] theorem State.updSpace_stalled (s : State) (a : Nat) (f : Space → Space) : (s.updSpace a f).stalled = s.stalled := rfl
@[simp] theorem State.updSpace_nextId (s : State) (a : Nat) (f : Space → Space) : (s.updSpace a f).nextId = s.nextId := rfl

@[simp] theorem State.setQueue_ctxs (s : State) (a q : Nat) (v : Queue) : (s.setQueue a q v).ctxs = s.ctxs := rfl
@[simp] theorem State.setQueue_cores (s : State) (a q : Nat) (v : Queue) : (s.setQueue a q v).cores = s.cores := rfl
@[simp] theorem State.setQueue_clusters (s : State) (a q : Nat) (v : Queue) : (s.setQueue a q v).clusters = s.clusters := rfl
@[simp] theorem State.setQueue_dies (s : State) (a q : Nat) (v : Queue) : (s.setQueue a q v).dies = s.dies := rfl
@[simp] theorem State.setQueue_quires (s : State) (a q : Nat) (v : Queue) : (s.setQueue a q v).quires = s.quires := rfl
@[simp] theorem State.setQueue_gt (s : State) (a q : Nat) (v : Queue) : (s.setQueue a q v).gt = s.gt := rfl
@[simp] theorem State.setQueue_cycles (s : State) (a q : Nat) (v : Queue) : (s.setQueue a q v).cycles = s.cycles := rfl
@[simp] theorem State.setQueue_mem (s : State) (a q : Nat) (v : Queue) : (s.setQueue a q v).mem = s.mem := rfl
@[simp] theorem State.setQueue_scratch (s : State) (a q : Nat) (v : Queue) : (s.setQueue a q v).scratch = s.scratch := rfl
@[simp] theorem State.setQueue_poison (s : State) (a q : Nat) (v : Queue) : (s.setQueue a q v).poison = s.poison := rfl
@[simp] theorem State.setQueue_poisonBase (s : State) (a q : Nat) (v : Queue) : (s.setQueue a q v).poisonBase = s.poisonBase := rfl
@[simp] theorem State.setQueue_scratchPoison (s : State) (a q : Nat) (v : Queue) : (s.setQueue a q v).scratchPoison = s.scratchPoison := rfl
@[simp] theorem State.setQueue_scratchPending (s : State) (a q : Nat) (v : Queue) : (s.setQueue a q v).scratchPending = s.scratchPending := rfl
@[simp] theorem State.setQueue_tiles (s : State) (a q : Nat) (v : Queue) : (s.setQueue a q v).tiles = s.tiles := rfl
@[simp] theorem State.setQueue_dirs (s : State) (a q : Nat) (v : Queue) : (s.setQueue a q v).dirs = s.dirs := rfl
@[simp] theorem State.setQueue_tokenHolder (s : State) (a q : Nat) (v : Queue) : (s.setQueue a q v).tokenHolder = s.tokenHolder := rfl
@[simp] theorem State.setQueue_tokenTurn (s : State) (a q : Nat) (v : Queue) : (s.setQueue a q v).tokenTurn = s.tokenTurn := rfl
@[simp] theorem State.setQueue_spaces (s : State) (a q : Nat) (v : Queue) : (s.setQueue a q v).spaces = s.spaces := rfl
@[simp] theorem State.setQueue_parts (s : State) (a q : Nat) (v : Queue) : (s.setQueue a q v).parts = s.parts := rfl
@[simp] theorem State.setQueue_disp (s : State) (a q : Nat) (v : Queue) : (s.setQueue a q v).disp = s.disp := rfl
@[simp] theorem State.setQueue_ote (s : State) (a q : Nat) (v : Queue) : (s.setQueue a q v).ote = s.ote := rfl
@[simp] theorem State.setQueue_msgs (s : State) (a q : Nat) (v : Queue) : (s.setQueue a q v).msgs = s.msgs := rfl
@[simp] theorem State.setQueue_palCopies (s : State) (a q : Nat) (v : Queue) : (s.setQueue a q v).palCopies = s.palCopies := rfl
@[simp] theorem State.setQueue_mgmt (s : State) (a q : Nat) (v : Queue) : (s.setQueue a q v).mgmt = s.mgmt := rfl
@[simp] theorem State.setQueue_dead (s : State) (a q : Nat) (v : Queue) : (s.setQueue a q v).dead = s.dead := rfl
@[simp] theorem State.setQueue_cur (s : State) (a q : Nat) (v : Queue) : (s.setQueue a q v).cur = s.cur := rfl
@[simp] theorem State.setQueue_choices (s : State) (a q : Nat) (v : Queue) : (s.setQueue a q v).choices = s.choices := rfl
@[simp] theorem State.setQueue_due (s : State) (a q : Nat) (v : Queue) : (s.setQueue a q v).due = s.due := rfl
@[simp] theorem State.setQueue_ev (s : State) (a q : Nat) (v : Queue) : (s.setQueue a q v).ev = s.ev := rfl
@[simp] theorem State.setQueue_how (s : State) (a q : Nat) (v : Queue) : (s.setQueue a q v).how = s.how := rfl
@[simp] theorem State.setQueue_stalled (s : State) (a q : Nat) (v : Queue) : (s.setQueue a q v).stalled = s.stalled := rfl
@[simp] theorem State.setQueue_nextId (s : State) (a q : Nat) (v : Queue) : (s.setQueue a q v).nextId = s.nextId := rfl

@[simp] theorem State.setDir_ctxs (s : State) (t : Nat) (v : Dir) : (s.setDir t v).ctxs = s.ctxs := rfl
@[simp] theorem State.setDir_cores (s : State) (t : Nat) (v : Dir) : (s.setDir t v).cores = s.cores := rfl
@[simp] theorem State.setDir_clusters (s : State) (t : Nat) (v : Dir) : (s.setDir t v).clusters = s.clusters := rfl
@[simp] theorem State.setDir_dies (s : State) (t : Nat) (v : Dir) : (s.setDir t v).dies = s.dies := rfl
@[simp] theorem State.setDir_quires (s : State) (t : Nat) (v : Dir) : (s.setDir t v).quires = s.quires := rfl
@[simp] theorem State.setDir_gt (s : State) (t : Nat) (v : Dir) : (s.setDir t v).gt = s.gt := rfl
@[simp] theorem State.setDir_cycles (s : State) (t : Nat) (v : Dir) : (s.setDir t v).cycles = s.cycles := rfl
@[simp] theorem State.setDir_mem (s : State) (t : Nat) (v : Dir) : (s.setDir t v).mem = s.mem := rfl
@[simp] theorem State.setDir_scratch (s : State) (t : Nat) (v : Dir) : (s.setDir t v).scratch = s.scratch := rfl
@[simp] theorem State.setDir_poison (s : State) (t : Nat) (v : Dir) : (s.setDir t v).poison = s.poison := rfl
@[simp] theorem State.setDir_poisonBase (s : State) (t : Nat) (v : Dir) : (s.setDir t v).poisonBase = s.poisonBase := rfl
@[simp] theorem State.setDir_scratchPoison (s : State) (t : Nat) (v : Dir) : (s.setDir t v).scratchPoison = s.scratchPoison := rfl
@[simp] theorem State.setDir_scratchPending (s : State) (t : Nat) (v : Dir) : (s.setDir t v).scratchPending = s.scratchPending := rfl
@[simp] theorem State.setDir_tiles (s : State) (t : Nat) (v : Dir) : (s.setDir t v).tiles = s.tiles := rfl
@[simp] theorem State.setDir_tokenHolder (s : State) (t : Nat) (v : Dir) : (s.setDir t v).tokenHolder = s.tokenHolder := rfl
@[simp] theorem State.setDir_tokenTurn (s : State) (t : Nat) (v : Dir) : (s.setDir t v).tokenTurn = s.tokenTurn := rfl
@[simp] theorem State.setDir_spaces (s : State) (t : Nat) (v : Dir) : (s.setDir t v).spaces = s.spaces := rfl
@[simp] theorem State.setDir_parts (s : State) (t : Nat) (v : Dir) : (s.setDir t v).parts = s.parts := rfl
@[simp] theorem State.setDir_queues (s : State) (t : Nat) (v : Dir) : (s.setDir t v).queues = s.queues := rfl
@[simp] theorem State.setDir_disp (s : State) (t : Nat) (v : Dir) : (s.setDir t v).disp = s.disp := rfl
@[simp] theorem State.setDir_ote (s : State) (t : Nat) (v : Dir) : (s.setDir t v).ote = s.ote := rfl
@[simp] theorem State.setDir_msgs (s : State) (t : Nat) (v : Dir) : (s.setDir t v).msgs = s.msgs := rfl
@[simp] theorem State.setDir_palCopies (s : State) (t : Nat) (v : Dir) : (s.setDir t v).palCopies = s.palCopies := rfl
@[simp] theorem State.setDir_mgmt (s : State) (t : Nat) (v : Dir) : (s.setDir t v).mgmt = s.mgmt := rfl
@[simp] theorem State.setDir_dead (s : State) (t : Nat) (v : Dir) : (s.setDir t v).dead = s.dead := rfl
@[simp] theorem State.setDir_cur (s : State) (t : Nat) (v : Dir) : (s.setDir t v).cur = s.cur := rfl
@[simp] theorem State.setDir_choices (s : State) (t : Nat) (v : Dir) : (s.setDir t v).choices = s.choices := rfl
@[simp] theorem State.setDir_due (s : State) (t : Nat) (v : Dir) : (s.setDir t v).due = s.due := rfl
@[simp] theorem State.setDir_ev (s : State) (t : Nat) (v : Dir) : (s.setDir t v).ev = s.ev := rfl
@[simp] theorem State.setDir_how (s : State) (t : Nat) (v : Dir) : (s.setDir t v).how = s.how := rfl
@[simp] theorem State.setDir_stalled (s : State) (t : Nat) (v : Dir) : (s.setDir t v).stalled = s.stalled := rfl
@[simp] theorem State.setDir_nextId (s : State) (t : Nat) (v : Dir) : (s.setDir t v).nextId = s.nextId := rfl

@[simp] theorem State.updDir_ctxs (s : State) (t : Nat) (f : Dir → Dir) : (s.updDir t f).ctxs = s.ctxs := rfl
@[simp] theorem State.updDir_cores (s : State) (t : Nat) (f : Dir → Dir) : (s.updDir t f).cores = s.cores := rfl
@[simp] theorem State.updDir_clusters (s : State) (t : Nat) (f : Dir → Dir) : (s.updDir t f).clusters = s.clusters := rfl
@[simp] theorem State.updDir_dies (s : State) (t : Nat) (f : Dir → Dir) : (s.updDir t f).dies = s.dies := rfl
@[simp] theorem State.updDir_quires (s : State) (t : Nat) (f : Dir → Dir) : (s.updDir t f).quires = s.quires := rfl
@[simp] theorem State.updDir_gt (s : State) (t : Nat) (f : Dir → Dir) : (s.updDir t f).gt = s.gt := rfl
@[simp] theorem State.updDir_cycles (s : State) (t : Nat) (f : Dir → Dir) : (s.updDir t f).cycles = s.cycles := rfl
@[simp] theorem State.updDir_mem (s : State) (t : Nat) (f : Dir → Dir) : (s.updDir t f).mem = s.mem := rfl
@[simp] theorem State.updDir_scratch (s : State) (t : Nat) (f : Dir → Dir) : (s.updDir t f).scratch = s.scratch := rfl
@[simp] theorem State.updDir_poison (s : State) (t : Nat) (f : Dir → Dir) : (s.updDir t f).poison = s.poison := rfl
@[simp] theorem State.updDir_poisonBase (s : State) (t : Nat) (f : Dir → Dir) : (s.updDir t f).poisonBase = s.poisonBase := rfl
@[simp] theorem State.updDir_scratchPoison (s : State) (t : Nat) (f : Dir → Dir) : (s.updDir t f).scratchPoison = s.scratchPoison := rfl
@[simp] theorem State.updDir_scratchPending (s : State) (t : Nat) (f : Dir → Dir) : (s.updDir t f).scratchPending = s.scratchPending := rfl
@[simp] theorem State.updDir_tiles (s : State) (t : Nat) (f : Dir → Dir) : (s.updDir t f).tiles = s.tiles := rfl
@[simp] theorem State.updDir_tokenHolder (s : State) (t : Nat) (f : Dir → Dir) : (s.updDir t f).tokenHolder = s.tokenHolder := rfl
@[simp] theorem State.updDir_tokenTurn (s : State) (t : Nat) (f : Dir → Dir) : (s.updDir t f).tokenTurn = s.tokenTurn := rfl
@[simp] theorem State.updDir_spaces (s : State) (t : Nat) (f : Dir → Dir) : (s.updDir t f).spaces = s.spaces := rfl
@[simp] theorem State.updDir_parts (s : State) (t : Nat) (f : Dir → Dir) : (s.updDir t f).parts = s.parts := rfl
@[simp] theorem State.updDir_queues (s : State) (t : Nat) (f : Dir → Dir) : (s.updDir t f).queues = s.queues := rfl
@[simp] theorem State.updDir_disp (s : State) (t : Nat) (f : Dir → Dir) : (s.updDir t f).disp = s.disp := rfl
@[simp] theorem State.updDir_ote (s : State) (t : Nat) (f : Dir → Dir) : (s.updDir t f).ote = s.ote := rfl
@[simp] theorem State.updDir_msgs (s : State) (t : Nat) (f : Dir → Dir) : (s.updDir t f).msgs = s.msgs := rfl
@[simp] theorem State.updDir_palCopies (s : State) (t : Nat) (f : Dir → Dir) : (s.updDir t f).palCopies = s.palCopies := rfl
@[simp] theorem State.updDir_mgmt (s : State) (t : Nat) (f : Dir → Dir) : (s.updDir t f).mgmt = s.mgmt := rfl
@[simp] theorem State.updDir_dead (s : State) (t : Nat) (f : Dir → Dir) : (s.updDir t f).dead = s.dead := rfl
@[simp] theorem State.updDir_cur (s : State) (t : Nat) (f : Dir → Dir) : (s.updDir t f).cur = s.cur := rfl
@[simp] theorem State.updDir_choices (s : State) (t : Nat) (f : Dir → Dir) : (s.updDir t f).choices = s.choices := rfl
@[simp] theorem State.updDir_due (s : State) (t : Nat) (f : Dir → Dir) : (s.updDir t f).due = s.due := rfl
@[simp] theorem State.updDir_ev (s : State) (t : Nat) (f : Dir → Dir) : (s.updDir t f).ev = s.ev := rfl
@[simp] theorem State.updDir_how (s : State) (t : Nat) (f : Dir → Dir) : (s.updDir t f).how = s.how := rfl
@[simp] theorem State.updDir_stalled (s : State) (t : Nat) (f : Dir → Dir) : (s.updDir t f).stalled = s.stalled := rfl
@[simp] theorem State.updDir_nextId (s : State) (t : Nat) (f : Dir → Dir) : (s.updDir t f).nextId = s.nextId := rfl

@[simp] theorem State.updMgmt_ctxs (s : State) (f : Mgmt → Mgmt) : (s.updMgmt f).ctxs = s.ctxs := rfl
@[simp] theorem State.updMgmt_cores (s : State) (f : Mgmt → Mgmt) : (s.updMgmt f).cores = s.cores := rfl
@[simp] theorem State.updMgmt_clusters (s : State) (f : Mgmt → Mgmt) : (s.updMgmt f).clusters = s.clusters := rfl
@[simp] theorem State.updMgmt_dies (s : State) (f : Mgmt → Mgmt) : (s.updMgmt f).dies = s.dies := rfl
@[simp] theorem State.updMgmt_quires (s : State) (f : Mgmt → Mgmt) : (s.updMgmt f).quires = s.quires := rfl
@[simp] theorem State.updMgmt_gt (s : State) (f : Mgmt → Mgmt) : (s.updMgmt f).gt = s.gt := rfl
@[simp] theorem State.updMgmt_cycles (s : State) (f : Mgmt → Mgmt) : (s.updMgmt f).cycles = s.cycles := rfl
@[simp] theorem State.updMgmt_mem (s : State) (f : Mgmt → Mgmt) : (s.updMgmt f).mem = s.mem := rfl
@[simp] theorem State.updMgmt_scratch (s : State) (f : Mgmt → Mgmt) : (s.updMgmt f).scratch = s.scratch := rfl
@[simp] theorem State.updMgmt_poison (s : State) (f : Mgmt → Mgmt) : (s.updMgmt f).poison = s.poison := rfl
@[simp] theorem State.updMgmt_poisonBase (s : State) (f : Mgmt → Mgmt) : (s.updMgmt f).poisonBase = s.poisonBase := rfl
@[simp] theorem State.updMgmt_scratchPoison (s : State) (f : Mgmt → Mgmt) : (s.updMgmt f).scratchPoison = s.scratchPoison := rfl
@[simp] theorem State.updMgmt_scratchPending (s : State) (f : Mgmt → Mgmt) : (s.updMgmt f).scratchPending = s.scratchPending := rfl
@[simp] theorem State.updMgmt_tiles (s : State) (f : Mgmt → Mgmt) : (s.updMgmt f).tiles = s.tiles := rfl
@[simp] theorem State.updMgmt_dirs (s : State) (f : Mgmt → Mgmt) : (s.updMgmt f).dirs = s.dirs := rfl
@[simp] theorem State.updMgmt_tokenHolder (s : State) (f : Mgmt → Mgmt) : (s.updMgmt f).tokenHolder = s.tokenHolder := rfl
@[simp] theorem State.updMgmt_tokenTurn (s : State) (f : Mgmt → Mgmt) : (s.updMgmt f).tokenTurn = s.tokenTurn := rfl
@[simp] theorem State.updMgmt_spaces (s : State) (f : Mgmt → Mgmt) : (s.updMgmt f).spaces = s.spaces := rfl
@[simp] theorem State.updMgmt_parts (s : State) (f : Mgmt → Mgmt) : (s.updMgmt f).parts = s.parts := rfl
@[simp] theorem State.updMgmt_queues (s : State) (f : Mgmt → Mgmt) : (s.updMgmt f).queues = s.queues := rfl
@[simp] theorem State.updMgmt_disp (s : State) (f : Mgmt → Mgmt) : (s.updMgmt f).disp = s.disp := rfl
@[simp] theorem State.updMgmt_ote (s : State) (f : Mgmt → Mgmt) : (s.updMgmt f).ote = s.ote := rfl
@[simp] theorem State.updMgmt_msgs (s : State) (f : Mgmt → Mgmt) : (s.updMgmt f).msgs = s.msgs := rfl
@[simp] theorem State.updMgmt_palCopies (s : State) (f : Mgmt → Mgmt) : (s.updMgmt f).palCopies = s.palCopies := rfl
@[simp] theorem State.updMgmt_dead (s : State) (f : Mgmt → Mgmt) : (s.updMgmt f).dead = s.dead := rfl
@[simp] theorem State.updMgmt_cur (s : State) (f : Mgmt → Mgmt) : (s.updMgmt f).cur = s.cur := rfl
@[simp] theorem State.updMgmt_choices (s : State) (f : Mgmt → Mgmt) : (s.updMgmt f).choices = s.choices := rfl
@[simp] theorem State.updMgmt_due (s : State) (f : Mgmt → Mgmt) : (s.updMgmt f).due = s.due := rfl
@[simp] theorem State.updMgmt_ev (s : State) (f : Mgmt → Mgmt) : (s.updMgmt f).ev = s.ev := rfl
@[simp] theorem State.updMgmt_how (s : State) (f : Mgmt → Mgmt) : (s.updMgmt f).how = s.how := rfl
@[simp] theorem State.updMgmt_stalled (s : State) (f : Mgmt → Mgmt) : (s.updMgmt f).stalled = s.stalled := rfl
@[simp] theorem State.updMgmt_nextId (s : State) (f : Mgmt → Mgmt) : (s.updMgmt f).nextId = s.nextId := rfl

@[simp] theorem State.updOte_ctxs (s : State) (f : Ote → Ote) : (s.updOte f).ctxs = s.ctxs := rfl
@[simp] theorem State.updOte_cores (s : State) (f : Ote → Ote) : (s.updOte f).cores = s.cores := rfl
@[simp] theorem State.updOte_clusters (s : State) (f : Ote → Ote) : (s.updOte f).clusters = s.clusters := rfl
@[simp] theorem State.updOte_dies (s : State) (f : Ote → Ote) : (s.updOte f).dies = s.dies := rfl
@[simp] theorem State.updOte_quires (s : State) (f : Ote → Ote) : (s.updOte f).quires = s.quires := rfl
@[simp] theorem State.updOte_gt (s : State) (f : Ote → Ote) : (s.updOte f).gt = s.gt := rfl
@[simp] theorem State.updOte_cycles (s : State) (f : Ote → Ote) : (s.updOte f).cycles = s.cycles := rfl
@[simp] theorem State.updOte_mem (s : State) (f : Ote → Ote) : (s.updOte f).mem = s.mem := rfl
@[simp] theorem State.updOte_scratch (s : State) (f : Ote → Ote) : (s.updOte f).scratch = s.scratch := rfl
@[simp] theorem State.updOte_poison (s : State) (f : Ote → Ote) : (s.updOte f).poison = s.poison := rfl
@[simp] theorem State.updOte_poisonBase (s : State) (f : Ote → Ote) : (s.updOte f).poisonBase = s.poisonBase := rfl
@[simp] theorem State.updOte_scratchPoison (s : State) (f : Ote → Ote) : (s.updOte f).scratchPoison = s.scratchPoison := rfl
@[simp] theorem State.updOte_scratchPending (s : State) (f : Ote → Ote) : (s.updOte f).scratchPending = s.scratchPending := rfl
@[simp] theorem State.updOte_tiles (s : State) (f : Ote → Ote) : (s.updOte f).tiles = s.tiles := rfl
@[simp] theorem State.updOte_dirs (s : State) (f : Ote → Ote) : (s.updOte f).dirs = s.dirs := rfl
@[simp] theorem State.updOte_tokenHolder (s : State) (f : Ote → Ote) : (s.updOte f).tokenHolder = s.tokenHolder := rfl
@[simp] theorem State.updOte_tokenTurn (s : State) (f : Ote → Ote) : (s.updOte f).tokenTurn = s.tokenTurn := rfl
@[simp] theorem State.updOte_spaces (s : State) (f : Ote → Ote) : (s.updOte f).spaces = s.spaces := rfl
@[simp] theorem State.updOte_parts (s : State) (f : Ote → Ote) : (s.updOte f).parts = s.parts := rfl
@[simp] theorem State.updOte_queues (s : State) (f : Ote → Ote) : (s.updOte f).queues = s.queues := rfl
@[simp] theorem State.updOte_disp (s : State) (f : Ote → Ote) : (s.updOte f).disp = s.disp := rfl
@[simp] theorem State.updOte_msgs (s : State) (f : Ote → Ote) : (s.updOte f).msgs = s.msgs := rfl
@[simp] theorem State.updOte_palCopies (s : State) (f : Ote → Ote) : (s.updOte f).palCopies = s.palCopies := rfl
@[simp] theorem State.updOte_mgmt (s : State) (f : Ote → Ote) : (s.updOte f).mgmt = s.mgmt := rfl
@[simp] theorem State.updOte_dead (s : State) (f : Ote → Ote) : (s.updOte f).dead = s.dead := rfl
@[simp] theorem State.updOte_cur (s : State) (f : Ote → Ote) : (s.updOte f).cur = s.cur := rfl
@[simp] theorem State.updOte_choices (s : State) (f : Ote → Ote) : (s.updOte f).choices = s.choices := rfl
@[simp] theorem State.updOte_due (s : State) (f : Ote → Ote) : (s.updOte f).due = s.due := rfl
@[simp] theorem State.updOte_ev (s : State) (f : Ote → Ote) : (s.updOte f).ev = s.ev := rfl
@[simp] theorem State.updOte_how (s : State) (f : Ote → Ote) : (s.updOte f).how = s.how := rfl
@[simp] theorem State.updOte_stalled (s : State) (f : Ote → Ote) : (s.updOte f).stalled = s.stalled := rfl
@[simp] theorem State.updOte_nextId (s : State) (f : Ote → Ote) : (s.updOte f).nextId = s.nextId := rfl

@[simp] theorem State.setLaunch_ctxs (s : State) (n : Nat) (l : Launch) : (s.setLaunch n l).ctxs = s.ctxs := rfl
@[simp] theorem State.setLaunch_cores (s : State) (n : Nat) (l : Launch) : (s.setLaunch n l).cores = s.cores := rfl
@[simp] theorem State.setLaunch_clusters (s : State) (n : Nat) (l : Launch) : (s.setLaunch n l).clusters = s.clusters := rfl
@[simp] theorem State.setLaunch_dies (s : State) (n : Nat) (l : Launch) : (s.setLaunch n l).dies = s.dies := rfl
@[simp] theorem State.setLaunch_quires (s : State) (n : Nat) (l : Launch) : (s.setLaunch n l).quires = s.quires := rfl
@[simp] theorem State.setLaunch_gt (s : State) (n : Nat) (l : Launch) : (s.setLaunch n l).gt = s.gt := rfl
@[simp] theorem State.setLaunch_cycles (s : State) (n : Nat) (l : Launch) : (s.setLaunch n l).cycles = s.cycles := rfl
@[simp] theorem State.setLaunch_mem (s : State) (n : Nat) (l : Launch) : (s.setLaunch n l).mem = s.mem := rfl
@[simp] theorem State.setLaunch_scratch (s : State) (n : Nat) (l : Launch) : (s.setLaunch n l).scratch = s.scratch := rfl
@[simp] theorem State.setLaunch_poison (s : State) (n : Nat) (l : Launch) : (s.setLaunch n l).poison = s.poison := rfl
@[simp] theorem State.setLaunch_poisonBase (s : State) (n : Nat) (l : Launch) : (s.setLaunch n l).poisonBase = s.poisonBase := rfl
@[simp] theorem State.setLaunch_scratchPoison (s : State) (n : Nat) (l : Launch) : (s.setLaunch n l).scratchPoison = s.scratchPoison := rfl
@[simp] theorem State.setLaunch_scratchPending (s : State) (n : Nat) (l : Launch) : (s.setLaunch n l).scratchPending = s.scratchPending := rfl
@[simp] theorem State.setLaunch_tiles (s : State) (n : Nat) (l : Launch) : (s.setLaunch n l).tiles = s.tiles := rfl
@[simp] theorem State.setLaunch_dirs (s : State) (n : Nat) (l : Launch) : (s.setLaunch n l).dirs = s.dirs := rfl
@[simp] theorem State.setLaunch_tokenHolder (s : State) (n : Nat) (l : Launch) : (s.setLaunch n l).tokenHolder = s.tokenHolder := rfl
@[simp] theorem State.setLaunch_tokenTurn (s : State) (n : Nat) (l : Launch) : (s.setLaunch n l).tokenTurn = s.tokenTurn := rfl
@[simp] theorem State.setLaunch_spaces (s : State) (n : Nat) (l : Launch) : (s.setLaunch n l).spaces = s.spaces := rfl
@[simp] theorem State.setLaunch_parts (s : State) (n : Nat) (l : Launch) : (s.setLaunch n l).parts = s.parts := rfl
@[simp] theorem State.setLaunch_queues (s : State) (n : Nat) (l : Launch) : (s.setLaunch n l).queues = s.queues := rfl
@[simp] theorem State.setLaunch_ote (s : State) (n : Nat) (l : Launch) : (s.setLaunch n l).ote = s.ote := rfl
@[simp] theorem State.setLaunch_msgs (s : State) (n : Nat) (l : Launch) : (s.setLaunch n l).msgs = s.msgs := rfl
@[simp] theorem State.setLaunch_palCopies (s : State) (n : Nat) (l : Launch) : (s.setLaunch n l).palCopies = s.palCopies := rfl
@[simp] theorem State.setLaunch_mgmt (s : State) (n : Nat) (l : Launch) : (s.setLaunch n l).mgmt = s.mgmt := rfl
@[simp] theorem State.setLaunch_dead (s : State) (n : Nat) (l : Launch) : (s.setLaunch n l).dead = s.dead := rfl
@[simp] theorem State.setLaunch_cur (s : State) (n : Nat) (l : Launch) : (s.setLaunch n l).cur = s.cur := rfl
@[simp] theorem State.setLaunch_choices (s : State) (n : Nat) (l : Launch) : (s.setLaunch n l).choices = s.choices := rfl
@[simp] theorem State.setLaunch_due (s : State) (n : Nat) (l : Launch) : (s.setLaunch n l).due = s.due := rfl
@[simp] theorem State.setLaunch_ev (s : State) (n : Nat) (l : Launch) : (s.setLaunch n l).ev = s.ev := rfl
@[simp] theorem State.setLaunch_how (s : State) (n : Nat) (l : Launch) : (s.setLaunch n l).how = s.how := rfl
@[simp] theorem State.setLaunch_stalled (s : State) (n : Nat) (l : Launch) : (s.setLaunch n l).stalled = s.stalled := rfl
@[simp] theorem State.setLaunch_nextId (s : State) (n : Nat) (l : Launch) : (s.setLaunch n l).nextId = s.nextId := rfl

@[simp] theorem State.log_ctxs (s : State) (d : Nat) (e : ErrEntry) : (s.log d e).ctxs = s.ctxs := rfl
@[simp] theorem State.log_cores (s : State) (d : Nat) (e : ErrEntry) : (s.log d e).cores = s.cores := rfl
@[simp] theorem State.log_clusters (s : State) (d : Nat) (e : ErrEntry) : (s.log d e).clusters = s.clusters := rfl
@[simp] theorem State.log_gt (s : State) (d : Nat) (e : ErrEntry) : (s.log d e).gt = s.gt := rfl
@[simp] theorem State.log_cycles (s : State) (d : Nat) (e : ErrEntry) : (s.log d e).cycles = s.cycles := rfl
@[simp] theorem State.log_mem (s : State) (d : Nat) (e : ErrEntry) : (s.log d e).mem = s.mem := rfl
@[simp] theorem State.log_scratch (s : State) (d : Nat) (e : ErrEntry) : (s.log d e).scratch = s.scratch := rfl
@[simp] theorem State.log_poison (s : State) (d : Nat) (e : ErrEntry) : (s.log d e).poison = s.poison := rfl
@[simp] theorem State.log_poisonBase (s : State) (d : Nat) (e : ErrEntry) : (s.log d e).poisonBase = s.poisonBase := rfl
@[simp] theorem State.log_scratchPoison (s : State) (d : Nat) (e : ErrEntry) : (s.log d e).scratchPoison = s.scratchPoison := rfl
@[simp] theorem State.log_scratchPending (s : State) (d : Nat) (e : ErrEntry) : (s.log d e).scratchPending = s.scratchPending := rfl
@[simp] theorem State.log_tiles (s : State) (d : Nat) (e : ErrEntry) : (s.log d e).tiles = s.tiles := rfl
@[simp] theorem State.log_dirs (s : State) (d : Nat) (e : ErrEntry) : (s.log d e).dirs = s.dirs := rfl
@[simp] theorem State.log_tokenHolder (s : State) (d : Nat) (e : ErrEntry) : (s.log d e).tokenHolder = s.tokenHolder := rfl
@[simp] theorem State.log_tokenTurn (s : State) (d : Nat) (e : ErrEntry) : (s.log d e).tokenTurn = s.tokenTurn := rfl
@[simp] theorem State.log_spaces (s : State) (d : Nat) (e : ErrEntry) : (s.log d e).spaces = s.spaces := rfl
@[simp] theorem State.log_parts (s : State) (d : Nat) (e : ErrEntry) : (s.log d e).parts = s.parts := rfl
@[simp] theorem State.log_queues (s : State) (d : Nat) (e : ErrEntry) : (s.log d e).queues = s.queues := rfl
@[simp] theorem State.log_disp (s : State) (d : Nat) (e : ErrEntry) : (s.log d e).disp = s.disp := rfl
@[simp] theorem State.log_ote (s : State) (d : Nat) (e : ErrEntry) : (s.log d e).ote = s.ote := rfl
@[simp] theorem State.log_msgs (s : State) (d : Nat) (e : ErrEntry) : (s.log d e).msgs = s.msgs := rfl
@[simp] theorem State.log_palCopies (s : State) (d : Nat) (e : ErrEntry) : (s.log d e).palCopies = s.palCopies := rfl
@[simp] theorem State.log_mgmt (s : State) (d : Nat) (e : ErrEntry) : (s.log d e).mgmt = s.mgmt := rfl
@[simp] theorem State.log_dead (s : State) (d : Nat) (e : ErrEntry) : (s.log d e).dead = s.dead := rfl
@[simp] theorem State.log_cur (s : State) (d : Nat) (e : ErrEntry) : (s.log d e).cur = s.cur := rfl
@[simp] theorem State.log_choices (s : State) (d : Nat) (e : ErrEntry) : (s.log d e).choices = s.choices := rfl
@[simp] theorem State.log_due (s : State) (d : Nat) (e : ErrEntry) : (s.log d e).due = s.due := rfl
@[simp] theorem State.log_ev (s : State) (d : Nat) (e : ErrEntry) : (s.log d e).ev = s.ev := rfl
@[simp] theorem State.log_how (s : State) (d : Nat) (e : ErrEntry) : (s.log d e).how = s.how := rfl
@[simp] theorem State.log_stalled (s : State) (d : Nat) (e : ErrEntry) : (s.log d e).stalled = s.stalled := rfl
@[simp] theorem State.log_nextId (s : State) (d : Nat) (e : ErrEntry) : (s.log d e).nextId = s.nextId := rfl

@[simp] theorem State.raise_ctxs (s : State) (v : Nat) : (s.raise v).ctxs = s.ctxs := rfl
@[simp] theorem State.raise_cores (s : State) (v : Nat) : (s.raise v).cores = s.cores := rfl
@[simp] theorem State.raise_clusters (s : State) (v : Nat) : (s.raise v).clusters = s.clusters := rfl
@[simp] theorem State.raise_dies (s : State) (v : Nat) : (s.raise v).dies = s.dies := rfl
@[simp] theorem State.raise_quires (s : State) (v : Nat) : (s.raise v).quires = s.quires := rfl
@[simp] theorem State.raise_gt (s : State) (v : Nat) : (s.raise v).gt = s.gt := rfl
@[simp] theorem State.raise_cycles (s : State) (v : Nat) : (s.raise v).cycles = s.cycles := rfl
@[simp] theorem State.raise_mem (s : State) (v : Nat) : (s.raise v).mem = s.mem := rfl
@[simp] theorem State.raise_scratch (s : State) (v : Nat) : (s.raise v).scratch = s.scratch := rfl
@[simp] theorem State.raise_poison (s : State) (v : Nat) : (s.raise v).poison = s.poison := rfl
@[simp] theorem State.raise_poisonBase (s : State) (v : Nat) : (s.raise v).poisonBase = s.poisonBase := rfl
@[simp] theorem State.raise_scratchPoison (s : State) (v : Nat) : (s.raise v).scratchPoison = s.scratchPoison := rfl
@[simp] theorem State.raise_scratchPending (s : State) (v : Nat) : (s.raise v).scratchPending = s.scratchPending := rfl
@[simp] theorem State.raise_tiles (s : State) (v : Nat) : (s.raise v).tiles = s.tiles := rfl
@[simp] theorem State.raise_dirs (s : State) (v : Nat) : (s.raise v).dirs = s.dirs := rfl
@[simp] theorem State.raise_tokenHolder (s : State) (v : Nat) : (s.raise v).tokenHolder = s.tokenHolder := rfl
@[simp] theorem State.raise_tokenTurn (s : State) (v : Nat) : (s.raise v).tokenTurn = s.tokenTurn := rfl
@[simp] theorem State.raise_spaces (s : State) (v : Nat) : (s.raise v).spaces = s.spaces := rfl
@[simp] theorem State.raise_parts (s : State) (v : Nat) : (s.raise v).parts = s.parts := rfl
@[simp] theorem State.raise_queues (s : State) (v : Nat) : (s.raise v).queues = s.queues := rfl
@[simp] theorem State.raise_disp (s : State) (v : Nat) : (s.raise v).disp = s.disp := rfl
@[simp] theorem State.raise_ote (s : State) (v : Nat) : (s.raise v).ote = s.ote := rfl
@[simp] theorem State.raise_msgs (s : State) (v : Nat) : (s.raise v).msgs = s.msgs := rfl
@[simp] theorem State.raise_palCopies (s : State) (v : Nat) : (s.raise v).palCopies = s.palCopies := rfl
@[simp] theorem State.raise_dead (s : State) (v : Nat) : (s.raise v).dead = s.dead := rfl
@[simp] theorem State.raise_cur (s : State) (v : Nat) : (s.raise v).cur = s.cur := rfl
@[simp] theorem State.raise_choices (s : State) (v : Nat) : (s.raise v).choices = s.choices := rfl
@[simp] theorem State.raise_due (s : State) (v : Nat) : (s.raise v).due = s.due := rfl
@[simp] theorem State.raise_ev (s : State) (v : Nat) : (s.raise v).ev = s.ev := rfl
@[simp] theorem State.raise_how (s : State) (v : Nat) : (s.raise v).how = s.how := rfl
@[simp] theorem State.raise_stalled (s : State) (v : Nat) : (s.raise v).stalled = s.stalled := rfl
@[simp] theorem State.raise_nextId (s : State) (v : Nat) : (s.raise v).nextId = s.nextId := rfl

@[simp] theorem State.writeMem_ctxs (s : State) (pa : Nat) (bs : List Byte) : (s.writeMem pa bs).ctxs = s.ctxs := rfl
@[simp] theorem State.writeMem_cores (s : State) (pa : Nat) (bs : List Byte) : (s.writeMem pa bs).cores = s.cores := rfl
@[simp] theorem State.writeMem_clusters (s : State) (pa : Nat) (bs : List Byte) : (s.writeMem pa bs).clusters = s.clusters := rfl
@[simp] theorem State.writeMem_dies (s : State) (pa : Nat) (bs : List Byte) : (s.writeMem pa bs).dies = s.dies := rfl
@[simp] theorem State.writeMem_quires (s : State) (pa : Nat) (bs : List Byte) : (s.writeMem pa bs).quires = s.quires := rfl
@[simp] theorem State.writeMem_gt (s : State) (pa : Nat) (bs : List Byte) : (s.writeMem pa bs).gt = s.gt := rfl
@[simp] theorem State.writeMem_cycles (s : State) (pa : Nat) (bs : List Byte) : (s.writeMem pa bs).cycles = s.cycles := rfl
@[simp] theorem State.writeMem_scratch (s : State) (pa : Nat) (bs : List Byte) : (s.writeMem pa bs).scratch = s.scratch := rfl
@[simp] theorem State.writeMem_poison (s : State) (pa : Nat) (bs : List Byte) : (s.writeMem pa bs).poison = s.poison := rfl
@[simp] theorem State.writeMem_poisonBase (s : State) (pa : Nat) (bs : List Byte) : (s.writeMem pa bs).poisonBase = s.poisonBase := rfl
@[simp] theorem State.writeMem_scratchPoison (s : State) (pa : Nat) (bs : List Byte) : (s.writeMem pa bs).scratchPoison = s.scratchPoison := rfl
@[simp] theorem State.writeMem_scratchPending (s : State) (pa : Nat) (bs : List Byte) : (s.writeMem pa bs).scratchPending = s.scratchPending := rfl
@[simp] theorem State.writeMem_tiles (s : State) (pa : Nat) (bs : List Byte) : (s.writeMem pa bs).tiles = s.tiles := rfl
@[simp] theorem State.writeMem_dirs (s : State) (pa : Nat) (bs : List Byte) : (s.writeMem pa bs).dirs = s.dirs := rfl
@[simp] theorem State.writeMem_tokenHolder (s : State) (pa : Nat) (bs : List Byte) : (s.writeMem pa bs).tokenHolder = s.tokenHolder := rfl
@[simp] theorem State.writeMem_tokenTurn (s : State) (pa : Nat) (bs : List Byte) : (s.writeMem pa bs).tokenTurn = s.tokenTurn := rfl
@[simp] theorem State.writeMem_spaces (s : State) (pa : Nat) (bs : List Byte) : (s.writeMem pa bs).spaces = s.spaces := rfl
@[simp] theorem State.writeMem_parts (s : State) (pa : Nat) (bs : List Byte) : (s.writeMem pa bs).parts = s.parts := rfl
@[simp] theorem State.writeMem_queues (s : State) (pa : Nat) (bs : List Byte) : (s.writeMem pa bs).queues = s.queues := rfl
@[simp] theorem State.writeMem_disp (s : State) (pa : Nat) (bs : List Byte) : (s.writeMem pa bs).disp = s.disp := rfl
@[simp] theorem State.writeMem_ote (s : State) (pa : Nat) (bs : List Byte) : (s.writeMem pa bs).ote = s.ote := rfl
@[simp] theorem State.writeMem_msgs (s : State) (pa : Nat) (bs : List Byte) : (s.writeMem pa bs).msgs = s.msgs := rfl
@[simp] theorem State.writeMem_palCopies (s : State) (pa : Nat) (bs : List Byte) : (s.writeMem pa bs).palCopies = s.palCopies := rfl
@[simp] theorem State.writeMem_mgmt (s : State) (pa : Nat) (bs : List Byte) : (s.writeMem pa bs).mgmt = s.mgmt := rfl
@[simp] theorem State.writeMem_dead (s : State) (pa : Nat) (bs : List Byte) : (s.writeMem pa bs).dead = s.dead := rfl
@[simp] theorem State.writeMem_cur (s : State) (pa : Nat) (bs : List Byte) : (s.writeMem pa bs).cur = s.cur := rfl
@[simp] theorem State.writeMem_choices (s : State) (pa : Nat) (bs : List Byte) : (s.writeMem pa bs).choices = s.choices := rfl
@[simp] theorem State.writeMem_due (s : State) (pa : Nat) (bs : List Byte) : (s.writeMem pa bs).due = s.due := rfl
@[simp] theorem State.writeMem_ev (s : State) (pa : Nat) (bs : List Byte) : (s.writeMem pa bs).ev = s.ev := rfl
@[simp] theorem State.writeMem_how (s : State) (pa : Nat) (bs : List Byte) : (s.writeMem pa bs).how = s.how := rfl
@[simp] theorem State.writeMem_stalled (s : State) (pa : Nat) (bs : List Byte) : (s.writeMem pa bs).stalled = s.stalled := rfl
@[simp] theorem State.writeMem_nextId (s : State) (pa : Nat) (bs : List Byte) : (s.writeMem pa bs).nextId = s.nextId := rfl

@[simp] theorem State.cause_ctxs (s : State) (i : Instr) (e : Ev) : (s.cause i e).ctxs = s.ctxs := rfl
@[simp] theorem State.cause_cores (s : State) (i : Instr) (e : Ev) : (s.cause i e).cores = s.cores := rfl
@[simp] theorem State.cause_clusters (s : State) (i : Instr) (e : Ev) : (s.cause i e).clusters = s.clusters := rfl
@[simp] theorem State.cause_dies (s : State) (i : Instr) (e : Ev) : (s.cause i e).dies = s.dies := rfl
@[simp] theorem State.cause_quires (s : State) (i : Instr) (e : Ev) : (s.cause i e).quires = s.quires := rfl
@[simp] theorem State.cause_gt (s : State) (i : Instr) (e : Ev) : (s.cause i e).gt = s.gt := rfl
@[simp] theorem State.cause_cycles (s : State) (i : Instr) (e : Ev) : (s.cause i e).cycles = s.cycles := rfl
@[simp] theorem State.cause_mem (s : State) (i : Instr) (e : Ev) : (s.cause i e).mem = s.mem := rfl
@[simp] theorem State.cause_scratch (s : State) (i : Instr) (e : Ev) : (s.cause i e).scratch = s.scratch := rfl
@[simp] theorem State.cause_poison (s : State) (i : Instr) (e : Ev) : (s.cause i e).poison = s.poison := rfl
@[simp] theorem State.cause_poisonBase (s : State) (i : Instr) (e : Ev) : (s.cause i e).poisonBase = s.poisonBase := rfl
@[simp] theorem State.cause_scratchPoison (s : State) (i : Instr) (e : Ev) : (s.cause i e).scratchPoison = s.scratchPoison := rfl
@[simp] theorem State.cause_scratchPending (s : State) (i : Instr) (e : Ev) : (s.cause i e).scratchPending = s.scratchPending := rfl
@[simp] theorem State.cause_tiles (s : State) (i : Instr) (e : Ev) : (s.cause i e).tiles = s.tiles := rfl
@[simp] theorem State.cause_dirs (s : State) (i : Instr) (e : Ev) : (s.cause i e).dirs = s.dirs := rfl
@[simp] theorem State.cause_tokenHolder (s : State) (i : Instr) (e : Ev) : (s.cause i e).tokenHolder = s.tokenHolder := rfl
@[simp] theorem State.cause_tokenTurn (s : State) (i : Instr) (e : Ev) : (s.cause i e).tokenTurn = s.tokenTurn := rfl
@[simp] theorem State.cause_spaces (s : State) (i : Instr) (e : Ev) : (s.cause i e).spaces = s.spaces := rfl
@[simp] theorem State.cause_parts (s : State) (i : Instr) (e : Ev) : (s.cause i e).parts = s.parts := rfl
@[simp] theorem State.cause_queues (s : State) (i : Instr) (e : Ev) : (s.cause i e).queues = s.queues := rfl
@[simp] theorem State.cause_disp (s : State) (i : Instr) (e : Ev) : (s.cause i e).disp = s.disp := rfl
@[simp] theorem State.cause_ote (s : State) (i : Instr) (e : Ev) : (s.cause i e).ote = s.ote := rfl
@[simp] theorem State.cause_msgs (s : State) (i : Instr) (e : Ev) : (s.cause i e).msgs = s.msgs := rfl
@[simp] theorem State.cause_palCopies (s : State) (i : Instr) (e : Ev) : (s.cause i e).palCopies = s.palCopies := rfl
@[simp] theorem State.cause_mgmt (s : State) (i : Instr) (e : Ev) : (s.cause i e).mgmt = s.mgmt := rfl
@[simp] theorem State.cause_dead (s : State) (i : Instr) (e : Ev) : (s.cause i e).dead = s.dead := rfl
@[simp] theorem State.cause_cur (s : State) (i : Instr) (e : Ev) : (s.cause i e).cur = s.cur := rfl
@[simp] theorem State.cause_choices (s : State) (i : Instr) (e : Ev) : (s.cause i e).choices = s.choices := rfl
@[simp] theorem State.cause_ev (s : State) (i : Instr) (e : Ev) : (s.cause i e).ev = s.ev := rfl
@[simp] theorem State.cause_how (s : State) (i : Instr) (e : Ev) : (s.cause i e).how = s.how := rfl
@[simp] theorem State.cause_stalled (s : State) (i : Instr) (e : Ev) : (s.cause i e).stalled = s.stalled := rfl
@[simp] theorem State.cause_nextId (s : State) (i : Instr) (e : Ev) : (s.cause i e).nextId = s.nextId := rfl

@[simp] theorem State.later_ctxs (s : State) (i : Instr) : (s.later i).ctxs = s.ctxs := rfl
@[simp] theorem State.later_cores (s : State) (i : Instr) : (s.later i).cores = s.cores := rfl
@[simp] theorem State.later_clusters (s : State) (i : Instr) : (s.later i).clusters = s.clusters := rfl
@[simp] theorem State.later_dies (s : State) (i : Instr) : (s.later i).dies = s.dies := rfl
@[simp] theorem State.later_quires (s : State) (i : Instr) : (s.later i).quires = s.quires := rfl
@[simp] theorem State.later_gt (s : State) (i : Instr) : (s.later i).gt = s.gt := rfl
@[simp] theorem State.later_cycles (s : State) (i : Instr) : (s.later i).cycles = s.cycles := rfl
@[simp] theorem State.later_mem (s : State) (i : Instr) : (s.later i).mem = s.mem := rfl
@[simp] theorem State.later_scratch (s : State) (i : Instr) : (s.later i).scratch = s.scratch := rfl
@[simp] theorem State.later_poison (s : State) (i : Instr) : (s.later i).poison = s.poison := rfl
@[simp] theorem State.later_poisonBase (s : State) (i : Instr) : (s.later i).poisonBase = s.poisonBase := rfl
@[simp] theorem State.later_scratchPoison (s : State) (i : Instr) : (s.later i).scratchPoison = s.scratchPoison := rfl
@[simp] theorem State.later_scratchPending (s : State) (i : Instr) : (s.later i).scratchPending = s.scratchPending := rfl
@[simp] theorem State.later_tiles (s : State) (i : Instr) : (s.later i).tiles = s.tiles := rfl
@[simp] theorem State.later_dirs (s : State) (i : Instr) : (s.later i).dirs = s.dirs := rfl
@[simp] theorem State.later_tokenHolder (s : State) (i : Instr) : (s.later i).tokenHolder = s.tokenHolder := rfl
@[simp] theorem State.later_tokenTurn (s : State) (i : Instr) : (s.later i).tokenTurn = s.tokenTurn := rfl
@[simp] theorem State.later_spaces (s : State) (i : Instr) : (s.later i).spaces = s.spaces := rfl
@[simp] theorem State.later_parts (s : State) (i : Instr) : (s.later i).parts = s.parts := rfl
@[simp] theorem State.later_queues (s : State) (i : Instr) : (s.later i).queues = s.queues := rfl
@[simp] theorem State.later_disp (s : State) (i : Instr) : (s.later i).disp = s.disp := rfl
@[simp] theorem State.later_ote (s : State) (i : Instr) : (s.later i).ote = s.ote := rfl
@[simp] theorem State.later_msgs (s : State) (i : Instr) : (s.later i).msgs = s.msgs := rfl
@[simp] theorem State.later_palCopies (s : State) (i : Instr) : (s.later i).palCopies = s.palCopies := rfl
@[simp] theorem State.later_mgmt (s : State) (i : Instr) : (s.later i).mgmt = s.mgmt := rfl
@[simp] theorem State.later_dead (s : State) (i : Instr) : (s.later i).dead = s.dead := rfl
@[simp] theorem State.later_cur (s : State) (i : Instr) : (s.later i).cur = s.cur := rfl
@[simp] theorem State.later_choices (s : State) (i : Instr) : (s.later i).choices = s.choices := rfl
@[simp] theorem State.later_ev (s : State) (i : Instr) : (s.later i).ev = s.ev := rfl
@[simp] theorem State.later_how (s : State) (i : Instr) : (s.later i).how = s.how := rfl
@[simp] theorem State.later_stalled (s : State) (i : Instr) : (s.later i).stalled = s.stalled := rfl
@[simp] theorem State.later_nextId (s : State) (i : Instr) : (s.later i).nextId = s.nextId := rfl

@[simp] theorem State.newId_ctxs (s : State) : (s.newId).ctxs = s.ctxs := rfl
@[simp] theorem State.newId_cores (s : State) : (s.newId).cores = s.cores := rfl
@[simp] theorem State.newId_clusters (s : State) : (s.newId).clusters = s.clusters := rfl
@[simp] theorem State.newId_dies (s : State) : (s.newId).dies = s.dies := rfl
@[simp] theorem State.newId_quires (s : State) : (s.newId).quires = s.quires := rfl
@[simp] theorem State.newId_gt (s : State) : (s.newId).gt = s.gt := rfl
@[simp] theorem State.newId_cycles (s : State) : (s.newId).cycles = s.cycles := rfl
@[simp] theorem State.newId_mem (s : State) : (s.newId).mem = s.mem := rfl
@[simp] theorem State.newId_scratch (s : State) : (s.newId).scratch = s.scratch := rfl
@[simp] theorem State.newId_poison (s : State) : (s.newId).poison = s.poison := rfl
@[simp] theorem State.newId_poisonBase (s : State) : (s.newId).poisonBase = s.poisonBase := rfl
@[simp] theorem State.newId_scratchPoison (s : State) : (s.newId).scratchPoison = s.scratchPoison := rfl
@[simp] theorem State.newId_scratchPending (s : State) : (s.newId).scratchPending = s.scratchPending := rfl
@[simp] theorem State.newId_tiles (s : State) : (s.newId).tiles = s.tiles := rfl
@[simp] theorem State.newId_dirs (s : State) : (s.newId).dirs = s.dirs := rfl
@[simp] theorem State.newId_tokenHolder (s : State) : (s.newId).tokenHolder = s.tokenHolder := rfl
@[simp] theorem State.newId_tokenTurn (s : State) : (s.newId).tokenTurn = s.tokenTurn := rfl
@[simp] theorem State.newId_spaces (s : State) : (s.newId).spaces = s.spaces := rfl
@[simp] theorem State.newId_parts (s : State) : (s.newId).parts = s.parts := rfl
@[simp] theorem State.newId_queues (s : State) : (s.newId).queues = s.queues := rfl
@[simp] theorem State.newId_disp (s : State) : (s.newId).disp = s.disp := rfl
@[simp] theorem State.newId_ote (s : State) : (s.newId).ote = s.ote := rfl
@[simp] theorem State.newId_msgs (s : State) : (s.newId).msgs = s.msgs := rfl
@[simp] theorem State.newId_palCopies (s : State) : (s.newId).palCopies = s.palCopies := rfl
@[simp] theorem State.newId_mgmt (s : State) : (s.newId).mgmt = s.mgmt := rfl
@[simp] theorem State.newId_dead (s : State) : (s.newId).dead = s.dead := rfl
@[simp] theorem State.newId_cur (s : State) : (s.newId).cur = s.cur := rfl
@[simp] theorem State.newId_choices (s : State) : (s.newId).choices = s.choices := rfl
@[simp] theorem State.newId_due (s : State) : (s.newId).due = s.due := rfl
@[simp] theorem State.newId_ev (s : State) : (s.newId).ev = s.ev := rfl
@[simp] theorem State.newId_how (s : State) : (s.newId).how = s.how := rfl
@[simp] theorem State.newId_stalled (s : State) : (s.newId).stalled = s.stalled := rfl

@[simp] theorem State.setX_cores (s : State) (n : BitVec 6) (w : Word) : (s.setX n w).cores = s.cores := rfl
@[simp] theorem State.setX_clusters (s : State) (n : BitVec 6) (w : Word) : (s.setX n w).clusters = s.clusters := rfl
@[simp] theorem State.setX_dies (s : State) (n : BitVec 6) (w : Word) : (s.setX n w).dies = s.dies := rfl
@[simp] theorem State.setX_quires (s : State) (n : BitVec 6) (w : Word) : (s.setX n w).quires = s.quires := rfl
@[simp] theorem State.setX_gt (s : State) (n : BitVec 6) (w : Word) : (s.setX n w).gt = s.gt := rfl
@[simp] theorem State.setX_cycles (s : State) (n : BitVec 6) (w : Word) : (s.setX n w).cycles = s.cycles := rfl
@[simp] theorem State.setX_mem (s : State) (n : BitVec 6) (w : Word) : (s.setX n w).mem = s.mem := rfl
@[simp] theorem State.setX_scratch (s : State) (n : BitVec 6) (w : Word) : (s.setX n w).scratch = s.scratch := rfl
@[simp] theorem State.setX_poison (s : State) (n : BitVec 6) (w : Word) : (s.setX n w).poison = s.poison := rfl
@[simp] theorem State.setX_poisonBase (s : State) (n : BitVec 6) (w : Word) : (s.setX n w).poisonBase = s.poisonBase := rfl
@[simp] theorem State.setX_scratchPoison (s : State) (n : BitVec 6) (w : Word) : (s.setX n w).scratchPoison = s.scratchPoison := rfl
@[simp] theorem State.setX_scratchPending (s : State) (n : BitVec 6) (w : Word) : (s.setX n w).scratchPending = s.scratchPending := rfl
@[simp] theorem State.setX_tiles (s : State) (n : BitVec 6) (w : Word) : (s.setX n w).tiles = s.tiles := rfl
@[simp] theorem State.setX_dirs (s : State) (n : BitVec 6) (w : Word) : (s.setX n w).dirs = s.dirs := rfl
@[simp] theorem State.setX_tokenHolder (s : State) (n : BitVec 6) (w : Word) : (s.setX n w).tokenHolder = s.tokenHolder := rfl
@[simp] theorem State.setX_tokenTurn (s : State) (n : BitVec 6) (w : Word) : (s.setX n w).tokenTurn = s.tokenTurn := rfl
@[simp] theorem State.setX_spaces (s : State) (n : BitVec 6) (w : Word) : (s.setX n w).spaces = s.spaces := rfl
@[simp] theorem State.setX_parts (s : State) (n : BitVec 6) (w : Word) : (s.setX n w).parts = s.parts := rfl
@[simp] theorem State.setX_queues (s : State) (n : BitVec 6) (w : Word) : (s.setX n w).queues = s.queues := rfl
@[simp] theorem State.setX_disp (s : State) (n : BitVec 6) (w : Word) : (s.setX n w).disp = s.disp := rfl
@[simp] theorem State.setX_ote (s : State) (n : BitVec 6) (w : Word) : (s.setX n w).ote = s.ote := rfl
@[simp] theorem State.setX_msgs (s : State) (n : BitVec 6) (w : Word) : (s.setX n w).msgs = s.msgs := rfl
@[simp] theorem State.setX_palCopies (s : State) (n : BitVec 6) (w : Word) : (s.setX n w).palCopies = s.palCopies := rfl
@[simp] theorem State.setX_mgmt (s : State) (n : BitVec 6) (w : Word) : (s.setX n w).mgmt = s.mgmt := rfl
@[simp] theorem State.setX_dead (s : State) (n : BitVec 6) (w : Word) : (s.setX n w).dead = s.dead := rfl
@[simp] theorem State.setX_cur (s : State) (n : BitVec 6) (w : Word) : (s.setX n w).cur = s.cur := rfl
@[simp] theorem State.setX_choices (s : State) (n : BitVec 6) (w : Word) : (s.setX n w).choices = s.choices := rfl
@[simp] theorem State.setX_due (s : State) (n : BitVec 6) (w : Word) : (s.setX n w).due = s.due := rfl
@[simp] theorem State.setX_ev (s : State) (n : BitVec 6) (w : Word) : (s.setX n w).ev = s.ev := rfl
@[simp] theorem State.setX_how (s : State) (n : BitVec 6) (w : Word) : (s.setX n w).how = s.how := rfl
@[simp] theorem State.setX_stalled (s : State) (n : BitVec 6) (w : Word) : (s.setX n w).stalled = s.stalled := rfl
@[simp] theorem State.setX_nextId (s : State) (n : BitVec 6) (w : Word) : (s.setX n w).nextId = s.nextId := rfl

@[simp] theorem State.setV_cores (s : State) (n : BitVec 6) (l : Lanes) : (s.setV n l).cores = s.cores := rfl
@[simp] theorem State.setV_clusters (s : State) (n : BitVec 6) (l : Lanes) : (s.setV n l).clusters = s.clusters := rfl
@[simp] theorem State.setV_dies (s : State) (n : BitVec 6) (l : Lanes) : (s.setV n l).dies = s.dies := rfl
@[simp] theorem State.setV_quires (s : State) (n : BitVec 6) (l : Lanes) : (s.setV n l).quires = s.quires := rfl
@[simp] theorem State.setV_gt (s : State) (n : BitVec 6) (l : Lanes) : (s.setV n l).gt = s.gt := rfl
@[simp] theorem State.setV_cycles (s : State) (n : BitVec 6) (l : Lanes) : (s.setV n l).cycles = s.cycles := rfl
@[simp] theorem State.setV_mem (s : State) (n : BitVec 6) (l : Lanes) : (s.setV n l).mem = s.mem := rfl
@[simp] theorem State.setV_scratch (s : State) (n : BitVec 6) (l : Lanes) : (s.setV n l).scratch = s.scratch := rfl
@[simp] theorem State.setV_poison (s : State) (n : BitVec 6) (l : Lanes) : (s.setV n l).poison = s.poison := rfl
@[simp] theorem State.setV_poisonBase (s : State) (n : BitVec 6) (l : Lanes) : (s.setV n l).poisonBase = s.poisonBase := rfl
@[simp] theorem State.setV_scratchPoison (s : State) (n : BitVec 6) (l : Lanes) : (s.setV n l).scratchPoison = s.scratchPoison := rfl
@[simp] theorem State.setV_scratchPending (s : State) (n : BitVec 6) (l : Lanes) : (s.setV n l).scratchPending = s.scratchPending := rfl
@[simp] theorem State.setV_tiles (s : State) (n : BitVec 6) (l : Lanes) : (s.setV n l).tiles = s.tiles := rfl
@[simp] theorem State.setV_dirs (s : State) (n : BitVec 6) (l : Lanes) : (s.setV n l).dirs = s.dirs := rfl
@[simp] theorem State.setV_tokenHolder (s : State) (n : BitVec 6) (l : Lanes) : (s.setV n l).tokenHolder = s.tokenHolder := rfl
@[simp] theorem State.setV_tokenTurn (s : State) (n : BitVec 6) (l : Lanes) : (s.setV n l).tokenTurn = s.tokenTurn := rfl
@[simp] theorem State.setV_spaces (s : State) (n : BitVec 6) (l : Lanes) : (s.setV n l).spaces = s.spaces := rfl
@[simp] theorem State.setV_parts (s : State) (n : BitVec 6) (l : Lanes) : (s.setV n l).parts = s.parts := rfl
@[simp] theorem State.setV_queues (s : State) (n : BitVec 6) (l : Lanes) : (s.setV n l).queues = s.queues := rfl
@[simp] theorem State.setV_disp (s : State) (n : BitVec 6) (l : Lanes) : (s.setV n l).disp = s.disp := rfl
@[simp] theorem State.setV_ote (s : State) (n : BitVec 6) (l : Lanes) : (s.setV n l).ote = s.ote := rfl
@[simp] theorem State.setV_msgs (s : State) (n : BitVec 6) (l : Lanes) : (s.setV n l).msgs = s.msgs := rfl
@[simp] theorem State.setV_palCopies (s : State) (n : BitVec 6) (l : Lanes) : (s.setV n l).palCopies = s.palCopies := rfl
@[simp] theorem State.setV_mgmt (s : State) (n : BitVec 6) (l : Lanes) : (s.setV n l).mgmt = s.mgmt := rfl
@[simp] theorem State.setV_dead (s : State) (n : BitVec 6) (l : Lanes) : (s.setV n l).dead = s.dead := rfl
@[simp] theorem State.setV_cur (s : State) (n : BitVec 6) (l : Lanes) : (s.setV n l).cur = s.cur := rfl
@[simp] theorem State.setV_choices (s : State) (n : BitVec 6) (l : Lanes) : (s.setV n l).choices = s.choices := rfl
@[simp] theorem State.setV_due (s : State) (n : BitVec 6) (l : Lanes) : (s.setV n l).due = s.due := rfl
@[simp] theorem State.setV_ev (s : State) (n : BitVec 6) (l : Lanes) : (s.setV n l).ev = s.ev := rfl
@[simp] theorem State.setV_how (s : State) (n : BitVec 6) (l : Lanes) : (s.setV n l).how = s.how := rfl
@[simp] theorem State.setV_stalled (s : State) (n : BitVec 6) (l : Lanes) : (s.setV n l).stalled = s.stalled := rfl
@[simp] theorem State.setV_nextId (s : State) (n : BitVec 6) (l : Lanes) : (s.setV n l).nextId = s.nextId := rfl

@[simp] theorem State.setP_cores (s : State) (n : BitVec 6) (w : W32) : (s.setP n w).cores = s.cores := rfl
@[simp] theorem State.setP_clusters (s : State) (n : BitVec 6) (w : W32) : (s.setP n w).clusters = s.clusters := rfl
@[simp] theorem State.setP_dies (s : State) (n : BitVec 6) (w : W32) : (s.setP n w).dies = s.dies := rfl
@[simp] theorem State.setP_quires (s : State) (n : BitVec 6) (w : W32) : (s.setP n w).quires = s.quires := rfl
@[simp] theorem State.setP_gt (s : State) (n : BitVec 6) (w : W32) : (s.setP n w).gt = s.gt := rfl
@[simp] theorem State.setP_cycles (s : State) (n : BitVec 6) (w : W32) : (s.setP n w).cycles = s.cycles := rfl
@[simp] theorem State.setP_mem (s : State) (n : BitVec 6) (w : W32) : (s.setP n w).mem = s.mem := rfl
@[simp] theorem State.setP_scratch (s : State) (n : BitVec 6) (w : W32) : (s.setP n w).scratch = s.scratch := rfl
@[simp] theorem State.setP_poison (s : State) (n : BitVec 6) (w : W32) : (s.setP n w).poison = s.poison := rfl
@[simp] theorem State.setP_poisonBase (s : State) (n : BitVec 6) (w : W32) : (s.setP n w).poisonBase = s.poisonBase := rfl
@[simp] theorem State.setP_scratchPoison (s : State) (n : BitVec 6) (w : W32) : (s.setP n w).scratchPoison = s.scratchPoison := rfl
@[simp] theorem State.setP_scratchPending (s : State) (n : BitVec 6) (w : W32) : (s.setP n w).scratchPending = s.scratchPending := rfl
@[simp] theorem State.setP_tiles (s : State) (n : BitVec 6) (w : W32) : (s.setP n w).tiles = s.tiles := rfl
@[simp] theorem State.setP_dirs (s : State) (n : BitVec 6) (w : W32) : (s.setP n w).dirs = s.dirs := rfl
@[simp] theorem State.setP_tokenHolder (s : State) (n : BitVec 6) (w : W32) : (s.setP n w).tokenHolder = s.tokenHolder := rfl
@[simp] theorem State.setP_tokenTurn (s : State) (n : BitVec 6) (w : W32) : (s.setP n w).tokenTurn = s.tokenTurn := rfl
@[simp] theorem State.setP_spaces (s : State) (n : BitVec 6) (w : W32) : (s.setP n w).spaces = s.spaces := rfl
@[simp] theorem State.setP_parts (s : State) (n : BitVec 6) (w : W32) : (s.setP n w).parts = s.parts := rfl
@[simp] theorem State.setP_queues (s : State) (n : BitVec 6) (w : W32) : (s.setP n w).queues = s.queues := rfl
@[simp] theorem State.setP_disp (s : State) (n : BitVec 6) (w : W32) : (s.setP n w).disp = s.disp := rfl
@[simp] theorem State.setP_ote (s : State) (n : BitVec 6) (w : W32) : (s.setP n w).ote = s.ote := rfl
@[simp] theorem State.setP_msgs (s : State) (n : BitVec 6) (w : W32) : (s.setP n w).msgs = s.msgs := rfl
@[simp] theorem State.setP_palCopies (s : State) (n : BitVec 6) (w : W32) : (s.setP n w).palCopies = s.palCopies := rfl
@[simp] theorem State.setP_mgmt (s : State) (n : BitVec 6) (w : W32) : (s.setP n w).mgmt = s.mgmt := rfl
@[simp] theorem State.setP_dead (s : State) (n : BitVec 6) (w : W32) : (s.setP n w).dead = s.dead := rfl
@[simp] theorem State.setP_cur (s : State) (n : BitVec 6) (w : W32) : (s.setP n w).cur = s.cur := rfl
@[simp] theorem State.setP_choices (s : State) (n : BitVec 6) (w : W32) : (s.setP n w).choices = s.choices := rfl
@[simp] theorem State.setP_due (s : State) (n : BitVec 6) (w : W32) : (s.setP n w).due = s.due := rfl
@[simp] theorem State.setP_ev (s : State) (n : BitVec 6) (w : W32) : (s.setP n w).ev = s.ev := rfl
@[simp] theorem State.setP_how (s : State) (n : BitVec 6) (w : W32) : (s.setP n w).how = s.how := rfl
@[simp] theorem State.setP_stalled (s : State) (n : BitVec 6) (w : W32) : (s.setP n w).stalled = s.stalled := rfl
@[simp] theorem State.setP_nextId (s : State) (n : BitVec 6) (w : W32) : (s.setP n w).nextId = s.nextId := rfl

@[simp] theorem State.step8_cores (s : State) : (s.step8).cores = s.cores := rfl
@[simp] theorem State.step8_clusters (s : State) : (s.step8).clusters = s.clusters := rfl
@[simp] theorem State.step8_dies (s : State) : (s.step8).dies = s.dies := rfl
@[simp] theorem State.step8_quires (s : State) : (s.step8).quires = s.quires := rfl
@[simp] theorem State.step8_gt (s : State) : (s.step8).gt = s.gt := rfl
@[simp] theorem State.step8_cycles (s : State) : (s.step8).cycles = s.cycles := rfl
@[simp] theorem State.step8_mem (s : State) : (s.step8).mem = s.mem := rfl
@[simp] theorem State.step8_scratch (s : State) : (s.step8).scratch = s.scratch := rfl
@[simp] theorem State.step8_poison (s : State) : (s.step8).poison = s.poison := rfl
@[simp] theorem State.step8_poisonBase (s : State) : (s.step8).poisonBase = s.poisonBase := rfl
@[simp] theorem State.step8_scratchPoison (s : State) : (s.step8).scratchPoison = s.scratchPoison := rfl
@[simp] theorem State.step8_scratchPending (s : State) : (s.step8).scratchPending = s.scratchPending := rfl
@[simp] theorem State.step8_tiles (s : State) : (s.step8).tiles = s.tiles := rfl
@[simp] theorem State.step8_dirs (s : State) : (s.step8).dirs = s.dirs := rfl
@[simp] theorem State.step8_tokenHolder (s : State) : (s.step8).tokenHolder = s.tokenHolder := rfl
@[simp] theorem State.step8_tokenTurn (s : State) : (s.step8).tokenTurn = s.tokenTurn := rfl
@[simp] theorem State.step8_spaces (s : State) : (s.step8).spaces = s.spaces := rfl
@[simp] theorem State.step8_parts (s : State) : (s.step8).parts = s.parts := rfl
@[simp] theorem State.step8_queues (s : State) : (s.step8).queues = s.queues := rfl
@[simp] theorem State.step8_disp (s : State) : (s.step8).disp = s.disp := rfl
@[simp] theorem State.step8_ote (s : State) : (s.step8).ote = s.ote := rfl
@[simp] theorem State.step8_msgs (s : State) : (s.step8).msgs = s.msgs := rfl
@[simp] theorem State.step8_palCopies (s : State) : (s.step8).palCopies = s.palCopies := rfl
@[simp] theorem State.step8_mgmt (s : State) : (s.step8).mgmt = s.mgmt := rfl
@[simp] theorem State.step8_dead (s : State) : (s.step8).dead = s.dead := rfl
@[simp] theorem State.step8_cur (s : State) : (s.step8).cur = s.cur := rfl
@[simp] theorem State.step8_choices (s : State) : (s.step8).choices = s.choices := rfl
@[simp] theorem State.step8_due (s : State) : (s.step8).due = s.due := rfl
@[simp] theorem State.step8_ev (s : State) : (s.step8).ev = s.ev := rfl
@[simp] theorem State.step8_how (s : State) : (s.step8).how = s.how := rfl
@[simp] theorem State.step8_stalled (s : State) : (s.step8).stalled = s.stalled := rfl
@[simp] theorem State.step8_nextId (s : State) : (s.step8).nextId = s.nextId := rfl

/-! ### What an update writes -/

@[simp] theorem State.ctx_setCtx (s : State) (k : Nat) (c : Ctx) : (s.setCtx k c).ctx k = c := by
  simp [State.ctx, State.setCtx]
theorem State.ctx_setCtx_ne (s : State) (k j : Nat) (c : Ctx) (h : j ≠ k) : (s.setCtx k c).ctx j = s.ctx j := by
  simp [State.ctx, State.setCtx, h]
@[simp] theorem State.ctx_updCtx (s : State) (k : Nat) (f : Ctx → Ctx) : (s.updCtx k f).ctx k = f (s.ctx k) := by
  simp [State.updCtx]
theorem State.ctx_updCtx_ne (s : State) (k j : Nat) (f : Ctx → Ctx) (h : j ≠ k) : (s.updCtx k f).ctx j = s.ctx j :=
  s.ctx_setCtx_ne k j _ h
@[simp] theorem State.th_setTh (s : State) (c : Ctx) : (s.setTh c).th = c := by
  simp [State.th, State.setTh]
@[simp] theorem State.th_updTh (s : State) (f : Ctx → Ctx) : (s.updTh f).th = f s.th := by
  simp [State.updTh]
theorem State.ctx_updTh_ne (s : State) (j : Nat) (f : Ctx → Ctx) (h : j ≠ s.cur) : (s.updTh f).ctx j = s.ctx j :=
  s.ctx_setCtx_ne s.cur j _ h
@[simp] theorem State.core_setCore (s : State) (n : Nat) (v : Core) : (s.setCore n v).core n = v := by
  simp [State.core, State.setCore]
@[simp] theorem State.core_updCore (s : State) (n : Nat) (f : Core → Core) : (s.updCore n f).core n = f (s.core n) := by
  simp [State.updCore]
@[simp] theorem State.cluster_setCluster (s : State) (n : Nat) (v : Cluster) : (s.setCluster n v).cluster n = v := by
  simp [State.cluster, State.setCluster]
@[simp] theorem State.cluster_updCluster (s : State) (n : Nat) (f : Cluster → Cluster) :
    (s.updCluster n f).cluster n = f (s.cluster n) := by
  simp [State.updCluster]
@[simp] theorem State.die_setDie (s : State) (d : Nat) (v : Die) : (s.setDie d v).die d = v := by
  simp [State.die, State.setDie]
@[simp] theorem State.die_updDie (s : State) (d : Nat) (f : Die → Die) : (s.updDie d f).die d = f (s.die d) := by
  simp [State.updDie]
@[simp] theorem State.space_setSpace (s : State) (a : Nat) (v : Space) : (s.setSpace a v).space a = v := by
  simp [State.space, State.setSpace]
@[simp] theorem State.space_updSpace (s : State) (a : Nat) (f : Space → Space) :
    (s.updSpace a f).space a = f (s.space a) := by
  simp [State.updSpace]
@[simp] theorem State.queue_setQueue (s : State) (a q : Nat) (v : Queue) : (s.setQueue a q v).queue a q = v := by
  simp [State.queue, State.setQueue]
@[simp] theorem State.dir_setDir (s : State) (t : Nat) (v : Dir) : (s.setDir t v).dir t = v := by
  simp [State.dir, State.setDir]
@[simp] theorem State.dir_updDir (s : State) (t : Nat) (f : Dir → Dir) : (s.updDir t f).dir t = f (s.dir t) := by
  simp [State.updDir]
@[simp] theorem State.cause_due (s : State) (i : Instr) (e : Ev) : (s.cause i e).due = s.due ++ [⟨i, e⟩] := rfl
@[simp] theorem State.newId_nextId (s : State) : s.newId.nextId = s.nextId + 1 := rfl
@[simp] theorem State.updMgmt_mgmt (s : State) (f : Mgmt → Mgmt) : (s.updMgmt f).mgmt = f s.mgmt := rfl
@[simp] theorem State.updOte_ote (s : State) (f : Ote → Ote) : (s.updOte f).ote = f s.ote := rfl
@[simp] theorem State.writeMem_mem (s : State) (pa : Nat) (bs : List Byte) :
    (s.writeMem pa bs).mem = Mem.writeBytes s.mem pa bs := rfl

/-- The next word, and a wait that the issue ended. -/
@[simp] theorem State.th_step8 (s : State) :
    s.step8.th = { s.th with pc := s.th.pc + 8, blocked := false, woken := false, joined := false, waitSince := none } := by
  simp [State.step8]
@[simp] theorem State.th_setX (s : State) (n : BitVec 6) (w : Word) : (s.setX n w).th = s.th.setX n.toNat w := by
  simp [State.setX]
@[simp] theorem State.th_setV (s : State) (n : BitVec 6) (l : Lanes) : (s.setV n l).th = s.th.setV n.toNat l := by
  simp [State.setV]
@[simp] theorem State.th_setP (s : State) (n : BitVec 6) (w : W32) : (s.setP n w).th = s.th.setP n.toNat w := by
  simp [State.setP]

end Sys2Proof.Machine
end

