-- ==== Sys2Proof/Laws/Issue.lean ====
section
/-! SUPPORT. How an instruction that may issue runs: the one lemma of `gate`, `whole`, `lanewise`, `always` and
`privileged`, and what `finish` makes of each end. -/

namespace Sys2Proof.Machine

theorem find_none_of {α : Type} (p : α → Bool) : ∀ l : List α, (∀ a ∈ l, p a = false) → l.find? p = none
  | [], _ => rfl
  | a :: l, h => by
    rw [List.find?_cons, h a (by simp)]
    exact find_none_of p l fun b hb => h b (by simp [hb])

/-- A ready instruction runs its body. -/
theorem State.gate_ready (s : State) (srcs : List Src) (dsts : List RegRef) (body : State → Done)
    (h : s.Ready (srcs.map (·.reg)) dsts) : s.gate srcs dsts body = body s := by
  obtain ⟨hs, hd⟩ := h
  have e1 : srcs.find? (fun q => q.trap && s.th.r.fe q.reg ≠ .full) = none :=
    find_none_of _ _ fun q hq => by simp [hs q.reg (List.mem_map_of_mem hq)]
  have e2 : (srcs.map (·.reg)).find? (fun q => s.th.r.fe q = .pending) = none :=
    find_none_of _ _ fun q hq => by simp [hs q hq]
  have e3 : (srcs.map (·.reg)).find? (fun q => s.th.r.fe q = .idle) = none :=
    find_none_of _ _ fun q hq => by simp [hs q hq]
  have e4 : dsts.find? (fun q => s.th.r.fe q = .pending) = none :=
    find_none_of _ _ fun q hq => by simp [hd q hq]
  unfold State.gate
  simp only [e1, e2, e3, e4]

theorem State.whole_issues (s : State) (sel : BitVec 3) (neg : BitVec 1) (srcs : List Src) (dsts : List RegRef)
    (body : State → Done) (h : s.Issues sel neg (srcs.map (·.reg)) dsts) :
    s.whole sel neg srcs dsts body = s.finish (body s) := by
  unfold State.whole
  rw [if_pos h.1, State.gate_ready s srcs dsts body h.2]

theorem State.whole_skips (s : State) (sel : BitVec 3) (neg : BitVec 1) (srcs : List Src) (dsts : List RegRef)
    (body : State → Done) (h : (s.mask sel neg).getLsbD 0 = false) : s.whole sel neg srcs dsts body = .next s.step8 := by
  unfold State.whole
  rw [h]; rfl

theorem State.lanewise_issues (s : State) (sel : BitVec 3) (neg : BitVec 1) (srcs : List Src) (dsts : List RegRef)
    (body : W32 → State → Done) (h : s.IssuesLanes sel neg (srcs.map (·.reg)) dsts) :
    s.lanewise sel neg srcs dsts body = s.finish (body (s.mask sel neg) s) := by
  unfold State.lanewise
  rw [if_neg h.1, State.gate_ready s srcs dsts _ h.2]

theorem State.lanewise_skips (s : State) (sel : BitVec 3) (neg : BitVec 1) (srcs : List Src) (dsts : List RegRef)
    (body : W32 → State → Done) (h : s.mask sel neg = 0) : s.lanewise sel neg srcs dsts body = .next s.step8 := by
  unfold State.lanewise
  rw [if_pos h]; rfl

theorem State.always_ready (s : State) (srcs : List Src) (dsts : List RegRef) (body : State → Done)
    (h : s.Ready (srcs.map (·.reg)) dsts) : s.always srcs dsts body = s.finish (body s) := by
  unfold State.always
  rw [State.gate_ready s srcs dsts body h]

theorem State.privileged_system (s : State) (i : Instr) (rest : Out) (h : s.th.asid = 0) :
    s.privileged i rest = rest := by simp [State.privileged, h]

theorem State.privileged_user (s : State) (i : Instr) (rest : Out) (h : s.th.asid ≠ 0) :
    s.privileged i rest = .next (s.deliver s.cur .privileged (encode i) s.th.pc) := by
  unfold State.privileged; rw [if_neg h]; rfl

@[simp] theorem State.finish_next (s t : State) : s.finish (.next t) = .next t.step8 := rfl
@[simp] theorem State.finish_final (s t : State) : s.finish (.final t) = .next t := rfl
@[simp] theorem State.finish_trap (s : State) (c : Cause) (v : Word) :
    s.finish (.trap c v) = .next (s.deliver s.cur c v s.th.pc) := rfl

/-- Every end of an instruction is a next state. -/
theorem State.finish_isNext (s : State) (d : Done) : ∃ t, s.finish d = .next t := by
  cases d <;> exact ⟨_, rfl⟩

/-- A register that the thread has just written reads as written, X0 apart. -/
theorem Regs.getX_setX (r : Regs) (n : Nat) (w : Word) (h : n ≠ 0) : (r.setX n w).getX n = w := by
  simp [Regs.setX, Regs.getX, h, vat_vput]

theorem Regs.getX_zero (r : Regs) : r.getX 0 = 0 := rfl
theorem Regs.getP_zero (r : Regs) : r.getP 0 = BitVec.allOnes 32 := rfl

/-- A trap outside a speculative transaction is delivered at once. -/
theorem State.deliver_plain (s : State) (k : Nat) (c : Cause) (v pc : Word) (h : (s.ctx k).speculative = false) :
    s.deliver k c v pc = s.deliverNow k c v pc := by simp [State.deliver, h]

end Sys2Proof.Machine
end

