-- ==== Sys2Proof/Laws/Frame.lean ====
section
/-! SUPPORT. Frames: an update of the issuing thread's own record leaves every other context, the package and all bytes
alone, and what the writes of registers leave alone in the thread. -/

namespace Sys2Proof.Machine

theorem State.sameBytes_updTh (s : State) (f : Ctx → Ctx) : s.sameBytes (s.updTh f) := ⟨fun _ => rfl, fun _ => rfl⟩

theorem State.sameOthers_updTh (s : State) (f : Ctx → Ctx) : s.sameOthers (s.updTh f) :=
  ⟨⟨⟨fun k h => by simp [State.updTh, State.setTh, State.setCtx, State.ctx, h], by simp⟩, by simp⟩, by simp⟩

/-- Two updates of the issuing thread in a row are one. -/
theorem State.updTh_updTh (s : State) (f g : Ctx → Ctx) : (s.updTh f).updTh g = s.updTh fun c => g (f c) := by
  have h : ∀ (t : Tbl Ctx) (k : Nat) (a b : Ctx), Tbl.set (Tbl.set t k a) k b = Tbl.set t k b := by
    intro t k a b
    induction t with
    | nil => simp [Tbl.set]
    | cons e t ih =>
      obtain ⟨i, w⟩ := e
      unfold Tbl.set
      by_cases h1 : k < i
      · simp [h1, Tbl.set]
      · by_cases h2 : k = i
        · simp [h2, Tbl.set]
        · simp [h1, h2, Tbl.set, ih]
  unfold State.updTh State.setTh State.setCtx State.th State.ctx
  simp only [h, Tbl.getD_set]

/-- The end of an instruction that changes only its thread. -/
theorem State.updTh_step8 (s : State) (f : Ctx → Ctx) :
    (s.updTh f).step8 = s.updTh fun c =>
      { f c with pc := (f c).pc + 8, blocked := false, woken := false, joined := false, waitSince := none } := by
  unfold State.step8; rw [State.updTh_updTh]

theorem vat_vput_lt {α : Type} {n : Nat} [NeZero n] (v : Vector α n) (i j : Nat) (a : α) (hi : i < n) (hj : j < n)
    (h : j ≠ i) : vat (vput v i a) j = vat v j :=
  vat_vput_ne v i j a (by rw [Nat.mod_eq_of_lt hi, Nat.mod_eq_of_lt hj]; exact h)

theorem Regs.getX_setX_ne (r : Regs) (n m : Nat) (w : Word) (hn : n < 32) (hm : m < 32) (h : m ≠ n) :
    (r.setX n w).getX m = r.getX m ∧ (r.setX n w).fe (.x m) = r.fe (.x m) := by
  by_cases h0 : n = 0
  · simp [Regs.setX, h0]
  · simp [Regs.setX, Regs.getX, Regs.fe, h0, vat_vput_lt _ n m _ hn hm h]

theorem Regs.getX_setX_zero (r : Regs) (w : Word) : r.setX 0 w = r := rfl

theorem Regs.getV_setV_ne (r : Regs) (n m : Nat) (l : Lanes) (hn : n < 32) (hm : m < 32) (h : m ≠ n) :
    (r.setV n l).getV m = r.getV m ∧ (r.setV n l).fe (.v m) = r.fe (.v m) := by
  simp [Regs.setV, Regs.getV, Regs.fe, vat_vput_lt _ n m _ hn hm h]

theorem Regs.getP_setP_ne (r : Regs) (n m : Nat) (w : W32) (hn : n < 8) (hm : m < 8) (h : m ≠ n) :
    (r.setP n w).getP m = r.getP m := by
  by_cases h0 : n = 0
  · simp [Regs.setP, h0]
  · simp [Regs.setP, Regs.getP, h0, vat_vput_lt _ n m _ hn hm h]

@[simp] theorem Regs.setX_getV (r : Regs) (n m : Nat) (w : Word) : (r.setX n w).getV m = r.getV m := by
  unfold Regs.setX; split <;> rfl
@[simp] theorem Regs.setX_feV (r : Regs) (n m : Nat) (w : Word) : (r.setX n w).fe (.v m) = r.fe (.v m) := by
  unfold Regs.setX; split <;> rfl
@[simp] theorem Regs.setX_getP (r : Regs) (n m : Nat) (w : Word) : (r.setX n w).getP m = r.getP m := by
  unfold Regs.setX; split <;> rfl
@[simp] theorem Regs.setX_fpstat (r : Regs) (n : Nat) (w : Word) : (r.setX n w).fpstat = r.fpstat := by
  unfold Regs.setX; split <;> rfl
@[simp] theorem Regs.setX_stochseed (r : Regs) (n : Nat) (w : Word) : (r.setX n w).stochseed = r.stochseed := by
  unfold Regs.setX; split <;> rfl
@[simp] theorem Regs.setX_guards (r : Regs) (n : Nat) (w : Word) : (r.setX n w).guards = r.guards := by
  unfold Regs.setX; split <;> rfl
@[simp] theorem Regs.setX_fibres (r : Regs) (n : Nat) (w : Word) : (r.setX n w).fibres = r.fibres := by
  unfold Regs.setX; split <;> rfl
@[simp] theorem Regs.setV_getX (r : Regs) (n m : Nat) (l : Lanes) : (r.setV n l).getX m = r.getX m := rfl
@[simp] theorem Regs.setV_feX (r : Regs) (n m : Nat) (l : Lanes) : (r.setV n l).fe (.x m) = r.fe (.x m) := rfl
@[simp] theorem Regs.setV_getP (r : Regs) (n m : Nat) (l : Lanes) : (r.setV n l).getP m = r.getP m := rfl
@[simp] theorem Regs.setV_fpstat (r : Regs) (n : Nat) (l : Lanes) : (r.setV n l).fpstat = r.fpstat := rfl
@[simp] theorem Regs.setV_stochseed (r : Regs) (n : Nat) (l : Lanes) : (r.setV n l).stochseed = r.stochseed := rfl
@[simp] theorem Regs.setV_guards (r : Regs) (n : Nat) (l : Lanes) : (r.setV n l).guards = r.guards := rfl
@[simp] theorem Regs.setV_fibres (r : Regs) (n : Nat) (l : Lanes) : (r.setV n l).fibres = r.fibres := rfl
@[simp] theorem Regs.setP_getX (r : Regs) (n m : Nat) (w : W32) : (r.setP n w).getX m = r.getX m := by
  unfold Regs.setP; split <;> rfl
@[simp] theorem Regs.setP_fe (r : Regs) (n : Nat) (w : W32) (q : RegRef) : (r.setP n w).fe q = r.fe q := by
  unfold Regs.setP; split <;> rfl
@[simp] theorem Regs.setP_getV (r : Regs) (n m : Nat) (w : W32) : (r.setP n w).getV m = r.getV m := by
  unfold Regs.setP; split <;> rfl
@[simp] theorem Regs.setP_fpstat (r : Regs) (n : Nat) (w : W32) : (r.setP n w).fpstat = r.fpstat := by
  unfold Regs.setP; split <;> rfl
@[simp] theorem Regs.setP_stochseed (r : Regs) (n : Nat) (w : W32) : (r.setP n w).stochseed = r.stochseed := by
  unfold Regs.setP; split <;> rfl
@[simp] theorem Regs.setP_guards (r : Regs) (n : Nat) (w : W32) : (r.setP n w).guards = r.guards := by
  unfold Regs.setP; split <;> rfl
@[simp] theorem Regs.setP_fibres (r : Regs) (n : Nat) (w : W32) : (r.setP n w).fibres = r.fibres := by
  unfold Regs.setP; split <;> rfl

end Sys2Proof.Machine
end

