-- ==== Sys2Proof/Laws/Access.lean ====
section
/-! SUPPORT. How an access of one location proceeds when nothing stands in its way, what the bytes of a store are, and
what landing them changes. -/

namespace Sys2Proof.Machine

theorem State.Calm.spec {s : State} (h : s.Calm) : s.th.speculative = false := by simp [Ctx.speculative, h.depth]

/-- The checks of an access of the own scratchpad window find its byte. -/
theorem State.look_own (s : State) (acc : Access) (size : Nat) (ea : Word) (h : s.ownAddr size ea) :
    s.look s.cur acc size ea = .at (.own (s.ownByteAt ea)) := by
  obtain ⟨h0, a, ha, hc⟩ := h
  have hc' : a < claimBytes (s.ctx s.cur).claim := hc
  have e : ea.toNat - ownBase = a := by
    unfold regionOf at ha; simp only at ha
    split_ifs at ha; all_goals simp_all
  unfold State.look State.ownByteAt
  simp [h0, ha, hc', e, State.myCore, State.th]

/-- The checks of an access of a translated page find its physical address. -/
theorem State.look_mapped (s : State) (acc : Access) (size : Nat) (ea : Word) (pa : Nat) (pol : Policy)
    (h : s.mappedAt acc size ea pa pol) : s.look s.cur acc size ea = .at (.phys pa pol) := by
  obtain ⟨h0, hr, h⟩ := h
  unfold State.look
  simp only [h0, ne_eq, not_true_eq_false, if_false, hr]
  simp only [State.myCore, State.th] at h
  split at h
  · next e he => simp [he, h.1, h.2]
  · next he =>
    obtain ⟨e, h1, h2, h3, h4⟩ := h
    simp only [State.myCore, State.th] at h1
    simp [he, h1, h2, h3, h4]

theorem State.lineDead_calm {s : State} (h : s.Calm) (l : Nat) : s.lineDead l = false := by simp [State.lineDead, h.dead]

/-- In calm no home, agent or core that answers an access of the own window or of memory is dead. -/
theorem State.answerDead_calm {s : State} (h : s.Calm) (acc : Access) (l : Loc) (hr : ∀ c sl a, l.place ≠ .remote c sl a) :
    s.answerDead acc l = false := by
  unfold State.answerDead
  split
  · split <;> simp [State.lineDead_calm h, State.devDead, h.dead]
  · next e => exact absurd e (hr _ _ _)
  · rfl

theorem State.heldBack_calm {s : State} (h : s.Calm) (b : Bool) : s.heldBack b = false := by
  simp [State.heldBack, State.fenceHolds, h.loads, h.fence]

/-- In calm, the access of one location that is not another core's goes on with its place. -/
theorem State.access_one {s : State} (h : s.Calm) (acc : Access) (size lane : Nat) (ea : Word) (p : Place)
    (hp : s.look s.cur acc size ea = .at p) (hr : ∀ c sl a, p ≠ .remote c sl a) (f : List Loc → Done) :
    s.access acc size [(lane, ea)] f = f [⟨lane, ea, p⟩] := by
  unfold State.access
  have e1 : s.ownPending [⟨lane, ea, p⟩] = false := by cases p <;> simp [State.ownPending, h.pending]
  have e2 : s.ownEchoes [⟨lane, ea, p⟩] = false := by simp [State.ownEchoes, h.msgs]
  have e3 : s.th.redOverlaps [⟨lane, ea, p⟩] = false := by cases p <;> simp [Ctx.redOverlaps, h.reds]
  have e4 : s.palHolds [⟨lane, ea, p⟩] = false := by simp [State.palHolds, h.copies]
  have e5 : s.answerDead acc ⟨lane, ea, p⟩ = false := State.answerDead_calm h acc _ hr
  simp only [State.heldBack_calm h, hp, List.findSome?, List.filterMap, e1, e2, e3, e4]
  cases p with
  | remote c sl a => exact absurd rfl (hr c sl a)
  | own b => simp [e5]
  | phys pa pol => simp [e5]

/-- With no store of its own waiting, a thread reads memory. -/
theorem State.bytesFor_mem {s : State} (h : s.Calm) (a n : Nat) : s.bytesFor s.cur a n = Mem.readBytes s.mem a n := by
  have h1 : (s.ctx s.cur).tx = none := h.tx
  have h2 : (s.ctx s.cur).stores = [] := h.stores
  induction n generalizing a with
  | zero => rfl
  | succ n ih => simp [State.bytesFor, Mem.readBytes, ih, State.byteFor, Ctx.ownByte, h1, h2, lastByte]

/-- In calm every earlier store of the thread is visible. -/
theorem State.released_calm {s : State} (h : s.Calm) : s.released s.cur = true := by
  have h1 : (s.ctx s.cur).stores = [] := h.stores
  have h2 : (s.ctx s.cur).reds = [] := h.reds
  have h3 : (s.ctx s.cur).visible ≤ s.gtOf (dieOf (coreOf s.cur)) := h.visible
  simp [State.released, State.storesDone, h1, h2, State.remoteStores, h.msgs, h.copies, h3]

theorem State.released?_calm {s : State} (h : s.Calm) (f : Done) : s.released? f = f := by
  simp [State.released?, State.drained?, State.Calm.spec h, h.loads, State.released_calm h, State.reportRemote, h.failed]

theorem bytesOfNat_getElem (n v : Nat) : ∀ j, j < n → (bytesOfNat n v)[j]? = some (BitVec.ofNat 8 (v / 256 ^ j)) := by
  induction n generalizing v with
  | zero => intro j h; omega
  | succ n ih =>
    intro j h
    cases j with
    | zero => simp [bytesOfNat]
    | succ j => simp [bytesOfNat, ih (v / 256) j (by omega), Nat.div_div_eq_div_mul, pow_succ, Nat.mul_comm]

theorem bytesOfNat_length (n v : Nat) : (bytesOfNat n v).length = n := by
  induction n generalizing v with
  | zero => rfl
  | succ n ih => simp [bytesOfNat, ih]

/-- The pairs of a datum are those of its bytes. -/
theorem pairsAt_succ (a n v : Nat) (w : Nat) :
    ((bytesOfNat (n + 1) v).zipIdx w).map (fun b => (a + b.2, b.1)) =
      (a + w, BitVec.ofNat 8 v) :: ((bytesOfNat n (v / 256)).zipIdx (w + 1)).map (fun b => (a + b.2, b.1)) := rfl

theorem writeAll_pairs (m : Mem) (a v : Nat) : ∀ n w,
    Mem.writeAll m (((bytesOfNat n v).zipIdx w).map fun b => (a + b.2, b.1)) = Mem.writeBytes m (a + w) (bytesOfNat n v) := by
  intro n
  induction n generalizing m v with
  | zero => intro w; rfl
  | succ n ih =>
    intro w
    rw [pairsAt_succ]
    have := ih (Mem.write m (a + w) (BitVec.ofNat 8 v)) (v / 256) (w + 1)
    simpa [Mem.writeAll, Mem.writeBytes, bytesOfNat, Nat.add_assoc] using this

/-- Writing the pairs of a datum is writing its bytes. -/
theorem writeAll_pairsAt (m : Mem) (a n : Nat) (w : Word) :
    Mem.writeAll m (pairsAt a n w) = Mem.writeBytes m a (bytesOfNat n w.toNat) := writeAll_pairs m a w.toNat n 0

theorem Mem.read_writeBytes_in (m : Mem) (a j : Nat) (bs : List Byte) (h : j < bs.length) :
    Mem.read (Mem.writeBytes m a bs) (a + j) = bs[j] := by
  induction bs generalizing m a j with
  | nil => simp at h
  | cons b bs ih =>
    cases j with
    | zero =>
      simp only [Mem.writeBytes, Nat.add_zero, List.getElem_cons_zero]
      rw [Mem.read_writeBytes_below _ _ _ _ (by omega), Mem.read_write]
    | succ j =>
      have := ih (Mem.write m a b) (a + 1) j (by simpa using h)
      simpa [Mem.writeBytes, Nat.add_assoc, Nat.add_comm 1 j] using this

/-- Landing a datum of fewer bytes than a line has in the L1 arrays stores it there and changes nothing else. -/
theorem State.landScratch_stores (s : State) (b n : Nat) (w : Word) (hn : n < 128) :
    s.storesOwn (s.landScratch (pairsAt b n w)) b n w.toNat := by
  have hf : ∀ l, ¬∀ o < 128, ∃ q ∈ pairsAt b n w, q.1 = l * 128 + o := by
    intro l h
    have h0 := h 0 (by omega)
    have h1 := h 127 (by omega)
    simp only [pairsAt, List.mem_map, exists_exists_and_eq_and] at h0 h1
    obtain ⟨x, hx, ex⟩ := h0
    obtain ⟨y, hy, ey⟩ := h1
    have := (List.mem_zipIdx hx).2.1
    have := (List.mem_zipIdx hy).2.1
    rw [bytesOfNat_length] at *
    omega
  have e : (s.landScratch (pairsAt b n w)).scratchPoison = s.scratchPoison := by
    unfold State.landScratch
    simp only [List.filter_eq_self]
    intro l _
    simp only [← Bool.not_eq_true, List.contains_iff_mem, fullLines, List.mem_filter, List.all_eq_true, List.mem_range,
      List.any_eq_true, decide_eq_true_eq, Bool.not_eq_eq_eq_not, Bool.not_true]
    exact fun h => hf l h.2
  refine ⟨?_, fun j hj => ?_, fun a ha => ?_⟩
  · conv_lhs => rw [show s.landScratch (pairsAt b n w) = { s with
      scratch := (s.landScratch (pairsAt b n w)).scratch
      scratchPoison := (s.landScratch (pairsAt b n w)).scratchPoison } from rfl, e]
  · show Mem.read (Mem.writeAll s.scratch (pairsAt b n w)) _ = _
    rw [writeAll_pairsAt, Mem.read_writeBytes_in _ _ _ _ (by rw [bytesOfNat_length]; exact hj)]
    have := bytesOfNat_getElem n w.toNat j hj
    rw [List.getElem?_eq_getElem (by rw [bytesOfNat_length]; exact hj)] at this
    exact Option.some.inj this
  · show Mem.read (Mem.writeAll s.scratch (pairsAt b n w)) _ = _
    rw [writeAll_pairsAt, Mem.read_writeBytes_out _ _ _ _ (by rw [bytesOfNat_length]; exact ha)]

end Sys2Proof.Machine
end

