-- ==== Sys2Proof/Tests/Slice0.lean ====
section
/-! SUPPORT. Tests: words of the manual's encodings, ill-formed terms that `wf` refuses, values of the manual's worked
examples, and for every statement with hypotheses states and operands that meet them together, clause by clause. -/

namespace Sys2Proof.Tests

open Sys2Proof Sys2Proof.Machine

/-! ### States for the tests -/

/-- A thread of ASID 0 at 0x1000 whose X registers are set as listed. -/
def thread (x : List (Nat × Word)) : Ctx :=
  { Ctx.vacantOne with run := .running, pc := 0x1000, r := x.foldl (fun r e => r.setX e.1 e.2) (Regs.start 1) }

/-- The package after reset, with that thread in slot 0 of core 0. -/
def one (c : Ctx) : State := { State.reset with ctxs := [(0, c)] }

/-- With a translation of page 0x1000 (4 KiB) to itself, with all rights and the policy given. -/
def mapped (c : Ctx) (p : Policy) : State := { one c with clusters := [(0, ⟨[⟨c.asid, 1, 12, 1, true, true, true, p⟩], [], []⟩)] }

theorem fe_setX (r : Regs) (n : Nat) (w : Word) (h : ∀ q, r.fe q = .full) (q : RegRef) : (r.setX n w).fe q = .full := by
  unfold Regs.setX
  split
  · exact h q
  · cases q with
    | v m => exact h (.v m)
    | x m =>
      by_cases h0 : m = 0
      · simp [Regs.fe, h0]
      · have := h (.x m)
        simp only [Regs.fe, h0, if_false, vat, vput] at this ⊢
        rw [Vector.getElem_set]
        split
        · rfl
        · exact this

theorem fe_setV (r : Regs) (n : Nat) (v : Lanes) (h : ∀ q, r.fe q = .full) (q : RegRef) : (r.setV n v).fe q = .full := by
  cases q with
  | x m => exact h (.x m)
  | v m =>
    have := h (.v m)
    simp only [Regs.setV, Regs.fe, vat, vput] at this ⊢
    rw [Vector.getElem_set]
    split
    · rfl
    · exact this

theorem fe_setP (r : Regs) (n : Nat) (m : W32) (h : ∀ q, r.fe q = .full) (q : RegRef) : (r.setP n m).fe q = .full := by
  unfold Regs.setP
  split
  · exact h q
  · cases q with
    | x i => exact h (.x i)
    | v i => exact h (.v i)

theorem fe_start : ∀ q, (Regs.start 1).fe q = .full := by
  intro q
  cases q with
  | v m => simp [Regs.fe, Regs.start, vat]
  | x m => by_cases h0 : m = 0 <;> simp [Regs.fe, Regs.start, vat, h0]

/-- Every register of such a thread is full. -/
theorem fe_thread (x : List (Nat × Word)) : ∀ q, (thread x).r.fe q = .full := by
  have : ∀ (l : List (Nat × Word)) (r : Regs), (∀ q, r.fe q = .full) →
      ∀ q, (l.foldl (fun r e => r.setX e.1 e.2) r).fe q = .full := by
    intro l
    induction l with
    | nil => exact fun r h => h
    | cons e l ih => exact fun r h => ih _ (fe_setX r e.1 e.2 h)
  exact this x _ fe_start

theorem ready (s : State) (h : ∀ q, s.th.r.fe q = .full) (srcs dsts : List RegRef) : s.Ready srcs dsts :=
  ⟨fun q _ => h q, fun q _ => by rw [h q]; decide⟩

/-- It issues any unconditional instruction. -/
theorem issues (s : State) (h : ∀ q, s.th.r.fe q = .full) (srcs dsts : List RegRef) : s.Issues 0 0 srcs dsts :=
  ⟨by simp [State.mask, Ctx.getP, Regs.getP], ready s h srcs dsts⟩

theorem issuesLanes (s : State) (h : ∀ q, s.th.r.fe q = .full) (srcs dsts : List RegRef) : s.IssuesLanes 0 0 srcs dsts :=
  ⟨by simp [State.mask, Ctx.getP, Regs.getP], ready s h srcs dsts⟩

/-- The entry that `mapped` puts into the TLB. -/
def entry (p : Policy) : TlbEntry := ⟨0, 1, 12, 1, true, true, true, p⟩

/-- An address that reaches memory through its page, no line of the L1 hitting under it. -/
theorem by_page {s : State} {acc : Access} {size pa : Nat} {ea : Word} {pol : Policy} (e : TlbEntry) (ha : ea.toNat % size = 0)
    (hr : regionOf ea = .translated) (ht : s.tagHit s.myCore s.th.asid acc ea.toNat = none)
    (he : s.tlbHit (clusterOf s.myCore) s.th.asid ea.toNat = some e) (hg : e.grants acc = true) (hp : e.pa ea.toNat = pa)
    (hq : e.policy = pol) : s.mappedAt acc size ea pa pol := by
  refine ⟨ha, hr, ?_⟩
  rw [ht]
  exact ⟨e, he, hg, hp, hq⟩

/-- An address that reaches memory through a line of the L1 that hits under it. -/
theorem by_line {s : State} {acc : Access} {size pa : Nat} {ea : Word} (e : L1Line) (ha : ea.toNat % size = 0)
    (hr : regionOf ea = .translated) (ht : s.tagHit s.myCore s.th.asid acc ea.toNat = some e)
    (hp : e.line * 128 + ea.toNat % 128 = pa) : s.mappedAt acc size ea pa .cached := by
  refine ⟨ha, hr, ?_⟩
  rw [ht]
  exact ⟨hp, rfl⟩

/-- The tag of ASID 0 and a line that grants every right. -/
def tagged (line : Nat) : VTag := ⟨0, line, true, true, true⟩

/-! ### Decoding: words written out from the manual's encodings (R39, R40, R43) -/

/-- `add.i64 x5, x6, x7! unless p2` (the worked example of the encoding chapter). -/
theorem test_decode_add :
    decode 0x040145183C010000 = .instr (.add ⟨2, 1, 5, 6, 0, 7, 1, 0, 0, 0x10000⟩) := by decide

theorem wit_DecodeIsExact_DecodeEncode :
    decode 0x040145183C010000 = .instr (.add ⟨2, 1, 5, 6, 0, 7, 1, 0, 0, 0x10000⟩) ∧ (Instr.add ⟨2, 1, 5, 6, 0, 7, 1, 0, 0, 0x10000⟩).wf = true ∧
    (Instr.add ⟨2, 1, 5, 6, 0, 7, 1, 0, 0, 0x10000⟩).form.isSome = true := by decide

/-- An unassigned major and an unassigned function (R43, R44). -/
theorem test_decode_illegal : decode 0 = .illegalOp ∧ decode 0x0450000000000000 = .illegalOp := by decide

/-! ### Ill-formed terms: one for each check of `wf` -/

def r3 : R3 := ⟨0, 0, 1, 2, 0, 3, 0, 0, 0, 0⟩
def ri : RI := ⟨0, 0, 1, 2, 0, 0⟩
def fm : FM := ⟨0, 0, 1, 2, 0, 3, 0, 0, 0, 0, 0⟩
def fb : FB := ⟨0, 0, 0, 1, 0, 2, 0, 0, 0⟩
def fl : FL := ⟨0, 0, 1, 0⟩
def fq : FQ := ⟨0, 0, 2, 1, 0, 2, 0, 3, 0, 0, 0, 0⟩
def fs : FS := ⟨0, 0, 1, 0, 0⟩

/-- Terms that these change are well formed. -/
theorem smoke_wf_good :
    (Instr.add r3).wf = true ∧ (Instr.addi ri).wf = true ∧ (Instr.lda 3 fm).wf = true ∧ (Instr.br fb).wf = true ∧ (Instr.movi fl).wf = true ∧
    (Instr.cpy fq).wf = true ∧ (Instr.mfs fs).wf = true ∧ Instr.gtTick.wf = true := by
  decide

/-- A register number above 31; a register in a field that is not used, and its mode bit; a group of two, three or eight
registers that leaves its class or starts off a multiple of 8; a pair at X0 or with a mode bit; P8; F8; P0 with a mode bit. -/
theorem smoke_wf_registers :
    (Instr.add { r3 with d := 32 }).wf = false ∧ (Instr.add { r3 with c := 1 }).wf = false ∧ (Instr.add { r3 with cm := 1 }).wf = false ∧
    (Instr.vcmpt { r3 with d := 31, c := 4 }).wf = false ∧ (Instr.gbdamp { r3 with d := 30 }).wf = false ∧
    (Instr.gbadd { r3 with d := 4, b := 20 }).wf = false ∧ (Instr.vcmpt { r3 with c := 0 }).wf = false ∧
    (Instr.vcmpt { r3 with c := 31 }).wf = false ∧ (Instr.vcmpt { r3 with c := 4, cm := 1 }).wf = false ∧
    (Instr.pand { r3 with d := 8 }).wf = false ∧ (Instr.fadv { r3 with d := 8, b := 0 }).wf = false ∧ (Instr.pand { r3 with am := 1 }).wf = false ∧
    (Instr.ldv { fm with d := 32 }).wf = false ∧ (Instr.vperm { r3 with c := 1 }).wf = false := by
  decide

/-- The modifier of F-R3: a type that the instruction does not take, a reserved type, a rounding mode where nothing is
rounded, a reserved one, `.sat` and `.nsat` out of place and together, an undefined bit of the sub-field; undefined bits of
the other modifiers. -/
theorem smoke_wf_modifiers :
    (Instr.add { r3 with mod := 0x30000 }).wf = false ∧ (Instr.add { r3 with mod := 0x28000 }).wf = false ∧
    (Instr.add { r3 with mod := 0x800 }).wf = false ∧ (Instr.fadd { r3 with mod := 0x3000 }).wf = false ∧
    (Instr.and { r3 with mod := 0x400 }).wf = false ∧ (Instr.add { r3 with mod := 0x200 }).wf = false ∧
    (Instr.fcvt { r3 with b := 0, mod := 0x3C60C }).wf = false ∧ (Instr.add { r3 with mod := 1 }).wf = false ∧
    (Instr.fork { r3 with mod := 1 }).wf = false ∧ (Instr.launchCore r3).wf = false ∧ (Instr.yieldSwap { r3 with d := 0, a := 0, b := 0 }).wf = false ∧
    (Instr.cmp { r3 with mod := 6 }).wf = false ∧ (Instr.fcmp { r3 with mod := 6 }).wf = false ∧ (Instr.wid { r3 with mod := 6 }).wf = false := by
  decide

/-- A field that ends above bit 63; conversions between two integer types, of a type not in the list, with `.nsat` to FP32,
of a part that does not exist; part 1 of a vector of lanes; `.odd` of 16-bit lanes; reductions of no operation and of bits
of floats. -/
theorem smoke_wf_conversions :
    (Instr.extr { r3 with b := 0, mod := 0x7E080 }).wf = false ∧ (Instr.ins { r3 with mod := 0x40 }).wf = false ∧
    (Instr.fcvt { r3 with b := 0, mod := 0x04002 }).wf = false ∧ (Instr.fcvt { r3 with b := 0, mod := 0x30009 }).wf = false ∧
    (Instr.fcvt { r3 with b := 0, mod := 0x30201 }).wf = false ∧ (Instr.fcvt { r3 with b := 0, mod := 0x3001F }).wf = false ∧
    (Instr.vfcvt { r3 with b := 0, mod := 0x3018F }).wf = false ∧
    (Instr.vfcvt { r3 with b := 0, mod := 0x3002C }).wf = false ∧ (Instr.vqnt { r3 with b := 0, mod := 0x44004 }).wf = false ∧
    (Instr.vpack { r3 with mod := 0x08001 }).wf = false ∧ (Instr.vred { r3 with b := 0, mod := 6 }).wf = false ∧
    (Instr.vred { r3 with b := 0, mod := 0x30003 }).wf = false := by
  decide

/-- F-RI: undefined bits of the immediate, empty masks of ways, FE masks of X0, a mode bit of a missing operand; F-M:
reserved hints, a scale, hint, scope or offset that the instruction does not have, functions of no operation, an event mask
too narrow. -/
theorem smoke_wf_immediates_and_memory :
    (Instr.shlImm { ri with imm := 64 }).wf = false ∧ (Instr.spclaim { ri with a := 0 }).wf = false ∧
    (Instr.fewait { ri with d := 0, a := 0, imm := 1 }).wf = false ∧ (Instr.movhi { fl with imm := 0x1000000 }).wf = false ∧
    (Instr.txqClr { ri with a := 0 }).wf = false ∧ (Instr.qr { ri with a := 0, imm := 12 }).wf = false ∧
    (Instr.qr { ri with a := 0, imm := 2 }).wf = false ∧ (Instr.qr { ri with a := 0, imm := 5 }).wf = false ∧
    (Instr.lda 3 { fm with hint := 5 }).wf = false ∧ (Instr.st 3 { fm with d := 0, scale := 1 }).wf = false ∧
    (Instr.retain { fm with hint := 1 }).wf = false ∧ (Instr.ldv { fm with scope := 1 }).wf = false ∧
    (Instr.fenceAcq { fm with d := 0, base := 0, idx := 0, off := 1 }).wf = false ∧ (Instr.lea { fm with hint := 1 }).wf = false ∧
    (Instr.amo 10 fm).wf = false ∧ (Instr.amov 8 fm).wf = false ∧ (Instr.red 17 { fm with d := 0 }).wf = false ∧
    (Instr.waitev { fm with scale := 1 }).wf = false ∧ (Instr.txred { fm with d := 9 }).wf = false := by
  decide

/-- F-B: a condition that does not exist, an offset of RET, `txb` of no kind; F-Q: another queue, undefined bits, a guard
number without a guard, a kind or format that does not exist; F-S: reserved bits, a code or register that does not exist; a
predicate where none may stand; registers that overlap. -/
theorem smoke_wf_branches_queues_system :
    (Instr.br { fb with cond := 6 }).wf = false ∧ (Instr.brp { fb with b := 0, cond := 4 }).wf = false ∧
    (Instr.ret { fb with b := 0, off := 1 }).wf = false ∧ (Instr.txb { fb with a := 0, b := 0, cond := 2 }).wf = false ∧
    (Instr.cpy { fq with q := 4 }).wf = false ∧ (Instr.cpy { fq with cmd := 4 }).wf = false ∧ (Instr.cpy { fq with guard := 1 }).wf = false ∧
    (Instr.qw { fq with b := 0, c := 0, q := 3 }).wf = false ∧ (Instr.qw { fq with b := 0, c := 0, q := 12 }).wf = false ∧
    (Instr.gath { fq with q := 4, cmd := 0x600 }).wf = false ∧ (Instr.gathSel { fq with q := 4 }).wf = false ∧
    (Instr.mloadw { fq with q := 0, b := 0, c := 0, cmd := 2 }).wf = false ∧ (Instr.mring { fq with q := 0, a := 0, b := 0, c := 0, cmd := 6 }).wf = false ∧
    (Instr.kackOpen { fq with c := 0 }).wf = false ∧ (Instr.mdrain { fq with q := 0, b := 0, cmd := 0x700 }).wf = false ∧
    (Instr.mfs { fs with rsv := 1 }).wf = false ∧ (Instr.mfs { fs with code := 12 }).wf = false ∧ (Instr.mts { fs with code := 2 }).wf = false ∧
    (Instr.mfs { fs with sel := 1 }).wf = false ∧ (Instr.tilerel { ri with neg := 1 }).wf = false ∧ (Instr.rdev { fs with code := 0x12 }).wf = false ∧
    (Instr.gbadd { r3 with d := 8, a := 9, b := 20 }).wf = false ∧ (Instr.gbpost { r3 with d := 5, b := 5, c := 6 }).wf = false ∧
    (Instr.gbtake { r3 with a := 5, b := 6, c := 4 }).wf = false := by
  decide

/-- Major 0x01: one word of every instruction (R39, R40, R43). -/
theorem test_decode_major_01 :
    decode 0x0400051838000000 = .instr (.add ⟨0, 0, 5, 6, 0, 7, 0, 0, 0, 0x0⟩) ∧
    decode 0x0404051838000000 = .instr (.sub ⟨0, 0, 5, 6, 0, 7, 0, 0, 0, 0x0⟩) ∧
    decode 0x0408051838000000 = .instr (.mul ⟨0, 0, 5, 6, 0, 7, 0, 0, 0, 0x0⟩) ∧
    decode 0x040C051838000000 = .instr (.mulh ⟨0, 0, 5, 6, 0, 7, 0, 0, 0, 0x0⟩) ∧
    decode 0x0410051838000000 = .instr (.div ⟨0, 0, 5, 6, 0, 7, 0, 0, 0, 0x0⟩) ∧
    decode 0x0414051838000000 = .instr (.rem ⟨0, 0, 5, 6, 0, 7, 0, 0, 0, 0x0⟩) ∧
    decode 0x0418051838000000 = .instr (.and ⟨0, 0, 5, 6, 0, 7, 0, 0, 0, 0x0⟩) ∧
    decode 0x041C051838000000 = .instr (.or ⟨0, 0, 5, 6, 0, 7, 0, 0, 0, 0x0⟩) ∧
    decode 0x0420051838000000 = .instr (.xor ⟨0, 0, 5, 6, 0, 7, 0, 0, 0, 0x0⟩) ∧
    decode 0x0424051838000000 = .instr (.andn ⟨0, 0, 5, 6, 0, 7, 0, 0, 0, 0x0⟩) ∧
    decode 0x0428051838000000 = .instr (.shl ⟨0, 0, 5, 6, 0, 7, 0, 0, 0, 0x0⟩) ∧
    decode 0x042C051838000000 = .instr (.shr ⟨0, 0, 5, 6, 0, 7, 0, 0, 0, 0x0⟩) ∧
    decode 0x0430051838000000 = .instr (.sra ⟨0, 0, 5, 6, 0, 7, 0, 0, 0, 0x0⟩) ∧
    decode 0x0434051838000000 = .instr (.rot ⟨0, 0, 5, 6, 0, 7, 0, 0, 0, 0x0⟩) ∧
    decode 0x0438051800000000 = .instr (.clz ⟨0, 0, 5, 6, 0, 0, 0, 0, 0, 0x0⟩) ∧
    decode 0x043C051800000000 = .instr (.popc ⟨0, 0, 5, 6, 0, 0, 0, 0, 0, 0x0⟩) ∧
    decode 0x0440051838000000 = .instr (.min ⟨0, 0, 5, 6, 0, 7, 0, 0, 0, 0x0⟩) ∧
    decode 0x0444051838000000 = .instr (.max ⟨0, 0, 5, 6, 0, 7, 0, 0, 0, 0x0⟩) ∧
    decode 0x0448051838800000 = .instr (.sel ⟨0, 0, 5, 6, 0, 7, 0, 8, 0, 0x0⟩) ∧
    decode 0x044C051838000002 = .instr (.cmp ⟨0, 0, 5, 6, 0, 7, 0, 0, 0, 0x2⟩) := by
  refine ⟨?_, ?_, ?_, ?_, ?_, ?_, ?_, ?_, ?_, ?_, ?_, ?_, ?_, ?_, ?_, ?_, ?_, ?_, ?_, ?_⟩ <;> decide

/-- Major 0x02: one word of every instruction (R39, R40, R43). -/
theorem test_decode_major_02 :
    decode 0x08000519FFFFFFE8 = .instr (.addi ⟨0, 0, 5, 6, 0, 0x1FFFFFFE8⟩) ∧
    decode 0x08180519FFFFFFE8 = .instr (.andImm ⟨0, 0, 5, 6, 0, 0x1FFFFFFE8⟩) ∧
    decode 0x081C0519FFFFFFE8 = .instr (.orImm ⟨0, 0, 5, 6, 0, 0x1FFFFFFE8⟩) ∧
    decode 0x08200519FFFFFFE8 = .instr (.xorImm ⟨0, 0, 5, 6, 0, 0x1FFFFFFE8⟩) ∧
    decode 0x082805180000000D = .instr (.shlImm ⟨0, 0, 5, 6, 0, 0xD⟩) ∧
    decode 0x082C05180000000D = .instr (.shrImm ⟨0, 0, 5, 6, 0, 0xD⟩) ∧
    decode 0x083005180000000D = .instr (.sraImm ⟨0, 0, 5, 6, 0, 0xD⟩) ∧
    decode 0x083405180000000D = .instr (.rotImm ⟨0, 0, 5, 6, 0, 0xD⟩) := by
  refine ⟨?_, ?_, ?_, ?_, ?_, ?_, ?_, ?_⟩ <;> decide

/-- Major 0x03: one word of every instruction (R39, R40, R43). -/
theorem test_decode_major_03 :
    decode 0x0C00051838000010 = .instr (.lea ⟨0, 0, 5, 6, 0, 7, 0, 0, 0, 0, 16⟩) ∧
    decode 0x0C04051800000000 = .instr (.extr ⟨0, 0, 5, 6, 0, 0, 0, 0, 0, 0x0⟩) ∧
    decode 0x0C08051838000000 = .instr (.ins ⟨0, 0, 5, 6, 0, 7, 0, 0, 0, 0x0⟩) := by
  refine ⟨?_, ?_, ?_⟩ <;> decide

/-- Major 0x04: one word of every instruction (R39, R40, R43). -/
theorem test_decode_major_04 :
    decode 0x1000051838000000 = .instr (.fadd ⟨0, 0, 5, 6, 0, 7, 0, 0, 0, 0x0⟩) ∧
    decode 0x1004051838000000 = .instr (.fsub ⟨0, 0, 5, 6, 0, 7, 0, 0, 0, 0x0⟩) ∧
    decode 0x1008051838000000 = .instr (.fmul ⟨0, 0, 5, 6, 0, 7, 0, 0, 0, 0x0⟩) ∧
    decode 0x100C051838800000 = .instr (.ffma ⟨0, 0, 5, 6, 0, 7, 0, 8, 0, 0x0⟩) ∧
    decode 0x1010051838000000 = .instr (.fdiv ⟨0, 0, 5, 6, 0, 7, 0, 0, 0, 0x0⟩) ∧
    decode 0x1014051800000000 = .instr (.fsqrt ⟨0, 0, 5, 6, 0, 0, 0, 0, 0, 0x0⟩) ∧
    decode 0x1018051838000000 = .instr (.fmin ⟨0, 0, 5, 6, 0, 7, 0, 0, 0, 0x0⟩) ∧
    decode 0x101C051838000000 = .instr (.fmax ⟨0, 0, 5, 6, 0, 7, 0, 0, 0, 0x0⟩) ∧
    decode 0x1020051838000000 = .instr (.fcmp ⟨0, 0, 5, 6, 0, 7, 0, 0, 0, 0x0⟩) ∧
    decode 0x102405180001000C = .instr (.fcvt ⟨0, 0, 5, 6, 0, 0, 0, 0, 0, 0x1000C⟩) ∧
    decode 0x1028051800000000 = .instr (.fclass ⟨0, 0, 5, 6, 0, 0, 0, 0, 0, 0x0⟩) := by
  refine ⟨?_, ?_, ?_, ?_, ?_, ?_, ?_, ?_, ?_, ?_, ?_⟩ <;> decide

/-- Major 0x05: one word of every instruction (R39, R40, R43). -/
theorem test_decode_major_05 :
    decode 0x1400001838BFFFFB = .instr (.br ⟨0, 0, 0, 6, 0, 7, 0, 2, 0x3FFFFB⟩) ∧
    decode 0x1404000C007FFFFB = .instr (.brp ⟨0, 0, 0, 3, 0, 0, 0, 1, 0x3FFFFB⟩) := by
  refine ⟨?_, ?_⟩ <;> decide

/-- Major 0x06: one word of every instruction (R39, R40, R43). -/
theorem test_decode_major_06 :
    decode 0x18000000003FFFFB = .instr (.jmp ⟨0, 0, 0, 0, 0, 0, 0, 0, 0x3FFFFB⟩) ∧
    decode 0x18040500003FFFFB = .instr (.call ⟨0, 0, 5, 0, 0, 0, 0, 0, 0x3FFFFB⟩) ∧
    decode 0x1808001800000000 = .instr (.ret ⟨0, 0, 0, 6, 0, 0, 0, 0, 0x0⟩) ∧
    decode 0x180C0519FFFFFFE8 = .instr (.brx ⟨0, 0, 5, 6, 0, 0x1FFFFFFE8⟩) := by
  refine ⟨?_, ?_, ?_, ?_⟩ <;> decide

/-- Major 0x07: one word of every instruction (R39, R40, R43). -/
theorem test_decode_major_07 :
    decode 0x1C00050000123456 = .instr (.movi ⟨0, 0, 5, 0x123456⟩) ∧
    decode 0x1C04050000123456 = .instr (.movhi ⟨0, 0, 5, 0x123456⟩) := by
  refine ⟨?_, ?_⟩ <;> decide

/-- Major 0x08: one word of every instruction (R39, R40, R43). -/
theorem test_decode_major_08 :
    decode 0x2000092C68000000 = .instr (.vadd ⟨0, 0, 9, 11, 0, 13, 0, 0, 0, 0x0⟩) ∧
    decode 0x2004092C68000000 = .instr (.vsub ⟨0, 0, 9, 11, 0, 13, 0, 0, 0, 0x0⟩) ∧
    decode 0x2008092C68000000 = .instr (.vmul ⟨0, 0, 9, 11, 0, 13, 0, 0, 0, 0x0⟩) ∧
    decode 0x200C092C68000000 = .instr (.vmulh ⟨0, 0, 9, 11, 0, 13, 0, 0, 0, 0x0⟩) ∧
    decode 0x2010092C68F00000 = .instr (.vmad ⟨0, 0, 9, 11, 0, 13, 0, 15, 0, 0x0⟩) ∧
    decode 0x2014092C68000000 = .instr (.vmin ⟨0, 0, 9, 11, 0, 13, 0, 0, 0, 0x0⟩) ∧
    decode 0x2018092C68000000 = .instr (.vmax ⟨0, 0, 9, 11, 0, 13, 0, 0, 0, 0x0⟩) ∧
    decode 0x201C092C00000000 = .instr (.vabs ⟨0, 0, 9, 11, 0, 0, 0, 0, 0, 0x0⟩) ∧
    decode 0x2020092C68000000 = .instr (.vand ⟨0, 0, 9, 11, 0, 13, 0, 0, 0, 0x0⟩) ∧
    decode 0x2024092C68000000 = .instr (.vor ⟨0, 0, 9, 11, 0, 13, 0, 0, 0, 0x0⟩) ∧
    decode 0x2028092C68000000 = .instr (.vxor ⟨0, 0, 9, 11, 0, 13, 0, 0, 0, 0x0⟩) ∧
    decode 0x202C092C68000000 = .instr (.vandn ⟨0, 0, 9, 11, 0, 13, 0, 0, 0, 0x0⟩) ∧
    decode 0x2030092C68000000 = .instr (.vshl ⟨0, 0, 9, 11, 0, 13, 0, 0, 0, 0x0⟩) ∧
    decode 0x2034092C68000000 = .instr (.vshr ⟨0, 0, 9, 11, 0, 13, 0, 0, 0, 0x0⟩) ∧
    decode 0x2038092C68000000 = .instr (.vsra ⟨0, 0, 9, 11, 0, 13, 0, 0, 0, 0x0⟩) ∧
    decode 0x203C022C68000000 = .instr (.vcmp ⟨0, 0, 2, 11, 0, 13, 0, 0, 0, 0x0⟩) := by
  refine ⟨?_, ?_, ?_, ?_, ?_, ?_, ?_, ?_, ?_, ?_, ?_, ?_, ?_, ?_, ?_, ?_⟩ <;> decide

/-- Major 0x09: one word of every instruction (R39, R40, R43). -/
theorem test_decode_major_09 :
    decode 0x2400092C68000000 = .instr (.vfadd ⟨0, 0, 9, 11, 0, 13, 0, 0, 0, 0x0⟩) ∧
    decode 0x2404092C68000000 = .instr (.vfsub ⟨0, 0, 9, 11, 0, 13, 0, 0, 0, 0x0⟩) ∧
    decode 0x2408092C68000000 = .instr (.vfmul ⟨0, 0, 9, 11, 0, 13, 0, 0, 0, 0x0⟩) ∧
    decode 0x240C092C68F00000 = .instr (.vffma ⟨0, 0, 9, 11, 0, 13, 0, 15, 0, 0x0⟩) ∧
    decode 0x2410092C68000000 = .instr (.vfdiv ⟨0, 0, 9, 11, 0, 13, 0, 0, 0, 0x0⟩) ∧
    decode 0x2414092C00000000 = .instr (.vfsqrt ⟨0, 0, 9, 11, 0, 0, 0, 0, 0, 0x0⟩) ∧
    decode 0x2418092C00000000 = .instr (.vfrsq ⟨0, 0, 9, 11, 0, 0, 0, 0, 0, 0x0⟩) ∧
    decode 0x241C092C68000000 = .instr (.vfmin ⟨0, 0, 9, 11, 0, 13, 0, 0, 0, 0x0⟩) ∧
    decode 0x2420092C68000000 = .instr (.vfmax ⟨0, 0, 9, 11, 0, 13, 0, 0, 0, 0x0⟩) ∧
    decode 0x2424022C68000000 = .instr (.vfcmp ⟨0, 0, 2, 11, 0, 13, 0, 0, 0, 0x0⟩) ∧
    decode 0x2428092C00000000 = .instr (.vfexp2 ⟨0, 0, 9, 11, 0, 0, 0, 0, 0, 0x0⟩) ∧
    decode 0x242C092C68000000 = .instr (.vftbl ⟨0, 0, 9, 11, 0, 13, 0, 0, 0, 0x0⟩) := by
  refine ⟨?_, ?_, ?_, ?_, ?_, ?_, ?_, ?_, ?_, ?_, ?_, ?_⟩ <;> decide

/-- Major 0x0A: one word of every instruction (R39, R40, R43). -/
theorem test_decode_major_0A :
    decode 0x2800092C0000C00C = .instr (.vfcvt ⟨0, 0, 9, 11, 0, 0, 0, 0, 0, 0xC00C⟩) ∧
    decode 0x2804142C00044000 = .instr (.vqnt ⟨0, 0, 20, 11, 0, 0, 0, 0, 0, 0x44000⟩) ∧
    decode 0x2808092C38044000 = .instr (.vdqnt ⟨0, 0, 9, 11, 0, 7, 0, 0, 0, 0x44000⟩) ∧
    decode 0x280C092C68008000 = .instr (.vpack ⟨0, 0, 9, 11, 0, 13, 0, 0, 0, 0x8000⟩) := by
  refine ⟨?_, ?_, ?_, ?_⟩ <;> decide

/-- Major 0x0B: one word of every instruction (R39, R40, R43). -/
theorem test_decode_major_0B :
    decode 0x2C00091800000000 = .instr (.vbcast ⟨0, 0, 9, 6, 0, 0, 0, 0, 0, 0x0⟩) ∧
    decode 0x2C04092C68000000 = .instr (.vperm ⟨0, 0, 9, 11, 0, 13, 0, 0, 0, 0x0⟩) ∧
    decode 0x2C08092C38000000 = .instr (.vrot ⟨0, 0, 9, 11, 0, 7, 0, 0, 0, 0x0⟩) ∧
    decode 0x2C0C092C00000000 = .instr (.vexpand ⟨0, 0, 9, 11, 0, 0, 0, 0, 0, 0x0⟩) ∧
    decode 0x2C10052C00000000 = .instr (.vred ⟨0, 0, 5, 11, 0, 0, 0, 0, 0, 0x0⟩) ∧
    decode 0x2C14092C00000000 = .instr (.vscan ⟨0, 0, 9, 11, 0, 0, 0, 0, 0, 0x0⟩) ∧
    decode 0x2C18052C38000000 = .instr (.vmovx ⟨0, 0, 5, 11, 0, 7, 0, 0, 0, 0x0⟩) ∧
    decode 0x2C1C091838000000 = .instr (.vins ⟨0, 0, 9, 6, 0, 7, 0, 0, 0, 0x0⟩) ∧
    decode 0x2C40142C39B00000 = .instr (.vcmpt ⟨0, 0, 20, 11, 0, 7, 0, 27, 0, 0x0⟩) ∧
    decode 0x2C44142C00000000 = .instr (.vtopk ⟨0, 0, 20, 11, 0, 0, 0, 0, 0, 0x0⟩) ∧
    decode 0x2C48142C00000000 = .instr (.vsort ⟨0, 0, 20, 11, 0, 0, 0, 0, 0, 0x0⟩) := by
  refine ⟨?_, ?_, ?_, ?_, ?_, ?_, ?_, ?_, ?_, ?_, ?_⟩ <;> decide

/-- Major 0x0C: one word of every instruction (R39, R40, R43). -/
theorem test_decode_major_0C :
    decode 0x3000021800000000 = .instr (.pset ⟨0, 0, 2, 6, 0, 0, 0, 0, 0, 0x0⟩) ∧
    decode 0x3004020C20000000 = .instr (.pand ⟨0, 0, 2, 3, 0, 4, 0, 0, 0, 0x0⟩) ∧
    decode 0x3008020C20000000 = .instr (.por ⟨0, 0, 2, 3, 0, 4, 0, 0, 0, 0x0⟩) ∧
    decode 0x300C020C20000000 = .instr (.pxor ⟨0, 0, 2, 3, 0, 4, 0, 0, 0, 0x0⟩) ∧
    decode 0x3010020C20000000 = .instr (.pandn ⟨0, 0, 2, 3, 0, 4, 0, 0, 0, 0x0⟩) ∧
    decode 0x3014050C00000000 = .instr (.pcnt ⟨0, 0, 5, 3, 0, 0, 0, 0, 0, 0x0⟩) ∧
    decode 0x3018050C00000000 = .instr (.pffs ⟨0, 0, 5, 3, 0, 0, 0, 0, 0, 0x0⟩) := by
  refine ⟨?_, ?_, ?_, ?_, ?_, ?_, ?_⟩ <;> decide

/-- Major 0x10: one word of every instruction (R39, R40, R43). -/
theorem test_decode_major_10 :
    decode 0x400C051838000010 = .instr (.ld 0x3 ⟨0, 0, 5, 6, 0, 7, 0, 0, 0, 0, 16⟩) ∧
    decode 0x401C051838000010 = .instr (.lda 0x1 ⟨0, 0, 5, 6, 0, 7, 0, 0, 0, 0, 16⟩) := by
  refine ⟨?_, ?_⟩ <;> decide

/-- Major 0x11: one word of every instruction (R39, R40, R43). -/
theorem test_decode_major_11 :
    decode 0x440C001838000010 = .instr (.st 0x3 ⟨0, 0, 0, 6, 0, 7, 0, 0, 0, 0, 16⟩) ∧
    decode 0x441C001838000010 = .instr (.stl 0x1 ⟨0, 0, 0, 6, 0, 7, 0, 0, 0, 0, 16⟩) := by
  refine ⟨?_, ?_⟩ <;> decide

/-- Major 0x12: one word of every instruction (R39, R40, R43). -/
theorem test_decode_major_12 :
    decode 0x4800091838000010 = .instr (.ldv ⟨0, 0, 9, 6, 0, 7, 0, 0, 0, 0, 16⟩) ∧
    decode 0x4804001868000010 = .instr (.stv ⟨0, 0, 0, 6, 0, 13, 0, 0, 0, 0, 16⟩) ∧
    decode 0x4808091838000010 = .instr (.ldvs ⟨0, 0, 9, 6, 0, 7, 0, 0, 0, 0, 16⟩) ∧
    decode 0x480C091838000010 = .instr (.stvs ⟨0, 0, 9, 6, 0, 7, 0, 0, 0, 0, 16⟩) ∧
    decode 0x4810091868000010 = .instr (.ldvx ⟨0, 0, 9, 6, 0, 13, 0, 0, 0, 0, 16⟩) ∧
    decode 0x4814091868000010 = .instr (.stvx ⟨0, 0, 9, 6, 0, 13, 0, 0, 0, 0, 16⟩) := by
  refine ⟨?_, ?_, ?_, ?_, ?_, ?_⟩ <;> decide

/-- Major 0x13: one word of every instruction (R39, R40, R43). -/
theorem test_decode_major_13 :
    decode 0x4DE4051838000010 = .instr (.amo 0x79 ⟨0, 0, 5, 6, 0, 7, 0, 0, 0, 0, 16⟩) ∧
    decode 0x4E4C091868000010 = .instr (.amov 0x13 ⟨0, 0, 9, 6, 0, 13, 0, 0, 0, 0, 16⟩) ∧
    decode 0x4F88001838000010 = .instr (.red 0x22 ⟨0, 0, 0, 6, 0, 7, 0, 0, 0, 0, 16⟩) := by
  refine ⟨?_, ?_, ?_⟩ <;> decide

/-- Major 0x14: one word of every instruction (R39, R40, R43). -/
theorem test_decode_major_14 :
    decode 0x5000000000000000 = .instr (.fenceAcq ⟨0, 0, 0, 0, 0, 0, 0, 0, 0, 0, 0⟩) ∧
    decode 0x5004000000000000 = .instr (.fenceRel ⟨0, 0, 0, 0, 0, 0, 0, 0, 0, 0, 0⟩) ∧
    decode 0x5008000000000000 = .instr (.fenceFull ⟨0, 0, 0, 0, 0, 0, 0, 0, 0, 0, 0⟩) ∧
    decode 0x5010000000000000 = .instr (.icsync ⟨0, 0, 0, 0, 0, 0, 0, 0, 0, 0, 0⟩) ∧
    decode 0x501405183A000010 = .instr (.waitev ⟨0, 0, 5, 6, 0, 7, 0, 2, 0, 0, 16⟩) ∧
    decode 0x5020001838000010 = .instr (.pref ⟨0, 0, 0, 6, 0, 7, 0, 0, 0, 0, 16⟩) ∧
    decode 0x5030050000000003 = .instr (.spclaim ⟨0, 0, 5, 0, 0, 0x3⟩) ∧
    decode 0x5034050000000001 = .instr (.sprel ⟨0, 0, 5, 0, 0, 0x1⟩) ∧
    decode 0x5040051838000010 = .instr (.retain ⟨0, 0, 5, 6, 0, 7, 0, 0, 0, 0, 16⟩) ∧
    decode 0x5044051800000010 = .instr (.unpin ⟨0, 0, 5, 6, 0, 0, 0, 0, 0, 0, 16⟩) := by
  refine ⟨?_, ?_, ?_, ?_, ?_, ?_, ?_, ?_, ?_, ?_⟩ <;> decide

/-- Major 0x15: one word of every instruction (R39, R40, R43). -/
theorem test_decode_major_15 :
    decode 0x5400000180000000 = .instr (.fewait ⟨0, 0, 0, 0, 0, 0x180000000⟩) ∧
    decode 0x5404000180000000 = .instr (.feset ⟨0, 0, 0, 0, 0, 0x180000000⟩) ∧
    decode 0x5408000180000000 = .instr (.feclr ⟨0, 0, 0, 0, 0, 0x180000000⟩) := by
  refine ⟨?_, ?_, ?_⟩ <;> decide

/-- Major 0x18: one word of every instruction (R39, R40, R43). -/
theorem test_decode_major_18 :
    decode 0x6000051800000010 = .instr (.tiledef ⟨0, 0, 5, 6, 0, 0, 0, 0, 0, 0, 16⟩) ∧
    decode 0x6004051800000000 = .instr (.tilerel ⟨0, 0, 5, 6, 0, 0x0⟩) ∧
    decode 0x60080000007FFFFB = .instr (.txb ⟨0, 0, 0, 0, 0, 0, 0, 1, 0x3FFFFB⟩) ∧
    decode 0x600C000000000000 = .instr (.txe ⟨0, 0, 0, 0, 0, 0x0⟩) ∧
    decode 0x601000000000005A = .instr (.txa ⟨0, 0, 0, 0, 0, 0x5A⟩) ∧
    decode 0x6014050000000000 = .instr (.txq ⟨0, 0, 5, 0, 0, 0x0⟩) ∧
    decode 0x6014050000000001 = .instr (.txqClr ⟨0, 0, 5, 0, 0, 0x1⟩) ∧
    decode 0x6018041838000010 = .instr (.txred ⟨0, 0, 4, 6, 0, 7, 0, 0, 0, 0, 16⟩) := by
  refine ⟨?_, ?_, ?_, ?_, ?_, ?_, ?_, ?_⟩ <;> decide

/-- Major 0x1C: one word of every instruction (R39, R40, R43). -/
theorem test_decode_major_1C :
    decode 0x7000021800000000 = .instr (.qw ⟨0, 0, 2, 6, 0, 0, 0, 0, 0, 0, 0, 0x0⟩) ∧
    decode 0x7004050000000001 = .instr (.qr ⟨0, 0, 5, 0, 0, 0x1⟩) ∧
    decode 0x7008050000000000 = .instr (.qstat ⟨0, 0, 5, 0, 0, 0x0⟩) ∧
    decode 0x7010001800000000 = .instr (.gset ⟨0, 0, 0, 6, 0, 0x0⟩) ∧
    decode 0x7014000000000000 = .instr (.gclr ⟨0, 0, 0, 0, 0, 0x0⟩) ∧
    decode 0x7018050000000000 = .instr (.gq ⟨0, 0, 5, 0, 0, 0x0⟩) := by
  refine ⟨?_, ?_, ?_, ?_, ?_, ?_⟩ <;> decide

/-- Major 0x1D: one word of every instruction (R39, R40, R43). -/
theorem test_decode_major_1D :
    decode 0x7400021838800000 = .instr (.cpy ⟨0, 0, 2, 6, 0, 7, 0, 8, 0, 0, 0, 0x0⟩) ∧
    decode 0x7404021838800000 = .instr (.cpy2d ⟨0, 0, 2, 6, 0, 7, 0, 8, 0, 0, 0, 0x0⟩) ∧
    decode 0x7408021838800000 = .instr (.scat ⟨0, 0, 2, 6, 0, 7, 0, 8, 0, 0, 0, 0x0⟩) ∧
    decode 0x740C021838800000 = .instr (.kick ⟨0, 0, 2, 6, 0, 7, 0, 8, 0, 0, 0, 0x0⟩) ∧
    decode 0x7410021800000000 = .instr (.kack ⟨0, 0, 2, 6, 0, 0, 0, 0, 0, 0, 0, 0x0⟩) ∧
    decode 0x7410021838000400 = .instr (.kackOpen ⟨0, 0, 2, 6, 0, 7, 0, 0, 0, 0, 0, 0x400⟩) ∧
    decode 0x7410020000000800 = .instr (.kackClose ⟨0, 0, 2, 0, 0, 0, 0, 0, 0, 0, 0, 0x800⟩) ∧
    decode 0x7420041838800000 = .instr (.gath ⟨0, 0, 4, 6, 0, 7, 0, 8, 0, 0, 0, 0x0⟩) ∧
    decode 0x7420041838800800 = .instr (.gathSel ⟨0, 0, 4, 6, 0, 7, 0, 8, 0, 0, 0, 0x800⟩) ∧
    decode 0x7424061800000000 = .instr (.merge ⟨0, 0, 6, 6, 0, 0, 0, 0, 0, 0, 0, 0x0⟩) ∧
    decode 0x7440000000000000 = .instr (.mclaim ⟨0, 0, 0, 0, 0, 0, 0, 0, 0, 0, 0, 0x0⟩) ∧
    decode 0x7440000000000001 = .instr (.mclaimTry ⟨0, 0, 0, 0, 0, 0, 0, 0, 0, 0, 0, 0x1⟩) ∧
    decode 0x7440000000000002 = .instr (.mclaimRel ⟨0, 0, 0, 0, 0, 0, 0, 0, 0, 0, 0, 0x2⟩) ∧
    decode 0x744400180000000C = .instr (.mloadw ⟨0, 0, 0, 6, 0, 0, 0, 0, 0, 0, 0, 0xC⟩) ∧
    decode 0x7448001838800000 = .instr (.mloadt ⟨0, 0, 0, 6, 0, 7, 0, 8, 0, 0, 0, 0x0⟩) ∧
    decode 0x7448001800000001 = .instr (.mloadtBias ⟨0, 0, 0, 6, 0, 0, 0, 0, 0, 0, 0, 0x1⟩) ∧
    decode 0x744C001838000300 = .instr (.mstream ⟨0, 0, 0, 6, 0, 7, 0, 0, 0, 0, 0, 0x300⟩) ∧
    decode 0x744C001838801300 = .instr (.mstreamRing ⟨0, 0, 0, 6, 0, 7, 0, 8, 0, 0, 0, 0x1300⟩) ∧
    decode 0x7450001800800000 = .instr (.mdrain ⟨0, 0, 0, 6, 0, 0, 0, 8, 0, 0, 0, 0x0⟩) ∧
    decode 0x7454000000000003 = .instr (.mring ⟨0, 0, 0, 0, 0, 0, 0, 0, 0, 0, 0, 0x3⟩) ∧
    decode 0x7460081838000000 = .instr (.nsend ⟨0, 0, 8, 6, 0, 7, 0, 0, 0, 0, 0, 0x0⟩) ∧
    decode 0x7464081838800000 = .instr (.nwrite ⟨0, 0, 8, 6, 0, 7, 0, 8, 0, 0, 0, 0x0⟩) ∧
    decode 0x7468081838000000 = .instr (.npost ⟨0, 0, 8, 6, 0, 7, 0, 0, 0, 0, 0, 0x0⟩) ∧
    decode 0x746C080000000000 = .instr (.ncqFence ⟨0, 0, 8, 0, 0, 0, 0, 0, 0, 0, 0, 0x0⟩) ∧
    decode 0x746C080038000400 = .instr (.ncqUnpost ⟨0, 0, 8, 0, 0, 7, 0, 0, 0, 0, 0, 0x400⟩) := by
  refine ⟨?_, ?_, ?_, ?_, ?_, ?_, ?_, ?_, ?_, ?_, ?_, ?_, ?_, ?_, ?_, ?_, ?_, ?_, ?_, ?_, ?_, ?_, ?_, ?_, ?_⟩ <;> decide

/-- Major 0x20: one word of every instruction (R39, R40, R43). -/
theorem test_decode_major_20 :
    decode 0x8000061838800000 = .instr (.fopen ⟨0, 0, 6, 6, 0, 7, 0, 8, 0, 0x0⟩) ∧
    decode 0x8004061800000000 = .instr (.fadv ⟨0, 0, 6, 6, 0, 0, 0, 0, 0, 0x0⟩) ∧
    decode 0x8004061800000001 = .instr (.fadvTo ⟨0, 0, 6, 6, 0, 0, 0, 0, 0, 0x1⟩) ∧
    decode 0x8008020400000000 = .instr (.ftend ⟨0, 0, 2, 1, 0, 0, 0, 0, 0, 0x0⟩) ∧
    decode 0x800C060000000000 = .instr (.fclose ⟨0, 0, 6, 0, 0, 0, 0, 0, 0, 0x0⟩) ∧
    decode 0x8010050400000000 = .instr (.fldc ⟨0, 0, 5, 1, 0, 0, 0, 0, 0, 0x0⟩) ∧
    decode 0x8014050400000000 = .instr (.fldv ⟨0, 0, 5, 1, 0, 0, 0, 0, 0, 0x0⟩) := by
  refine ⟨?_, ?_, ?_, ?_, ?_, ?_, ?_⟩ <;> decide

/-- Major 0x24: one word of every instruction (R39, R40, R43). -/
theorem test_decode_major_24 :
    decode 0x9000051838000000 = .instr (.launchQ ⟨0, 0, 5, 6, 0, 7, 0, 0, 0, 0x0⟩) ∧
    decode 0x9000051838000001 = .instr (.launchCore ⟨0, 0, 5, 6, 0, 7, 0, 0, 0, 0x1⟩) ∧
    decode 0x9004051838800000 = .instr (.fork ⟨0, 0, 5, 6, 0, 7, 0, 8, 0, 0x0⟩) ∧
    decode 0x9008001800000000 = .instr (.join ⟨0, 0, 0, 6, 0, 0, 0, 0, 0, 0x0⟩) ∧
    decode 0x900C000000000000 = .instr (.tend ⟨0, 0, 0, 0, 0, 0, 0, 0, 0, 0x0⟩) ∧
    decode 0x9010000000000000 = .instr (.yield ⟨0, 0, 0, 0, 0, 0, 0, 0, 0, 0x0⟩) ∧
    decode 0x9010000000000001 = .instr (.yieldSwap ⟨0, 0, 0, 0, 0, 0, 0, 0, 0, 0x1⟩) ∧
    decode 0x9014000000000000 = .instr (.trig ⟨0, 0, 0, 0, 0, 0, 0, 0, 0, 0x0⟩) ∧
    decode 0x9018051838000000 = .instr (.wid ⟨0, 0, 5, 6, 0, 7, 0, 0, 0, 0x0⟩) := by
  refine ⟨?_, ?_, ?_, ?_, ?_, ?_, ?_, ?_, ?_⟩ <;> decide

/-- Major 0x25: one word of every instruction (R39, R40, R43). -/
theorem test_decode_major_25 :
    decode 0x9400051800000000 = .instr (.barinit ⟨0, 0, 5, 6, 0, 0, 0, 0, 0, 0x0⟩) ∧
    decode 0x9404001838000000 = .instr (.bararr ⟨0, 0, 0, 6, 0, 7, 0, 0, 0, 0x0⟩) ∧
    decode 0x9408051838000000 = .instr (.barwait ⟨0, 0, 5, 6, 0, 7, 0, 0, 0, 0x0⟩) ∧
    decode 0x940C051800000000 = .instr (.barfree ⟨0, 0, 5, 6, 0, 0, 0, 0, 0, 0x0⟩) ∧
    decode 0x9410001838000000 = .instr (.barq ⟨0, 0, 0, 6, 0, 7, 0, 0, 0, 0x0⟩) := by
  refine ⟨?_, ?_, ?_, ?_, ?_⟩ <;> decide

/-- Major 0x28: one word of every instruction (R39, R40, R43). -/
theorem test_decode_major_28 :
    decode 0xA000051800000000 = .instr (.htclaim ⟨0, 0, 5, 6, 0, 0, 0, 0, 0, 0x0⟩) ∧
    decode 0xA004001800000000 = .instr (.htrel ⟨0, 0, 0, 6, 0, 0, 0, 0, 0, 0x0⟩) ∧
    decode 0xA008092C68800000 = .instr (.htins ⟨0, 0, 9, 11, 0, 13, 0, 8, 0, 0x0⟩) ∧
    decode 0xA00C142C00800000 = .instr (.htprb ⟨0, 0, 20, 11, 0, 0, 0, 8, 0, 0x0⟩) ∧
    decode 0xA010092C00800000 = .instr (.htdel ⟨0, 0, 9, 11, 0, 0, 0, 8, 0, 0x0⟩) ∧
    decode 0xA014092C68800000 = .instr (.htacc ⟨0, 0, 9, 11, 0, 13, 0, 8, 0, 0x0⟩) ∧
    decode 0xA018141800800000 = .instr (.htdrn ⟨0, 0, 20, 6, 0, 0, 0, 8, 0, 0x0⟩) := by
  refine ⟨?_, ?_, ?_, ?_, ?_, ?_, ?_⟩ <;> decide

/-- Major 0x2C: one word of every instruction (R39, R40, R43). -/
theorem test_decode_major_2C :
    decode 0xB000182CA8000000 = .instr (.gbadd ⟨0, 0, 24, 11, 0, 21, 0, 0, 0, 0x0⟩) ∧
    decode 0xB004036068500000 = .instr (.gbelim ⟨0, 0, 3, 24, 0, 13, 0, 5, 0, 0x0⟩) ∧
    decode 0xB008034438000000 = .instr (.gbdamp ⟨0, 0, 3, 17, 0, 7, 0, 0, 0, 0x0⟩) ∧
    decode 0xB00C054438800000 = .instr (.gbpost ⟨0, 0, 5, 17, 0, 7, 0, 8, 0, 0x0⟩) ∧
    decode 0xB010031839B00000 = .instr (.gbtake ⟨0, 0, 3, 6, 0, 7, 0, 27, 0, 0x0⟩) := by
  refine ⟨?_, ?_, ?_, ?_, ?_⟩ <;> decide

/-- Major 0x2E: one word of every instruction (R39, R40, R43). -/
theorem test_decode_major_2E :
    decode 0xB800021838800000 = .instr (.pschk ⟨0, 0, 2, 6, 0, 7, 0, 8, 0, 0x0⟩) ∧
    decode 0xB804051800800000 = .instr (.psput ⟨0, 0, 5, 6, 0, 0, 0, 8, 0, 0x0⟩) ∧
    decode 0xB808051838000000 = .instr (.psinv ⟨0, 0, 5, 6, 0, 7, 0, 0, 0, 0x0⟩) := by
  refine ⟨?_, ?_, ?_⟩ <;> decide

/-- Major 0x30: one word of every instruction (R39, R40, R43). -/
theorem test_decode_major_30 :
    decode 0xC000000120000000 = .instr (.trap ⟨0, 0, 0, 0x12, 0⟩) ∧
    decode 0xC004003450000000 = .instr (.syscall ⟨0, 0, 0, 0x345, 0⟩) ∧
    decode 0xC008000000000000 = .instr (.eret ⟨0, 0, 0, 0x0, 0⟩) ∧
    decode 0xC008000010000000 = .instr (.eretNext ⟨0, 0, 0, 0x1, 0⟩) ∧
    decode 0xC00C050050000000 = .instr (.mfs ⟨0, 0, 5, 0x5, 0⟩) ∧
    decode 0xC010050050000000 = .instr (.mts ⟨0, 0, 5, 0x5, 0⟩) ∧
    decode 0xC014000000000000 = .instr (.halt ⟨0, 0, 0, 0x0, 0⟩) ∧
    decode 0xC018050000000000 = .instr (.tlbinvPage ⟨0, 0, 5, 0x0, 0⟩) ∧
    decode 0xC018050010000000 = .instr (.tlbinvAsid ⟨0, 0, 5, 0x1, 0⟩) ∧
    decode 0xC018000020000000 = .instr (.tlbinvAll ⟨0, 0, 0, 0x2, 0⟩) ∧
    decode 0xC01C000000000000 = .instr (.replay ⟨0, 0, 0, 0x0, 0⟩) ∧
    decode 0xC01C050010000000 = .instr (.replayAsid ⟨0, 0, 5, 0x1, 0⟩) ∧
    decode 0xC01C050020000000 = .instr (.replayDrop ⟨0, 0, 5, 0x2, 0⟩) ∧
    decode 0xC020050100000000 = .instr (.rdev ⟨0, 0, 5, 0x10, 0⟩) ∧
    decode 0xC024050000000000 = .instr (.ctxsave ⟨0, 0, 5, 0x0, 0⟩) ∧
    decode 0xC028050000000000 = .instr (.ctxload ⟨0, 0, 5, 0x0, 0⟩) := by
  refine ⟨?_, ?_, ?_, ?_, ?_, ?_, ?_, ?_, ?_, ?_, ?_, ?_, ?_, ?_, ?_, ?_⟩ <;> decide

/-! ### Worked examples of the manual -/

/-- R72: 300.0, 500.0, 0.001, −∞ and a negative quiet NaN to the 8-bit formats, with and without `.nsat`, with their
flags (NX 16, UF 8, OF 4). -/
theorem test_convert_fp8 :
    convert 0 false 0x0C 0x0F 0x43960000 ⟨1, 0⟩ = (0x79, ⟨1, 16⟩) ∧ convert 0 false 0x0C 0x10 0x43960000 ⟨1, 0⟩ = (0x5D, ⟨1, 16⟩) ∧
    convert 0 false 0x0C 0x0F 0x43FA0000 ⟨1, 0⟩ = (0x7E, ⟨1, 20⟩) ∧ convert 0 true 0x0C 0x0F 0x43FA0000 ⟨1, 0⟩ = (0x7F, ⟨1, 20⟩) ∧
    convert 0 false 0x0C 0x0F 0x3A83126F ⟨1, 0⟩ = (0x01, ⟨1, 24⟩) ∧ convert 0 false 0x0C 0x10 0x3A83126F ⟨1, 0⟩ = (0x14, ⟨1, 16⟩) ∧
    convert 0 false 0x0C 0x10 0xFF800000 ⟨1, 0⟩ = (0xFB, ⟨1, 20⟩) ∧ convert 0 true 0x0C 0x10 0xFF800000 ⟨1, 0⟩ = (0xFC, ⟨1, 0⟩) ∧
    convert 0 false 0x0C 0x10 0xFFC01234 ⟨1, 0⟩ = (0xFE, ⟨1, 0⟩) := by
  refine ⟨?_, ?_, ?_, ?_, ?_, ?_, ?_, ?_, ?_⟩ <;> decide

/-- R72: 127.4, −128.6 (RTZ) and 127.5 to `.i8`; −0.4 to `.n8`. -/
theorem test_convert_integer :
    convert 0 false 0x0C 1 0x42FECCCD ⟨1, 0⟩ = (127, ⟨1, 16⟩) ∧ convert 1 false 0x0C 1 0xC300999A ⟨1, 0⟩ = (0x80, ⟨1, 16⟩) ∧
    convert 0 false 0x0C 1 0x42FF0000 ⟨1, 0⟩ = (127, ⟨1, 1⟩) ∧ convert 0 false 0x0C 5 0xBECCCCCD ⟨1, 0⟩ = (0, ⟨1, 16⟩) := by
  refine ⟨?_, ?_, ?_, ?_⟩ <;> decide

/-- R64: 1 + 2^−8 to BF16 in stochastic mode from STOCHSEED 1, twice: the draws are 0x80200003 and 0xC0300002. -/
theorem test_convert_stochastic :
    convert 4 false 0x0C 0x0D 0x3F808000 ⟨1, 0⟩ = (0x3F80, ⟨0x80200003, 16⟩) ∧
    convert 4 false 0x0C 0x0D 0x3F808000 ⟨0x80200003, 0⟩ = (0x3F80, ⟨0xC0300002, 16⟩) := by
  refine ⟨?_, ?_⟩ <;> decide

/-- R102: the table of squares at 2.5, 40.0, −1.0 and a NaN. -/
theorem test_vftbl :
    let t := fun k => FVal.fin false (k * k) 0
    ((opTable 0 (fmtF32.decode 0x40200000) t).put fmtF32 0 false 0).1 = 0x40D00000 ∧
    ((opTable 0 (fmtF32.decode 0x42200000) t).put fmtF32 0 false 0).1 = 0x44704000 ∧
    ((opTable 0 (fmtF32.decode 0xBF800000) t).put fmtF32 0 false 0).1 = 0 ∧
    ((opTable 0 (fmtF32.decode 0x7FC00000) t).put fmtF32 0 false 0).1 = 0x7FC00000 := by
  refine ⟨?_, ?_, ?_, ?_⟩ <;> decide

/-- R101: 2^−1.5, 2^10, 2^128 and 2^−150, the halfway case. -/
theorem test_vfexp2 :
    (opExp2 (fmtF32.decode 0xBFC00000)).put fmtF32 0 false 0 = (0x3EB504F3, 16) ∧
    (opExp2 (fmtF32.decode 0x41200000)).put fmtF32 0 false 0 = (0x44800000, 0) ∧
    (opExp2 (fmtF32.decode 0x43000000)).put fmtF32 0 false 0 = (0x7F800000, 20) ∧
    (opExp2 (fmtF32.decode 0xC3160000)).put fmtF32 0 false 0 = (0, 24) := by
  refine ⟨?_, ?_, ?_, ?_⟩ <;> decide +kernel

/-- R75, R62: the worked N4X block, quantised and read back (in quarters, the scale being 2^−2). -/
theorem test_n4x_block :
    let x := fun i => [(0, 0x3F8CCCCD), (1, 0xBE99999A), (2, 0x41A00000), (3, 0x3F666666), (4, 0xC0266666), (5, 0x3FF00000),
      (31, 0xC0400000)].lookup i |>.getD 0
    let q := quantise 0x13 0 ((List.range 32).map fun i => fmtF32.decode (x i)) ⟨1, 0⟩
    q.1 = 0x7D ∧ q.2.1 = [4, 15, 8, 6, 8, 9] ++ List.replicate 25 0 ++ [9] ∧ q.2.2.flags = 16 ∧
    n4xDecode (fun i => q.2.1.getD i 0) = [4, -1, 64, 0, -12, 0] ++ List.replicate 25 0 ++ [-7] := by
  refine ⟨?_, ?_, ?_, ?_⟩ <;> decide +kernel

/-- R274: core 5 of die 0 draws 0xB402, 0x5A01 and 0x9900 and so asks cores 2, 513 and 256. -/
theorem test_steal_draws :
    stealStep 5 = 0xB402 ∧ stealStep 0xB402 = 0x5A01 ∧ stealStep 0x5A01 = 0x9900 ∧
    [0xB402, 0x5A01, 0x9900].map (· % 1024) = [2, 513, 256] := by
  refine ⟨?_, ?_, ?_, ?_⟩ <;> decide

/-! ### Witnesses: decoding, stepping, issuing -/

/-- For `DecodeEncode`: well-formed instructions with a field at the ends of its range. -/
theorem wit_DecodeEncode :
    (Instr.addi ⟨7, 1, 31, 31, 1, 0x100000000⟩).form.isSome = true ∧ (Instr.addi ⟨7, 1, 31, 31, 1, 0x100000000⟩).wf = true ∧
    (Instr.vqnt ⟨0, 0, 30, 31, 0, 0, 0, 0, 0, 0x44003⟩).wf = true ∧ (Instr.lda 1 ⟨7, 1, 31, 31, 1, 31, 1, 3, 4, 3, 0x7FFFF⟩).wf = true := by
  decide

/-- A thread whose pc stands on the last word of a page. -/
def fetching : State :=
  { mapped { thread [] with pc := 0x1FF8 } .cached with
    mem := Mem.writeBytes [] 0x1FF8 (bytesOfWord 0x040145183C010000) }

theorem wit_StepRunsDecodedInstruction :
    fetching.choices = [] ∧ fetching.mgmt.ready = true ∧ fetching.stalled = false ∧ fetching.th.run = .running ∧
    fetching.coreLost fetching.myCore = false ∧ fetching.th.poison = none ∧
    fetching.mappedAt .fetch 8 fetching.th.pc 0x1FF8 .cached ∧ fetching.paKind 0x1FF8 = .memory ∧
    fetching.lineDead (0x1FF8 / 128) = false ∧ fetching.readBad fetching.cur 0x1FF8 .cached = false ∧
    decode (wordOf (fetching.readMem 0x1FF8 8)) = .instr (.add ⟨2, 1, 5, 6, 0, 7, 1, 0, 0, 0x10000⟩) := by
  refine ⟨by decide, by decide, by decide, by decide, by decide, by decide, by_page (entry .cached) (by decide) (by decide) (by decide) (by decide)
    (by decide) (by decide) (by decide), by decide, by decide, by decide, by decide⟩

/-- A thread of an address space with a trap handler. -/
def handled : State := { one (thread []) with spaces := [(0, { Space.system with trapvec := 0x2000 })] }

theorem wit_BadWordTraps :
    decode 0 = .illegalOp ∧ decode 0x0400210000000000 = .reservedField ∧ handled.th.speculative = false ∧
    (handled.space handled.th.asid.toNat).trapvec ≠ 0 ∧ handled.th.intrap = false := by
  decide

theorem wit_StepKeepsMemoryForm : State.reset.memWf = true ∧ ∃ t, step State.reset = .next t := ⟨by decide, _, rfl⟩

theorem wit_SkippedInstruction :
    (one (thread [])).skips (.add ⟨0, 1, 5, 6, 0, 7, 0, 0, 0, 0⟩) ∧ (one (thread [])).skips (.vadd ⟨0, 1, 5, 6, 0, 7, 0, 0, 0, 0⟩) := by
  constructor <;> simp [State.skips, Instr.guardField, Instr.regForm, State.mask, Ctx.getP, Regs.getP, RegForm.scalar, RegForm.vector]

/-- A thread with registers idle and pending. -/
def holed : State := one { thread [] with r := ((Regs.start 1).setFe .idle (.x 31)).setFe .pending (.x 1) }

/-- Of a form with three sources: the last under mode bit 1 and idle behind a pending one under mode bit 0; a pending one
and none that traps; the last idle behind full ones; and all full, with a pending destination. -/
theorem wit_SourcesTrapOrWait :
    (let f := fun (a b c d : BitVec 6) (m : BitVec 1) => Instr.ffma ⟨0, 0, d, a, 0, b, 0, c, m, 0⟩
     let q := fun (a b c d : BitVec 6) (m : BitVec 1) => RegForm.scalar ⟨0, 0, d, a, 0, b, 0, c, m, 0⟩ [sx a 0, sx b 0, sx c m] true
     (f 2 1 31 30 1).wf = true ∧ (f 2 1 31 30 1).regForm = some (q 2 1 31 30 1) ∧ holed.Selects (q 2 1 31 30 1) ∧
     (q 2 1 31 30 1).srcs = [sx 2 0, sx 1 0] ++ sx 31 1 :: [] ∧ (sx 31 1).trap = true ∧ holed.th.r.fe (sx 31 1).reg ≠ .full ∧
     (∀ z ∈ [sx 2 0, sx 1 0], z.trap = false) ∧
     (f 1 31 2 30 0).wf = true ∧ (∀ y ∈ (q 1 31 2 30 0).srcs, y.trap = false) ∧ holed.th.tx = none ∧ holed.th.r.fe (sx 1 0).reg = .pending ∧
     (f 2 3 31 30 0).wf = true ∧ (∀ z ∈ (q 2 3 31 30 0).srcs, z.trap = false ∧ holed.th.r.fe z.reg ≠ .pending) ∧
     (q 2 3 31 30 0).srcs = [sx 2 0, sx 3 0] ++ sx 31 0 :: [] ∧ holed.th.r.fe (sx 31 0).reg = .idle ∧
     (∀ z ∈ [sx 2 0, sx 3 0], holed.th.r.fe z.reg = .full) ∧
     (f 2 3 4 1 0).wf = true ∧ (∀ y ∈ (q 2 3 4 1 0).srcs, y.trap = false ∧ holed.th.r.fe y.reg = .full) ∧
     (∃ d ∈ (q 2 3 4 1 0).dsts, holed.th.r.fe d = .pending)) ∧
    (holed.mask 0 0).getLsbD 0 = true ∧ holed.th.r.fe (dx 31) = .idle ∧ holed.th.r.fe (dx 31) ≠ .full ∧ holed.th.r.fe (dx 2) = .full := by
  refine ⟨⟨by decide, by decide, by unfold State.Selects; decide, by decide, by decide, by decide, by decide, by decide, by decide, by decide,
    by decide, by decide, by decide, by decide, by decide, by decide, by decide, by decide, ⟨.x 1, by decide, by decide⟩⟩, by decide⟩

theorem wit_PrivilegedTraps :
    (one { thread [] with asid := 1 }).th.asid ≠ 0 ∧ 0x100 ≤ (FS.mk 0 0 5 0x100 0).code.toNat ∧
    (0x20 ≤ (FS.mk 0 0 5 0x020 0).code.toNat % 1024 ∧ (FS.mk 0 0 5 0x020 0).code.toNat % 1024 < 0x40) := by
  decide

theorem wit_TrapIsTaken :
    handled.th.speculative = false ∧ (handled.space handled.th.asid.toNat).trapvec ≠ 0 ∧ handled.th.intrap = false ∧
    (one (thread [])).th.speculative = false ∧ ((one (thread [])).space (one (thread [])).th.asid.toNat).trapvec = 0 := by
  decide

/-- A thread with small operands in X1 and X2 and a third in X3. -/
def plain (a b c : Word) : State := one (thread [(1, a), (2, b), (3, c)])

theorem plain_issues (a b c : Word) (srcs dsts : List RegRef) : (plain a b c).Issues 0 0 srcs dsts :=
  issues (plain a b c) (fe_thread [(1, a), (2, b), (3, c)]) srcs dsts

theorem plain_issuesLanes (a b c : Word) (srcs dsts : List RegRef) : (plain a b c).IssuesLanes 0 0 srcs dsts :=
  issuesLanes (plain a b c) (fe_thread [(1, a), (2, b), (3, c)]) srcs dsts

theorem wit_RegisterInstructionsComplete :
    (Instr.vcmpt ⟨0, 0, 30, 2, 0, 3, 0, 30, 0, 0x30000⟩).wf = true ∧
    (plain 0 0 0).IssuesRegForm ⟨true, 0, 0, [sv 2 0, sx 3 0], [30, 31], [30, 31], [], true⟩ ∧
    (Instr.vcmpt ⟨0, 0, 30, 2, 0, 3, 0, 30, 0, 0x30000⟩).regForm = some ⟨true, 0, 0, [sv 2 0, sx 3 0], [30, 31], [30, 31], [], true⟩ :=
  ⟨by decide, ⟨by unfold State.Selects; decide, ready (plain 0 0 0) (fe_thread [(1, 0), (2, 0), (3, 0)]) _ _⟩, by decide⟩

/-! ### Witnesses: scalar instructions -/

/-- Every wrapping, saturating, bitwise and counting form, at one register number and at the last. -/
theorem wit_IntegerResults :
    (plain 0 0 0).Issues 0 0 [dx 1, dx 2] [dx 31] ∧ (R3.mk 0 0 31 1 0 2 0 0 0 0).sat = false ∧ (R3.mk 0 0 31 1 0 2 0 0 0 0x400).sat = true ∧
    (Instr.add ⟨0, 0, 31, 1, 0, 2, 0, 0, 0, 0⟩).wf = true ∧ (Instr.sub ⟨0, 0, 31, 1, 0, 2, 0, 0, 0, 0x4000⟩).wf = true ∧
    (Instr.mul ⟨0, 0, 31, 1, 0, 2, 0, 0, 0, 0x20000⟩).wf = true ∧ (Instr.add ⟨0, 0, 31, 1, 0, 2, 0, 0, 0, 0x400⟩).wf = true ∧
    (Instr.sub ⟨0, 0, 31, 1, 0, 2, 0, 0, 0, 0x400⟩).wf = true ∧ (Instr.mul ⟨0, 0, 31, 1, 0, 2, 0, 0, 0, 0x400⟩).wf = true ∧
    (Instr.min ⟨0, 0, 31, 1, 0, 2, 0, 0, 0, 0⟩).wf = true ∧ (Instr.max ⟨0, 0, 31, 1, 0, 2, 0, 0, 0, 0⟩).wf = true ∧
    (Instr.mulh ⟨0, 0, 31, 1, 0, 2, 0, 0, 0, 0⟩).wf = true ∧ (Instr.and ⟨0, 0, 31, 1, 0, 2, 0, 0, 0, 0⟩).wf = true ∧
    (Instr.or ⟨0, 0, 31, 1, 0, 2, 0, 0, 0, 0⟩).wf = true ∧ (Instr.xor ⟨0, 0, 31, 1, 0, 2, 0, 0, 0, 0⟩).wf = true ∧
    (Instr.andn ⟨0, 0, 31, 1, 0, 2, 0, 0, 0, 0⟩).wf = true ∧ (Instr.shl ⟨0, 0, 31, 1, 0, 2, 0, 0, 0, 0⟩).wf = true ∧
    (Instr.shr ⟨0, 0, 31, 1, 0, 2, 0, 0, 0, 0⟩).wf = true ∧ (Instr.sra ⟨0, 0, 31, 1, 0, 2, 0, 0, 0, 0⟩).wf = true ∧
    (Instr.rot ⟨0, 0, 31, 1, 0, 2, 0, 0, 0, 0⟩).wf = true ∧ (Instr.popc ⟨0, 0, 31, 1, 0, 0, 0, 0, 0, 0⟩).wf = true ∧
    (Instr.clz ⟨0, 0, 31, 1, 0, 0, 0, 0, 0, 0⟩).wf = true :=
  ⟨plain_issues _ _ _ _ _, by decide⟩

/-- A divisor of 0, the least number by −1, and an ordinary division. -/
theorem wit_IntegerDivision :
    (plain 7 0 0).Issues 0 0 [dx 1, dx 2] [dx 31] ∧ (Instr.div ⟨0, 0, 31, 1, 0, 2, 0, 0, 0, 0⟩).wf = true ∧
    (Instr.rem ⟨0, 0, 31, 1, 0, 2, 0, 0, 0, 0⟩).wf = true ∧ ival ((plain 7 0 0).x 2) 4 = 0 ∧
    (plain 0x8000000000000000 (-1) 0).Issues 0 0 [dx 1, dx 2] [dx 31] ∧ typeSigned 4 = true ∧
    ival ((plain 0x8000000000000000 (-1) 0).x 1) 4 = -2 ^ (typeWidth 4 - 1) ∧ ival ((plain 0x8000000000000000 (-1) 0).x 2) 4 = -1 ∧
    (plain 7 2 0).Issues 0 0 [dx 1, dx 2] [dx 31] ∧ ival ((plain 7 2 0).x 2) 4 ≠ 0 :=
  ⟨plain_issues _ _ _ _ _, by decide, by decide, by decide, plain_issues _ _ _ _ _, by decide, by decide, by decide,
    plain_issues _ _ _ _ _, by decide⟩

theorem wit_ScalarForms :
    (plain 0 0 0).Issues 0 0 [dx 1, dx 2, dx 3] [dx 31] ∧ (Instr.sel ⟨0, 0, 31, 1, 0, 2, 0, 3, 0, 0⟩).wf = true ∧
    (plain 0 0 0).Issues 0 0 [dx 1, dx 2] [dx 31] ∧ (Instr.cmp ⟨0, 0, 31, 1, 0, 2, 0, 0, 0, 5⟩).wf = true ∧
    (plain 0 0 0).Issues 0 0 [dx 1] [dx 31] ∧ (plain 0 0 0).Issues 0 0 [] [dx 31] ∧ (plain 0 0 0).Issues 0 0 [dx 31] [dx 31] ∧
    (Instr.movhi ⟨0, 0, 31, 0xFFFFFF⟩).wf = true ∧ (Instr.extr ⟨0, 0, 31, 1, 0, 0, 0, 0, 0, 0x1FC0⟩).wf = true ∧
    (Instr.ins ⟨0, 0, 31, 1, 0, 2, 0, 0, 0, 0x7E000⟩).wf = true :=
  ⟨plain_issues _ _ _ _ _, by decide, plain_issues _ _ _ _ _, by decide, plain_issues _ _ _ _ _, plain_issues _ _ _ _ _,
    plain_issues _ _ _ _ _, by decide⟩

theorem wit_ControlTransfers :
    (plain 0 0 0).Issues 0 0 [dx 1, dx 2] [] ∧ (plain 0 0 0).Issues 0 0 [] [] ∧ (plain 0 0 0).Issues 0 0 [] [dx 31] ∧
    (plain 0 0 0).Issues 0 0 [dx 1] [] ∧ (plain 0 0 0).Issues 0 0 [dx 1] [dx 31] :=
  ⟨plain_issues _ _ _ _ _, plain_issues _ _ _ _ _, plain_issues _ _ _ _ _, plain_issues _ _ _ _ _, plain_issues _ _ _ _ _⟩

/-- NaN operands in the first, the second and the third place, and equal finite operands; a finite number by 0, 0 by 0,
and the least negative number under a root. -/
theorem wit_FloatResults :
    (plain 0x7F800001 0 0).Issues 0 0 [dx 1, dx 2, dx 3] [dx 31] ∧ (Instr.fadd ⟨0, 0, 31, 1, 0, 2, 0, 0, 0, 0⟩).wf = true ∧
    (Instr.fsub ⟨0, 0, 31, 1, 0, 2, 0, 0, 0, 0⟩).wf = true ∧ (Instr.fmul ⟨0, 0, 31, 1, 0, 2, 0, 0, 0, 0⟩).wf = true ∧
    (Instr.ffma ⟨0, 0, 31, 1, 0, 2, 0, 3, 0, 0⟩).wf = true ∧ (fmtF32.decode 0x7F800001).isNan = true ∧
    (plain 0x7F7FFFFF 0 0).Issues 0 0 [dx 1, dx 2] [dx 31] ∧ (Instr.fdiv ⟨0, 0, 31, 1, 0, 2, 0, 0, 0, 0⟩).wf = true ∧
    0x7F7FFFFF % 2 ^ 31 < 0xFF * 2 ^ 23 ∧ (plain 0 0 0).Issues 0 0 [dx 1, dx 2] [dx 31] ∧
    (plain 0x80000001 0 0).Issues 0 0 [dx 1] [dx 31] ∧ (Instr.fsqrt ⟨0, 0, 31, 1, 0, 0, 0, 0, 0, 0⟩).wf = true ∧ 2 ^ 31 < 0x80000001 ∧
    (plain 0 0 0).IssuesLanes 0 0 [dv 1, dv 2] [dv 31] ∧ (Instr.vfdiv ⟨0, 0, 31, 1, 0, 2, 0, 0, 0, 0⟩).wf = true ∧
    (plain 0 0 0).IssuesLanes 0 0 [dv 1] [dv 31] ∧ (Instr.vfsqrt ⟨0, 0, 31, 1, 0, 0, 0, 0, 0, 0⟩).wf = true ∧
    (Instr.vfrsq ⟨0, 0, 31, 1, 0, 0, 0, 0, 0, 0⟩).wf = true :=
  ⟨plain_issues _ _ _ _ _, by decide, by decide, by decide, by decide, by decide, plain_issues _ _ _ _ _, by decide, by decide,
    plain_issues _ _ _ _ _, plain_issues _ _ _ _ _, by decide, by decide, plain_issuesLanes _ _ _ _ _, by decide,
    plain_issuesLanes _ _ _ _ _, by decide, by decide⟩

theorem wit_FloatOrderAndConversion :
    (plain 0x80000000 0 0).Issues 0 0 [dx 1, dx 2] [dx 31] ∧ (Instr.fmin ⟨0, 0, 31, 1, 0, 2, 0, 0, 0, 0⟩).wf = true ∧
    (Instr.fmax ⟨0, 0, 31, 1, 0, 2, 0, 0, 0, 0⟩).wf = true ∧ (Instr.fcmp ⟨0, 0, 31, 1, 0, 2, 0, 0, 0, 5⟩).wf = true ∧
    (Instr.fcmp ⟨0, 0, 31, 1, 0, 2, 0, 0, 0, 3⟩).wf = true ∧ (plain 0x80000000 0 0).Issues 0 0 [dx 1] [dx 31] ∧
    (Instr.fclass ⟨0, 0, 31, 1, 0, 0, 0, 0, 0, 0⟩).wf = true ∧ (Instr.fcvt ⟨0, 0, 31, 1, 0, 0, 0, 0, 0, 0x2000C⟩).wf = true ∧
    (plain 0xFF800000 0 0).Issues 0 0 [dx 1] [dx 31] ∧ 0xFF800000 / 2 ^ 23 % 2 ^ 8 = 2 ^ 8 - 1 :=
  ⟨plain_issues _ _ _ _ _, by decide, by decide, by decide, by decide, plain_issues _ _ _ _ _, by decide, by decide,
    plain_issues _ _ _ _ _, by decide⟩

/-! ### Witnesses: vector instructions -/

theorem wit_VectorIntegerForms :
    (plain 0 0 0).IssuesLanes 0 0 [dv 1, dv 2] [dv 31] ∧ (plain 0 0 0).IssuesLanes 0 0 [dv 1, dv 2, dv 3] [dv 31] ∧
    (plain 0 0 0).IssuesLanes 0 0 [dv 1] [dv 31] ∧ (plain 0 0 0).IssuesLanes 0 0 [dv 1, dv 2] [] ∧
    (Instr.vadd ⟨0, 0, 31, 1, 0, 2, 0, 0, 0, 0x4000⟩).wf = true ∧ (Instr.vsub ⟨0, 0, 31, 1, 0, 2, 0, 0, 0, 0x8400⟩).wf = true ∧
    (Instr.vmul ⟨0, 0, 31, 1, 0, 2, 0, 0, 0, 0⟩).wf = true ∧ (Instr.vmad ⟨0, 0, 31, 1, 0, 2, 0, 3, 0, 0⟩).wf = true ∧
    (Instr.vand ⟨0, 0, 31, 1, 0, 2, 0, 0, 0, 0⟩).wf = true ∧ (Instr.vor ⟨0, 0, 31, 1, 0, 2, 0, 0, 0, 0⟩).wf = true ∧
    (Instr.vxor ⟨0, 0, 31, 1, 0, 2, 0, 0, 0, 0⟩).wf = true ∧ (Instr.vandn ⟨0, 0, 31, 1, 0, 2, 0, 0, 0, 0⟩).wf = true ∧
    (Instr.vshl ⟨0, 0, 31, 1, 0, 2, 0, 0, 0, 0⟩).wf = true ∧ (Instr.vshr ⟨0, 0, 31, 1, 0, 2, 0, 0, 0, 0⟩).wf = true ∧
    (Instr.vadd ⟨0, 0, 31, 1, 0, 2, 0, 0, 0, 0x4400⟩).wf = true ∧ (Instr.vmin ⟨0, 0, 31, 1, 0, 2, 0, 0, 0, 0⟩).wf = true ∧
    (Instr.vmax ⟨0, 0, 31, 1, 0, 2, 0, 0, 0, 0⟩).wf = true ∧ (Instr.vmulh ⟨0, 0, 31, 1, 0, 2, 0, 0, 0, 0⟩).wf = true ∧
    (Instr.vsra ⟨0, 0, 31, 1, 0, 2, 0, 0, 0, 0⟩).wf = true ∧ typeSigned 3 = true ∧
    (Instr.vabs ⟨0, 0, 31, 1, 0, 0, 0, 0, 0, 0x400⟩).wf = true ∧ (Instr.vcmp ⟨0, 0, 7, 1, 0, 2, 0, 0, 0, 5⟩).wf = true :=
  ⟨plain_issuesLanes _ _ _ _ _, plain_issuesLanes _ _ _ _ _, plain_issuesLanes _ _ _ _ _, plain_issuesLanes _ _ _ _ _,
    by decide⟩

theorem wit_VectorFloatIsScalarByLane :
    (R3.mk 0 0 31 1 0 2 0 3 0 0x31800).ftype = 0x0C ∧ (plain 0 0 0).mode (R3.mk 0 0 31 1 0 2 0 3 0 0x31800).rnd < 4 ∧
    (plain 0 0 0).IssuesLanes 0 0 [dv 1, dv 2] [dv 31] ∧ (plain 0 0 0).IssuesLanes 0 0 [dv 1, dv 2, dv 3] [dv 31] ∧
    (Instr.vfadd ⟨0, 0, 31, 1, 0, 2, 0, 0, 0, 0x31800⟩).wf = true ∧ (Instr.vfsub ⟨0, 0, 31, 1, 0, 2, 0, 0, 0, 0⟩).wf = true ∧
    (Instr.vfmul ⟨0, 0, 31, 1, 0, 2, 0, 0, 0, 0⟩).wf = true ∧ (Instr.vffma ⟨0, 0, 31, 1, 0, 2, 0, 3, 0, 0⟩).wf = true ∧
    (Instr.vftbl ⟨0, 0, 31, 1, 0, 2, 0, 0, 0, 0⟩).wf = true ∧ (plain 0 0 0).IssuesLanes 0 0 [dv 1] [dv 31] ∧
    (Instr.vfexp2 ⟨0, 0, 31, 1, 0, 0, 0, 0, 0, 0⟩).wf = true ∧ (∀ j < 32, (fmtF32.decode (vat ((plain 0 0 0).v 2) j).toNat).isNan = false) ∧
    (fmtF32.decode 0xBF800000).isNan = false ∧ (fmtF32.decode 0xBF800000).lt (.fin true 0 0) = true ∧
    (FVal.fin false 31 0).lt (fmtF32.decode 0x42000000) = true :=
  ⟨by decide, by decide, plain_issuesLanes _ _ _ _ _, plain_issuesLanes _ _ _ _ _, by decide, by decide, by decide, by decide, by decide,
    plain_issuesLanes _ _ _ _ _, by decide⟩

/-- Orders, conversions of the last part, blocks, packed halves and scans of every operation. -/
theorem wit_VectorFloatIsScalarByLane_forms :
    (Instr.vfmin ⟨0, 0, 31, 1, 0, 2, 0, 0, 0, 0⟩).wf = true ∧ (Instr.vfmax ⟨0, 0, 31, 1, 0, 2, 0, 0, 0, 0⟩).wf = true ∧
    (plain 0 0 0).IssuesLanes 0 0 [dv 1, dv 2] [] ∧ (∀ n < 6, (Instr.vfcmp ⟨0, 0, 7, 1, 0, 2, 0, 0, 0, BitVec.ofNat 19 n⟩).wf = true) ∧
    (plain 0 0 0).IssuesLanes 0 0 [dv 1] [dv 31] ∧ (Instr.vfcvt ⟨0, 0, 31, 1, 0, 0, 0, 0, 0, 0xC00C⟩).wf = true ∧
    (plain 0 0 0).mode (R3.mk 0 0 31 1 0 0 0 0 0 0xC00C).rnd < 4 ∧
    (plain 0 0 0).IssuesLanes 0 0 [dv 1] [dv 30, .v 31] ∧ (∀ h < 8, (Instr.vqnt ⟨0, 0, 30, 1, 0, 0, 0, 0, 0, BitVec.ofNat 19 (0x4C000 + h)⟩).wf = true) ∧
    (plain 0 255 0).IssuesLanes 0 0 [dv 1, dx 2] [dv 31] ∧ (Instr.vdqnt ⟨0, 0, 31, 1, 0, 2, 0, 0, 0, 0x44000⟩).wf = true ∧
    ((plain 0 255 0).x 2).toNat % 256 = 255 ∧ (plain 0 0 0).IssuesLanes 0 0 [dv 1, dv 2] [dv 31] ∧
    (Instr.vpack ⟨0, 0, 31, 1, 0, 2, 0, 0, 0, 0x4401⟩).wf = true ∧ (R3.mk 0 0 31 1 0 2 0 0 0 0x4401).sat = true ∧
    (∀ n < 6, (Instr.vscan ⟨0, 0, 31, 1, 0, 0, 0, 0, 0, BitVec.ofNat 19 (0x1C008 + n)⟩).wf = true ∧
      (R3.mk 0 0 31 1 0 0 0 0 0 (BitVec.ofNat 19 (0x1C008 + n))).vtype = 7 ∧
      (R3.mk 0 0 31 1 0 0 0 0 0 (BitVec.ofNat 19 (0x1C008 + n))).sat = false) :=
  ⟨by decide, by decide, plain_issuesLanes _ _ _ _ _, by decide, plain_issuesLanes _ _ _ _ _, by decide, by decide,
    plain_issuesLanes _ _ _ _ _, by decide, plain_issuesLanes _ _ _ _ _, by decide, by decide, plain_issuesLanes _ _ _ _ _, by decide,
    by decide, by decide⟩

theorem wit_VectorMovesAndPredicates :
    (plain 0 0 0).IssuesLanes 0 0 [dx 1] [dv 31] ∧ (Instr.vbcast ⟨0, 0, 31, 1, 0, 0, 0, 0, 0, 0x4000⟩).wf = true ∧
    (plain 0 0 0).IssuesLanes 0 0 [dv 1, dv 2] [dv 31] ∧ (R3.mk 0 0 31 1 0 2 0 0 0 0).sub.getLsbD 0 = false ∧
    (plain 0 0 0).IssuesLanes 0 0 [dv 1, dv 2, dv 3] [dv 31] ∧ (R3.mk 0 0 31 1 0 2 0 3 0 1).sub.getLsbD 0 = true ∧
    (plain 0 31 0).IssuesLanes 0 0 [dv 1, dx 2] [dv 31] ∧ (plain 0 31 0).IssuesLanes 0 0 [dv 1, dx 2] [dx 31] ∧
    (Instr.vmovx ⟨0, 0, 31, 1, 0, 2, 0, 0, 0, 0x1C000⟩).wf = true ∧ (plain 0 31 0).IssuesLanes 0 0 [dx 1, dx 2] [dv 31] ∧
    (plain 0 0 0).IssuesLanes 0 0 [dx 1] [] ∧ (plain 0 0 0).IssuesLanes 0 0 [] [] ∧ (plain 0 0 0).IssuesLanes 0 0 [] [dx 31] :=
  ⟨plain_issuesLanes _ _ _ _ _, by decide, plain_issuesLanes _ _ _ _ _, by decide, plain_issuesLanes _ _ _ _ _, by decide,
    plain_issuesLanes _ _ _ _ _, plain_issuesLanes _ _ _ _ _, by decide, plain_issuesLanes _ _ _ _ _,
    plain_issuesLanes _ _ _ _ _, plain_issuesLanes _ _ _ _ _, plain_issuesLanes _ _ _ _ _⟩

theorem wit_ReductionsAndSelections :
    (plain 0 0 0).IssuesLanes 0 0 [dv 1] [dx 31] ∧ (Instr.vred ⟨0, 0, 31, 1, 0, 0, 0, 0, 0, 0x1C005⟩).wf = true ∧
    (R3.mk 0 0 31 1 0 0 0 0 0 0x1C005).vtype = 7 ∧ (R3.mk 0 0 31 1 0 0 0 0 0 0x1C005).sat = false ∧
    (plain 0 0 0).IssuesLanes 0 0 [dv 1] [dv 30, .v 31] ∧ (Instr.vsort ⟨0, 0, 30, 1, 0, 0, 0, 0, 0, 1⟩).wf = true ∧
    (Instr.vtopk ⟨0, 0, 30, 1, 0, 0, 0, 0, 0, 0x3F⟩).wf = true ∧ (plain 0 0 0).IssuesLanes 0 0 [dv 1, dv 2] [dv 30, .v 31] ∧
    (Instr.vsort ⟨0, 0, 30, 1, 0, 2, 0, 0, 0, 2⟩).wf = true ∧
    (plain 0 0 0).IssuesLanes 0 0 [dv 1, dx 2] [dv 30, .v 31, dx 30, .x 31] ∧
    (Instr.vcmpt ⟨0, 0, 30, 1, 0, 2, 0, 30, 0, 3⟩).wf = true :=
  ⟨plain_issuesLanes _ _ _ _ _, by decide, by decide, by decide, plain_issuesLanes _ _ _ _ _, by decide, by decide,
    plain_issuesLanes _ _ _ _ _, by decide, plain_issuesLanes _ _ _ _ _, by decide⟩

/-! ### Witnesses: memory -/

/-- A thread whose scratchpad is way 7, with X1 at the last line of it, X2 = 0, X3 = 0, X5 below its end by eight bytes. -/
def own : State :=
  one { thread [(1, 0xFFFF00007F80), (4, 0xFFFF00007FF8), (5, 0xFFFF00007FFC)] with claim := [7] }

theorem own_full : ∀ q, own.th.r.fe q = .full := fe_thread _

theorem own_calm : own.Calm := by constructor <;> decide

theorem own_addr (size : Nat) (ea : Word) (a : Nat) (h : ea.toNat % size = 0) (hr : regionOf ea = .own a) (hl : a < 32768) :
    own.ownAddr size ea := ⟨h, a, hr, hl⟩

/-- A thread whose core holds the line of 0x1F80 as owner, with a translation. -/
def cachedHit : State :=
  { mapped (thread [(1, 0x1F80), (4, 0x1FF8)]) .cached with
    cores := [(0, { Core.start 0 with l1 := [(4111, ⟨.e, [], 0⟩)], lines := [⟨tagged 63, 63, 0, .normal, none, false⟩] })] }

theorem cachedHit_calm : cachedHit.Calm := by constructor <;> decide

theorem wit_LoadsThatHit_scalar :
    own.Calm ∧ own.Issues 0 0 [dx 4, dx 0] [dx 31] ∧ own.holds 8 (own.eaIndex ⟨0, 0, 31, 4, 0, 0, 0, 0, 0, 0, 0⟩)
      (Mem.readBytes own.scratch (own.ownByteAt 0xFFFF00007FF8) 8) ∧
    cachedHit.Calm ∧ cachedHit.Issues 0 0 [dx 4, dx 0] [dx 31] ∧
    cachedHit.holds 8 (cachedHit.eaIndex ⟨0, 0, 31, 4, 0, 0, 0, 0, 0, 0, 0⟩) (Mem.readBytes cachedHit.mem 0x1FF8 8) := by
  refine ⟨own_calm, issues own own_full _ _, .inl ⟨⟨by decide, 32760, by decide, by decide⟩, by decide, by decide⟩, cachedHit_calm,
    issues cachedHit (fe_thread _) _ _, .inr ⟨0x1FF8, by_line ⟨tagged 63, 63, 0, .normal, none, false⟩ (by decide) (by decide) (by decide)
      (by decide), by decide, by decide, by decide, by decide, by decide⟩⟩

theorem wit_LoadsThatHit_vector :
    own.Calm ∧ own.IssuesLanes 0 0 [dx 1, dx 0] [dv 31] ∧ own.IssuesLanes 0 0 [dx 1, dv 2] [dv 31] ∧
    (∀ k < 32, own.holds 4 (own.x 1 + own.x 0 * scaleOf 0 + (0 : BitVec 19).signExtend 64 + BitVec.ofNat 64 (4 * k))
      (Mem.readBytes own.scratch (own.ownByteAt (own.x 1 + own.x 0 * scaleOf 0 + (0 : BitVec 19).signExtend 64 +
        BitVec.ofNat 64 (4 * k))) 4)) := by
  refine ⟨own_calm, issuesLanes own own_full _ _, issuesLanes own own_full _ _, fun k hk => .inl ⟨⟨?_, 32640 + 4 * k, ?_, ?_⟩, ?_, rfl⟩⟩
  · revert k; decide
  · revert k; decide
  · show 32640 + 4 * k < 32768; omega
  · rfl

/-- A line of which the three behind it lie in the same page. -/
def streaming : State :=
  { mapped (thread [(4, 0x1E00)]) .cached with
    cores := [(0, { Core.start 0 with l1 := [(4111, ⟨.e, [], 0⟩)], lines := [⟨tagged 60, 60, 0, .normal, none, false⟩] })] }

theorem wit_LoadsThatHit_streaming :
    let r : FM := ⟨0, 0, 31, 4, 0, 0, 0, 0, 4, 0, 0⟩
    streaming.Calm ∧ streaming.Issues 0 0 [dx 4, dx 0] [dx 31] ∧ (Instr.ld 3 r).wf = true ∧ r.hint = 4 ∧
    streaming.holds 8 (streaming.eaIndex r) (Mem.readBytes streaming.mem 0x1E00 8) ∧
    streaming.walkless ([streaming.eaIndex r].flatMap streamedLines) := by
  intro r
  refine ⟨by constructor <;> decide, issues streaming (fe_thread _) _ _, by decide, by decide,
    .inr ⟨0x1E00, by_line ⟨tagged 60, 60, 0, .normal, none, false⟩ (by decide) (by decide) (by decide) (by decide),
      by decide, by decide, by decide, by decide, by decide⟩, ?_⟩
  have h : [streaming.eaIndex r].flatMap streamedLines = [0x1E80, 0x1F00, 0x1F80] := by decide
  rw [h]
  intro va hv _
  have hv : va = 0x1E80 ∨ va = 0x1F00 ∨ va = 0x1F80 := by simpa using hv
  rcases hv with rfl | rfl | rfl <;> decide

theorem wit_StoresToOwnScratchpad :
    own.Calm ∧ own.Issues 0 0 [dx 4, dx 2] [] ∧ own.ownAddr 8 (own.x 4 + (0 : BitVec 19).signExtend 64) ∧
    own.ownAddr 4 (own.x 5 + (0 : BitVec 19).signExtend 64) ∧
    own.IssuesLanes 0 0 [dx 1, dv 2] [] ∧ own.IssuesLanes 0 0 [dx 1, dx 2, dv 3] [] ∧ own.IssuesLanes 0 0 [dx 1, dv 2, dv 3] [] ∧
    ∀ k < 32, own.ownAddr 4 (own.x 1 + (0 : BitVec 19).signExtend 64 + BitVec.ofNat 64 (4 * k)) := by
  refine ⟨own_calm, issues own own_full _ _, ⟨by decide, 32760, by decide, by decide⟩, ⟨by decide, 32764, by decide, by decide⟩,
    issuesLanes own own_full _ _, issuesLanes own own_full _ _, issuesLanes own own_full _ _, fun k hk => ⟨?_, 32640 + 4 * k, ?_, ?_⟩⟩
  · revert k; decide
  · revert k; decide
  · show 32640 + 4 * k < 32768; omega

/-- A thread with a translation and nothing cached. -/
def miss : State := mapped (thread [(4, 0x1FF8)]) .cached

theorem miss_calm : miss.Calm := by constructor <;> decide

/-- A page that grants nothing. -/
def barred : State :=
  { one (thread [(4, 0x1FF8)]) with clusters := [(0, ⟨[⟨0, 1, 12, 1, false, false, false, .cached⟩], [], []⟩)] }

theorem wit_MissesPostsAndChecks :
    miss.Calm ∧ miss.Issues 0 0 [dx 4, dx 0] [dx 31] ∧ (Instr.ld 3 ⟨0, 0, 31, 4, 0, 0, 0, 0, 0, 0, 0⟩).wf = true ∧
    miss.mappedAt .load 8 (miss.eaIndex ⟨0, 0, 31, 4, 0, 0, 0, 0, 0, 0, 0⟩) 0x1FF8 .cached ∧ miss.paKind 0x1FF8 = .memory ∧
    miss.l1Hit miss.myCore (0x1FF8 / 128) = false ∧ miss.Issues 0 0 [dx 4, dx 2] [] ∧
    0x1FF8 % 8 = 0 ∧ miss.mappedAt .store 8 (miss.eaPlain ⟨0, 0, 0, 4, 0, 2, 0, 0, 0, 0, 0⟩) 0x1FF8 .cached := by
  refine ⟨miss_calm, issues miss (fe_thread _) _ _, by decide, by_page (entry .cached) ?_ ?_ ?_ ?_ ?_ ?_ ?_, by decide, by decide,
    issues miss (fe_thread _) _ _, by decide, by_page (entry .cached) ?_ ?_ ?_ ?_ ?_ ?_ ?_⟩ <;> decide

/-- Misaligned, just beyond the address space, just inside the reserved range, just beyond the claim, a page without
the right, and a page without a translation. -/
theorem wit_AccessChecks :
    own.Calm ∧ own.Issues 0 0 [dx 4, dx 0] [dx 31] ∧ own.Issues 0 0 [dx 4, dx 2] [] ∧
    (own.eaIndex ⟨0, 0, 31, 4, 0, 0, 0, 0, 0, 0, 1⟩).toNat % 8 ≠ 0 ∧
    (own.eaIndex ⟨0, 0, 31, 4, 0, 0, 0, 0, 0, 0, 8⟩).toNat % 8 = 0 ∧
    0xFFFF00000000 + 32768 * own.th.claim.length ≤ (own.eaIndex ⟨0, 0, 31, 4, 0, 0, 0, 0, 0, 0, 8⟩).toNat ∧
    (own.eaIndex ⟨0, 0, 31, 4, 0, 0, 0, 0, 0, 0, 8⟩).toNat < 2 ^ 48 ∧
    (plain 0x1000000000000 0 0).Calm ∧ 2 ^ 48 ≤ ((plain 0x1000000000000 0 0).eaIndex ⟨0, 0, 31, 1, 0, 0, 0, 0, 0, 0, 0⟩).toNat ∧
    (plain 0xFF0200000000 0 0).Calm ∧
    0xFF0200000000 ≤ ((plain 0xFF0200000000 0 0).eaIndex ⟨0, 0, 31, 1, 0, 0, 0, 0, 0, 0, 0⟩).toNat ∧
    ((plain 0xFF0200000000 0 0).eaIndex ⟨0, 0, 31, 1, 0, 0, 0, 0, 0, 0, 0⟩).toNat < 0xFFFF00000000 ∧
    barred.Calm ∧ barred.tagHit barred.myCore barred.th.asid .load 0x1FF8 = none ∧
    (∃ e, barred.tlbHit (clusterOf barred.myCore) barred.th.asid 0x1FF8 = some e ∧ e.grants .load = false) ∧
    (plain 0x1FF8 0 0).Calm ∧ (plain 0x1FF8 0 0).tlbHit (clusterOf (plain 0x1FF8 0 0).myCore) 0 0x1FF8 = none ∧
    (plain 0x1FF8 0 0).tagHit (plain 0x1FF8 0 0).myCore 0 .store 0x1FF8 = none ∧
    ((plain 0x1FF8 0 0).walkPages (clusterOf (plain 0x1FF8 0 0).myCore)).length < 16 := by
  refine ⟨own_calm, issues own own_full _ _, issues own own_full _ _, by decide, by decide, by decide, by decide, ?_, by decide, ?_,
    by decide, by decide, ?_, by decide, ⟨_, rfl, by decide⟩, ?_, by decide, by decide, by decide⟩ <;> constructor <;> decide

theorem wit_AtomicForms :
    own.Calm ∧ own.scratchPoison.contains (own.ownByteAt (own.x 4) / 128) = false ∧
    (Instr.amo 0x79 ⟨0, 0, 31, 4, 0, 2, 0, 0, 0, 0, 0⟩).wf = true ∧ own.Issues 0 0 ([dx 4, dx 2] ++ [dx 31]) [dx 31] ∧
    (Instr.amo 0x00 ⟨0, 0, 31, 5, 0, 2, 0, 0, 0, 0, 0⟩).wf = true ∧
    own.ownAddr 8 (own.x 4 + (0 : BitVec 19).signExtend 64) ∧ own.ownAddr 4 (own.x 5 + (0 : BitVec 19).signExtend 64) ∧
    (Instr.red 0x35 ⟨0, 0, 0, 4, 0, 2, 0, 0, 0, 0, 0⟩).wf = true ∧ own.Issues 0 0 [dx 4, dx 2] [] := by
  exact ⟨own_calm, by decide, by decide, issues own own_full _ _, by decide, ⟨by decide, 32760, by decide, by decide⟩,
    ⟨by decide, 32764, by decide, by decide⟩, by decide, issues own own_full _ _⟩

/-- One lane, the last, at the last word of the scratchpad. -/
theorem wit_AtomicForms_vector :
    let s := one { thread [(5, 0xFFFF00007FFC)] with
      claim := [7], r := ((thread [(5, 0xFFFF00007FFC)]).r.setP 1 0x80000000) }
    s.Calm ∧ s.how ≠ .part ∧ s.th.amov = none ∧ (Instr.amov 0x17 ⟨1, 0, 31, 5, 0, 2, 0, 0, 0, 0, 0⟩).wf = true ∧
    s.mask 1 0 ≠ 0 ∧ s.full [dx 5, dv 2, dv 31] ∧ s.free [dv 31] ∧
    (∀ k < 32, (s.mask 1 0).getLsbD k = true →
      s.ownAddr 4 (s.x 5 + (0 : BitVec 19).signExtend 64 + (vat (s.v 2) k).setWidth 64 * scaleOf 0) ∧ s.scratchPoison = [] ∧
      ∀ j < 32, j ≠ k → (s.mask 1 0).getLsbD j = true → j = k) := by
  intro s
  refine ⟨by constructor <;> decide, by decide, by decide, by decide, by decide, ?_, ?_, fun k hk h => ?_⟩
  · unfold State.full; decide
  · unfold State.free; decide
  · have : k = 31 := by revert k; decide
    subst this
    exact ⟨⟨by decide, 32764, by decide, by decide⟩, rfl, by decide⟩

/-- A thread with a load in flight, and one with a store that is not yet visible. -/
def loading : State := one { thread [] with loads := [⟨0, .x 1, 8, [], [], false⟩] }
def storing : State := { one { thread [] with stores := [⟨0, 1, [], .cached, tagged 1, 0, false⟩] } with nextId := 1 }

theorem wit_FencesWaitsPrefetches :
    (plain 0 0 0).Issues 0 0 [] [] ∧ (plain 0 0 0).th.loads = [] ∧ (plain 0 0 0).released (plain 0 0 0).cur = true ∧
    (plain 0 0 0).th.remoteFail = none ∧ loading.Issues 0 0 [] [] ∧ loading.th.loads ≠ [] ∧ storing.Issues 0 0 [] [] ∧
    storing.th.loads = [] ∧ storing.th.speculative = false ∧ storing.released storing.cur = false ∧
    storing.th.remoteFail = none ∧ storing.remoteStores storing.cur storing.nextId = false ∧
    storing.releasedTo storing.cur storing.nextId = false ∧ storing.th.loads.all (fun q => !q.acq) = true ∧
    own.Calm ∧ own.Issues 0 0 [dx 4, dx 2] [dx 31] ∧ (Instr.waitev ⟨0, 0, 31, 4, 0, 2, 0, 3, 0, 0, 0⟩).wf = true ∧
    own.holds 8 (own.x 4 + (0 : BitVec 19).signExtend 64) (Mem.readBytes own.scratch (own.ownByteAt 0xFFFF00007FF8) 8) ∧
    natOfBytes (Mem.readBytes own.scratch (own.ownByteAt 0xFFFF00007FF8) 8) ≠ (own.x 4).toNat % 2 ^ 64 ∧
    natOfBytes (Mem.readBytes own.scratch (own.ownByteAt 0xFFFF00007FF8) 8) = (own.x 2).toNat % 2 ^ 64 ∧ own.th.woken = false := by
  refine ⟨plain_issues _ _ _ _ _, by decide, by decide, by decide, issues loading (fe_thread []) _ _, by decide,
    issues storing (fe_thread []) _ _, by decide, by decide, by decide, by decide, by decide, by decide, by decide, own_calm, issues own own_full _ _, by decide,
    .inl ⟨⟨by decide, 32760, by decide, by decide⟩, by decide, by decide⟩, by decide, by decide, by decide⟩

/-- `PREF` of an address whose translation is there, of one without, and with the idle X31 as its base. -/
theorem wit_FencesWaitsPrefetches_pref :
    miss.Issues 0 0 [dx 4, dx 0] [] ∧ miss.walkless [miss.eaIndex ⟨0, 0, 0, 4, 0, 0, 0, 0, 0, 0, 0⟩] ∧
    miss.tlbHit (clusterOf miss.myCore) miss.th.asid 0x2000 = none ∧
    (∀ q ∈ [dx 31, dx 2], holed.th.r.fe q ≠ .pending) ∧ (∃ q ∈ [dx 31, dx 2], holed.th.r.fe q = .idle) :=
  ⟨issues miss (fe_thread _) _ _, fun va h _ => by cases List.mem_singleton.1 h; decide, by decide, by decide, dx 31, by decide, by decide⟩

/-- A core of which one way is claimed. -/
def claimed : State :=
  { plain 0 0 0 with cores := [(0, { Core.start 0 with ways := vput (Vector.replicate 8 .cache) 0 (.scratch 0) })] }

/-- A claim of all seven ways that may go, one of none too many, and a release. -/
theorem wit_ClaimsAndRetention_claims :
    (plain 0 0 0).Issues 0 0 [] [dx 31] ∧
    8 - ((plain 0 0 0).core (plain 0 0 0).myCore).freeWays.length + 7 ≤ 7 ∧
    (∀ e ∈ ((plain 0 0 0).core (plain 0 0 0).myCore).lines, e.spec = none) ∧
    claimed.Issues 0 0 [] [dx 31] ∧ 7 < 8 - (claimed.core claimed.myCore).freeWays.length + 7 ∧
    own.Issues 0 0 [] [dx 31] ∧ own.th.results = [] ∧ 1 ≤ own.th.claim.length ∧ (plain 0 0 0).th.results = [] ∧
    (let s := one { thread [] with claim := [7], results := [⟨0, [], [], 0, 1, [], none⟩] }
     s.Issues 0 0 [] [dx 31] ∧ ¬∀ q ∈ s.th.results, q.ways = 0) := by
  refine ⟨plain_issues _ _ _ _ _, by decide, by decide, issues claimed (fe_thread [(1, 0), (2, 0), (3, 0)]) _ _, by decide, issues own own_full _ _,
    by decide, by decide, by decide,
    issues (one { thread [] with claim := [7], results := [⟨0, [], [], 0, 1, [], none⟩] }) (fe_thread []) _ _, by decide⟩

/-- The last line of a page, retained with all eight ways by register 0; and a register that holds a base. -/
theorem wit_ClaimsAndRetention_retention :
    let s := mapped (thread [(4, 0x1F80), (2, 0x800000080)]) .cached
    let s2 := s.updDie 0 fun v => { v with retention := vput v.retention 7 (some ⟨0, 0x1F80, 128, [15]⟩) }
    regionOf (s.x 4 + (0 : BitVec 19).signExtend 64) = .translated ∧
    s.pagedAt .load (s.x 4 + (0 : BitVec 19).signExtend 64) 0x1F80 .cached ∧ s.paKind 0x1F80 = .memory ∧
    s.Issues 0 0 [dx 4, dx 2] [dx 31] ∧ (s.x 2).toNat % 2 ^ 32 = 128 ∧ (s.x 2).toNat / 2 ^ 32 = 8 ∧
    0x1F80 + 128 ≤ (s.pageOf 0x1F80).2 ∧ oneHome 0x1F80 128 = true ∧ vat (s.die (homeDie 0x1F80)).retention 0 = none ∧
    s.partWays (homeDie 0x1F80) 0 + 8 ≤ popCount 16 (vat s.parts 0).l2mask.toNat ∧
    (s.die (homeDie 0x1F80)).retention.toList.filterMap id = [] ∧
    8 ≤ ((List.range 16).filter fun x => (vat s.parts 0).l2mask.getLsbD x).length ∧
    (∀ e ∈ (s.die (homeDie 0x1F80)).slices, ∀ x ∈ e.2, x.spec = none) ∧
    s2.pagedAt .load (s2.x 4 + (0 : BitVec 19).signExtend 64) 0x1F80 .cached ∧ s2.Issues 0 0 [dx 4] [dx 31] ∧
    vat (s2.die (homeDie 0x1F80)).retention 7 = some ⟨0, 0x1F80, 128, [15]⟩ ∧
    ∀ j < 7, vat (s2.die (homeDie 0x1F80)).retention j = none := by
  intro s s2
  refine ⟨by decide, ⟨entry .cached, by decide, by decide, by decide, by decide⟩, by decide, issues s (fe_thread _) _ _, by decide, by decide,
    by decide, by decide, by decide, by decide, by decide, by decide, by decide, ⟨entry .cached, by decide, by decide, by decide, by decide⟩,
    issues s2 (fe_thread [(4, 0x1F80), (2, 0x800000080)]) _ _, by decide, by decide⟩

/-- The last X register and the last V register named. -/
theorem wit_FullEmptyInstructions :
    (plain 0 0 0).Issues 0 0 [] [] ∧ (RI.mk 0 0 0 0 0 0x080000000).imm.getLsbD 31 = true ∧
    (RI.mk 0 0 0 0 0 0x180000000).imm.getLsbD 32 = true ∧ (∀ q, (plain 0 0 0).th.r.fe q = .full) :=
  ⟨plain_issues _ _ _ _ _, by decide, by decide, fe_thread _⟩

/-! ### Witnesses: tiles, transactions, queues -/

/-- A record of one row of one line, the last of its page, in the last line of the scratchpad. -/
def record : State :=
  { mapped { thread [(1, 0xFFFF00007F80)] with claim := [7] } .cached with
    scratch := Mem.writeBytes [] 262016 (bytesOfWord 0x1F80 ++ bytesOfWord 0x8000000001 ++ bytesOfWord 128) }

theorem wit_TilesAreDeclared_tiledef :
    record.Calm ∧ record.dirs = [] ∧ (∀ e ∈ record.ctxs, e.2.tx = none) ∧ record.Ready [dx 1] [dx 31] ∧
    (record.x 1 + (0 : BitVec 19).signExtend 64).toNat % 32 = 0 ∧
    (∀ i < 4, record.ownAddr 8 (record.x 1 + (0 : BitVec 19).signExtend 64 + BitVec.ofNat 64 (8 * i))) ∧ record.scratchPoison = [] ∧
    (let w := fun (i : Nat) => natOfBytes (Mem.readBytes record.scratch
        (record.ownByteAt (record.x 1 + (0 : BitVec 19).signExtend 64 + BitVec.ofNat 64 (8 * i))) 8)
     w 0 = 0x1F80 ∧ w 1 = 1 + 128 * 2 ^ 32 ∧ w 2 = 128 ∧ w 3 = 0) ∧
    record.pagedAt .load 0x1F80 0x1F80 .cached ∧ record.paKind 0x1F80 = .memory ∧ 4096 ≤ record.tileOf (0x1F80 / 128) ∧ Tbl.get? record.tiles 0 = none := by
  refine ⟨by constructor <;> decide, by decide, by decide, ready record (fe_thread _) _ _, by decide, fun i hi => ⟨?_, 32640 + 8 * i, ?_, ?_⟩,
    by decide, by decide, ⟨entry .cached, by decide, by decide, by decide, by decide⟩, by decide, by decide, by decide⟩
  · revert i; decide
  · revert i; decide
  · show 32640 + 8 * i < 32768; omega

/-- The last tile number. -/
def tiled : State := { plain 4095 0 0 with tiles := [(4095, ⟨0, 0, 1, 128, 128, 0, [0], [(0, 12)]⟩)] }

theorem wit_TilesAreDeclared_tilerel :
    tiled.Calm ∧ tiled.dirs = [] ∧ (∀ e ∈ tiled.ctxs, e.2.tx = none) ∧ tiled.Ready [dx 1] [dx 31] ∧ (tiled.x 1).toNat < 4096 ∧
    Tbl.get? tiled.tiles 4095 = some ⟨0, 0, 1, 128, 128, 0, [0], [(0, 12)]⟩ ∧ (⟨0, 0, 1, 128, 128, 0, [0], [(0, 12)]⟩ : TileEntry).asid = tiled.th.asid :=
  ⟨by constructor <;> decide, by decide, by decide, ready tiled (fe_thread [(1, 4095), (2, 0), (3, 0)]) _ _, by decide, by decide, by decide⟩

/-- A thread at a depth of a speculative transaction, or under the token. -/
def inTx (depth : BitVec 3) (irrev : Bool) : State :=
  one { thread [] with txstat := { TxStat.none with depth := depth, irrev := irrev }, tx := some (Tx.fresh (some 0x3000) (Regs.start 1)) }

theorem wit_TransactionsBegin :
    ((plain 0 0 0).th.pc + (0x3FFFFF : BitVec 22).signExtend 64 * 8).toNat % 8 = 0 ∧ (plain 0 0 0).th.txstat.depth = 0 ∧
    (plain 0 0 0).th.producing = false ∧ (plain 0 0 0).th.txstat.keepage = false ∧
    ((inTx 6 false).th.pc + (0x3FFFFF : BitVec 22).signExtend 64 * 8).toNat % 8 = 0 ∧ (inTx 6 false).th.txstat.depth ≠ 0 ∧
    (inTx 6 false).th.txstat.depth ≠ 7 ∧ (inTx 7 false).th.txstat.depth = 7 ∧ (inTx 7 false).th.txstat.irrev = false ∧
    (inTx 7 false).Ready [] [dx 31] ∧ (plain 0 0 0).Ready [] [dx 31] :=
  ⟨by decide, by decide, by decide, by decide, by decide, by decide, by decide, by decide, by decide,
    ready (inTx 7 false) (fe_thread []) _ _, ready (plain 0 0 0) (fe_thread [(1, 0), (2, 0), (3, 0)]) _ _⟩

theorem wit_TransactionsEndAndReduce :
    (inTx 2 false).th.tx = some (Tx.fresh (some 0x3000) (Regs.start 1)) ∧ 2 ≤ (inTx 2 false).th.txstat.depth.toNat ∧
    (inTx 1 false).th.txstat.depth = 1 ∧ (inTx 1 false).th.loads = [] ∧ (inTx 1 false).released (inTx 1 false).cur = true ∧
    (inTx 1 false).th.remoteFail = none ∧ (inTx 1 false).th.txstat.irrev = false ∧ (inTx 1 false).settled 0 = true ∧
    (Tx.fresh (some 0x3000) (Regs.start 1)).held = [] ∧
    (inTx 1 true).th.txstat.irrev = true ∧ (inTx 1 true).released (inTx 1 true).cur = true ∧
    (plain 0 0 0).Ready [dx 1, dx 2] [] ∧ (plain 0 0 0).th.txstat.depth = 0 := by
  refine ⟨rfl, by decide, by decide, by decide, by decide, by decide, by decide, by decide, by decide, by decide, by decide,
    ready (plain 0 0 0) (fe_thread [(1, 0), (2, 0), (3, 0)]) _ _, by decide⟩

/-- A speculative transaction that has registered the tile of 0x1FF8 for reductions. -/
def reducing : State :=
  mapped { thread [(4, 0x1FF8)] with
    txstat := { TxStat.none with depth := 1 }, tx := some { Tx.fresh (some 0x3000) (Regs.start 1) with reds := [(4111, 0)] } } .cached

theorem wit_TransactionsEndAndReduce_txred :
    reducing.Ready [dx 4, dx 2] [] ∧ reducing.th.speculative = true ∧ reducing.th.loads = [] ∧ reducing.th.fence = none ∧
    reducing.th.reds = [] ∧ reducing.palCopies = [] ∧ reducing.dead = [] ∧
    reducing.mappedAt .atomic 8 (reducing.x 4 + (0 : BitVec 19).signExtend 64) 0x1FF8 .cached ∧ reducing.paKind 0x1FF8 = .memory ∧
    (∃ x, reducing.th.tx = some x ∧ x.reds.contains (reducing.tileOf (0x1FF8 / 128), 0) = true ∧
      x.writes.contains (reducing.tileOf (0x1FF8 / 128)) = false) :=
  ⟨ready reducing (fe_thread [(4, 0x1FF8)]) _ _, by decide, by decide, by decide, by decide, by decide, by decide,
    by_page (entry .cached) (by decide) (by decide) (by decide) (by decide) (by decide) (by decide) (by decide), by decide, _, rfl,
    by decide, by decide⟩

/-- A command in a view. -/
def command (bound : Binding) : Cmd := ⟨0, 0x00, false, 0, 0, 0, 0, 0, bound, false, false, 0, []⟩

/-- Q2 with seven commands, and full, its oldest command free or held on a guard. -/
def queued (n : Nat) (bound : Binding) : State :=
  one { thread [(6, 0x7400021028605002)] with
    cmds := vput (Vector.replicate 12 []) 2 (command bound :: List.replicate (n - 1) (command .free)) }

theorem wit_CommandsAreQueued :
    Instr.command (.cpy ⟨0, 0, 2, 4, 0, 5, 0, 6, 0, 0, 0, 0x5002⟩) = some (2, 0, true, ⟨0, 0, 2, 4, 0, 5, 0, 6, 0, 0, 0, 0x5002⟩) ∧
    (Instr.cpy ⟨0, 0, 2, 4, 0, 5, 0, 6, 0, 0, 0, 0x5002⟩).wf = true ∧ (vat (queued 7 .free).th.cmds 2).length < 8 ∧
    (queued 7 .free).heldBack true = false ∧ (queued 8 (.heldOn 7)).heldBack true = false ∧ (queued 7 .free).th.tx = none ∧ (queued 7 .free).Issues 0 0 [dx 4, dx 5, dx 6] [] ∧ (queued 7 .free).Issues 0 0 [dx 6] [] ∧
    (queued 7 .free).full [dx 4, dx 5, dx 6] ∧
    (queued 7 .free).x 6 = encode (.cpy ⟨0, 0, 2, 4, 0, 5, 0, 6, 0, 0, 0, 0x5002⟩) ∧
    (queued 8 .free).Issues 0 0 [dx 4, dx 5, dx 6] [] ∧
    vat (queued 8 .free).th.cmds 2 = command .free :: List.replicate 7 (command .free) ∧ (∀ g, (command .free).bound ≠ .heldOn g) ∧
    (queued 8 (.heldOn 7)).Issues 0 0 [dx 4, dx 5, dx 6] [] ∧
    vat (queued 8 (.heldOn 7)).th.cmds 2 = command (.heldOn 7) :: List.replicate 7 (command .free) := by
  refine ⟨by decide, by decide, by decide, by decide, by decide, by decide, issues (queued 7 .free) (fe_thread [(6, 0x7400021028605002)]) _ _,
    issues (queued 7 .free) (fe_thread [(6, 0x7400021028605002)]) _ _, fun q _ => fe_thread [(6, 0x7400021028605002)] q, by decide,
    issues (queued 8 .free) (fe_thread [(6, 0x7400021028605002)]) _ _, by decide, fun g h => by simp [command] at h,
    issues (queued 8 (.heldOn 7)) (fe_thread [(6, 0x7400021028605002)]) _ _, by decide⟩

theorem wit_CommandsAreQueued_held :
    reducing.th.speculative = true ∧ (∀ x, reducing.th.tx = some x → x.held.length < 16) ∧ (vat reducing.th.cmds 2).length < 8 ∧
    reducing.heldBack true = false := by
  refine ⟨by decide, fun x h => ?_, by decide, by decide⟩
  cases h
  decide

/-- A source in the own window and the longest descriptor; a misaligned source; a ring of one line at the end of the
claim; and one that would end beyond it. -/
def ringed (ring : Option Ring) : State := one { thread [(1, 0x7F80), (2, 128), (3, 256)] with claim := [7], ring := ring }

/-- A landing ring behind a copy that has still to start. -/
def ringedBehind (g : Ring) : State :=
  one { thread [(1, 0x7F80)] with claim := [7], ring := some g, cmds := vput (Vector.replicate 12 []) 2 [command .free] }

def landed : Alloc := ⟨0, 1, some 0x7F80, ⟨0, 0, 128, 0, 0, 0, 0, 0, 0, false⟩, false⟩

theorem wit_KicksAndRings :
    (plain 0xFFFF00000000 0x1000000000000 0).Issues 0 0 [dx 1, dx 2, dx 3] [dx 3] ∧
    ((plain 0xFFFF00000000 0x1000000000000 0).x 2).toNat / 2 ^ 32 % 2 ^ 17 = 65536 ∧
    (vat (plain 0xFFFF00000000 0x1000000000000 0).th.cmds 2).length < 8 ∧ (plain 0xFFFF00000000 0x1000000000000 0).th.speculative = false ∧
    ((plain 1 0x400000000 0).x 1).toNat % 4 ≠ 0 ∧
    (ringed none).Issues 0 0 [dx 1, dx 2, dx 0] [] ∧ ((ringed none).x 1).toNat + ((ringed none).x 2).toNat = 32768 * (ringed none).th.claim.length ∧
    (ringed none).th.ring = none ∧ 32768 * (ringed none).th.claim.length < ((ringed none).x 1).toNat + ((ringed none).x 3).toNat ∧
    (ringed (some ⟨0x7F80, 128, 0, [landed]⟩)).th.ring = some ⟨0x7F80, 128, 0, [] ++ landed :: []⟩ ∧
    landed.token = some ((ringed (some ⟨0x7F80, 128, 0, [landed]⟩)).x 1) ∧ landed.acked = false ∧
    (ringed (some ⟨0x7F80, 128, 0, []⟩)).th.ring = some ⟨0x7F80, 128, 0, []⟩ ∧
    (plain 0xFFFF00000000 0x1000000000000 0).heldBack true = false ∧ (ringed none).heldBack true = false ∧
    vat (ringed none).th.cmds 2 = [] ∧ (FQ.mk 0 0 0 1 0 2 0 0 0 0 0 0).guarded = 0 := by
  refine ⟨plain_issues _ _ _ _ _, by decide, by decide, by decide, by decide,
    issues (ringed none) (fe_thread [(1, 0x7F80), (2, 128), (3, 256)]) _ _, by decide, by decide, by decide, rfl, by decide, by decide, rfl,
    by decide, by decide, by decide, by decide⟩

theorem wit_KicksAndRings_behind :
    let s := ringedBehind ⟨0x7F80, 128, 0, [landed]⟩
    s.Issues 0 0 [dx 1, dx 0, dx 0] [] ∧ s.heldBack true = false ∧ s.th.ring = some ⟨0x7F80, 128, 0, [landed]⟩ ∧ landed ∈ [landed] ∧
    landed.token = some (s.x 1) ∧ vat s.th.cmds 2 = command .free :: [] ∧ (command .free).fn < 3 ∧
    ∀ m ∈ [command .free], ¬(m.fn = 4 ∧ m.a = s.x 1) := by
  intro s
  exact ⟨issues s (fe_thread [(1, 0x7F80)]) _ _, by decide, rfl, by decide, by decide, by decide, by decide, by decide⟩

/-- `kack.close` behind a full view, its oldest command free. -/
theorem wit_KicksAndRings_full :
    (queued 8 .free).Issues 0 0 [dx 0, dx 0, dx 0] [] ∧ (queued 8 .free).heldBack true = false ∧ 8 ≤ (vat (queued 8 .free).th.cmds 2).length ∧
    ∀ m ∈ (vat (queued 8 .free).th.cmds 2).head?, m.onGuard = false :=
  ⟨issues (queued 8 .free) (fe_thread [(6, 0x7400021028605002)]) _ _, by decide, by decide, by decide⟩

/-- An element of Q7 waits; a command of Q6 owes one; a line of Q5 waits. -/
def popping : State :=
  one { thread [] with elems := vput (Vector.replicate 12 []) 7 [1], cmds := vput (Vector.replicate 12 []) 6 [command .free],
                       lines := [⟨zeroLanes, false⟩] }

def owing : State := one { thread [] with cmds := vput (Vector.replicate 12 []) 6 [command .free] }

theorem wit_PopsGuardsStatus :
    popping.th.pops = [] ∧ popping.Issues 0 0 [] [dx 31] ∧ vat popping.th.elems 7 = 1 :: [] ∧
    (plain 0 0 0).th.pops = [] ∧ (plain 0 0 0).Issues 0 0 [] [dx 31] ∧ vat (plain 0 0 0).th.elems 8 = [] ∧
    vat (plain 0 0 0).th.cmds (pushOf 8) = [] ∧ owing.th.pops = [] ∧ owing.Issues 0 0 [] [dx 31] ∧ vat owing.th.elems 7 = [] ∧
    (∃ c ∈ vat owing.th.cmds (pushOf 7), c.onGuard = false ∧ c.held = false) ∧ popping.Issues 0 0 [] [dv 31] ∧
    popping.th.lines = ⟨zeroLanes, false⟩ :: [] ∧ (plain 0 0 0).Issues 0 0 [] [] ∧ (plain 0 0 0).Issues 0 0 [dx 1] [] := by
  refine ⟨by decide, issues popping (fe_thread []) _ _, by decide, by decide, plain_issues _ _ _ _ _, by decide, by decide, by decide,
    issues owing (fe_thread []) _ _, by decide, ⟨command .free, by decide, by decide, by decide⟩, issues popping (fe_thread []) _ _, rfl,
    plain_issues _ _ _ _ _, plain_issues _ _ _ _ _⟩

/-- The one command that owes Q7 a record is held on a guard. -/
def deadlocked : State := one { thread [] with cmds := vput (Vector.replicate 12 []) 6 [command (.heldOn 7)] }

theorem wit_PopsGuardsStatus_deadlock :
    deadlocked.th.pops = [] ∧ deadlocked.Issues 0 0 [] [dx 31] ∧ vat deadlocked.th.elems 7 = [] ∧
    vat deadlocked.th.cmds (pushOf 7) = [command (.heldOn 7)] ∧ (command (.heldOn 7)).onGuard = true :=
  ⟨by decide, issues deadlocked (fe_thread []) _ _, by decide, by decide, by decide⟩

/-- Four pops; an element of Q9 with a record held, of Q10, and none of Q11; and a ring that owes Q10 fifteen records. -/
def fourPops : State := one { thread [] with pops := List.replicate 4 ⟨7, .x 1, 0⟩ }

def withRecords : State :=
  { one { thread [] with elems := vput (vput (Vector.replicate 12 []) 9 [1]) 10 [2] } with
    ote := { State.reset.ote with held := [(0, ⟨[3, 4], false⟩)] } }

def owingNotices : State := one { thread [] with ring := some ⟨0, 0x8000, 0, List.replicate 15 { landed with token := none }⟩ }

theorem wit_PopsGuardsStatus_more :
    fourPops.th.pops.length = 4 ∧ fourPops.Issues 0 0 [] [dx 31] ∧ fourPops.Issues 0 0 [] [dv 31] ∧ withRecords.th.pops = [] ∧
    withRecords.Issues 0 0 [] [dx 31] ∧ vat withRecords.th.elems 9 = 1 :: [] ∧ vat withRecords.th.elems 10 = 2 :: [] ∧
    Tbl.get? withRecords.ote.held withRecords.cur = some ⟨3 :: [4], false⟩ ∧ vat withRecords.th.elems 11 = [] ∧
    owingNotices.Issues 0 0 [] [dx 31] ∧ vat owingNotices.th.elems 10 = [] ∧
    (∃ g, owingNotices.th.ring = some g ∧ (g.allocs.filter fun a => a.token.isNone && a.notice.handler = 0).length = 15) ∧
    (owingNotices.core owingNotices.myCore).notices.length ≤ 16 := by
  refine ⟨by decide, issues fourPops (fe_thread []) _ _, issues fourPops (fe_thread []) _ _, by decide, issues withRecords (fe_thread []) _ _,
    by decide, by decide, by decide, by decide, issues owingNotices (fe_thread []) _ _, by decide, ⟨_, rfl, by decide⟩, by decide⟩

/-! ### Witnesses: fibres, barriers, tasks -/

/-- F7 open with two byte coordinates at the start of the scratchpad, at its second element. -/
def fibred (vfmt : BitVec 4) (pos : BitVec 22) : State :=
  one { thread [(1, 0xFFFF00000000), (2, 0), (3, 0x7BFFFFF), (4, 5)] with
    claim := [7]
    r := { (thread [(1, 0xFFFF00000000), (2, 0), (3, 0x7BFFFFF), (4, 5)]).r with
      fibres := vput (Vector.replicate 8 Fibre.closedOne) 7 ⟨.opened, vfmt, 0, pos, 2, 0x3FFFC0000000, 0x3FFFC0000000⟩ } }

theorem fibred_full (v : BitVec 4) (p : BitVec 22) : ∀ q, (fibred v p).th.r.fe q = .full := by
  intro q
  have := fe_thread [(1, 0xFFFF00000000), (2, 0), (3, 0x7BFFFFF), (4, 5)] q
  cases q <;> exact this

theorem fibred_holds (v : BitVec 4) (j : Nat) (h : j < 2) :
    (fibred v 1).holds 1 (BitVec.ofNat 64 ((0x3FFFC0000000 : BitVec 46).toNat * 4 + j))
      (Mem.readBytes (fibred v 1).scratch ((fibred v 1).ownByteAt (BitVec.ofNat 64 ((0x3FFFC0000000 : BitVec 46).toNat * 4 + j))) 1) := by
  refine .inl ⟨⟨?_, j, ?_, ?_⟩, rfl, rfl⟩
  · exact Nat.mod_one _
  · revert j; decide
  · show j < 32768; omega

theorem wit_Fibres :
    (fibred 0 1).Issues 0 0 [dx 1, dx 2, dx 3] [] ∧ ((fibred 0 1).x 1).toNat % 4 = 0 ∧ 0xFFFF00000000 ≤ ((fibred 0 1).x 1).toNat ∧
    ((fibred 0 1).x 1).toNat < 2 ^ 48 ∧ ((fibred 0 1).x 2).toNat < 0xFF0000000000 ∧ ((fibred 0 1).x 3).toNat < 2 ^ 27 ∧
    ((fibred 0 1).x 3).extractLsb' 22 2 ≠ 3 ∧ (fibred 0 1).Issues 0 0 [dx 4] [] ∧ (vat (fibred 0 1).th.r.fibres 7).state ≠ .closed ∧
    (vat (fibred 0 1).th.r.fibres 0).state = .closed ∧ (fibred 0 1).Calm ∧ (fibred 0 1).Issues 0 0 [] [] ∧
    (∀ j < 2, ∃ bs, (fibred 0 1).holds 1 (BitVec.ofNat 64 ((vat (fibred 0 1).th.r.fibres 7).cptr.toNat * 4 + j)) bs) ∧
    (fibred 7 1).Calm ∧ (fibred 7 1).Issues 0 0 [] [dv 31] ∧ (fibred 0 1).Issues 0 0 [] [dx 31] ∧
    (vat (fibred 7 1).th.r.fibres 7).vfmt = 7 ∧ (vat (fibred 0 1).th.r.fibres 7).vfmt = 0 ∧
    (∀ j < 2, ∃ bs, (fibred 7 1).holds 1 (BitVec.ofNat 64 ((vat (fibred 7 1).th.r.fibres 7).vptr.toNat * 4 + j)) bs) := by
  refine ⟨issues _ (fibred_full _ _) _ _, by decide, by decide, by decide, by decide, by decide, by decide, issues _ (fibred_full _ _) _ _,
    by decide, by decide, by constructor <;> decide, issues _ (fibred_full _ _) _ _, fun j h => ⟨_, fibred_holds 0 j h⟩,
    by constructor <;> decide, issues _ (fibred_full _ _) _ _, issues _ (fibred_full _ _) _ _, by decide, by decide,
    fun j h => ⟨_, fibred_holds 7 j h⟩⟩

theorem fibred_word (v : BitVec 4) :
    (fibred v 1).holds 4 (BitVec.ofNat 64 ((0x3FFFC0000000 : BitVec 46).toNat * 4 + 4))
      (Mem.readBytes (fibred v 1).scratch ((fibred v 1).ownByteAt (BitVec.ofNat 64 ((0x3FFFC0000000 : BitVec 46).toNat * 4 + 4))) 4) :=
  .inl ⟨⟨by decide, 4, by decide, by show 4 < 32768; omega⟩, rfl, rfl⟩

/-- A misaligned base, a width and a format that are not, a length beyond its field; a target behind the fibre's end; words
of each format. -/
theorem wit_Fibres_more :
    (plain 2 0 0).Issues 0 0 [dx 1, dx 2, dx 3] [] ∧ ¬((plain 2 0 0).x 1).toNat % 4 = 0 ∧ ((plain 0 0 0xC00000).x 3).extractLsb' 22 2 = 3 ∧
    ((plain 0 0 0x8000000).x 3).getLsbD 27 = true ∧ ((plain 0 0 0x10000000).x 3).extractLsb' 22 2 ≠ 3 ∧
    ((plain 0 0 0x10000000).x 3).getLsbD 27 = false ∧ 2 ^ 28 ≤ ((plain 0 0 0x10000000).x 3).toNat ∧
    (let f := vat (fibred 0 1).th.r.fibres 7
     f.pos.toNat = 1 ∧ f.len.toNat = 2 ∧ f.cwidth = 0 ∧ ((fibred 0 1).x 4).toNat % 2 ^ 32 = 5 ∧
       natOfBytes (Mem.readBytes (fibred 0 1).scratch ((fibred 0 1).ownByteAt (BitVec.ofNat 64 (f.cptr.toNat * 4 + 1))) 1) < 5) ∧
    ∀ v ∈ [0, 5, 6], (vat (fibred v 1).th.r.fibres 7).vfmt = v ∧ (fibred v 1).Calm ∧
      ∃ bs, (fibred v 1).holds 4 (BitVec.ofNat 64 ((vat (fibred v 1).th.r.fibres 7).vptr.toNat * 4 + (1 + 0) * 4)) bs := by
  refine ⟨plain_issues _ _ _ _ _, by decide, by decide, by decide, by decide, by decide, by decide, by decide, fun v _ => ⟨rfl, ?_, _, fibred_word v⟩⟩
  constructor <;> first | rfl | exact Nat.zero_le _

/-- The last barrier object of die 3, in phase p with arrivals, for a thread with the handle in X1 and a phase in X2. -/
def barred3 (h n : Word) (e : Nat) (p : W32) (a : Vector Nat 4) : State :=
  { plain h n 0 with dies := vput (Vector.replicate 4 Die.start) 3 { Die.start with barriers := [(2047, ⟨0, e, p, a⟩)] } }

theorem barred3_issues (h n : Word) (e : Nat) (p : W32) (a : Vector Nat 4) (srcs dsts : List RegRef) :
    (barred3 h n e p a).Issues 0 0 srcs dsts := issues (barred3 h n e p a) (fe_thread [(1, h), (2, n), (3, 0)]) _ _

theorem barred3_calm (h n : Word) (e : Nat) (p : W32) (a : Vector Nat 4) : (barred3 h n e p a).Calm := by
  constructor <;> first | rfl | exact Nat.zero_le _

/-- An arrival, the last one of a phase, a phase at most three ahead and one four ahead, and one behind. -/
theorem wit_Barriers :
    (plain 65535 0 0).Calm ∧ (plain 65535 0 0).Issues 0 0 [dx 1] [dx 31] ∧ ((plain 65535 0 0).x 1).toNat < 65536 ∧
    (plain 65535 0 0).barrier? (plain 65535 0 0).myDie 2047 = none ∧ 65536 ≤ ((plain 65536 0 0).x 1).toNat ∧
    (barred3 8191 0 1 0 (Vector.replicate 4 0)).Calm ∧ (barred3 8191 0 1 0 (Vector.replicate 4 0)).Issues 0 0 [dx 1] [dx 31] ∧
    (barred3 8191 0 1 0 (Vector.replicate 4 0)).barrier? (8191 / 2048) (8191 % 2048) = some ⟨0, 1, 0, Vector.replicate 4 0⟩ ∧
    (barred3 8191 0 2 0 (Vector.replicate 4 1)).barrier? (8191 / 2048) (8191 % 2048) = some ⟨0, 2, 0, Vector.replicate 4 1⟩ ∧
    (barred3 8191 3 2 0 (Vector.replicate 4 0)).Issues 0 0 [dx 1, dx 2] [] ∧
    (((barred3 8191 3 2 0 (Vector.replicate 4 0)).x 2).setWidth 32 - (0 : W32)).toNat ≤ 3 ∧
    (((barred3 8191 4 2 0 (Vector.replicate 4 0)).x 2).setWidth 32 - (0 : W32)).toNat = 4 ∧
    2 ^ 31 ≤ (((barred3 8191 0 2 1 (Vector.replicate 4 0)).x 2).setWidth 32 - (1 : W32)).toNat ∧
    (barred3 8191 0 1 0 (Vector.replicate 4 0)).Issues 0 0 [dx 1, dx 2] [dx 31] ∧ (plain 0 0 0).Issues 0 0 [dx 1, dx 2] [] ∧
    (vat (plain 0 0 0).th.cmds 2).length < 8 ∧ (∃ j < 2048, (plain 65535 0 0).barrier? (plain 65535 0 0).myDie j = none) ∧
    (∃ i < 4, vat (Vector.replicate 4 1) i ≠ 0) ∧ (barred3 8191 3 2 0 (Vector.replicate 4 0)).th.woken = false := by
  refine ⟨by constructor <;> decide, plain_issues _ _ _ _ _, by decide, by decide, by decide, barred3_calm _ _ _ _ _,
    barred3_issues _ _ _ _ _ _ _, by decide, by decide, barred3_issues _ _ _ _ _ _ _, by decide, by decide, by decide,
    barred3_issues _ _ _ _ _ _ _, plain_issues _ _ _ _ _, by decide, ⟨2047, by decide, by decide⟩, ⟨0, by decide, by decide⟩, by decide⟩

/-- A record of launch slot 5, a launch there, and a thread bound from it. -/
def someRecord : TaskRec := ⟨0x1000, 7, 0, 0, 0, 0, 5, 0⟩
def someHeader : Header := ⟨0x1000000000000, 0x1000, 0, 0, 0, Vector.replicate 6 1, 0⟩
def someLaunch : Launch := ⟨0, none, none, someHeader, 0, true, [⟨0, 1, 1⟩], 0, 1, 1, 0, false, none, none, none⟩

/-- A task of that launch on a core, with a deque of n records and a spill area of m. -/
def tasked (x : List (Nat × Word)) (claim : List Nat) (n m : Nat) (triggered : Bool) : State :=
  { one { thread x with claim := claim, info := { Meta.none with task := some someRecord, triggered := triggered } } with
    cores := [(0, { Core.start 0 with deque := List.replicate n someRecord, spill := vput (Vector.replicate 8 []) 0 (List.replicate m someRecord) })]
    disp := ⟨Vector.replicate 8 0, [(5, someLaunch)]⟩ }

theorem tasked_issues (x : List (Nat × Word)) (c : List Nat) (n m : Nat) (t : Bool) (srcs dsts : List RegRef) :
    (tasked x c n m t).Issues 0 0 srcs dsts := issues (tasked x c n m t) (fe_thread x) _ _

theorem tasked_calm (x : List (Nat × Word)) (c : List Nat) (n m : Nat) (t : Bool) : (tasked x c n m t).Calm := by
  constructor <;> first | rfl | exact Nat.zero_le _

/-- X1 the last double word of the scratchpad, X2 an entry address, X4 a misaligned one. -/
def forks (n m : Nat) : State := tasked [(1, 0xFFFF00007FF8), (2, 0x1000), (4, 0x1004)] [7] n m false

theorem wit_ThreadsForkJoinEnd :
    (forks 31 0).Calm ∧ (forks 31 0).Issues 0 0 [dx 2, dx 3, dx 1] [dx 31] ∧ (Instr.fork ⟨0, 0, 31, 2, 0, 3, 0, 1, 0, 0⟩).wf = true ∧
    ((forks 31 0).x 4).toNat % 8 ≠ 0 ∧ ((forks 31 0).x 2).toNat % 8 = 0 ∧ ((forks 31 0).core 0).deque.length < 32 ∧
    (forks 31 0).th.info.task = some someRecord ∧ (forks 31 0).launch? 5 = some someLaunch ∧
    ((forks 32 64).core 0).deque.length = 32 ∧ (vat ((forks 32 64).core 0).spill (slotOf (forks 32 64).cur)).length = 64 ∧
    (forks 0 0).Issues 0 0 [dx 1] [] ∧ (forks 0 0).ownAddr 8 ((forks 0 0).x 1) ∧ (forks 0 0).th.joined = false ∧
    (forks 0 0).scratchPoison.contains ((forks 0 0).ownByteAt ((forks 0 0).x 1) / 128) = false ∧
    natOfBytes (Mem.readBytes (forks 0 0).scratch ((forks 0 0).ownByteAt ((forks 0 0).x 1)) 8) = 0 ∧
    natOfBytes (Mem.readBytes { forks 0 0 with scratch := [((forks 0 0).ownByteAt ((forks 0 0).x 1), 2)] }.scratch
      ((forks 0 0).ownByteAt ((forks 0 0).x 1)) 8) = 2 := by
  refine ⟨tasked_calm _ _ _ _ _, tasked_issues _ _ _ _ _ _ _, by decide, by decide, by decide, by decide, rfl, rfl, by decide, by decide,
    tasked_issues _ _ _ _ _ _ _, ⟨by decide, 32760, by decide, by decide⟩, by decide, by decide, by decide, by decide⟩

/-- A thread that holds nothing, and one whose JOIN has counted. -/
def ending (joined : Bool) : State :=
  { tasked [] [] 0 0 true with ctxs := [(0, { thread [] with info := { Meta.none with task := some someRecord, triggered := true }, joined := joined })] }

theorem wit_ThreadsForkJoinEnd_ends :
    (ending true).Calm ∧ (ending true).cur < 32768 ∧ (∀ q ∈ [0, 2, 4, 6, 8], vat (ending true).th.cmds q = []) ∧
    (ending true).th.ring = none ∧ (ending true).th.claim = [] ∧ (ending true).th.info.notice = none ∧
    (∀ n < 4, (ending true).ink (ending true).myCore n = none) ∧ (ending false).Issues 0 0 [] [] ∧
    (ending true).Issues 0 0 [dx 1] [] ∧ (ending true).th.joined = true :=
  ⟨by constructor <;> decide, by decide, by decide, by decide, by decide, by decide, by decide, issues (ending false) (fe_thread []) _ _,
    issues (ending true) (fe_thread []) _ _, by decide⟩

/-- A core whose slots all hold threads and whose deque holds a record. -/
def crowded : State := { tasked [] [] 1 0 true with ctxs := (List.range 8).map fun i => (i, thread []) }

theorem wit_YieldTriggerLaunch_yield :
    (plain 0 0 0).Issues 0 0 [] [] ∧ (plain 0 0 0).cur < 32768 ∧ (plain 0 0 0).hasRecord 0 = false ∧
    crowded.Issues 0 0 [] [] ∧ crowded.hasRecord crowded.myCore = true ∧ crowded.freeResident crowded.myCore = none ∧
    crowded.tokenHolder ≠ some crowded.cur ∧ (tasked [] [] 0 0 false).Calm ∧ (tasked [] [] 0 0 false).Issues 0 0 [] [] ∧
    (tasked [] [] 0 0 false).th.info.triggered = false ∧ (tasked [] [] 0 0 true).th.info.triggered = true ∧
    (plain 0 0 0).Issues 0 0 [dx 1, dx 2] [dx 31] := by
  refine ⟨plain_issues _ _ _ _ _, by decide, by decide, issues crowded (fe_thread []) _ _, by decide, by decide, by decide,
    tasked_calm _ _ _ _ _, tasked_issues _ _ _ _ _ _ _, by decide, by decide, plain_issues _ _ _ _ _⟩

/-- Queue 63 of ASID 0 enabled, with a ring of two entries at the end of the scratchpad, and its tail given. -/
def launching (a n : Word) (tail : W32) : State :=
  { one { thread [(1, a), (2, n)] with claim := [7] } with queues := [(63, { Queue.off with ring := 0xFFFF00007FF0, size := 2, ctl := 8, tail := tail })] }

theorem launching_calm (a n : Word) (t : W32) : (launching a n t).Calm := by constructor <;> first | rfl | exact Nat.zero_le _

theorem wit_YieldTriggerLaunch_queues :
    (launching 0x1F80 63 0).Calm ∧ (launching 0x1F80 63 0).Issues 0 0 [dx 1, dx 2] [dx 31] ∧
    ((launching 0x1F80 62 0).x 2).toNat < 64 ∧ ((launching 0x1F80 62 0).queue 0 62).enabled = false ∧ 64 ≤ ((launching 0x1F80 64 0).x 2).toNat ∧
    ((launching 0x1F80 63 0).queue 0 63).enabled = true ∧ ((launching 0x1F80 63 0).queue 0 63).invalid = false ∧
    ((launching 1 63 0).x 1).toNat % 128 ≠ 0 ∧ ((launching 0x1F80 63 0).x 1).toNat % 128 = 0 ∧
    ((launching 0x1F80 63 2).queue 0 63).tail - ((launching 0x1F80 63 2).queue 0 63).head = ((launching 0x1F80 63 2).queue 0 63).size ∧
    ((launching 0x1F80 63 1).queue 0 63).tail - ((launching 0x1F80 63 1).queue 0 63).head ≠ ((launching 0x1F80 63 1).queue 0 63).size ∧
    (launching 0x1F80 63 1).ownAddr 8 (BitVec.ofNat 64 (((launching 0x1F80 63 1).queue 0 63).ring.toNat + 8 * (1 % 2))) ∧
    (launching 0x1F80 63 1).scratchPoison = [] ∧
    4096 ≤ ((launching 0x1F80 4096 0).x 2).toNat := by
  refine ⟨launching_calm _ _ _, issues (launching 0x1F80 63 0) (fe_thread [(1, 0x1F80), (2, 63)]) _ _, by decide, by decide, by decide, by decide,
    by decide, by decide, by decide, by decide, by decide, ⟨by decide, 32760, by decide, by decide⟩, by decide, by decide⟩

/-- Memory that holds the page tables of ASID 0, one page of 1 GiB at 0, and the bytes given. -/
def tables (m : Mem) : Mem := Mem.writeBytes (Mem.writeBytes m 0x10000 (bytesOfWord 0x11001)) 0x11000 (bytesOfWord 0x1F)

/-- A kernel header of one task in the last line of a page. -/
def kernel : State :=
  { mapped (thread [(1, 0x1F80), (2, 4095)]) .cached with
    spaces := [(0, { Space.system with ptbase := 0x10001 })]
    mem := tables (Mem.writeBytes [] 0x1F80 (bytesOfWord 0x1000000000000 ++ bytesOfWord 0x1000 ++ bytesOfWord 0 ++ bytesOfWord 0 ++ bytesOfWord 0 ++
      (List.range 6).flatMap fun _ => bytesOfWord 1)) }

theorem wit_YieldTriggerLaunch_core :
    kernel.Calm ∧ kernel.Issues 0 0 [dx 1, dx 2] [dx 31] ∧ (kernel.x 2).toNat < 4096 ∧ kernel.inPartition 0 4095 = true ∧
    (kernel.x 1).toNat % 128 = 0 ∧ (let ws := [0x1000000000000, 0x1000, 0, 0, 0, 1, 1, 1, 1, 1, 1, 0, 0, 0, 0, 0]
     kernel.headerWords 0 0x1F80 = some ws ∧ headerCode ws = none ∧ (headerOf ws).kind = 0) ∧
    kernel.disp.launches = [] :=
  ⟨by constructor <;> decide, issues kernel (fe_thread [(1, 0x1F80), (2, 4095)]) _ _, by decide, by decide, by decide,
    ⟨by decide +kernel, by decide, by decide⟩, by decide⟩

/-! ### Witnesses: inkwell tables, Gaussian messages, the palimpsest cache -/

/-- A spill header of one entry in the last half line of a page, in a line that the core owns. -/
def inking : State :=
  { mapped (thread [(1, 0x1FC0)]) .cached with
    cores := [(0, { Core.start 0 with l1 := [(4111, ⟨.e, [], 0⟩)], lines := [⟨tagged 63, 63, 0, .normal, none, false⟩] })]
    mem := Mem.writeBytes [] 0x1FC0 (bytesOfWord 0x1FB0 ++ bytesOfWord 0x100000002 ++ bytesOfWord 3) }

theorem wit_Inkwell_claim :
    inking.Calm ∧ inking.Issues 0 0 [dx 1] [dx 31] ∧ (inking.x 1).toNat % 64 = 0 ∧ inking.mappedAt .store 64 (inking.x 1) 0x1FC0 .cached ∧
    inking.paKind 0x1FC0 = .memory ∧ inking.l1Hit inking.myCore (0x1FC0 / 128) = true ∧
    inking.readBad inking.cur 0x1FC0 .cached = false ∧ inking.holders (inking.tileOf (0x1FC0 / 128)) (·.writes) = [] ∧
    (∀ e ∈ (inking.core inking.myCore).lines, e.spec = none) ∧
    (let w := fun (i : Nat) => natOfBytes (Mem.readBytes inking.mem (0x1FC0 + 8 * i) 8)
     w 0 = 0x1FB0 ∧ w 1 = 2 + 1 * 2 ^ 32 ∧ w 2 = 3 ∧ ∀ i < 8, 3 ≤ i → w i = 0) ∧
    (∀ a ∈ spillPages 0x1FB0 2, inking.pagedAt .store (BitVec.ofNat 64 a) a .cached) ∧ inking.ink inking.myCore 0 = none ∧
    8 - (inking.core inking.myCore).freeWays.length + 4 ≤ 7 := by
  refine ⟨by constructor <;> decide, issues inking (fe_thread [(1, 0x1FC0)]) _ _, by decide,
    by_line ⟨tagged 63, 63, 0, .normal, none, false⟩ (by decide) (by decide) (by decide) (by decide), by decide, by decide, by decide, by decide,
    by decide, by decide, ?_, by decide, by decide⟩
  have h : spillPages 0x1FB0 2 = [0x1000] := by decide
  rw [h]
  intro a ha
  cases List.mem_singleton.1 ha
  exact ⟨entry .cached, by decide, by decide, by decide, by decide⟩

/-- Table 3 of the core, of way 7, owned by the thread, empty or with key 0 at the place of its probe. -/
def inked (entries : Tbl (W32 × W32)) : State :=
  { one { thread [(1, 3), (2, 4095)] with r := (thread [(1, 3), (2, 4095)]).r.setP 1 0x80000000 } with
    cores := [(0, { Core.start 0 with ink := vput (Vector.replicate 4 none) 3 (some ⟨0, 0, [7], entries, 0, 0, 0, 0, false, false⟩) })] }

theorem inked_full (e : Tbl (W32 × W32)) : ∀ q, (inked e).th.r.fe q = .full := by
  intro q
  have := fe_thread [(1, 3), (2, 4095)] q
  cases q <;> exact this

theorem wit_Inkwell :
    (inked []).Calm ∧ (inked []).Issues 0 0 [dx 1] [] ∧ ((inked []).x 1).toNat < 4 ∧
    (∃ t, (inked []).ink (inked []).myCore 3 = some t ∧ t.asid = (inked []).th.asid ∧ t.owner = (inked []).cur ∧
      (∀ v ∈ t.ways, v < 8) ∧ t.ways.length ≤ 8 ∧ (inked []).mask 1 0 = BitVec.ofNat 32 (2 ^ 31) ∧
      (t.probe 0).find? (fun p => (t.entry p).1 = 0) = none ∧
      ((t.probe 0).find? fun p => (t.entry p).1 = 0xFFFFFFFF || (t.entry p).1 = 0xFFFFFFFE).isSome = true ∧
      ((inked []).x 2).toNat % 2 ^ 63 ≤ 4096 * t.ways.length) ∧
    (inked []).full [dv 1, dv 2, dx 1] ∧ (inked []).free [dv 30, .v 31] ∧
    (inked []).Issues 0 0 [dx 2, dx 1] [dx 2, dv 30, .v 31] ∧ (inked []).inkBusy (inked []).myCore 3 = false ∧
    (∀ e ∈ ((inked []).core (inked []).myCore).lines, e.spec = none) := by
  refine ⟨by constructor <;> decide, issues _ (inked_full _) _ _, by decide, ⟨_, rfl, by decide, by decide, by decide, by decide, by decide,
    by decide +kernel, by decide +kernel, by decide⟩, fun q _ => inked_full _ q, fun q _ => by rw [inked_full _ q]; decide,
    issues _ (inked_full _) _ _, by decide, by decide⟩

/-- A key that the table holds. -/
theorem wit_Inkwell_held :
    ∃ p, ∃ t, (inked [(p, (0, 9))]).ink (inked [(p, (0, 9))]).myCore 3 = some t ∧ ((t.probe 0).find? fun p => (t.entry p).1 = 0) = some p :=
  ⟨((InkTable.mk 0 0 [7] [] 0 0 0 0 false false).probe 0).headD 0, _, rfl, by decide +kernel⟩

theorem wit_Gaussian_arithmetic :
    (plain 0 0 0).Issues 0 0 (dv 23 :: dvs 29 3 ++ dvs 0 8) [] ∧ 8 + (7 + 1) ≤ 16 ∧ (23 < 0 ∨ 0 + 8 ≤ 23) ∧ 29 + 3 ≤ 32 ∧
    (plain 0 0x3C0000000000 0).Issues 0 0 (dvs 26 3 ++ [dx 2] ++ dvs 29 3) [] ∧ 26 + 3 ≤ 29 ∧
    (fmtF16.decode (((plain 0 0 0).x 2).toNat / 2 ^ 32 % 2 ^ 16)).isZero = true ∧
    (fmtF16.decode (((plain 0 0x3C0000000000 0).x 2).toNat / 2 ^ 32 % 2 ^ 16)).same (.fin false 1 0) = true ∧
    (let β := fmtF16.decode (((plain 0 0x380000000000 0).x 2).toNat / 2 ^ 32 % 2 ^ 16)
     ¬(β.isNan = true ∨ β.lt (.fin false 0 0) = true ∨ (FVal.fin false 1 0).lt β = true) ∧ β.isZero = false ∧ β.same (.fin false 1 0) = false) ∧
    (fmtF16.decode (((plain 0 0x7E0000000000 0).x 2).toNat / 2 ^ 32 % 2 ^ 16)).isNan = true ∧
    (plain 0 0 0).Issues 0 0 (dvs 8 8 ++ [dv 16]) (dvs 29 3) ∧
    ((List.range 8).filter fun i => !((plain 0 0 0).p 1).getLsbD i) = List.range 8 ∧ (R3.mk 0 0 29 8 0 16 0 1 0 0x17).mod.getLsbD 4 = true := by
  refine ⟨plain_issues _ _ _ _ _, by decide, by decide, by decide, plain_issues _ _ _ _ _, by decide, by decide, by decide, by decide,
    by decide, plain_issues _ _ _ _ _, by decide, by decide⟩

/-- A joint of two variables with a pivot of 4.0 at its last place, or 0; the second is kept out by P1. -/
def pivoting (v : W32) : State :=
  let c := thread []
  one { c with r := (c.r.setV 8 (lanesOf fun i => if i = 17 then v else 0)).setP 1 2 }

theorem pivoting_full (v : W32) : ∀ q, (pivoting v).th.r.fe q = .full :=
  fe_setP _ _ _ (fe_setV _ _ _ (fe_thread []))

theorem wit_Gaussian_pivot :
    (pivoting 0x40800000).Issues 0 0 (dvs 8 8 ++ [dv 16]) (dvs 29 3) ∧ (R3.mk 0 0 29 8 0 16 0 1 0 1).mod.toNat % 16 + 1 = 2 ∧
    ((List.range 2).filter fun i => !((pivoting 0x40800000).p 1).getLsbD i) = (List.range 2).filter (· ≠ 1) ∧
    (let p := fmtF32.decode ((pivoting 0x40800000).jointAt 8 1 1)
     ¬(p.isNan = true ∨ p.isInf = true ∨ (FVal.fin false 0 0).lt p = false)) ∧
    (pivoting 0).Issues 0 0 (dvs 8 8 ++ [dv 16]) (dvs 29 3) ∧
    (FVal.fin false 0 0).lt (fmtF32.decode ((pivoting 0).jointAt 8 1 1)) = false := by
  refine ⟨issues _ (pivoting_full _) _ _, by decide, by decide, by decide, issues _ (pivoting_full _) _ _, by decide⟩

/-- A speculative transaction that holds n things. -/
def holding (n : Nat) : State :=
  one { thread [(2, 0xFFFF1FFFFFFF)] with
    txstat := { TxStat.none with depth := 1 }
    tx := some { Tx.fresh (some 0x3000) (Regs.start 1) with held := List.replicate n (.cmd 2 0) } }

theorem wit_Gaussian_held :
    (holding 15).Issues 0 0 (dvs 29 3 ++ [dx 2, dx 3]) [dx 31] ∧ (holding 15).th.speculative = true ∧
    ((holding 15).x 2).toNat < 2 ^ 48 ∧ ((holding 15).x 2).toNat / 2 ^ 29 % 8 = 0 ∧ (∃ x, (holding 15).th.tx = some x ∧ x.held.length = 15) ∧
    (holding 16).Issues 0 0 (dvs 29 3 ++ [dx 2, dx 3]) [dx 31] ∧ ∃ x, (holding 16).th.tx = some x ∧ x.held.length = 16 :=
  ⟨issues (holding 15) (fe_thread [(2, 0xFFFF1FFFFFFF)]) _ _, by decide, by decide, by decide, ⟨_, rfl, by decide⟩,
    issues (holding 16) (fe_thread [(2, 0xFFFF1FFFFFFF)]) _ _, _, rfl, by decide⟩

/-- A slot in the last 384 bytes of the scratchpad: empty, stale, and full and new. -/
def taking (seq : Word) (flags : Word) : State :=
  { one { thread [(1, 0x7E80), (2, 0)] with claim := [7] } with
    scratch := Mem.writeBytes [] (7 * 32768 + 0x7E80) (bytesOfWord seq ++ bytesOfWord flags) }

theorem taking_issues (q f : Word) (srcs dsts : List RegRef) : (taking q f).Issues 0 0 srcs dsts :=
  issues (taking q f) (fe_thread [(1, 0x7E80), (2, 0)]) _ _

theorem wit_Gaussian_messages :
    (plain 0 0xFFFF1FFFFFFF 0).Calm ∧ (plain 0 0xFFFF1FFFFFFF 0).Issues 0 0 (dvs 29 3 ++ [dx 2, dx 3]) [dx 31] ∧
    ((plain 0 0xFFFF1FFFFFFF 0).x 2).toNat < 2 ^ 48 ∧ ((plain 0 0xFFFF1FFFFFFF 0).x 2).toNat / 2 ^ 29 % 8 = 0 ∧
    ((plain 0 0x20000000 0).x 2).toNat / 2 ^ 29 % 8 ≠ 0 ∧
    (taking 1 0x100000000000000).Calm ∧ (taking 1 0x100000000000000).Issues 0 0 [dx 1, dx 2] (dvs 29 3 ++ [dx 30, .x 31]) ∧
    ((taking 1 0x100000000000000).x 1).toNat % 128 = 0 ∧
    ((taking 1 0x100000000000000).x 1).toNat + 384 ≤ 32768 * (taking 1 0x100000000000000).th.claim.length ∧
    (taking 1 0x100000000000000).scratchPoison = [] ∧ 32768 * 1 < 0x7F00 + 384 ∧
    ({ taking 1 0 with scratchPoison := [7 * 256 + 255] }).scratchPoison.contains
      (claimLine (taking 1 0).myCore (taking 1 0).th.claim (0x7E80 / 128 + 2)) = true ∧
    (let byte := fun (s : State) (i : Nat) => Mem.read s.scratch (arrayByte s.myCore s.th.claim (0x7E80 + i))
     let num := fun (s : State) (o n : Nat) => natOfBytes ((List.range n).map fun i => byte s (o + i))
     (num (taking 1 0x100000000000000) 8 8).testBit 56 = true ∧ num (taking 1 0x100000000000000) 0 8 = 1 ∧
       (num (taking 1 0) 8 8).testBit 56 = false ∧ num (taking 0 0x100000000000000) 0 8 = 0) := by
  refine ⟨by constructor <;> decide, plain_issues _ _ _ _ _, by decide, by decide, by decide, by constructor <;> decide, taking_issues _ _ _ _,
    by decide, by decide, by decide, by decide, by decide, by decide⟩

/-- Entry 4095, whose one input word is the last word of the scratchpad and whose output is the line before it. -/
def remembered (c1 : Word) : State :=
  { mapped { thread [(1, 0xFFFF00007FFC), (2, 0xFFFF00007F00), (4, 0x100000001), (5, c1)] with claim := [7] } .cached with
    dies := vput (Vector.replicate 4 Die.start) 0 { Die.start with
      pal := [(4095, ⟨true, 0, 1, 0, 0xFFFF00007FFC, 1, 0x1F80, 128, 0⟩)] } }

theorem remembered_full (c : Word) : ∀ q, (remembered c).th.r.fe q = .full :=
  fe_thread [(1, 0xFFFF00007FFC), (2, 0xFFFF00007F00), (4, 0x100000001), (5, c)]

theorem remembered_calm (c : Word) : (remembered c).Calm := by constructor <;> first | rfl | exact Nat.zero_le _

theorem wit_PalimpsestCache_check :
    (remembered 0x3C00000000000FFF).Calm ∧ (remembered 0x3C00000000000FFF).Issues 0 0 [dx 1, dx 2, dx 4, .x 5] [] ∧
    (let s := remembered 0x3C00000000000FFF
     let c1 := s.th.getX 5
     let θ := fmtF16.decode (c1.toNat / 2 ^ 48)
     let e := Tbl.getD (s.die s.myDie).pal (c1.toNat % 4096) PalEntry.free
     θ.isNan = false ∧ θ.isInf = false ∧ θ.lt (.fin false 0 0) = false ∧ c1.toNat / 2 ^ 12 % 2 ^ 36 = 0 ∧ (s.x 1).toNat % 4 = 0 ∧
     (s.x 2).toNat % 128 = 0 ∧ e.valid = true ∧ e.asid = s.th.asid ∧ e.block = (s.x 4).extractLsb' 32 32 ∧
     e.tag = (s.x 4).setWidth 32 - 1 ∧ e.inlen.toNat = 1 ∧ e.outbytes.toNat / 128 = 1 ∧
     s.holds 4 (s.x 1 + BitVec.ofNat 64 (4 * 0)) (Mem.readBytes s.scratch (s.ownByteAt 0xFFFF00007FFC) 4) ∧
     s.holds 4 (e.inptr.setWidth 64 + BitVec.ofNat 64 (4 * 0)) (Mem.readBytes s.scratch (s.ownByteAt 0xFFFF00007FFC) 4) ∧
     palClose θ [fmtF32.decode 0] [fmtF32.decode 0] = true ∧
     (∃ b, s.look s.cur .store 128 (s.x 2 + BitVec.ofNat 64 (128 * 0)) = .at (.own b)) ∧
     regionOf (e.outptr.setWidth 64 + BitVec.ofNat 64 (128 * 0)) = .translated ∧
     (∃ pa pol, s.pagedAt .load (e.outptr.setWidth 64 + BitVec.ofNat 64 (128 * 0)) pa pol)) := by
  refine ⟨remembered_calm _, issues _ (remembered_full _) _ _, by decide, by decide, by decide, by decide, by decide, by decide, by decide, by decide,
    by decide, by decide, by decide, by decide, .inl ⟨⟨by decide, 32764, by decide, by decide⟩, by decide, by decide⟩,
    .inl ⟨⟨by decide, 32764, by decide, by decide⟩, by decide, by decide⟩, by decide, ⟨7 * 32768 + 0x7F00, by decide⟩,
    by decide, ⟨0x1F80, .cached, entry .cached, by decide, by decide, by decide, by decide⟩⟩

/-- A miss: the entry is not there. -/
theorem wit_PalimpsestCache_miss :
    ¬((Tbl.getD ((remembered 0xFFE).die (remembered 0xFFE).myDie).pal (((remembered 0xFFE).th.getX 5).toNat % 4096) PalEntry.free).valid = true) := by
  decide

/-- An entry that has changed since the check began: its generation is 0, and the thread began at 1. -/
theorem wit_PalimpsestCache_changed :
    let s := remembered 0x3C00000000000FFF
    let e := Tbl.getD (s.die s.myDie).pal ((s.th.getX 5).toNat % 4096) PalEntry.free
    e.gen = 0 ∧ s.th.palGen = none ∧ ∃ g, ({ s.th with palGen := some 1 } : Ctx).palGen = some g ∧ g ≠ e.gen :=
  ⟨by decide, by decide, 1, by decide, by decide⟩

/-- A record with the longest input in the last 64 bytes of the scratchpad. -/
def putting : State :=
  { one { thread [(1, 0xFFFF00007FC0), (2, 4095), (3, 4096)] with claim := [7] } with
    scratch := Mem.writeBytes [] (7 * 32768 + 0x7FC0)
      (bytesOfWord 0x100000002 ++ bytesOfWord 0xFFFFFFFFFFFC ++ bytesOfWord 0xFFFFFFFFFF80 ++ bytesOfWord 0x10000000010000) }

theorem wit_PalimpsestCache_put :
    putting.Calm ∧ putting.Issues 0 0 [dx 1, dx 2] [dx 31] ∧ (putting.x 1).toNat % 64 = 0 ∧ (putting.x 2).toNat < 4096 ∧
    4096 ≤ (putting.x 3).toNat ∧ (∀ j < 8, putting.ownAddr 8 (putting.x 1 + BitVec.ofNat 64 (8 * j))) ∧ putting.scratchPoison = [] ∧
    (let w := fun (j : Nat) => natOfBytes (Mem.readBytes putting.scratch (putting.ownByteAt (putting.x 1 + BitVec.ofNat 64 (8 * j))) 8)
     w 1 % 4 = 0 ∧ w 1 < 2 ^ 48 ∧ w 2 % 128 = 0 ∧ w 2 < 2 ^ 48 ∧ w 3 % 2 ^ 32 = 65536 ∧ w 3 / 2 ^ 32 = 1048576 ∧
       ∀ j < 8, 4 ≤ j → w j = 0) ∧
    (plain 4095 1 0).Issues 0 0 [dx 1, dx 2] [dx 31] ∧ (plain 4095 1 0).th.asid = 0 ∧
    ((plain 4095 1 0).x 1).toNat + ((plain 4095 1 0).x 2).toNat ≤ 4096 ∧ 4096 < ((plain 4095 2 0).x 1).toNat + ((plain 4095 2 0).x 2).toNat := by
  refine ⟨by constructor <;> decide, issues putting (fe_thread [(1, 0xFFFF00007FC0), (2, 4095), (3, 4096)]) _ _, by decide, by decide, by decide,
    fun j h => ⟨?_, 32704 + 8 * j, ?_, ?_⟩, by decide, by decide, plain_issues _ _ _ _ _, by decide, by decide, by decide⟩
  · revert j; decide
  · revert j; decide
  · show 32704 + 8 * j < 32768; omega

/-! ### Witnesses: system instructions -/

theorem wit_TrapsParksReturns :
    (plain 0 0 0).Calm ∧ (plain 0 0 0).th.intrap = false ∧
    (one { thread [] with intrap := true, trappc := 0xFFFFFFFFFFFFFFF8 }).Calm ∧
    (one { thread [] with intrap := true, trappc := 0xFFFFFFFFFFFFFFF8 }).th.intrap = true ∧
    (one { thread [] with intrap := true, trappc := 0xFFFFFFFFFFFFFFF8 }).th.trappc.toNat % 8 = 0 := by
  refine ⟨by constructor <;> decide, by decide, by constructor <;> decide, by decide, by decide⟩

theorem wit_SystemRegisters :
    (plain 0 0 0).Ready [] [dx 31] ∧ (plain 0 0 0).th.results = [] ∧ (plain 0 0 0).th.asid = 0 ∧ (plain 0 0 0).Ready [dx 1] [] ∧
    (plain 0 0 0).Calm ∧ ((plain 0 0 0).space 0).valid = true ∧ clampLease (clampLease 0) = clampLease 0 ∧
    (let s := { plain 0 0x100010 0 with spaces := [(0, { Space.system with leasecfg := clampLease 0 })] }
     s.Calm ∧ s.Ready [dx 1] [] ∧ clampLease (s.space 0).leasecfg = (s.space 0).leasecfg ∧
     (∀ i ∈ [1, 3, 4, 2], spaceReserved ((s.spaceWords 0).set i (s.x 1)) = false) ∧ (s.x 2).extractLsb' 4 16 ≠ 0 ∧
     (s.x 2).extractLsb' 20 16 ≠ 0 ∧ ∀ j < 16, j ≠ 0 → (vat s.parts j).clusters &&& (vat s.parts 0).clusters = 0) := by
  refine ⟨ready (plain 0 0 0) (fe_thread [(1, 0), (2, 0), (3, 0)]) _ _, by decide, by decide,
    ready (plain 0 0 0) (fe_thread [(1, 0), (2, 0), (3, 0)]) _ _, by constructor <;> decide, by decide, by decide, ?_⟩
  intro s
  exact ⟨by constructor <;> decide, ready s (fe_thread [(1, 0), (2, 0x100010), (3, 0)]) _ _, by decide, by decide, by decide, by decide, by decide⟩

/-- The last context of the package parked with a page fault of address space 4095, beside a system thread that names it. -/
def parking : State :=
  { plain 4095 0 0 with ctxs := (plain 4095 0 0).ctxs ++ [(32767, { thread [] with asid := 4095, run := .parked 1 })]
                        clusters := [(0, ⟨[entry .cached], [], []⟩)] }

theorem wit_TranslationsAndParkedThreads :
    parking.Calm ∧ parking.th.asid = 0 ∧ parking.tiles = [] ∧ parking.dirs = [] ∧
    (∀ e ∈ parking.ctxs, e.2.tx = none ∧ ∀ q ∈ [2, 4, 6, 8], vat e.2.cmds q = []) ∧ 32767 ≠ parking.cur ∧ parking.released 32767 = true ∧ parking.full [dx 1] ∧ parking.cur < 32768 ∧
    (parking.ctx 32767).run = .parked 1 ∧ parking.parkedIn ((parking.x 1).extractLsb' 0 12) = [32767] ∧ (parking.ctx 32767).tx = none ∧
    (∀ q ∈ [0, 2, 4, 6, 8], vat (parking.ctx 32767).cmds q = []) ∧ (parking.ctx 32767).ring = none ∧ (parking.ctx 32767).claim = [] ∧
    (parking.ctx 32767).info.notice = none ∧ (∀ n < 4, parking.ink (coreOf 32767) n = none) ∧ parking.cores = [] := by
  refine ⟨by constructor <;> decide, by decide, by decide, by decide, by decide, by decide, by decide, fun q _ => fe_thread [(1, 4095), (2, 0), (3, 0)] q, by decide,
    by decide, by decide, by decide, by decide, by decide, by decide, by decide, by decide, by decide⟩

/-- Saves to the end of the scratchpad. -/
def saving (joined : Bool) : State := one { thread [(4, 0xFFFF00006000)] with claim := [7], joined := joined }

theorem wit_ContextImages_save :
    (saving false).Calm ∧ (saving false).cur < 32768 ∧ (saving false).full [dx 4] ∧ (saving true).th.joined = true ∧
    ((saving false).x 4).toNat % 8192 = 0 ∧ (saving false).imageBusy = none ∧
    (∀ i < 576, (saving false).ownAddr 8 ((saving false).x 4 + BitVec.ofNat 64 (8 * i))) := by
  refine ⟨by constructor <;> decide, by decide, fun q _ => fe_thread [(4, 0xFFFF00006000)] q, by decide, by decide, by decide,
    fun i h => ⟨?_, 24576 + 8 * i, ?_, ?_⟩⟩
  · revert i; decide +kernel
  · revert i; decide +kernel
  · show 24576 + 8 * i < 32768; omega

theorem natOfBytes_bytesOfNat (n v : Nat) : natOfBytes (bytesOfNat n v) = v % 256 ^ n := by
  induction n generalizing v with
  | zero => simp [bytesOfNat, natOfBytes, Nat.mod_one]
  | succ n ih =>
    simp only [bytesOfNat, natOfBytes, ih, BitVec.toNat_ofNat]
    rw [show 256 ^ (n + 1) = 256 * 256 ^ n by rw [Nat.pow_succ, Nat.mul_comm], Nat.mod_mul]

theorem readBytes_add (m : Mem) (a n k : Nat) : Mem.readBytes m a (n + k) = Mem.readBytes m a n ++ Mem.readBytes m (a + n) k := by
  induction n generalizing a with
  | zero => simp [Mem.readBytes]
  | succ n ih => simp [Nat.succ_add, Mem.readBytes, ih, Nat.add_assoc]

theorem readBytes_image (bs : List Byte) (h : bs.length = 4608) :
    Mem.readBytes (Mem.writeBytes [] 0x2000 bs) 0x2000 4096 ++ Mem.readBytes (Mem.writeBytes [] 0x2000 bs) 0x3000 512 = bs := by
  have := readBytes_add (Mem.writeBytes [] 0x2000 bs) 0x2000 4096 512
  rw [← this, show 4096 + 512 = bs.length by rw [h], Mem.readBytes_writeBytes]

/-- The image of such a thread at 0x3000. -/
def img : List Byte := (thread []).image 0x3000

theorem flat (n k : Nat) (f : Nat → Nat) : ((List.range k).flatMap fun i => bytesOfNat n (f i)).length = k * n := by
  simp [List.length_flatMap, bytesOfNat_length]

theorem img_length : img.length = 4608 := by
  have h1 (l : List (Lanes)) : (l.flatMap fun v => v.toList.flatMap fun x => bytesOfNat 4 x.toNat).length = l.length * 128 := by
    simp [List.length_flatMap, bytesOfNat_length]
  have h2 (l : List Fibre) : (l.flatMap fun f => bytesOfNat 18 f.bits).length = l.length * 18 := by
    simp [List.length_flatMap, bytesOfNat_length]
  simp only [img, Ctx.image, List.length_append, bytesOfNat_length, flat, h1, h2, Vector.length_toList]

/-- What is asked of the first word of an image. -/
def HeadOk (w : Nat) : Prop :=
  w % 2 ^ 14 = 0 ∧ w / 2 ^ 16 % 16 = 0 ∧ w / 2 ^ 20 % 4096 = 0 ∧ w / 2 ^ 48 = 1 ∧ w / 2 ^ 32 % 2 ^ 16 = Config.stepping.toNat ∧
    w / 2 ^ 15 % 2 = 0

theorem head_ok : HeadOk (field img 0 8) := by
  have h0 : img = bytesOfNat 8 (thread []).headerBits ++ img.drop 8 := by
    simp only [img, Ctx.image, List.append_assoc]
    rw [List.drop_append_of_le_length (by simp [bytesOfNat_length])]
    rw [List.drop_eq_nil_of_le (by simp [bytesOfNat_length])]
    rfl
  rw [h0, field, List.drop_zero, List.take_left' (bytesOfNat_length _ _), natOfBytes_bytesOfNat]
  have h1 : b2n (thread []).intrap = 0 := by decide
  have h2 : (thread []).asid.toNat = 0 := by decide
  have h3 : b2n (thread []).mxSaved.isSome = 0 := by decide
  rw [Ctx.headerBits, h1, h2, h3]
  have key : ∀ n : Nat, n < 2 ^ 16 → ∀ w, w = 0 * 2 ^ 14 + 0 * 2 ^ 15 + 0 * 2 ^ 20 + n * 2 ^ 32 + 2 ^ 48 → w % 256 ^ 8 = w ∧ w % 2 ^ 14 = 0 ∧
      w / 2 ^ 16 % 16 = 0 ∧ w / 2 ^ 20 % 4096 = 0 ∧ w / 2 ^ 48 = 1 ∧ w / 2 ^ 32 % 2 ^ 16 = n ∧ w / 2 ^ 15 % 2 = 0 := by
    intro n hn w hw
    omega
  have := key _ Config.stepping.isLt _ rfl
  rw [this.1]
  exact this.2

theorem imageCode_ok (bs : List Byte) (hh : HeadOk (field bs 0 8)) (hb : badImage bs = false) (s : State) (core : Nat)
    (h : (s.space 0).valid = true) (hc : (vat s.parts (s.space 0).partition.toNat).clusters.getLsbD (clusterOf core) = true) :
    s.imageCode core bs = none ∧ (field bs 0 8).testBit 15 = false := by
  obtain ⟨-, -, h0, h1, h2, h3⟩ := hh
  constructor
  · simp only [State.imageCode, h0, h1, h2, hb, h, hc]
    simp
  · rw [Nat.testBit_eq_decide_div_mod_eq, h3]; rfl

theorem badImage_not (bs : List Byte) (hh : HeadOk (field bs 0 8)) (h1 : field bs 0x1130 4 = 0) (h2 : field bs 0x1138 8 = 0)
    (h3 : field bs 0x1150 8 = 0) (h5 : field bs 0x1160 2 = 0) (h6 : field bs 0x1162 6 = 0)
    (h7 : ∀ i ∈ List.range 4, field bs (0x1168 + 2 * i) 2 = 0) (h8 : ∀ i ∈ List.range 8, field bs (0x1170 + 18 * i) 18 = 0)
    (h9 : (field bs 0x1108 8).testBit 0 = true) (h10 : field bs 0x1110 4 = 0xFFFFFFFF) : badImage bs = false := by
  obtain ⟨e1, e2, -, -, -, -⟩ := hh
  have h7' : ((List.range 4).any fun i => badPop (field bs (0x1168 + 2 * i) 2)) = false := by
    rw [List.any_eq_false]; intro i hi; rw [h7 i hi]; decide
  have h8' : ((List.range 8).any fun i => badFibre (field bs (0x1170 + 18 * i) 18)) = false := by
    rw [List.any_eq_false]; intro i hi; rw [h8 i hi]; decide
  simp only [badImage, e1, e2, h1, h2, h3, h5, h6, h7', h8', h9, h10]
  decide

/-- The image from FE on. -/
def imgRest : List Byte :=
  List.replicate 12 0xFF ++ (List.replicate 32 0 ++ (1 :: List.replicate 203 0))

theorem field_img (k n : Nat) : field img (0x1108 + k) n = field (img.drop 0x1108) k n := by
  simp only [field, List.drop_drop]

theorem img_rest : img.drop 0x1108 = imgRest := by
  decide +kernel

theorem img_good : badImage img = false := by
  have e (k n v : Nat) (h : field imgRest k n = v) : field img (0x1108 + k) n = v := by rw [field_img, img_rest, h]
  refine badImage_not img head_ok (e 40 4 0 (by decide)) (e 48 8 0 (by decide)) (e 72 8 0 (by decide)) (e 88 2 0 (by decide))
    (e 90 6 0 (by decide)) (fun i hi => ?_) (fun i hi => ?_) ?_ (e 8 4 0xFFFFFFFF (by decide))
  · have : ∀ i ∈ List.range 4, field imgRest (96 + 2 * i) 2 = 0 := by decide
    exact (congrArg (fun o => field img o 2) (by omega)).trans (e (96 + 2 * i) 2 0 (this i hi))
  · have : ∀ i ∈ List.range 8, field imgRest (104 + 18 * i) 18 = 0 := by decide
    exact (congrArg (fun o => field img o 18) (by omega)).trans (e (104 + 18 * i) 18 0 (this i hi))
  · rw [e 0 8 (2 ^ 64 - 1) (by decide)]; decide

/-- An image of a thread at 0x3000, at the start of two pages, and the same image read into a shadow slot. -/
def loadable (joined : Bool) : State :=
  { one { thread [(4, 0x2000)] with joined := joined } with
    clusters := [(0, ⟨[⟨0, 2, 12, 2, true, true, true, .cached⟩, ⟨0, 3, 12, 3, true, true, true, .cached⟩], [], []⟩)]
    mem := Mem.writeBytes [] 0x2000 img
    ctxs := (0, { thread [(4, 0x2000)] with joined := joined }) ::
      if joined then [(32768, { thread [] with run := .checking 0 })] else [] }

theorem wit_ContextImages_load :
    (loadable false).Calm ∧ (loadable false).full [dx 4] ∧ (loadable false).th.asid = 0 ∧ (loadable false).freeShadow (loadable false).myCore = some 32768 ∧
    (loadable false).pagedAt .load ((loadable false).x 4) 0x2000 .cached ∧
    (loadable false).pagedAt .load ((loadable false).x 4 + 4096) 0x3000 .cached ∧ (loadable false).paKind 0x2000 = .memory ∧
    (loadable false).paKind 0x3000 = .memory ∧ (loadable false).noPoison ∧ (loadable false).dirs = [] ∧
    (∀ e ∈ (loadable false).ctxs, e.2.tx = none) ∧ (loadable false).cores = [] ∧
    (let bs := Mem.readBytes (loadable false).mem 0x2000 4096 ++ Mem.readBytes (loadable false).mem 0x3000 512
     (loadable false).imageCode (loadable false).myCore bs = none ∧ (field bs 0 8).testBit 15 = false) := by
  refine ⟨by constructor <;> decide, fun q _ => fe_thread [(4, 0x2000)] q, by decide, by decide,
    ⟨⟨0, 2, 12, 2, true, true, true, .cached⟩, by decide, by decide, by decide, by decide⟩,
    ⟨⟨0, 3, 12, 3, true, true, true, .cached⟩, by decide, by decide, by decide, by decide⟩, by decide, by decide,
    by unfold State.noPoison; decide, by decide, by decide, by decide, ?_⟩
  have hm : (loadable false).mem = Mem.writeBytes [] 0x2000 img := by dsimp only [loadable]
  rw [hm, readBytes_image img img_length]
  exact imageCode_ok img head_ok img_good _ _ (by decide) (by decide)

theorem wit_ContextImages_loaded :
    (loadable true).th.joined = true ∧ (loadable true).loading (loadable true).cur = some 32768 ∧ ((loadable true).ctx 32768).pops = [] ∧
    ((loadable true).ctx 32768).mxSaved = none ∧ (∀ q ∈ [0, 2, 4, 6, 8], vat (loadable true).th.cmds q = []) ∧ (loadable true).th.ring = none ∧
    (loadable true).th.claim = [] ∧ (loadable true).th.info.notice = none ∧ (∀ n < 4, (loadable true).ink (loadable true).myCore n = none) := by
  decide

/-! ### Witnesses: results, waits and the memory system -/

/-- What a step of the device is about. -/
def at' (s : State) (e : Ev) : State := { s with ev := e }

theorem wit_ResultsAndWakes :
    (let s := at' (one { thread [] with results := [⟨1, [(31, some 5)], [], 16, 0, [], none⟩] }) { id := 1 }
     (s.ctx s.ev.k).results.find? (fun x => x.id = s.ev.id) = some ⟨1, [(31, some 5)], [], 16, 0, [], none⟩) ∧
    (let s := at' (one { thread [] with loads := [⟨1, .x 31, 8, [⟨0, 0x1000, .phys 0x1000 .cached⟩], [], false⟩] }) { id := 1 }
     (s.ctx s.ev.k).loads.find? (fun x => x.id = s.ev.id) = some ⟨1, .x 31, 8, [⟨0, 0x1000, .phys 0x1000 .cached⟩], [], false⟩ ∧
     s.readBad 0 0x1000 .cached = false ∧ s.ev.found = .clean) ∧
    (∀ bad ∈ [[], [0x10000 / 128]], let s := { one { thread [] with run := .walking, walk := some ⟨0x1FF8, .load⟩ } with
       spaces := [(0, { Space.system with ptbase := 0x10001, trapvec := 0x2000 })], mem := tables [], poison := bad }
     (s.ctx 0).run = .walking ∧ (s.ctx 0).walk = some ⟨0x1FF8, .load⟩ ∧ s.walkDead 0 0 0x1FF8 = false ∧ s.dirs = [] ∧
     (bad = [] → (s.walked 0 0 0 0x1FF8).walk 0 0 0x1FF8 = .leaf ⟨0, 0, 30, 0, true, true, true, .cached⟩ [⟨0, 2, 0, 0x11000⟩] ∧
       (s.walked 0 0 0 0x8000000000).walk 0 0 0x8000000000 = .bad .notPresent) ∧
     (bad ≠ [] → (s.walked 0 0 0 0x1FF8).walk 0 0 0x1FF8 = .poison ∧ (s.space 0).trapvec ≠ 0) ∧
     (s.ctxs.Pairwise fun a b => a.1 < b.1) ∧
     ∀ j, (s.ctx j).run = .walking → (s.ctx j).speculative = false ∧ (s.ctx j).intrap = false) := by
  refine ⟨by decide, ⟨by decide, by decide, by decide⟩, fun bad hb => ?_⟩
  have hb : bad = [] ∨ bad = [0x10000 / 128] := by simpa using hb
  rcases hb with rfl | rfl
  all_goals
    refine ⟨by decide, by decide, by decide +kernel, by decide, by decide +kernel, by decide +kernel, by decide, fun j _ => ?_⟩
    by_cases h : j = 0
    · subst h; decide
    · simp only [State.ctx, one, Tbl.getD, Tbl.get?, List.find?]
      split
      · exact absurd (by simpa using ‹_›) (Ne.symm h)
      · exact ⟨rfl, rfl⟩

/-- A store and a load of another core's scratchpad on their way to the last bytes of it. -/
def remote (op : RemoteOp) : State :=
  at' { one { thread [] with run := .remote } with
    ctxs := [(0, { thread [] with run := .remote }), (32767, { thread [] with claim := [7] })]
    msgs := [(1, .remote 0 0 8 [⟨0, 4095, 7, 32760, 0, 9⟩] op)] } { id := 1 }

theorem wit_ResultsAndWakes_remote :
    (remote .load).msgs = [((remote .load).ev.id, .remote 0 0 8 [⟨0, 4095, 7, 32760, 0, 9⟩] .load)] ∧ (remote .load).dead = [] ∧
    (remote .load).scratchPending = [] ∧ ((remote .load).ctx (keyOf 4095 7)).run ≠ .vacant ∧ ((remote .load).ctx (keyOf 4095 7)).asid = 0 ∧
    32760 + 8 ≤ claimBytes ((remote .load).ctx (keyOf 4095 7)).claim ∧ 8 < 128 ∧ (remote .load).scratchPoison = [] ∧
    ((remote .load).ctx 0).run = .remote ∧ (remote .store).msgs = [((remote .store).ev.id, .remote 0 0 8 [⟨0, 4095, 7, 32760, 0, 9⟩] .store)] := by
  decide

theorem wit_ResultsAndWakes_waits :
    ((one { thread [] with run := .release }).ctx 0).run = .release ∧ (one { thread [] with run := .release }).released 0 = true ∧
    ((one { thread [] with run := .waitev 5 }).ctx 0).run = .waitev 5 ∧ ((one { thread [] with run := .barwait 3 2047 1 }).ctx 0).run = .barwait 3 2047 1 := by
  decide

/-- The home of tile 4111 in a state, for the step about line 63 and core 0, whose store to it waits. -/
def homed (d : Dir) (l1 : L1Tile) (n : Nat) : State :=
  at' { one { thread [] with stores := [⟨1, 63, [(0x1FF8, 7)], .cached, tagged 63, 0, false⟩] } with
    dirs := [(4111, d)], cores := [(0, { Core.start 0 with l1 := [(4111, l1)] })] } { line := 63, n := n, id := 1 }

theorem wit_Homes_leases :
    (homed Dir.invalid L1Tile.absent 0).dead = [] ∧ (∀ e ∈ (homed Dir.invalid L1Tile.absent 0).ctxs, e.2.tx = none) ∧
    (homed Dir.invalid L1Tile.absent 0).tileOf 63 = 4111 ∧
    ((homed Dir.invalid L1Tile.absent 0).dir 4111).st = .i ∧ ((homed Dir.invalid L1Tile.absent 0).dir 4111).waiting = [] ∧
    (homed Dir.invalid L1Tile.absent 0).tileDie 4111 = dieOf 0 ∧ ((homed Dir.invalid L1Tile.absent 0).l1 0 4111).st = .i ∧
    (homed Dir.invalid L1Tile.absent 0).l1Owns 0 63 = false ∧ ((homed Dir.invalid L1Tile.absent 0).dir 4111).owner = 0 ∧
    (homed Dir.invalid L1Tile.absent 0).ev.q = 0 ∧ (homed Dir.invalid L1Tile.absent 0).ev.n = 0 ∧
    (homed Dir.invalid L1Tile.absent 0).ev.found = .clean ∧ (∀ e ∈ ((homed Dir.invalid L1Tile.absent 0).core 0).lines, e.spec = none) ∧
    ((homed Dir.invalid L1Tile.absent 0).core 0).freeWays ≠ [] ∧
    (let s := homed { Dir.invalid with waiting := [0] } L1Tile.absent 1
     (s.dir 4111).waiting = 0 :: [] ∧ s.leasesOver 4111 0 = true ∧ ¬s.gtOf (dieOf 0) < s.writeFloor 4111 ∧ (∀ e ∈ (s.core 0).lines, e.spec = none) ∧
     (s.ctx s.ev.k).storeOn 63 = some ⟨1, 63, [(0x1FF8, 7)], .cached, tagged 63, 0, false⟩ ∧ s.ev.n = 1) ∧
    (let s := fun (gt : Word) => { homed { Dir.invalid with st := .l, leases := [(1, 40)], waiting := [0] } L1Tile.absent 1 with
       dies := Vector.replicate 4 { Die.start with gt := gt } }
     ((s 72).dir 4111).st = .l ∧ (s 72).leasesOver 4111 0 = true ∧ (s 71).leasesOver 4111 0 = false ∧
     ¬(s 72).gtOf (dieOf 0) < (s 72).writeFloor 4111 ∧ ((s 71).dir 4111).waiting.head? = some 0) := by
  decide

theorem wit_Homes_owners :
    (let s := homed { Dir.invalid with st := .m } ⟨.m, [63], 0⟩ 0
     (s.dir 4111).st = .m ∧ s.holdsTile 0 4111 = false ∧ (s.dir 4111).owner = s.ev.core ∧ (s.l1 (s.dir 4111).owner 4111).dirty ≠ []) ∧
    (let s := homed { Dir.invalid with st := .e } ⟨.e, [], 0⟩ 0
     (s.dir 4111).st = .e ∧ (s.l1 (s.dir 4111).owner 4111).dirty = []) ∧
    (let s := { homed { Dir.invalid with st := .l } ⟨.l 5, [], 5⟩ 0 with dies := Vector.replicate 4 { Die.start with gt := 32 } }
     (s.dir 4111).st = .l ∧ ¬s.gtOf (s.tileDie 4111) < (s.dir 4111).lexp + 32 ∧ (s.l1 0 4111).st = .l 5 ∧ (5 : Word) ≤ s.gtOf (dieOf 0)) ∧
    (let s := { homed { Dir.invalid with st := .o } L1Tile.absent 0 with dies := Vector.replicate 4 { Die.start with gt := 32 } }
     (s.dir 4111).st = .o ∧ (s.dir 4111).owner = s.ev.core ∧ s.holdsTile 0 4111 = false ∧ s.leasesOver 4111 noCore = true ∧ ¬s.gtOf (s.tileDie 4111) < (s.dir 4111).lexp + 32) ∧
    (let s := { homed { Dir.invalid with st := .o, leases := [(1, 1)] } L1Tile.absent 0 with dies := Vector.replicate 4 { Die.start with gt := 32 } }
     (s.dir 4111).st = .o ∧ s.leasesOver 4111 noCore = false) := by
  decide

/-- A contribution of the last word of line 63. -/
def contribution : Partial := ⟨1, 0, 0, .home, 0x1FFC, false, 0, false, 9⟩

theorem wit_Homes_perform :
    (let s := homed Dir.invalid L1Tile.absent 1
     s.paKind (s.ev.line * 128) = .memory ∧ (s.dir 4111).st = .i ∧ s.leasesOver 4111 noCore = true ∧ s.ev.n = 1 ∧
     (s.ctx s.ev.k).storeOn s.ev.line = some ⟨1, 63, [(0x1FF8, 7)], .cached, tagged 63, 0, false⟩) ∧
    (let s := at' { one { thread [] with reds := [contribution] } with dirs := [(4111, Dir.invalid)] } { line := 63, id := 1 }
     (s.ctx s.ev.k).reds.find? (fun x => x.id = s.ev.id) = some contribution ∧ (s.ctx s.ev.k).stores = [] ∧ s.paKind contribution.pa = .memory ∧
     (s.dir 4111).st = .i ∧ s.leasesOver 4111 noCore = true ∧ s.l1Owns 0 63 = false) ∧
    (let s := homed { Dir.invalid with st := .u, partials := [contribution] } L1Tile.absent 0
     (s.dir 4111).st = .u ∧ (s.dir 4111).partials = [contribution] ∧ s.paPoison contribution.pa = false ∧ contribution.op = 0 ∧
     contribution.det = false) := by
  decide

/-- The transaction of a thread in a phase. -/
def txAt (phase : TxPhase) (writes : List Nat) (n id : Nat) : State :=
  at' (one { thread [] with
    run := .committing, txstat := { TxStat.none with depth := 1 },
    tx := some { Tx.fresh (some 0x3000) (Regs.start 1) with writes := writes, phase := phase } }) { line := 63, n := n, id := id }

theorem wit_TransactionSteps :
    (txAt .live [] 0 0).dead = [] ∧ (∃ x, ((txAt .live [] 0 0).ctx 0).tx = some x ∧ x.phase = .live ∧ x.reds = [] ∧
      x.reads.contains 4111 = false ∧ x.writes.contains 4111 = false ∧ x.partials = []) ∧ ((txAt .live [] 0 0).ctx 0).abort = none ∧
    (∀ e ∈ (txAt .live [] 0 0).ctxs, e.1 ≠ 0 → e.2.tx = none) ∧ ((txAt .live [] 0 0).dir 4111).st ≠ .u ∧
    ((txAt .live [] 0 0).dir 4111).readers = [] ∧ ((txAt .live [] 0 0).dir 4111).reducers = [] ∧ (txAt .live [] 1 0).ev.n = 1 ∧
    (let s := { txAt (.preparing [4111] 0) [4111] 0 4111 with dirs := [(4111, { Dir.invalid with st := .l })] }
     (∃ x, (s.ctx 0).tx = some x ∧ x.phase = .preparing [s.ev.id] 0 ∧ x.writes.contains s.ev.id = true) ∧ (s.dir s.ev.id).st = .l) ∧
    (let s := txAt (.committing 0 []) [4111] 0 4111
     (∃ x, (s.ctx 0).tx = some x ∧ x.phase = .committing 0 [] ∧ (∀ w ∈ x.spec, s.paKind w.1 = .memory) ∧ x.partials = [] ∧ x.held = [] ∧ s.before 0 x 0 = false) ∧
     ∀ e ∈ (s.core (coreOf 0)).lines, e.spec = none ∨ e.spec = some 0) := by
  refine ⟨by decide, ⟨_, rfl, by decide, by decide, by decide, by decide, by decide⟩, by decide, by decide, by decide, by decide, by decide, by decide,
    ⟨⟨_, rfl, by decide, by decide⟩, by decide⟩, ⟨⟨_, rfl, by decide, by decide, by decide, by decide, by decide⟩, by decide⟩⟩

theorem wit_TransactionSteps_abort_token :
    (let s := one { thread [] with run := .aborting, abort := some ⟨3, 0, .handler⟩, tx := some (Tx.fresh (some 0x3000) (Regs.start 1)) }
     (∃ x, (s.ctx 0).tx = some x ∧ x.handler = some 0x3000 ∧ x.held = []) ∧ (s.ctx 0).abort = some ⟨3, 0, .handler⟩ ∧ s.settled 0 = true) ∧
    (let s := { one { thread [] with run := .token } with tokenTurn := 3, dies := vput (Vector.replicate 4 Die.start) 3 { Die.start with tokenq := [0] } }
     s.tokenHolder = none ∧ s.tokenTurn < 4 ∧ (s.die s.tokenTurn).tokenq.head? = some 0 ∧ (s.ctx 0).run = .token) := by
  refine ⟨⟨⟨_, rfl, by decide, by decide⟩, by decide, by decide⟩, by decide⟩

/-! ### Witnesses: engines, gathers, merges, the matrix unit -/

/-- A state whose step is about command 0 at the head of view q. -/
def engine (q : Nat) (c : Ctx) (m : Cmd) (ms : List Cmd) : State :=
  at' (one { c with cmds := vput (Vector.replicate 12 []) q (m :: ms) }) { q := q, id := m.id }

theorem wit_EngineSteps_start :
    (∀ q ∈ [0, 2, 4, 6, 8], (engine q (thread []) (command (.heldOn 1)) []).ev.q = q ∧
      vat ((engine q (thread []) (command (.heldOn 1)) []).ctx 0).cmds q = command (.heldOn 1) :: []) ∧
    (∀ q ∈ [0, 2, 4, 6, 8], vat ((engine q (thread []) (command .free) []).ctx 0).cmds q = command .free :: [] ∧
      (engine q (thread []) (command .free) []).pushReleased 0 0 = true ∧ (engine q (thread []) (command .free) []).turnOf (coreOf 0) q = some 0) ∧
    (∀ q ∈ [0, 6, 8], vat ((engine q (thread []) (command .discarded) []).ctx 0).cmds q = command .discarded :: [] ∧
      (vat ((engine q (thread []) (command .discarded) []).ctx 0).elems (q + 1)).length < 16 ∧
      (engine q (thread []) (command .discarded) []).turnOf (coreOf 0) q = some 0) := by
  decide

theorem wit_EngineSteps_pops :
    (let s := at' (one { thread [] with pops := [⟨11, .x 31, 0⟩], elems := vput (Vector.replicate 12 []) 11 [7] }) { q := 11 }
     (s.ctx 0).pops = [⟨11, .x 31, 0⟩] ∧ s.ev.q = 11 ∧ Tbl.get? s.ote.held 0 = none ∧ vat (s.ctx 0).elems 11 = 7 :: []) ∧
    (let s := at' (one { thread [] with pops := [⟨5, .v 31, 0⟩], lines := [⟨zeroLanes, false⟩] }) { q := 5 }
     (s.ctx 0).pops = [⟨5, .v 31, 0⟩] ∧ s.ev.q = 5 ∧ (s.ctx 0).lines = ⟨zeroLanes, false⟩ :: []) := by
  decide

/-- A copy of the first word of the scratchpad to its last. -/
def copyOrder : Cmd := { command .free with cmd := 3, a := 32764, b := 0, c := 4, started := true }
def copying : State :=
  { engine 2 { thread [] with claim := [7] } copyOrder [] with scratchPending := copyOrder.destLines 0 [7] }

theorem wit_EngineSteps_copy :
    copying.ev.q ≠ 8 ∧ copying.serves 2 copyOrder ∧ copyOrder.cmd.getLsbD 0 = true ∧ copyOrder.cmd.getLsbD 1 = true ∧ copying.scratchPoison = [] ∧
    copying.scratchPending ≠ [] ∧ copying.scratchPending = copyOrder.destLines (coreOf 0) (copying.ctx 0).claim ∧
    goodClaim (copying.ctx 0).claim ∧ 32764 + 4 ≤ 32768 * (copying.ctx 0).claim.length := by
  refine ⟨by decide, ⟨by decide, by decide, by decide⟩, by decide, by decide, by decide, by decide, by decide,
    ⟨by decide, by decide⟩, by decide⟩

/-- An arrival by command at generation 2^32 - 1 of a barrier of two. -/
def arriving : State :=
  { engine 2 (thread []) { command .free with barq := true, a := 8191, b := 0xFFFFFFFF } [] with
    dies := vput (Vector.replicate 4 Die.start) 3 { Die.start with barriers := [(2047, ⟨0, 2, 0xFFFFFFFF, Vector.replicate 4 0⟩)] } }

theorem wit_EngineSteps_barrier_copy :
    arriving.serves 2 { command .free with barq := true, a := 8191, b := 0xFFFFFFFF } ∧
    arriving.barrier? 3 2047 = some ⟨0, 2, 0xFFFFFFFF, Vector.replicate 4 0⟩ ∧
    (let s := { one (thread []) with palCopies := [⟨0, 0, [((true, 0x80), (false, 0x1000))]⟩] }
     s.dirs = [] ∧ (∀ e ∈ s.ctxs, e.2.tx = none) ∧ s.noPoison ∧ s.scratchPoison = [] ∧
     s.palCopies = [⟨0, 0, [((true, 0x80), (false, 0x1000))]⟩] ∧ s.paKind 0x1000 = .memory) := by
  refine ⟨⟨by decide, by decide, by decide⟩, by decide, ⟨by decide, by decide, by unfold State.noPoison; decide, by decide, by decide, by decide⟩⟩

/-- A gather of 32 words whose indices, in the last line of the scratchpad, are 0. -/
def gathering (done : Nat) (tally : List Nat) : State :=
  let m : Cmd := { command .free with a := 0x1FFC, b := 32640, c := 32, started := true, done := done, tally := tally }
  at' { mapped { thread [] with claim := [7], cmds := vput (Vector.replicate 12 []) 4 [m] } .cached with nextId := 1 } { q := 4 }

theorem wit_GathersAndMergesRun_gather :
    (gathering 0 []).Quiet ∧ (gathering 0 []).scratchPending = [] ∧
    vat ((gathering 0 []).ctx 0).cmds 4 = [{ command .free with a := 0x1FFC, b := 32640, c := 32, started := true }] ∧
    ((gathering 0 []).ctx 0).lines.length < 16 ∧ 32640 + 4 * 32 ≤ 32768 * ((gathering 0 []).ctx 0).claim.length ∧
    (∀ i < 32, (gathering 0 []).engAt 0 .load
      (0x1FFC + 4 * natOfBytes (Mem.readBytes (gathering 0 []).scratch ((gathering 0 []).localAt 0 (32640 + 4 * i)) 4)) 0x1FFC) ∧
    vat ((gathering 1 [0, 0, 0]).ctx 0).cmds 4 =
      [{ command .free with a := 0x1FFC, b := 32640, c := 32, started := true, done := 1, tally := [0, 0, 0] }] := by
  refine ⟨by constructor <;> first | decide | (unfold State.noPoison; decide), by decide, by decide, by decide, by decide, fun i h => ?_, by decide⟩
  have : ∀ i < 32, natOfBytes (Mem.readBytes (gathering 0 []).scratch ((gathering 0 []).localAt 0 (32640 + 4 * i)) 4) = 0 := by decide +kernel
  rw [this i h]
  exact ⟨by decide, by decide, entry .cached, by decide, by decide, by decide⟩

/-- A merge of two fibres of one entry, coordinate 5 and value 9, into the last words of the page. -/
def merging : State :=
  let m : Cmd := { command .free with a := 0x1000, started := true }
  let w := bytesOfNat 4
  let f := bytesOfWord 0x1100 ++ bytesOfWord 0x1104 ++ w 1 ++ w 0
  { mapped { thread [] with cmds := vput (Vector.replicate 12 []) 6 [m] } .cached with
    dies := vput (Vector.replicate 4 Die.start) 0 { Die.start with merge0 := [⟨0, 0⟩] }
    mem := Mem.writeBytes [] 0x1000 (bytesOfWord 0x1FF8 ++ bytesOfWord 0x1FFC ++ w 1 ++ w 0x102 ++ w 0 ++ w 0 ++ f ++ f ++
      List.replicate 176 0 ++ w 5 ++ w 9) }

def mergeOrder : MergeDesc := ⟨0x1FF8, 0x1FFC, 1, true, [(0x1100, 0x1104, 1), (0x1100, 0x1104, 1)]⟩

/-- What its engine reads one after another: the descriptor's head, its body, the places of the fibres and the fibres. -/
def mergeHead : State × Words := merging.engWords 0 0x1000 8
def mergeBody : State × Words := mergeHead.1.engWords 0 (0x1000 + 32) 12
def mergePlaces : State × List EPlace := { mergeBody.1 with ev := merging.ev }.fibrePlaces 0 mergeOrder.fibres
def mergeRead : State × List (List (Nat × Nat × Bool) × Nat) :=
  (mergePlaces.1.engServe 0 0 false (memLines mergePlaces.2)).readFibres 0 mergeOrder.fibres

set_option maxRecDepth 100000 in
theorem wit_GathersAndMergesRun_merge :
    merging.Quiet ∧ merging.scratchPending = [] ∧ merging.ev.n = 0 ∧ (merging.die 0).merge0 = ⟨0, 0⟩ :: [] ∧
    vat (merging.ctx 0).cmds 6 = [{ command .free with a := 0x1000, started := true }] ∧ (vat (merging.ctx 0).elems 7).length < 16 ∧
    (let head := [0x1FF8, 0, 0x1FFC, 0, 1, 0x102, 0, 0]
     let body := [0x1100, 0, 0x1104, 0, 1, 0, 0x1100, 0, 0x1104, 0, 1, 0]
     mergeHead.2 = .ok head ∧ 6 * (head.getD 5 0 % 256) = 12 ∧ mergeBody.2 = .ok body ∧ mergeDesc head body = some mergeOrder) ∧
    mergeRead.2 = [([(5, 9, false)], 0), ([(5, 9, false)], 0)] ∧ mergeOut true (mergeRead.2.map (·.1)) = [(5, 18, false)] ∧
    (∀ i < 1, mergeRead.1.engAt 0 .store (0x1FF8 + 4 * i) 0x1FF8 ∧ mergeRead.1.engAt 0 .store (0x1FFC + 4 * i) 0x1FFC) := by
  have hr : mergeRead.2 = [([(5, 9, false)], 0), ([(5, 9, false)], 0)] := by decide +kernel
  refine ⟨by constructor <;> first | decide | (unfold State.noPoison; decide), by decide, by decide, by decide, by decide, by decide,
    ⟨by decide +kernel, by decide, by decide +kernel, by decide⟩, hr, by rw [hr]; decide, ?_⟩
  intro i h
  cases Nat.lt_one_iff.1 h
  exact ⟨⟨by decide, by decide +kernel, entry .cached, by decide +kernel, by decide, by decide⟩,
    by decide, by decide +kernel, entry .cached, by decide +kernel, by decide, by decide⟩

/-- The step about a matrix command of a thread whose core's unit is as given. -/
def matrix (u : Matrix) (fn : Nat) (cmd : BitVec 15) (a b c : Word) : State :=
  { engine 0 { thread [] with claim := [7] } { command .free with fn := fn, cmd := cmd, a := a, b := b, c := c, started := true } [] with
    cores := [(0, { Core.start 0 with mx := u })] }

/-- What the statement asks of every command of the matrix unit. -/
theorem matrix_serves (u : Matrix) (fn : Nat) (cmd : BitVec 15) (a b c : Word) :
    (matrix u fn cmd a b c).Quiet ∧ (matrix u fn cmd a b c).scratchPending = [] ∧ ((matrix u fn cmd a b c).ctx 0).mxSaved = none ∧
    (matrix u fn cmd a b c).serves 0 { command .free with fn := fn, cmd := cmd, a := a, b := b, c := c, started := true } ∧
    (matrix u fn cmd a b c).mx (coreOf 0) = u ∧ goodClaim ((matrix u fn cmd a b c).ctx 0).claim ∧
    32768 * ((matrix u fn cmd a b c).ctx 0).claim.length = 32768 := by
  refine ⟨⟨rfl, rfl, fun e h => by cases List.mem_singleton.1 h; rfl, ?_, rfl, rfl⟩, rfl, rfl, ⟨rfl, rfl, ?_⟩, rfl, ⟨?_, ?_⟩, rfl⟩
  · refine And.intro rfl (And.intro rfl (And.intro (fun e h => absurd h List.not_mem_nil) ?_))
    show ∀ d < 4, ∀ e ∈ (State.reset.die d).slices, ∀ x ∈ e.2, x.bad = false
    decide
  · show 0 < 16; decide
  · show [7].Nodup; decide
  · show ∀ w ∈ [7], w < 8; decide

/-- Claims of a free unit, of another's with `.try`, a release, no ownership, a ring size; then a weight tile of INT8 up to the
end of the scratchpad; 128 rows into the upper bank; a drain of that bank. -/
theorem wit_MatrixSteps :
    (Matrix.idle.owner = none ∧ Matrix.idle.claimers = [] ∧ (0 : BitVec 15).getLsbD 1 = false) ∧
    (({ Matrix.idle with owner := some 1 } : Matrix).owner = some 1 ∧ (1 : BitVec 15).getLsbD 0 = true ∧ (1 : BitVec 15).getLsbD 1 = false) ∧
    (2 : BitVec 15).getLsbD 1 = true ∧ 0x11 ≠ 0x10 ∧ Matrix.idle.owner ≠ some 0 ∧
    (31744 % 128 = 0 ∧ 31744 + tileBytes ((1 : BitVec 15).extractLsb' 0 5) 32 32 ≤ 32768) ∧
    (let u : Matrix := { Matrix.idle with owner := some 0, wfmt := some 1, dirty1 := true }
     (0x40 : BitVec 15).getLsbD 12 = false ∧ (0x40 : BitVec 15).toNat / 64 % 32 = 1 ∧ u.wfmt = some 1 ∧ (0x8080 : Word).toNat / 256 = 128 ∧
     (0x8080 : Word).toNat % 256 / 128 = ((0x8080 : Word).toNat % 256 + 128 - 1) / 128 ∧
     u.dirty (1 - (0x8080 : Word).toNat % 256 / 128) = false ∧ 28672 + 32 * 128 ≤ 32768 ∧
     (0x6FF : BitVec 15).toNat / 256 % 8 = 6 ∧ (0x6FF : BitVec 15).getLsbD 12 = false ∧ (0x6FF : BitVec 15).toNat / 128 % 2 = 1 ∧
     (0x6FF : BitVec 15).toNat % 128 + 1 = 128 ∧ 16384 + 128 * 128 ≤ 32768) := by
  decide

/-- Such a drain is the one command for which lines are pending, its own. -/
theorem wit_MatrixSteps_drain :
    let m : Cmd := { command .free with fn := 0x14, cmd := 0x6FF, a := 16384, started := true }
    let s := { matrix { Matrix.idle with owner := some 0, wfmt := some 1, dirty1 := true } 0x14 0x6FF 16384 0 0 with
      scratchPending := m.destLines 0 [7] }
    s.scratchPending = m.destLines (coreOf 0) (s.ctx 0).claim ∧ s.scratchPending.length = 128 ∧ s.serves 0 m ∧ m.c.toNat + 128 ≤ 128 := by
  intro m s
  refine ⟨rfl, by decide +kernel, ⟨rfl, rfl, ?_⟩, by decide⟩
  show 0 < 16; decide

/-- Knots over 0 to 8.0 and over an empty range; a bias vector in the last line; 128 rows of a float stream that end with the
scratchpad; and a drain of 128 rows in each other format, through bias, activation and scale. -/
theorem wit_MatrixSteps_floats :
    knotScale 0 0x41000000 = some 0x42000000 ∧ knotScale 0x41000000 0x41000000 = none ∧ 32128 % 128 = 0 ∧ 32128 + 514 ≤ 32768 ∧
    (1 : BitVec 15).getLsbD 0 = true ∧ 32640 % 128 = 0 ∧ 32640 + 128 ≤ 32768 ∧
    (let m : Cmd := { command .free with fn := 0x13, cmd := 0x340, b := 0x8080, a := 24576 }
     let u : Matrix := { Matrix.idle with owner := some 0, wfmt := some 0x0F, dirty1 := true }
     m.streamRing = false ∧ m.streamFmt = 0x0D ∧ tileInt m.streamFmt = false ∧ tileInt 0x0F = false ∧ u.wfmt = some 0x0F ∧
     m.b.toNat / 256 = 128 ∧ m.b.toNat % 256 / 128 = (m.b.toNat % 256 + 128 - 1) / 128 ∧ u.dirty (1 - m.b.toNat % 256 / 128) = false ∧
     24576 + tileBytes m.streamFmt 128 128 ≤ 32768) ∧
    ∀ f < 6,
      let m : Cmd := { command .free with fn := 0x14, cmd := BitVec.ofNat 15 (0x38FF + 256 * f), a := 16384, started := true }
      let u : Matrix := { Matrix.idle with owner := some 0, wfmt := some 0x0F, dirty1 := true, knots := some (List.replicate 257 0) }
      m.cmd.toNat / 256 % 8 = f ∧ m.cmd.getLsbD 11 = true ∧ m.cmd.getLsbD 12 = true ∧ m.cmd.getLsbD 13 = true ∧
      m.cmd.toNat % 128 + 1 = 128 ∧ m.c.toNat + 128 ≤ 128 ∧ u.knots.isSome = true ∧ 16384 + m.drainBytes ≤ 32768 := by
  refine ⟨by decide +kernel, by decide +kernel, by decide, by decide, by decide, by decide, by decide, by decide, by decide⟩

def ringTile : RingTile := ⟨1, 1, 2, 32, List.replicate 32 0⟩

theorem wit_MatrixSteps_ring :
    (let s := { matrix { Matrix.idle with owner := some 0, running := some ⟨1, ringTile, true, 0⟩ } 0x16 0 0 0 0 with cycles := 1048576 }
     s.ev.core = coreOf 0 ∧ (s.mx 0).running = some ⟨1, ringTile, true, 0⟩ ∧ (s.mx 0).latch = [] ∧ 2 ^ 20 ≤ (s.cycles - 0).toNat) ∧
    (let s := { matrix { Matrix.idle with owner := some 0, running := some ⟨0, ringTile, false, 0⟩, latch := [ringTile] } 0x16 0 0 0 0 with
       cycles := 1048576 }
     (s.mx 0).running = some ⟨0, ringTile, false, 0⟩ ∧ 2 ^ 20 ≤ (s.cycles - 0).toNat) ∧
    (∀ z ∈ [1, 2, 3, 4, 5],
      let core := ringCores z / 4
      let prev := ringPrev z core
      let s := at' { one (thread []) with
        cores := [(prev, { Core.start 0 with mx := { Matrix.idle with owner := some 0, ringSize := z, running := some ⟨0, ringTile, false, 0⟩ } }),
                  (core, { Core.start 0 with mx := { Matrix.idle with owner := some 0, ringSize := z, latch := [ringTile] } })] } { core := core }
      prev ≠ s.ev.core ∧ (s.mx prev).ringSize = z ∧
      (s.mx prev).running = some ⟨0, ringTile, false, 0⟩ ∧ 0 + 1 < ringTile.steps ∧ (s.mx core).owner.isSome = true ∧
      (s.mx core).ringSize = z ∧ (s.mx core).latch.length < 2) := by
  decide

/-! ### Witnesses: messages and the transport engine -/

/-- A state with one message between cores, the one that the step is about. -/
def message (c : Ctx) (m : Msg) : State := at' { one c with msgs := [(1, m)], nextId := 2 } { id := 1 }

/-- A post to the last slot of the thread's scratchpad, or to a core without a thread. -/
def somePost (core : Nat) : Post := ⟨1, 31, 1, 0, core, 0, 253, 0, 0, 0, zeroLanes, zeroLanes, zeroLanes⟩

def someNotice : Notice := ⟨1, 0x1F80, 128, 0, 0, 1, 0, 0, 0, false⟩

theorem wit_MessageSteps_posts :
    (let s := message { thread [] with claim := [7] } (.post (somePost 0))
     s.msgs = [(s.ev.id, .post (somePost 0))] ∧ s.scratchPending = [] ∧ (s.ctx (keyOf 0 0)).run ≠ .vacant ∧
     (s.ctx (keyOf 0 0)).asid = (somePost 0).asid ∧ 128 * 253 + 384 ≤ 32768 * (s.ctx (keyOf 0 0)).claim.length ∧
     (s.ctx (keyOf 0 0)).claim.Nodup ∧ (∀ w ∈ (s.ctx (keyOf 0 0)).claim, w < 8)) ∧
    (let s := message { thread [] with claim := [7] } (.post (somePost 4095))
     s.msgs = [(s.ev.id, .post (somePost 4095))] ∧ (s.ctx (keyOf 4095 0)).run = .vacant) ∧
    (let s := message (thread []) (.outcome 0 31 3)
     s.msgs = [(s.ev.id, .outcome 0 31 3)]) := by
  decide

theorem wit_MessageSteps_kicks :
    (let s := message (thread []) (.kick 31 0 someNotice)
     s.msgs = [(s.ev.id, .kick 31 0 someNotice)] ∧ (s.ctx 0).ring = none) ∧
    (∀ size ∈ [0, 128],
      let s := message { thread [] with ring := some ⟨0x7F80, size, 0, []⟩ } (.kick 31 0 someNotice)
      (s.ctx 0).ring = some ⟨0x7F80, size, 0, []⟩ ∧ (s.ctx 0).run ≠ .vacant ∧ (s.ctx 0).asid = someNotice.asid ∧
      (size < someNotice.len ∨ someNotice.len ≤ size)) ∧
    (let s := { one { thread [] with claim := [7], ring := some ⟨0x7F80, 128, 0, []⟩ } with
        cores := [(0, { Core.start 0 with notices := [someNotice] })] }
     (s.core 0).notices = [someNotice] ∧ someNotice.fetching = false ∧ (s.ctx 0).count 10 < 15 ∧ (s.ctx 0).ring = some ⟨0x7F80, 128, 0, []⟩ ∧ (someNotice.len + 127) / 128 ≤ 128 / 128 - 0) ∧
    (let s := { one (thread []) with cores := [(0, { Core.start 0 with handlers := [⟨0x2000, 1, 2, 0, none⟩] })] }
     (s.core 0).handlers = [] ++ ⟨0x2000, 1, 2, 0, none⟩ :: [] ∧ s.openSlot 0 = some 1 ∧ s.inPartition 0 0 = true ∧ (s.space 0).hold = false) ∧
    (let s := { one (thread []) with
       cores := [(0, { Core.start 0 with handlers := [⟨0x2000, 1, 2, 7, none⟩, ⟨0x3000, 1, 2, 0, none⟩] })]
       spaces := (7, { Space.system with hold := true }) :: State.reset.spaces, due := [⟨.fillSlot, { n := 1 }⟩] }
     (s.core 0).handlers = [⟨0x2000, 1, 2, 7, none⟩] ++ ⟨0x3000, 1, 2, 0, none⟩ :: [] ∧ (s.space 7).hold = true ∧ s.openSlot 0 = some 2 ∧
     s.inPartition 0 0 = true ∧ (s.space 0).hold = false) ∧
    (let s := message { thread [] with cmds := vput (Vector.replicate 12 []) 2 [command .free] } (.ack 0 0 5)
     s.msgs = [(s.ev.id, .ack 0 0 5)] ∧ vat (s.ctx 0).cmds 2 = [command .free] ∧ (vat (s.ctx 0).elems 3).length < 16) := by
  decide

/-- A notice of 128 bytes at the end of a page lands in the last line of the scratchpad. -/
def landing : State :=
  at' { mapped { thread [] with claim := [7], ring := some ⟨0x7F80, 128, 0, [⟨0, 1, none, someNotice, false⟩]⟩ } .cached with
    scratchPending := [claimLine 0 [7] 255] } { id := 1 }

theorem wit_MessageSteps_landing :
    landing.Quiet ∧ landing.palCopies = [] ∧
    landing.scratchPending = (List.range 1).map (fun i => claimLine 0 (landing.ctx 0).claim (0x7F80 / 128 + 0 + i)) ∧ (landing.ctx 0).ring = some ⟨0x7F80, 128, 0, [⟨0, 1, none, someNotice, false⟩]⟩ ∧
    0x7F80 + 128 * 0 + 128 ≤ 32768 * (landing.ctx 0).claim.length ∧ goodClaim (landing.ctx 0).claim ∧
    (∀ i < 128 / 4, regionOf (someNotice.src + BitVec.ofNat 64 (4 * i)) = .translated ∧ landing.paKind (0x1F80 + 4 * i) = .memory ∧
      ∃ e, landing.tlbHit (clusterOf 0) someNotice.asid (someNotice.src + BitVec.ofNat 64 (4 * i)).toNat = some e ∧ e.rd = true ∧
        e.pa (someNotice.src + BitVec.ofNat 64 (4 * i)).toNat = 0x1F80 + 4 * i) := by
  refine ⟨by constructor <;> first | decide | (unfold State.noPoison; decide), by decide, by decide, by decide, by decide, ⟨by decide, by decide⟩, fun i h => ?_⟩
  have : ∀ i < 32, regionOf (someNotice.src + BitVec.ofNat 64 (4 * i)) = .translated ∧ landing.paKind (0x1F80 + 4 * i) = .memory ∧
      landing.tlbHit (clusterOf 0) someNotice.asid (someNotice.src + BitVec.ofNat 64 (4 * i)).toNat = some (entry .cached) ∧
      (entry .cached).pa (someNotice.src + BitVec.ofNat 64 (4 * i)).toNat = 0x1F80 + 4 * i := by decide
  exact ⟨(this i h).1, (this i h).2.1, _, (this i h).2.2.1, by decide, (this i h).2.2.2⟩

/-- A transmit whose receiver has reported no matching buffer since GT 0, 1,000,000 ns ago. -/
def transmitting : State :=
  at' { one { thread [] with cmds := vput (Vector.replicate 12 []) 8 [command .free] } with
    gt := 1000000, ote := { State.reset.ote with transmits := [(0, ⟨0, 4095, 5, true, [1, 2], some 0, 0⟩), (1, ⟨0, 4095, 5, true, [3], none, 0⟩)] } } {}

theorem wit_TransportSteps_transmits :
    transmitting.Quiet ∧ transmitting.mgmt.ready = true ∧ Tbl.get? transmitting.ote.transmits 0 = some ⟨0, 4095, 5, true, [1, 2], some 0, 0⟩ ∧
    transmitting.rodBehind ⟨0, 4095, 5, true, [1, 2], some 0, 0⟩ = false ∧ vat (transmitting.ctx 0).cmds 8 = [command .free] ∧ (vat (transmitting.ctx 0).elems 9).length < 16 ∧
    (0 : Word) + 1000000 ≤ transmitting.gt := by
  refine ⟨by constructor <;> first | decide | (unfold State.noPoison; decide), by decide, by decide, by decide, by decide, by decide, by decide⟩

/-- A buffer of two bytes at the end of a page, with CWORD before it and Q9 records asked for. -/
def someBuffer : Buffer := ⟨0x1FFE, 2, 0x1FF0, 0, 0, 0, 0, 0, 4, [0x1000], 0x1FF0, 0, 0, none⟩
def somePacket : Packet := ⟨7, 65535, true, 0, 9, 0, 5, .send, 2, 0, [1, 2], true⟩
def someReceive : Receive := ⟨65535, true, 0, 9, 0, someBuffer, 4095, 0, 2, [0], [2], 0, [], false, false⟩

/-- The transport engine of an address space with an endpoint of job 5. -/
def receiving (buffers : Tbl Buffer) (receives : Tbl Receive) : State :=
  at' { one (thread []) with ote := { State.reset.ote with
    buffers := buffers, receives := receives, endpoints := [(4095, { Endpoint.absent with valid := true, job := 5 })] } } { packet := somePacket }

theorem wit_TransportSteps_packets :
    somePacket.kind = .send ∧ (receiving [] []).admits somePacket.asid somePacket.job = true ∧
    (receiving [] []).admits { somePacket with job := 6 }.asid { somePacket with job := 6 }.job = false ∧ somePacket.port < 8 ∧ somePacket.pdc < 65536 ∧
    Tbl.getD (receiving [] []).ote.pdcs somePacket.pdc ⟨somePacket.rod, 0⟩ = ⟨true, 0⟩ ∧ somePacket.rod = true ∧ somePacket.seq = 0 ∧
    { somePacket with seq := 1 }.seq ≠ 0 ∧ (receiving [] []).ote.receives = [] ∧ 1 ≤ somePacket.total ∧ somePacket.total ≤ 2 ^ 30 ∧
    (receiving [] []).ote.buffers = [] ∧ (receiving [(4095, someBuffer)] []).ote.buffers = [(4095, someBuffer)] ∧
    4095 / 4096 = somePacket.asid.toNat ∧ someBuffer.flags.getLsbD 0 = false ∧ someBuffer.flags.getLsbD 1 = false ∧ someBuffer.taken = none ∧
    somePacket.total ≤ someBuffer.len ∧ somePacket.offset + 2 ≤ somePacket.total ∧ (0x1FFE + 0) % 128 + 2 ≤ 128 ∧
    (receiving [] []).paKind (someBuffer.pages.getD (0x1FFE / 4096 - 0x1FFE / 4096) 0 + 0x1FFE % 4096) = .memory := by
  decide

theorem wit_TransportSteps_records :
    (let s := receiving [(4095, someBuffer)] [(0, someReceive)]
     Tbl.get? s.ote.receives 0 = some someReceive ∧ (∀ q, Tbl.get? s.ote.buffers someReceive.buffer = some q → q.order = someBuffer.order) ∧
     someReceive.failed = false ∧ s.deliveredBehind someReceive = false ∧ someBuffer.flags.getLsbD 0 = false ∧ someBuffer.poster < 32768 ∧
     someReceive.uncounted = 2 :: [] ∧ someBuffer.cword ≠ 0 ∧ s.paKind someBuffer.cwordPa = .memory ∧ someReceive.counted + 2 = someReceive.total ∧
     someReceive.done = false ∧ someBuffer.flags.getLsbD 2 = true ∧ someBuffer.handler = 0 ∧ someBuffer.barrier.getLsbD 15 = false ∧
     (s.ctx someBuffer.poster).run ≠ .vacant ∧ Tbl.get? s.ote.held 0 = none ∧ (vat (s.ctx someBuffer.poster).elems 9).length < 16) ∧
    (let s := at' { one (thread []) with ote := { State.reset.ote with endpoints := [(4095, { Endpoint.absent with valid := true })] } } { id := 4095 }
     (s.endpoint s.ev.asid s.ev.id).valid = true ∧ (s.congestion s.ev.asid s.ev.id).version = 0) ∧
    (∀ n ∈ [(1 : Nat), 2], let s := at' { one (thread []) with
       ote := { State.reset.ote with congestion := [(4095 * 4096 + 4095, { Congestion.zero with version := 1 })] } } { asid := 4095, id := 4095, n := n }
     (s.congestion s.ev.asid s.ev.id).version.getLsbD 0 = true ∧ s.ev.id < 4096 ∧ s.ev.asid < 4096 ∧ (s.ev.n = 1 ∨ 2 ≤ s.ev.n)) ∧
    (let s := at' { one (thread []) with gt := 300, ote := { State.reset.ote with congestion := [(0, { Congestion.zero with version := 0, next := 300 })] } } {}
     (s.congestion 0 0).version.getLsbD 0 = false ∧ ¬s.gt < (s.congestion 0 0).next) ∧
    (let s := receiving [(4095, someBuffer)] [(0, { someReceive with failed := true })]
     Tbl.get? s.ote.receives 0 = some { someReceive with failed := true } ∧ s.deliveredBehind { someReceive with failed := true } = false ∧
     someReceive.done = false ∧ someBuffer.flags.getLsbD 2 = true) := by
  refine ⟨⟨by decide, fun q h => ?_, by decide⟩, by decide, by decide, by decide, by decide⟩
  cases h
  rfl

/-! ### Witnesses: the host, starts and stops, time and containment, scheduling -/

theorem wit_HostSteps_kicks :
    (∀ v ∈ [(1 : Word), 2, 3, 0x100000000], let s := at' { one (thread []) with queues := [(63, { Queue.off with size := 2, ctl := 8, tail := 1 })] } { q := 63, n := 8, value := v }
      s.mgmt.ready = true ∧ (s.ev.n = 0 ∨ s.ev.n = 8) ∧ (∀ d ∈ s.due, d.i ≠ .hostBar4Write) ∧ (s.queue 0 63).invalid = false) ∧
    (let s := { one (thread []) with queues := [(63, { Queue.off with size := 2, ctl := 8, tail := 1 })] }
     let c := s.queue 0 63
     ((2 : W32) - c.head ≤ c.size ∧ c.tail - c.head ≤ (2 : W32) - c.head) ∧ c.tail - c.head ≤ (1 : W32) - c.head ∧ ¬((3 : W32) - c.head ≤ c.size)) ∧
    (let s := at' (one (thread [])) { addr := 68719476735, n := 1, bytes := [7] }
     s.ev.addr + s.ev.bytes.length ≤ 2 ^ 36 ∧ s.ev.q ≠ 1 ∧ s.ev.q ≠ 2 ∧ s.ev.found = .clean ∧ s.ev.addr + s.ev.n ≤ 2 ^ 36 ∧
     (∀ i < 1, s.paKind ((vat s.mgmt.windows (s.ev.addr / 2 ^ 30)).toNat + s.ev.addr % 2 ^ 30 + i) = .memory)) ∧
    (16 ≤ (2047 : Word).toNat ∧ 2047 ∈ ({ Mgmt.started with unmasked := [2047] } : Mgmt).unmasked ∧ 2047 ∉ Mgmt.started.unmasked ∧
     (15 : Word).toNat < 16 ∧ 2047 < (2048 : Word).toNat) ∧
    (2047 < 2048 ∧ 2047 ∈ ({ Mgmt.started with pending := [2047] } : Mgmt).pending ∧ (0 : Byte).getLsbD 0 = false) := by
  refine ⟨fun v _ => ⟨rfl, Or.inr rfl, fun d h => absurd h List.not_mem_nil, rfl⟩, by decide,
    ⟨by decide, by decide, by decide, by decide, by decide, fun i h => ?_⟩, by decide, by decide⟩
  cases Nat.lt_one_iff.1 h
  decide

/-- Reads of MGMTSTAT, of the last entry of a full dead-agent log and of one that is empty, and of the last kick register;
mailbox writes; the last PARTMEM bound beyond the address space, and in it. -/
theorem wit_HostSteps_window :
    (let s := fun (q a : Nat) => at' { one (thread []) with
       mgmt := { Mgmt.started with deadlog := List.replicate 64 (⟨.core 4095, 15, 5⟩ : DeadEntry) } } { q := q, n := 8, addr := a }
     (s 1 0).ev.n = 8 ∧ (s 1 0).ev.addr = 0 ∧ (s 1 0x2F8).ev.addr = 0x100 + 8 * 63 ∧
     (s 1 0x2F8).mgmt.deadlog[63]? = some ⟨.core 4095, 15, 5⟩ ∧ (Agent.core 4095).exists = true ∧ 15 < 16 ∧
     (one (thread [])).mgmt.deadlog[63]? = none ∧ (s 2 16773624).ev.addr = 4095 * 4096 + 63 * 8 ∧ (s 2 16773624).mgmt.ready = true) ∧
    (at' (one (thread [])) { q := 2, bytes := [1] }).ev.q = 2 ∧ (at' (one (thread [])) { q := 3, bytes := [1] }).ev.q = 3 ∧
    (∀ n ∈ [2 ^ 50, 0x10000], let s := at' (one (thread [])) { addr := 0x2000 + 8 * 255, bytes := bytesOfNat 8 n }
     ¬(s.ev.q = 1 ∨ s.ev.q = 2 ∨ s.ev.q = 3) ∧ s.ev.addr = 0x2000 + 8 * 255 ∧ s.ev.bytes.length = 8 ∧ natOfBytes s.ev.bytes = n ∧
     (Tbl.getD s.mgmt.partmem 127 (0, 0)).1 < 2 ^ 50 ∧ (Tbl.getD s.mgmt.partmem 127 (0, 0)).1 % 65536 = 0) ∧
    (∀ n ∈ [2 ^ 50, 0x10000], let s := at' (one (thread [])) { addr := 0x2000 + 16 * 127, bytes := bytesOfNat 8 0x20000 ++ bytesOfNat 8 n }
     ¬(s.ev.q = 1 ∨ s.ev.q = 2 ∨ s.ev.q = 3) ∧ s.ev.bytes.length = 16 ∧ natOfBytes (s.ev.bytes.take 8) = 0x20000 ∧
     natOfBytes (s.ev.bytes.drop 8) = n) ∧ 0x20000 % 65536 = 0 ∧
    0x10000 < 2 ^ 50 ∧ 0x10000 % 65536 = 0 := by
  decide

theorem wit_HostSteps_tables :
    (let s := at' (one (thread [])) { clusters := 1, value := 0x10001 }
     s.ev.value.toNat < 2 ^ 32 ∧ s.ev.value.toNat % 2 ^ 16 ≠ 0 ∧ s.ev.value.toNat / 2 ^ 16 ≠ 0 ∧
     (∀ j < 16, j ≠ 0 → (vat s.parts j).clusters &&& s.ev.clusters = 0) ∧
     (vat s.parts 0).clusters ≠ s.ev.clusters ∧ State.reset.partitionBusy 0 = false) ∧
    (let s := at' (one (thread [])) { asid := 4095, bytes := List.replicate 32 3, addr := controlBase + 5 * 2 ^ 32 + 4095 * 0x20000 + 4095 * 32 }
     s.Quiet ∧ s.ev.bytes.length = 32 ∧ s.tiles = [] ∧ s.palCopies = [] ∧ (∀ x ∈ s.ctxs, ∀ q ∈ [2, 4, 6, 8], vat x.2.cmds q = [])) := by
  refine ⟨by decide, by constructor <;> first | decide | (unfold State.noPoison; decide), by decide, by decide, by decide, by decide⟩

/-- The management controller as it starts, with what is given. -/
def managed (starting : Option Bool) (recovery : Bool) (value : Word) : State :=
  at' { State.reset with mgmt := { Mgmt.started with starting := starting, recovery := recovery } } { value := value }

theorem wit_StartsAndStops :
    ((managed none false 3).mgmt.starting = none ∧ (managed none false 3).mgmt.recovery = false ∧ (managed none false 3).ev.value.toNat < 4) ∧
    (managed (some true) false 0).mgmt.starting = some true ∧ (managed (some false) false 5).mgmt.starting = some false ∧
    (managed none true 0).mgmt.recovery = true ∧ 4 ≤ (managed none false 4).ev.value.toNat ∧
    (∀ v ∈ [(0x100000000 : Word), 0x100000001, 0x100200000, 0x100200001], (managed none true v).ev.value.toNat / 2 ^ 32 = 1) ∧
    (0x100000000 : Word).toNat % 2 ^ 32 = 0 ∧ (0x100000001 : Word).toNat % 2 ^ 32 = 1 ∧ (0x100200000 : Word).toNat % 2 ^ 32 = 2 ^ 21 ∧
    2 ^ 21 < (0x100200001 : Word).toNat % 2 ^ 32 := by
  refine ⟨by decide, by decide, by decide, by decide, by decide, ?_, rfl, rfl, rfl, by decide +kernel⟩
  intro v h
  simp only [List.mem_cons, List.not_mem_nil, or_false] at h
  rcases h with rfl | rfl | rfl | rfl <;> rfl

/-- A warm start within 10 °C of the stored calibration and one beyond it, a recovery of a stopped package, and the alert
clear, hot, cool for no time, for 999,999 ns and for 1,000,000 ns. -/
theorem wit_StartsAndStops_more :
    (let s := fun (t : Byte) => at' { State.reset with mgmt := { Mgmt.started with starting := some true, calib := some [40, 40, 40, 40] } }
       { value := 3, bytes := [50, 30, 40, t] }
     let temps := fun (t : Byte) => (s t).ev.bytes.map (·.toNat)
     let near := fun (t : Byte) => ∀ i < 4, [40, 40, 40, 40].getD i 0 ≤ (temps t).getD i 0 + 10 ∧ (temps t).getD i 0 ≤ [40, 40, 40, 40].getD i 0 + 10
     (s 50).mgmt.calib = some [40, 40, 40, 40] ∧ [40, 40, 40, 40].length = (temps 50).length ∧ near 50 ∧ ¬near 51 ∧ ¬near 29) ∧
    (let s := { managed none true 0x100000001 with mgmt := { Mgmt.started with recovery := true, ready := false } }
     s.mgmt.recovery = true ∧ s.mgmt.ready = false ∧ s.ev.value.toNat / 2 ^ 32 = 1) ∧
    (let s := fun (since : Option Word) (gt : Word) (n : Nat) => at' { State.reset with
       gt := gt, mgmt := { Mgmt.started with thermal := true, coolSince := since } } { n := n }
     State.reset.mgmt.thermal = false ∧ (s none 0 1).mgmt.thermal = true ∧ (s none 0 1).ev.n ≠ 0 ∧ (s none 0 0).mgmt.coolSince = none ∧
     (s (some 1) 1000000 0).mgmt.coolSince = some 1 ∧ ((s (some 1) 1000000 0).gt - 1).toNat < 1000000 ∧
     ¬((s (some 1) 1000001 0).gt - 1).toNat < 1000000) := by
  decide

theorem wit_TimeAndContainment :
    (one (thread [])).isDead (.core 4095) = false ∧ (Agent.core 4095).exists = true ∧
    64 ≤ (List.replicate 64 (⟨.core 1, 1, 0⟩ : DeadEntry)).length ∧
    (let s := { one (thread []) with dies := vput (Vector.replicate 4 Die.start) 3 { Die.start with gt := 32, steady := 999 } }
     (s.gtOf 3).toNat ≤ s.gt.toNat + 32 ∧ s.gt.toNat ≤ (s.gtOf 3).toNat + 32 ∧ 999 ≤ (s.die 3).steady ∧ ¬999 ≤ (s.die 0).steady ∧
     (s.gtOf 3 + 1).toNat ≤ (s.gt + 1).toNat + 32 ∧ ¬(s.gtOf 3 + 2).toNat ≤ (s.gt + 1).toNat + 32 ∧
     1 * 4 ^ 3 / 4 ^ 3 % 4 = 1 ∧ 2 * 4 ^ 3 / 4 ^ 3 % 4 = 2 ∧ 2 * 4 ^ 3 / 4 ^ 0 % 4 = 0) ∧
    (∀ q ∈ [1, 2], 4 * (State.reset.cycles.toNat + q) ≤ 7 * (State.reset.gt.toNat + 1 + 32) ∧
      7 * (State.reset.gt.toNat + 1) ≤ 4 * (State.reset.cycles.toNat + q) + 7 * 32) ∧
    (let s := { one (thread []) with gt := 33 }
     ¬s.gt.toNat ≤ (s.gtOf 3).toNat + 32 ∧ ¬7 * (s.gt.toNat + 1) ≤ 4 * (s.cycles.toNat + 1) + 7 * 32) ∧
    ((one (thread [])).ctx 0).abort = none ∧ ((one (thread [])).ctx 0).speculative = false ∧
    (let s := txAt .live [] 0 0
     (s.ctx 0).abort = none ∧ (s.ctx 0).speculative = true ∧ s.settled 0 = true ∧
     ∃ x, (s.ctx 0).tx = some x ∧ x.phase = .live ∧ x.handler.isSome = true ∧ x.held = []) ∧
    (one (thread [])).ev.q = 0 ∧
    ((one (thread [])).ctx 0).run ≠ .vacant ∧ (one (thread [])).isDead (.quire 7) = false ∧ (one (thread [])).isDead (.stack 7) = false ∧
    (one (thread [])).paKind (63 * 128) = .memory := by
  refine ⟨by decide, by decide, by decide, by decide, by decide, by decide, by decide, by decide, ⟨by decide, by decide, by decide, _, rfl, by decide, by decide, by decide⟩,
    by decide, by decide, by decide, by decide, by decide⟩

/-- Queue 63 of ASID 0 with a launch in slot 5 of 65 tasks on die 3, of which one is not dispatched yet. -/
def dispatching : State :=
  { one (thread []) with
    queues := [(63, { Queue.off with ctl := 8, size := 2 })]
    disp := ⟨Vector.replicate 8 0, [(5, { someLaunch with queue := some 63, shares := [⟨3, 64, 65⟩] })]⟩ }

/-- Tables that map page 0 and a ring whose entry leads to a header of zeros. -/
def misheaded : State :=
  { one (thread []) with
    queues := [(63, { Queue.off with ring := 0x1000, ctl := 8, size := 2, tail := 1 })]
    spaces := [(0, { Space.system with ptbase := 0x10001 })], mem := tables [] }

theorem wit_DispatchAndSlotFilling_turns :
    dispatching.served 0 63 = true ∧ (dispatching.queue 0 63).head = (dispatching.queue 0 63).tail ∧
    dispatching.disp.launches = [(5, { someLaunch with queue := some 63, shares := [⟨3, 64, 65⟩] })] ∧
    misheaded.served 0 63 = true ∧ misheaded.disp.launches = [] ∧ (misheaded.queue 0 63).head ≠ (misheaded.queue 0 63).tail ∧
    (misheaded.queue 0 63).since = none ∧ misheaded.headEntry 0 63 = some (List.replicate 16 0) ∧ headerCode (List.replicate 16 0) = some 1 ∧
    (let s := { one (thread []) with gt := 1000000, queues := [(0, { Queue.off with since := some 0 })] }
     (s.queue 0 0).since = some 0 ∧ 1000000 * ((s.queue 0 0).waited + 1) ≤ (s.gt - 0).toNat) := by
  refine ⟨by decide, by decide, by decide, by decide, by decide, by decide, by decide, by decide +kernel, by decide, by decide⟩

theorem wit_DispatchAndSlotFilling_places :
    (let s := { one (thread []) with dies := vput (Vector.replicate 4 Die.start) 0 { Die.start with placing := [someRecord] } }
     (s.die 0).placing = someRecord :: [] ∧ s.refused someRecord = false ∧ s.placeFor 0 someRecord = some 0) ∧
    (let s := { one (thread []) with disp := ⟨Vector.replicate 8 0, [(5, { someLaunch with live := 0 })]⟩ }
     s.disp.launches = [(5, { someLaunch with live := 0 })] ∧ (∀ h ∈ someLaunch.shares, h.stop ≤ h.next) ∧ someLaunch.side = 0 ∧
     someLaunch.graph = none) := by
  decide +kernel

/-- A graph at a speculative node of zeros, whose sides are the launches 6 and 7. -/
def branching : State :=
  { misheaded with
    disp := ⟨Vector.replicate 8 0, [(4, { someLaunch with graph := some ⟨[.spec 0 0xFFFF 6 7 none], [], [], false⟩ }), (6, someLaunch), (7, someLaunch)]⟩
    ev := { n := 4, id := 6 } }

theorem wit_DispatchAndSlotFilling_branches :
    (∃ l g v, branching.launch? 4 = some l ∧ l.graph = some g ∧ g.branches = [] ++ .spec 0 0xFFFF 6 7 none :: [] ∧ branching.ev.id = 6 ∧
      branching.readNode l.asid.toNat l.hdr.graph.toNat 0 = some v ∧ branching.dispRead l.asid.toNat v.ptr 8 = some 0) ∧
    branching.launch? 6 = some someLaunch ∧ branching.launch? 7 = some someLaunch :=
  ⟨⟨_, _, _, rfl, rfl, rfl, rfl, rfl, rfl⟩, rfl, rfl⟩

/-- Core 0 with records in its deque and its inbox, and core 1 without a thread. -/
def stocked (deque inbox : List TaskRec) (spin : Word) : State :=
  at' { one (thread []) with cores := [(0, { Core.start 0 with deque := deque, inbox := inbox })] } { value := spin }

theorem wit_DispatchAndSlotFilling_slots :
    (stocked [someRecord] [] 0).dead = [] ∧ (stocked [someRecord] [] 0).mgmt.ready = true ∧
    (⟨.fillSlot, { core := 0, n := 1 }⟩ : Due) ∉ (stocked [someRecord] [] 0).due ∧ (stocked [someRecord] [] 0).storesBefore 0 someRecord.born = true ∧ (stocked [someRecord] [] 0).freeResident 0 = some 1 ∧
    ((stocked [someRecord] [] 0).core 0).outlist = [] ∧ ((stocked [someRecord] [] 0).core 0).spilled = [] ∧
    (∀ j ∈ [0, 1], ((stocked [someRecord] [] 0).ctx (shadowKey 0 j)).why = none) ∧ ((stocked [someRecord] [] 0).core 0).deque = [] ++ [someRecord] ∧
    (stocked [someRecord] [] 0).bindable 0 someRecord = true ∧ (stocked [someRecord] [] 0).refused someRecord = false ∧
    ((stocked [] [someRecord] 0).core 0).deque = [] ∧ ((stocked [] [someRecord] 0).core 0).inbox = [someRecord] ∧
    (let s := at' (stocked [someRecord] [] 0) { core := 1, n := 0 }
     s.ev.n ≠ s.ev.core ∧ (s.core 0).spilled = [] ∧ (s.core 0).deque = someRecord :: [] ∧ s.storesBefore 0 someRecord.born = true ∧
     s.bindable 1 someRecord = true ∧ s.refused someRecord = false ∧ s.openSlot 1 = some 8) ∧ ((stocked [] [] 0).core 0).deque = [] ∧ ¬(stocked [] [] 0).cycles < (stocked [] [] 0).ev.value := by
  decide

/-- A core whose eight threads all wait, and one whose thread has parked without a frame pool. -/
def waiting : State :=
  { stocked [someRecord] [] 0 with ctxs := (List.range 8).map fun i => (i, { thread [] with run := .waitev 5, waitSince := some 3 }) }

theorem wit_DispatchAndSlotFilling_leaves :
    waiting.hasRecord 0 = true ∧ waiting.freeResident 0 = none ∧ (∀ i < 8, (waiting.ctx (keyOf 0 i)).waitsSince.isSome = true) ∧
    (waiting.ctx (shadowKey 0 0)).run = .vacant ∧ (waiting.ctx (shadowKey 0 1)).run = .vacant ∧ waiting.longestWaiter 0 = some 0 ∧
    (let s := { one (thread []) with ctxs := [(7, { thread [] with run := .parked 4, why := some (.parked 4) })] }
     let c := s.ctx (keyOf 0 7)
     c.run = .parked 4 ∧ c.why = some (.parked 4) ∧ (s.space c.asid.toNat).ctxframe.getLsbD 0 = false ∧
     (∀ n ∈ [0, 1], (s.ctx (shadowKey 0 n)).run = .vacant) ∧ (∀ n < 8, n ≠ 7 → (s.ctx (keyOf 0 n)).why = none) ∧ c.results = [] ∧ c.loads = [] ∧
     c.abort = none ∧ c.answer = none ∧ c.joined = false ∧ c.speculative = false ∧ c.amov = none ∧ c.onMailbox = false ∧ s.postsOut 7 = false ∧ c.draining = false ∧ (s.mx 0).owner ≠ some 7 ∧ s.tokenHolder ≠ some 7) := by
  decide

/-! ### Witnesses: corners of the statements above -/

theorem wit_VectorMovesAndPredicates_corners :
    (plain 0 0 0).mask 1 0 = 0 ∧ (Instr.vperm r3).wf = true ∧ r3.sub.getLsbD 0 = false ∧ (Instr.vmad { r3 with mod := 0xC400 }).wf = true ∧
    ({ r3 with mod := 0xC400 } : R3).sat = true ∧ (Instr.vabs { r3 with b := 0 }).wf = true := by
  decide

theorem wit_TrapsParksReturns_corners :
    (let s := one { thread [] with intrap := true, trappc := 0x1004 }
     s.th.intrap = true ∧ s.th.trappc.toNat % 8 ≠ 0 ∧ (s.th.trappc + 8).toNat % 8 ≠ 0) ∧
    handled.th.intrap = false ∧ handled.th.speculative = false ∧ (handled.space handled.th.asid.toNat).trapvec ≠ 0 ∧
    (State.reset.space 0).trapvec = 0 := by
  decide

/-- A landing ring that owes a record. -/
def owingRecord : State := one { thread [] with ring := some ⟨0x7F80, 128, 0, [⟨0, 1, none, someNotice, false⟩]⟩ }

theorem wit_PopsGuardsStatus_corners : owingRecord.Issues 0 0 [] [dx 31] ∧ 10 % 16 = 10 ∧ owingRecord.th.ring.isSome = true :=
  ⟨issues owingRecord (fe_thread []) _ _, by decide, by decide⟩

/-- X31 is named and empty-idle, with X2 full below it, or X1 is and empty-pending; masks with X0, and of V0. -/
theorem wit_FullEmptyInstructions_corners :
    holed.Issues 0 0 [] [] ∧ holed.th.r.fe (.x 31) = .idle ∧ holed.th.r.fe (.x 2) = .full ∧ holed.th.r.fe (.x 1) = .pending ∧ holed.th.tx = none ∧
    (0x80000004 : BitVec 33).getLsbD 31 = true ∧ (0x80000004 : BitVec 33).getLsbD 32 = false ∧ (2 : BitVec 33).getLsbD 1 = true ∧
    (∀ m < 31, (0x80000004 : BitVec 33).getLsbD m = true → m = 2) ∧
    (1 : BitVec 33).getLsbD 0 = true ∧ (1 : BitVec 33).getLsbD 32 = false ∧ (0x100000001 : BitVec 33).getLsbD 32 = true := by
  refine ⟨⟨by decide, fun _ h => (List.not_mem_nil h).elim, fun _ h => (List.not_mem_nil h).elim⟩, ?_⟩
  decide

/-! ### The manual's check value and a knot scale -/

/-- CRC-32C of the nine characters "123456789" (R324 names the code; the value is the code's published check value). -/
theorem test_crc32c : crc32c [0x31, 0x32, 0x33, 0x34, 0x35, 0x36, 0x37, 0x38, 0x39] = 0xE3069283 := by decide +kernel

/-- Knots from 0 to 8.0 are scaled by 256/8 = 32.0, and a range that is empty has no scale (R124). -/
theorem test_knotScale : knotScale 0 0x41000000 = some 0x42000000 ∧ knotScale 0x41000000 0x41000000 = none := by decide +kernel

end Sys2Proof.Tests
end

section
/-! PROOFS. The vector integer instructions (R97 to R99): the elements of a lane-built register, the typed values as
representatives modulo 2^w, and the three shared forms `vint`, `vpat` and `VCMP`. -/

namespace Sys2Proof.Machine

/-! ### Lanes and elements -/

theorem vat_lanesOf (f : Nat → W32) {i : Nat} (hi : i < 32) : vat (lanesOf f) i = f i := by
  simp [vat, lanesOf, Nat.mod_eq_of_lt hi]

theorem vat_blend (m : W32) (new old : Lanes) {i : Nat} (hi : i < 32) :
    vat (blend m new old) i = if m.getLsbD i then vat new i else vat old i := vat_lanesOf _ hi

/-- The digits of width w below place n, put together. -/
def digitSum (w : Nat) (g : Nat → Nat) (n : Nat) : Nat :=
  (List.range n).foldl (fun a j => a + g j % 2 ^ w * 2 ^ (w * j)) 0

theorem digitSum_succ (w : Nat) (g : Nat → Nat) (n : Nat) :
    digitSum w g (n + 1) = digitSum w g n + g n % 2 ^ w * 2 ^ (w * n) := by
  simp [digitSum, List.range_succ]

theorem digitSum_lt (w : Nat) (g : Nat → Nat) (n : Nat) : digitSum w g n < 2 ^ (w * n) := by
  induction n with
  | zero => simp [digitSum]
  | succ n ih =>
    have hd : g n % 2 ^ w < 2 ^ w := Nat.mod_lt _ (Nat.two_pow_pos w)
    calc digitSum w g (n + 1) = digitSum w g n + g n % 2 ^ w * 2 ^ (w * n) := digitSum_succ w g n
      _ < (g n % 2 ^ w + 1) * 2 ^ (w * n) := by rw [Nat.add_mul]; omega
      _ ≤ 2 ^ w * 2 ^ (w * n) := Nat.mul_le_mul_right _ hd
      _ = 2 ^ (w * (n + 1)) := by rw [← pow_add]; congr 1; ring

/-- Each digit of the sum is the one put there. -/
theorem digitSum_digit (w : Nat) (g : Nat → Nat) {n k : Nat} (hk : k < n) :
    digitSum w g n / 2 ^ (w * k) % 2 ^ w = g k % 2 ^ w := by
  induction n with
  | zero => omega
  | succ n ih =>
    have hp : 0 < 2 ^ (w * k) := Nat.two_pow_pos _
    rw [digitSum_succ]
    obtain hk | rfl : k < n ∨ k = n := by omega
    · obtain ⟨e, rfl⟩ := Nat.exists_eq_add_of_lt hk
      have hpow : 2 ^ (w * (k + e + 1)) = 2 ^ w * 2 ^ (w * e) * 2 ^ (w * k) := by rw [← pow_add, ← pow_add]; congr 1; ring
      rw [hpow, ← Nat.mul_assoc, Nat.add_mul_div_right _ _ hp, Nat.mul_left_comm, Nat.add_mul_mod_self_left, ih hk]
    · rw [Nat.add_mul_div_right _ _ hp, Nat.div_eq_of_lt (digitSum_lt w g k), Nat.zero_add, Nat.mod_mod]

theorem laneOf_toNat {w : Nat} (hw : w ∣ 32) (f : Nat → Nat) (i : Nat) :
    (laneOf w f i).toNat = digitSum w (fun k => f (i * (32 / w) + k)) (32 / w) := by
  have h := digitSum_lt w (fun k => f (i * (32 / w) + k)) (32 / w)
  rw [Nat.mul_div_cancel' hw] at h
  exact Nat.mod_eq_of_lt h

/-- R80, R81: a register made of elements, written under a mask, holds them in the selected lanes and its own elsewhere. -/
theorem velem_blend_laneOf {w : Nat} (hw : w ∣ 32) (m : W32) (g : Nat → Nat) (old : Lanes) {j : Nat} (hj : j < 1024 / w) :
    velem (blend m (lanesOf (laneOf w g)) old) w j = if m.getLsbD (w * j / 32) then g j % 2 ^ w else velem old w j := by
  have hw0 : 0 < w := Nat.pos_of_dvd_of_pos hw (by omega)
  have hi : w * j / 32 < 32 := by
    have := (Nat.lt_div_iff_mul_lt hw0).1 hj
    have := Nat.mul_comm w j
    omega
  unfold velem
  rw [vat_blend _ _ _ hi, vat_lanesOf _ hi]
  split
  · rw [laneOf_toNat hw]
    obtain ⟨n, hn⟩ := hw
    have hn0 : 0 < n := by by_contra h; simp [Nat.eq_zero_of_not_pos h] at hn
    have hdiv : 32 / w = n := by rw [hn, Nat.mul_div_cancel_left _ hw0]
    rw [hdiv, hn, Nat.mul_div_mul_left _ _ hw0, Nat.mul_mod_mul_left, digitSum_digit _ _ (Nat.mod_lt _ hn0), Nat.mul_comm,
      Nat.div_add_mod]
  · rfl

theorem velem_lt (v : Lanes) (w j : Nat) : velem v w j < 2 ^ w := Nat.mod_lt _ (Nat.two_pow_pos w)

theorem velem_32 (v : Lanes) (j : Nat) : velem v 32 j = (vat v j).toNat := by
  simp [velem, Nat.mod_eq_of_lt (vat v j).isLt]

theorem bitsOf_getLsbD (f : Nat → Bool) {i : Nat} (hi : i < 32) : (bitsOf f).getLsbD i = f i := by
  have hb : bitsOf f = laneOf 1 (fun j => (f j).toNat) 0 := by
    unfold bitsOf laneOf
    congr 2
    funext n j
    cases h : f j <;> simp [h]
  have hd := digitSum_digit 1 (fun k => (f (0 * (32 / 1) + k)).toNat) (show i < 32 / 1 from hi)
  rw [hb, BitVec.getLsbD, Nat.testBit_eq_decide_div_mod_eq, laneOf_toNat (one_dvd 32)]
  rw [one_mul, pow_one] at hd
  rw [hd]
  cases h : f i <;> simp [h]

theorem blendBits_getLsbD (m new old : W32) {i : Nat} (hi : i < 32) :
    (blendBits m new old).getLsbD i = if m.getLsbD i then new.getLsbD i else old.getLsbD i := by
  rw [blendBits, BitVec.getLsbD_or, BitVec.getLsbD_and, BitVec.getLsbD_and, BitVec.getLsbD_not]
  cases m.getLsbD i <;> simp [hi]

/-! ### Typed values modulo 2^w (R80, R98) -/

/-- The values that a type of width w has. -/
def inType (sg : Bool) (w : Nat) (x : Int) : Prop := minOf sg w ≤ x ∧ x ≤ maxOf sg w

theorem two_pow_eq_two_mul {w : Nat} (hw : 0 < w) : (2 : Int) ^ w = 2 * 2 ^ (w - 1) := (mul_pow_sub_one hw.ne' 2).symm

theorem inType_signed {w : Nat} {x : Int} : inType true w x ↔ -2 ^ (w - 1) ≤ x ∧ x ≤ 2 ^ (w - 1) - 1 := Iff.rfl

theorem inType_unsigned {w : Nat} {x : Int} : inType false w x ↔ 0 ≤ x ∧ x ≤ 2 ^ w - 1 := Iff.rfl

theorem maxOf_sub_minOf (sg : Bool) {w : Nat} (hw : 0 < w) : maxOf sg w - minOf sg w = 2 ^ w - 1 := by
  have := two_pow_eq_two_mul hw
  cases sg <;> simp only [maxOf, minOf, if_true, Bool.false_eq_true, if_false] <;> omega

theorem minOf_le_zero (sg : Bool) (w : Nat) : minOf sg w ≤ 0 := by
  cases sg <;> simp [minOf]

theorem zero_le_maxOf (sg : Bool) (w : Nat) : 0 ≤ maxOf sg w := by
  have h (n : Nat) : (0 : Int) < 2 ^ n := by positivity
  cases sg
  · exact Int.le_sub_one_of_lt (h w)
  · exact Int.le_sub_one_of_lt (h (w - 1))

theorem ivalOf_unsigned (w n : Nat) : ivalOf false w n = (n % 2 ^ w : Nat) := by simp [ivalOf]

theorem ivalOf_signed (w n : Nat) :
    ivalOf true w n = if 2 ^ (w - 1) ≤ n % 2 ^ w then ((n % 2 ^ w : Nat) : Int) - 2 ^ w else (n % 2 ^ w : Nat) := by
  simp [ivalOf]

theorem ivalOf_modEq (sg : Bool) (w n : Nat) : ivalOf sg w n ≡ n [ZMOD 2 ^ w] := by
  have h : ((n % 2 ^ w : Nat) : Int) ≡ n [ZMOD 2 ^ w] := by push_cast; exact Int.mod_modEq _ _
  cases sg
  · rwa [ivalOf_unsigned]
  · rw [ivalOf_signed]
    split
    · simpa using h.sub (Int.modEq_zero_iff_dvd.2 (dvd_refl ((2 : Int) ^ w)))
    · exact h

theorem ivalOf_inType (sg : Bool) {w : Nat} (hw : 0 < w) (n : Nat) : inType sg w (ivalOf sg w n) := by
  have hlt : n % 2 ^ w < 2 ^ w := Nat.mod_lt _ (Nat.two_pow_pos w)
  have hdouble := two_pow_eq_two_mul hw
  zify at hlt
  cases sg
  · rw [inType_unsigned, ivalOf_unsigned]
    push_cast
    omega
  · rw [inType_signed, ivalOf_signed]
    split <;> next h => zify at h; push_cast; omega

/-- A type has one value in each class modulo 2^w. -/
theorem inType.eq_of_modEq {sg : Bool} {w : Nat} (hw : 0 < w) {x y : Int} (hx : inType sg w x) (hy : inType sg w y)
    (h : x ≡ y [ZMOD 2 ^ w]) : x = y := by
  have hr := maxOf_sub_minOf sg hw
  obtain ⟨hx0, hx1⟩ := hx
  obtain ⟨hy0, hy1⟩ := hy
  have hlt : |y - x| < 2 ^ w := abs_lt.2 ⟨by omega, by omega⟩
  exact (sub_eq_zero.1 (Int.eq_zero_of_abs_lt_dvd h.dvd hlt)).symm

theorem toNat_emod_two_pow_cast (w : Nat) (x : Int) : ((x % 2 ^ w).toNat : Int) = x % 2 ^ w :=
  Int.toNat_of_nonneg (Int.emod_nonneg _ (by positivity))

theorem toNat_emod_two_pow_lt (w : Nat) (x : Int) : (x % 2 ^ w).toNat < 2 ^ w := by
  zify
  rw [toNat_emod_two_pow_cast]
  exact Int.emod_lt_of_pos _ (by positivity)

/-- The low bits of a number congruent to a value of the type read as that value. -/
theorem ivalOf_emod_toNat {sg : Bool} {w : Nat} (hw : 0 < w) {x y : Int} (hy : inType sg w y) (h : x ≡ y [ZMOD 2 ^ w]) :
    ivalOf sg w (x % 2 ^ w).toNat = y := by
  refine (ivalOf_inType sg hw _).eq_of_modEq hw hy ((ivalOf_modEq sg w _).trans ?_)
  rw [toNat_emod_two_pow_cast]
  exact (Int.mod_modEq _ _).trans h

theorem clampTo_inType (sg : Bool) (w : Nat) (x : Int) : inType sg w (clampTo sg w x) :=
  ⟨le_max_left _ _, max_le ((minOf_le_zero sg w).trans (zero_le_maxOf sg w)) (min_le_left _ _)⟩

theorem clampTo_of_inType {sg : Bool} {w : Nat} {x : Int} (h : inType sg w x) : clampTo sg w x = x := by
  rw [clampTo, min_eq_right h.2, max_eq_right h.1]

theorem inType.min {sg : Bool} {w : Nat} {x y : Int} (hx : inType sg w x) (hy : inType sg w y) : inType sg w (min x y) :=
  ⟨le_min hx.1 hy.1, (min_le_left _ _).trans hx.2⟩

theorem inType.max {sg : Bool} {w : Nat} {x y : Int} (hx : inType sg w x) (hy : inType sg w y) : inType sg w (max x y) :=
  ⟨hx.1.trans (le_max_left _ _), max_le hx.2 hy.2⟩

/-- The high half of a product of two values is a value. -/
theorem inType.mulHigh {sg : Bool} {w : Nat} (hw : 0 < w) {x y : Int} (hx : inType sg w x) (hy : inType sg w y) :
    inType sg w (x * y / 2 ^ w) := by
  have hM : (0 : Int) < 2 ^ w := by positivity
  cases sg
  · obtain ⟨hx0, hx1⟩ := hx
    obtain ⟨hy0, hy1⟩ := hy
    refine ⟨Int.ediv_nonneg (mul_nonneg hx0 hy0) hM.le, Int.le_sub_one_of_lt ?_⟩
    rw [Int.ediv_lt_iff_lt_mul hM]
    exact mul_lt_mul'' (Int.lt_of_le_sub_one hx1) (Int.lt_of_le_sub_one hy1) hx0 hy0
  · obtain ⟨hx0, hx1⟩ := inType_signed.1 hx
    obtain ⟨hy0, hy1⟩ := inType_signed.1 hy
    have hH : (1 : Int) ≤ 2 ^ (w - 1) := one_le_pow₀ one_le_two
    have habs : |x * y| ≤ 2 ^ (w - 1) * 2 ^ (w - 1) := by
      rw [abs_mul]
      exact mul_le_mul (abs_le.2 ⟨hx0, by omega⟩) (abs_le.2 ⟨hy0, by omega⟩) (abs_nonneg _) (by omega)
    obtain ⟨hlo, hhi⟩ := abs_le.1 habs
    rw [inType_signed, Int.le_ediv_iff_mul_le hM, Int.le_sub_one_iff, Int.ediv_lt_iff_lt_mul hM, two_pow_eq_two_mul hw]
    constructor <;> nlinarith

/-- An arithmetic shift right of a value is a value. -/
theorem inType.shiftRight {w : Nat} {x : Int} (hx : inType true w x) (n : Nat) : inType true w (x / 2 ^ n) := by
  obtain ⟨hx0, hx1⟩ := inType_signed.1 hx
  have hH : (1 : Int) ≤ 2 ^ (w - 1) := one_le_pow₀ one_le_two
  have hN : (1 : Int) ≤ 2 ^ n := one_le_pow₀ one_le_two
  rw [inType_signed, Int.le_ediv_iff_mul_le (by omega), Int.le_sub_one_iff, Int.ediv_lt_iff_lt_mul (by omega)]
  constructor <;> nlinarith

/-- R98: without `.sat` the magnitude of the least value wraps to it, and every other magnitude is a value. -/
theorem inType.abs_wrapped {w : Nat} (hw : 0 < w) {x : Int} (hx : inType true w x) :
    inType true w (if x = minOf true w then minOf true w else |x|) ∧
      |x| ≡ (if x = minOf true w then minOf true w else |x|) [ZMOD 2 ^ w] := by
  have hmin : minOf true w = -2 ^ (w - 1) := rfl
  have hH : (1 : Int) ≤ 2 ^ (w - 1) := one_le_pow₀ one_le_two
  split
  · next h =>
    refine ⟨h ▸ hx, Int.modEq_iff_dvd.2 ⟨-1, ?_⟩⟩
    rw [h, hmin, abs_neg, abs_of_nonneg (by omega), two_pow_eq_two_mul hw]
    ring
  · next h =>
    obtain ⟨hx0, hx1⟩ := inType_signed.1 hx
    exact ⟨inType_signed.2 ⟨by have := abs_nonneg x; omega, abs_le.2 ⟨by omega, hx1⟩⟩, Int.ModEq.rfl⟩

/-- R85: the shift count is the same whether the element is read as signed or not. -/
theorem ivalOf_emod_width (sg : Bool) {w : Nat} (hw : w ∣ 32) (n : Nat) : (ivalOf sg w n % w).toNat = n % w := by
  have hdvd : w ∣ 2 ^ w := by
    obtain ⟨k, -, rfl⟩ := (Nat.dvd_prime_pow Nat.prime_two).1 (show w ∣ 2 ^ 5 from hw)
    exact pow_dvd_pow 2 Nat.lt_two_pow_self.le
  have h : ivalOf sg w n ≡ n [ZMOD w] := (ivalOf_modEq sg w n).of_dvd (mod_cast hdvd)
  rw [h.eq, ← Int.natCast_mod, Int.toNat_natCast]

/-! ### Bit patterns -/

/-- Clearing the bits of a pattern is the exclusive or with the bits in common. -/
theorem and_complement_eq_xor {w a b : Nat} (ha : a < 2 ^ w) (hb : b < 2 ^ w) : a &&& (2 ^ w - 1 - b) = a ^^^ (a &&& b) := by
  apply Nat.eq_of_testBit_eq
  intro i
  rw [show 2 ^ w - 1 - b = 2 ^ w - (b + 1) by omega, Nat.testBit_and, Nat.testBit_two_pow_sub_succ hb, Nat.testBit_xor,
    Nat.testBit_and]
  by_cases hi : i < w
  · cases a.testBit i <;> simp [hi]
  · simp [Nat.testBit_lt_two_pow (ha.trans_le (Nat.pow_le_pow_right (by omega) (Nat.le_of_not_lt hi)))]

/-! ### The types that the instructions accept (R97, R99) -/

/-- A well-formed F-R3 instruction has a type of its list, and sub-fields that it uses (R44). -/
theorem typ_sub_of_wf {i : Instr} {maj : BitVec 6} {fn : BitVec 8} {r : R3} {d a b c : Cls} {o : R3Opts}
    (hi : i.form = some (.r3 maj fn r d a b c o)) (h : i.wf = true) : r.typ.toNat ∈ o.types ∧ r.sub &&& ~~~o.sub = 0 := by
  simp only [Instr.wf, hi, Form.r3, Bool.and_eq_true, Bool.not_eq_true', Bool.or_eq_false_iff] at h
  obtain ⟨⟨⟨⟨⟨⟨-, htypes⟩, -⟩, -⟩, -⟩, -⟩, ⟨⟨⟨⟨⟨⟨-, hres⟩, -⟩, hsub⟩, -⟩, -⟩, -⟩, -⟩ := h
  exact ⟨by simpa [hres] using htypes, not_not.1 (of_decide_eq_false hsub)⟩

theorem typ_mem_of_wf {i : Instr} {maj : BitVec 6} {fn : BitVec 8} {r : R3} {d a b c : Cls} {o : R3Opts} {ts : List Nat}
    (hi : i.form = some (.r3 maj fn r d a b c o)) (ho : o.types ⊆ ts) (h : i.wf = true) : r.typ.toNat ∈ ts :=
  ho (typ_sub_of_wf hi h).1

theorem vwidth_dvd {r : R3} (h : r.typ.toNat ∈ vintTypes) : r.vwidth ∣ 32 := by
  have key : ∀ t : BitVec 5, t.toNat ∈ vintTypes → typeWidth (if t = 0 then 3 else t) ∣ 32 := by decide
  exact key r.typ h

theorem vsigned_of_mem {r : R3} (h : r.typ.toNat ∈ vsintTypes) : r.vsigned = true := by
  have key : ∀ t : BitVec 5, t.toNat ∈ vsintTypes → typeSigned (if t = 0 then 3 else t) = true := by decide
  exact key r.typ h

theorem vwidth_pos {r : R3} (h : r.typ.toNat ∈ vintTypes) : 0 < r.vwidth := Nat.pos_of_dvd_of_pos (vwidth_dvd h) (by omega)

/-- `VCMP` takes the two types of whole lanes and a condition of three bits (R99). -/
theorem vcmp_wf {r : R3} (h : (Instr.vcmp r).wf = true) : r.vwidth = 32 ∧ r.sub.toNat < 8 := by
  have hw : ∀ t : BitVec 5, t.toNat ∈ [0, 3, 7] → typeWidth (if t = 0 then 3 else t) = 32 := by decide
  have hs : ∀ c : BitVec 9, c &&& ~~~7 = 0 → c.toNat < 8 := by decide
  obtain ⟨htyp, hsub⟩ := typ_sub_of_wf rfl h
  exact ⟨hw r.typ htyp, hs r.sub hsub⟩

/-! ### What the shared forms give -/

/-- The typed value of element j. -/
def elemValue (r : R3) (v : Lanes) (j : Nat) : Int := ivalOf r.vsigned r.vwidth (velem v r.vwidth j)

/-- Instruction i completes, and gives each element of the selected lanes the low bits of v of the operands' patterns. -/
def State.GivesPattern (s : State) (r : R3) (i : Instr) (v : Nat → Nat → Nat → Nat) : Prop :=
  i.wf = true → ∃ l, exec i s = .next (s.setV r.d l).step8 ∧ ∀ j < 1024 / r.vwidth,
    velem l r.vwidth j = if (s.mask r.sel r.neg).getLsbD (r.vwidth * j / 32)
      then v (velem (s.v r.a) r.vwidth j) (velem (s.v r.b) r.vwidth j) (velem (s.v r.c) r.vwidth j) % 2 ^ r.vwidth
      else velem (s.v r.d) r.vwidth j

/-- Instruction i completes, and gives each element of the selected lanes the value v of the operands' typed values. -/
def State.GivesValue (s : State) (r : R3) (i : Instr) (v : Int → Int → Int → Int) : Prop :=
  i.wf = true → ∃ l, exec i s = .next (s.setV r.d l).step8 ∧ ∀ j < 1024 / r.vwidth,
    elemValue r l j = if (s.mask r.sel r.neg).getLsbD (r.vwidth * j / 32)
      then v (elemValue r (s.v r.a) j) (elemValue r (s.v r.b) j) (elemValue r (s.v r.c) j) else elemValue r (s.v r.d) j

/-- The result of R98 before its low bits are taken: clamped where `.sat` is given. -/
def vintResult (r : R3) (x : Int) : Int := if r.sat then clampTo r.vsigned r.vwidth x else x

theorem vintResult_sat {r : R3} (h : r.sat = true) (x : Int) : vintResult r x = clampTo r.vsigned r.vwidth x := if_pos h

theorem vintResult_plain {r : R3} (h : r.sat = false) (x : Int) : vintResult r x = x := by simp [vintResult, h]

theorem vintResult_of_inType {r : R3} {x : Int} (h : inType r.vsigned r.vwidth x) : vintResult r x = x := by
  unfold vintResult
  split
  · exact clampTo_of_inType h
  · rfl

section
variable {s : State} {r : R3} {i : Instr}

theorem State.vint_elements (hw : r.vwidth ∣ 32) {srcs : List Src}
    (h : s.IssuesLanes r.sel r.neg (srcs.map (·.reg)) [dv r.d]) (f : Int → Int → Int → Int) :
    ∃ l, s.vint r srcs f = .next (s.setV r.d l).step8 ∧ ∀ j < 1024 / r.vwidth,
      velem l r.vwidth j = if (s.mask r.sel r.neg).getLsbD (r.vwidth * j / 32)
        then (vintResult r (f (elemValue r (s.v r.a) j) (elemValue r (s.v r.b) j) (elemValue r (s.v r.c) j)) % 2 ^ r.vwidth).toNat
        else velem (s.v r.d) r.vwidth j := by
  refine ⟨_, State.lanewise_issues s _ _ _ _ _ h, fun j hj => ?_⟩
  rw [velem_blend_laneOf hw _ _ _ hj]
  split
  · exact Nat.mod_eq_of_lt (toNat_emod_two_pow_lt _ _)
  · rfl

theorem State.vpat_elements (hw : r.vwidth ∣ 32) (h : s.IssuesLanes r.sel r.neg [dv r.a, dv r.b] [dv r.d])
    (f : Nat → Nat → Nat → Nat) :
    ∃ l, s.vpat r f = .next (s.setV r.d l).step8 ∧ ∀ j < 1024 / r.vwidth,
      velem l r.vwidth j = if (s.mask r.sel r.neg).getLsbD (r.vwidth * j / 32)
        then f r.vwidth (velem (s.v r.a) r.vwidth j) (velem (s.v r.b) r.vwidth j) % 2 ^ r.vwidth
        else velem (s.v r.d) r.vwidth j := by
  refine ⟨_, State.lanewise_issues s _ _ r.vsrcs2 _ _ h, fun j hj => ?_⟩
  rw [velem_blend_laneOf hw _ _ _ hj, Nat.mod_mod]

/-- Without `.sat`, an integer operation acts on the patterns as on the values, modulo 2^w. -/
theorem State.givesPattern_of_vint {srcs : List Src} {f : Int → Int → Int → Int} {v : Nat → Nat → Nat → Nat}
    (h : s.IssuesLanes r.sel r.neg (srcs.map (·.reg)) [dv r.d]) (hsat : r.sat = false) (hi : exec i s = s.vint r srcs f)
    (ht : i.wf = true → r.typ.toNat ∈ vintTypes)
    (hv : ∀ {x y z : Int} {a b c : Nat}, b < 2 ^ r.vwidth → x ≡ a [ZMOD 2 ^ r.vwidth] → y ≡ b [ZMOD 2 ^ r.vwidth] →
      z ≡ c [ZMOD 2 ^ r.vwidth] → f x y z ≡ (v a b c : Nat) [ZMOD 2 ^ r.vwidth]) :
    s.GivesPattern r i v := by
  intro hwf
  obtain ⟨l, hl, he⟩ := State.vint_elements (vwidth_dvd (ht hwf)) h f
  refine ⟨l, hi.trans hl, fun j hj => (he j hj).trans (if_congr Iff.rfl ?_ rfl)⟩
  have hmod := hv (velem_lt (s.v r.b) r.vwidth j) (ivalOf_modEq r.vsigned r.vwidth (velem (s.v r.a) r.vwidth j))
    (ivalOf_modEq r.vsigned _ _) (ivalOf_modEq r.vsigned _ (velem (s.v r.c) r.vwidth j))
  rw [vintResult_plain hsat]
  zify
  exact (toNat_emod_two_pow_cast _ _).trans hmod

/-- An operation on patterns gives the low bits of what it computes. -/
theorem State.givesPattern_of_vpat {f : Nat → Nat → Nat → Nat} {v : Nat → Nat → Nat}
    (h : s.IssuesLanes r.sel r.neg [dv r.a, dv r.b] [dv r.d]) (hi : exec i s = s.vpat r f)
    (ht : i.wf = true → r.typ.toNat ∈ vintTypes)
    (hv : ∀ {a b : Nat}, a < 2 ^ r.vwidth → b < 2 ^ r.vwidth → f r.vwidth a b = v a b) :
    s.GivesPattern r i fun a b _ => v a b := by
  intro hwf
  obtain ⟨l, hl, he⟩ := State.vpat_elements (vwidth_dvd (ht hwf)) h f
  refine ⟨l, hi.trans hl, fun j hj => ?_⟩
  rw [he j hj, hv (velem_lt _ _ _) (velem_lt _ _ _)]

/-- An integer operation whose result is congruent to a value of the type gives that value. -/
theorem State.givesValue_of_vint {srcs : List Src} {f v : Int → Int → Int → Int}
    (h : s.IssuesLanes r.sel r.neg (srcs.map (·.reg)) [dv r.d]) (hi : exec i s = s.vint r srcs f)
    (ht : i.wf = true → r.typ.toNat ∈ vintTypes)
    (hv : ∀ {x y z : Int}, i.wf = true → inType r.vsigned r.vwidth x → inType r.vsigned r.vwidth y →
      inType r.vsigned r.vwidth (v x y z) ∧ vintResult r (f x y z) ≡ v x y z [ZMOD 2 ^ r.vwidth]) :
    s.GivesValue r i v := by
  intro hwf
  have hpos := vwidth_pos (ht hwf)
  obtain ⟨l, hl, he⟩ := State.vint_elements (vwidth_dvd (ht hwf)) h f
  refine ⟨l, hi.trans hl, fun j hj => ?_⟩
  conv_lhs => rw [elemValue, he j hj]
  split
  · obtain ⟨hin, hmod⟩ := hv (z := elemValue r (s.v r.c) j) hwf (ivalOf_inType _ hpos (velem (s.v r.a) _ j))
      (ivalOf_inType _ hpos (velem (s.v r.b) _ j))
    exact ivalOf_emod_toNat hpos hin hmod
  · rfl

/-- With `.sat` an integer operation gives its exact result clamped to the type (R98). -/
theorem State.givesValue_of_sat {srcs : List Src} {f : Int → Int → Int → Int}
    (h : s.IssuesLanes r.sel r.neg (srcs.map (·.reg)) [dv r.d]) (hsat : r.sat = true) (hi : exec i s = s.vint r srcs f)
    (ht : i.wf = true → r.typ.toNat ∈ vintTypes) :
    s.GivesValue r i fun x y z => clampTo r.vsigned r.vwidth (f x y z) :=
  State.givesValue_of_vint h hi ht fun _ _ _ => ⟨clampTo_inType _ _ _, by rw [vintResult_sat hsat]⟩

/-- An integer operation that stays in the type gives its exact result. -/
theorem State.givesValue_of_inType {f : Int → Int → Int → Int}
    (h : s.IssuesLanes r.sel r.neg [dv r.a, dv r.b] [dv r.d]) (hi : exec i s = s.vint r r.vsrcs2 f)
    (ht : i.wf = true → r.typ.toNat ∈ vintTypes)
    (hf : ∀ {x y z : Int}, 0 < r.vwidth → inType r.vsigned r.vwidth x → inType r.vsigned r.vwidth y →
      inType r.vsigned r.vwidth (f x y z)) :
    s.GivesValue r i f :=
  State.givesValue_of_vint (srcs := r.vsrcs2) h hi ht fun hwf hx hy =>
    have hin := hf (vwidth_pos (ht hwf)) hx hy
    ⟨hin, by rw [vintResult_of_inType hin]⟩

end

/-! ### The instructions -/

section

variable (s : State) (r : R3)

theorem exec_vadd : exec (.vadd r) s = s.vint r r.vsrcs2 fun a b _ => a + b := rfl
theorem exec_vsub : exec (.vsub r) s = s.vint r r.vsrcs2 fun a b _ => a - b := rfl
theorem exec_vmul : exec (.vmul r) s = s.vint r r.vsrcs2 fun a b _ => a * b := rfl
theorem exec_vmulh : exec (.vmulh r) s = s.vint r r.vsrcs2 fun a b _ => a * b / 2 ^ r.vwidth := rfl
theorem exec_vmad : exec (.vmad r) s = s.vint r r.vsrcs3 fun a b c => a * b + c := rfl
theorem exec_vmin : exec (.vmin r) s = s.vint r r.vsrcs2 fun a b _ => min a b := rfl
theorem exec_vmax : exec (.vmax r) s = s.vint r r.vsrcs2 fun a b _ => max a b := rfl
theorem exec_vabs : exec (.vabs r) s = s.vint r r.vsrcs1 fun a _ _ => a.natAbs := rfl
theorem exec_vand : exec (.vand r) s = s.vpat r fun _ a b => a &&& b := rfl
theorem exec_vor : exec (.vor r) s = s.vpat r fun _ a b => a ||| b := rfl
theorem exec_vxor : exec (.vxor r) s = s.vpat r fun _ a b => a ^^^ b := rfl
theorem exec_vandn : exec (.vandn r) s = s.vpat r fun w a b => a &&& (2 ^ w - 1 - b) := rfl
theorem exec_vshl : exec (.vshl r) s = s.vpat r (byCount shiftLeft) := rfl
theorem exec_vshr : exec (.vshr r) s = s.vpat r (byCount shiftRight) := rfl
theorem exec_vsra : exec (.vsra r) s = s.vpat r (byCount shiftArith) := rfl
theorem exec_vcmp : exec (.vcmp r) s = execVcmp r s := rfl

/-- R98, without `.sat`: sums, differences and products are those of the patterns. -/
theorem vector_wrapping (h : s.IssuesLanes r.sel r.neg [dv r.a, dv r.b] [dv r.d]) (hsat : r.sat = false) :
    s.GivesPattern r (.vadd r) (fun a b _ => a + b) ∧
    s.GivesPattern r (.vsub r) (fun a b _ => a + (2 ^ r.vwidth - b)) ∧
    s.GivesPattern r (.vmul r) (fun a b _ => a * b) := by
  refine ⟨State.givesPattern_of_vint (srcs := r.vsrcs2) h hsat (exec_vadd s r) (typ_mem_of_wf rfl (List.Subset.refl _)) ?_,
    State.givesPattern_of_vint (srcs := r.vsrcs2) h hsat (exec_vsub s r) (typ_mem_of_wf rfl (List.Subset.refl _)) ?_,
    State.givesPattern_of_vint (srcs := r.vsrcs2) h hsat (exec_vmul s r) (typ_mem_of_wf rfl (List.Subset.refl _)) ?_⟩
  · intro x y z a b c _ hx hy _
    simpa using hx.add hy
  · intro x y z a b c hb hx hy _
    have hwrap : (a : Int) - b ≡ a + (2 ^ r.vwidth - b) [ZMOD 2 ^ r.vwidth] := Int.modEq_iff_dvd.2 ⟨1, by ring⟩
    push_cast [hb.le]
    exact (hx.sub hy).trans hwrap
  · intro x y z a b c _ hx hy _
    simpa using hx.mul hy

/-- R97: the bitwise forms and the logical shifts. -/
theorem vector_bitwise (h : s.IssuesLanes r.sel r.neg [dv r.a, dv r.b] [dv r.d]) :
    s.GivesPattern r (.vand r) (fun a b _ => a &&& b) ∧ s.GivesPattern r (.vor r) (fun a b _ => a ||| b) ∧
    s.GivesPattern r (.vxor r) (fun a b _ => a ^^^ b) ∧ s.GivesPattern r (.vandn r) (fun a b _ => a ^^^ (a &&& b)) ∧
    s.GivesPattern r (.vshl r) (fun a b _ => a * 2 ^ (b % r.vwidth)) ∧
    s.GivesPattern r (.vshr r) (fun a b _ => a / 2 ^ (b % r.vwidth)) :=
  ⟨State.givesPattern_of_vpat h (exec_vand s r) (typ_mem_of_wf rfl (by decide)) fun _ _ => rfl,
    State.givesPattern_of_vpat h (exec_vor s r) (typ_mem_of_wf rfl (by decide)) fun _ _ => rfl,
    State.givesPattern_of_vpat h (exec_vxor s r) (typ_mem_of_wf rfl (by decide)) fun _ _ => rfl,
    State.givesPattern_of_vpat h (exec_vandn s r) (typ_mem_of_wf rfl (by decide)) and_complement_eq_xor,
    State.givesPattern_of_vpat h (exec_vshl s r) (typ_mem_of_wf rfl (List.Subset.refl _)) fun _ _ => rfl,
    State.givesPattern_of_vpat h (exec_vshr s r) (typ_mem_of_wf rfl (List.Subset.refl _)) fun _ _ => rfl⟩

/-- R98, without `.sat`: `VMAD`. -/
theorem vmad_wrapping (h : s.IssuesLanes r.sel r.neg [dv r.a, dv r.b, dv r.c] [dv r.d])
    (hsat : r.sat = false) : s.GivesPattern r (.vmad r) (fun a b c => a * b + c) :=
  State.givesPattern_of_vint (srcs := r.vsrcs3) h hsat (exec_vmad s r) (typ_mem_of_wf rfl (List.Subset.refl _))
    fun _ hx hy hz => by simpa using (hx.mul hy).add hz

/-- R98, with `.sat`: sums, differences and products, clamped. -/
theorem vector_saturating (h : s.IssuesLanes r.sel r.neg [dv r.a, dv r.b] [dv r.d]) (hsat : r.sat = true) :
    s.GivesValue r (.vadd r) (fun x y _ => clampTo r.vsigned r.vwidth (x + y)) ∧
    s.GivesValue r (.vsub r) (fun x y _ => clampTo r.vsigned r.vwidth (x - y)) ∧
    s.GivesValue r (.vmul r) (fun x y _ => clampTo r.vsigned r.vwidth (x * y)) :=
  ⟨State.givesValue_of_sat (srcs := r.vsrcs2) h hsat (exec_vadd s r) (typ_mem_of_wf rfl (List.Subset.refl _)),
    State.givesValue_of_sat (srcs := r.vsrcs2) h hsat (exec_vsub s r) (typ_mem_of_wf rfl (List.Subset.refl _)),
    State.givesValue_of_sat (srcs := r.vsrcs2) h hsat (exec_vmul s r) (typ_mem_of_wf rfl (List.Subset.refl _))⟩

/-- R98, with `.sat`: `VMAD`. -/
theorem vmad_saturating (h : s.IssuesLanes r.sel r.neg [dv r.a, dv r.b, dv r.c] [dv r.d])
    (hsat : r.sat = true) : s.GivesValue r (.vmad r) (fun x y z => clampTo r.vsigned r.vwidth (x * y + z)) :=
  State.givesValue_of_sat (srcs := r.vsrcs3) h hsat (exec_vmad s r) (typ_mem_of_wf rfl (List.Subset.refl _))

/-- R98: minimum, maximum and high product stay in the type. -/
theorem vector_inType (h : s.IssuesLanes r.sel r.neg [dv r.a, dv r.b] [dv r.d]) :
    s.GivesValue r (.vmin r) (fun x y _ => min x y) ∧ s.GivesValue r (.vmax r) (fun x y _ => max x y) ∧
    s.GivesValue r (.vmulh r) (fun x y _ => x * y / 2 ^ r.vwidth) :=
  ⟨State.givesValue_of_inType h (exec_vmin s r) (typ_mem_of_wf rfl (List.Subset.refl _)) fun _ => inType.min,
    State.givesValue_of_inType h (exec_vmax s r) (typ_mem_of_wf rfl (List.Subset.refl _)) fun _ => inType.max,
    State.givesValue_of_inType h (exec_vmulh s r) (typ_mem_of_wf rfl (List.Subset.refl _)) fun hw => inType.mulHigh hw⟩

/-- R97: the arithmetic shift works on patterns and gives the shifted value. -/
theorem vsra_value (h : s.IssuesLanes r.sel r.neg [dv r.a, dv r.b] [dv r.d]) :
    s.GivesValue r (.vsra r) (fun x y _ => x / 2 ^ (y % r.vwidth).toNat) := by
  intro hwf
  have htyp : r.typ.toNat ∈ vsintTypes := typ_mem_of_wf rfl (List.Subset.refl _) hwf
  have hmem : r.typ.toNat ∈ vintTypes := (by decide : vsintTypes ⊆ vintTypes) htyp
  have hpos := vwidth_pos hmem
  obtain ⟨l, hl, he⟩ := State.vpat_elements (vwidth_dvd hmem) h (byCount shiftArith)
  refine ⟨l, (exec_vsra s r).trans hl, fun j hj => ?_⟩
  conv_lhs => rw [elemValue, he j hj]
  split
  · simp only [elemValue]
    rw [ivalOf_emod_width _ (vwidth_dvd hmem), vsigned_of_mem htyp, byCount, shiftArith,
      Nat.mod_eq_of_lt (toNat_emod_two_pow_lt _ _)]
    exact ivalOf_emod_toNat hpos ((ivalOf_inType true hpos _).shiftRight _) Int.ModEq.rfl
  · rfl

/-- R98: with `.sat` the magnitude is at most the greatest value. -/
theorem vabs_saturating (h : s.IssuesLanes r.sel r.neg [dv r.a] [dv r.d]) (hsat : r.sat = true) :
    s.GivesValue r (.vabs r) (fun x _ _ => min (maxOf r.vsigned r.vwidth) |x|) := by
  have hclamp (x : Int) : clampTo r.vsigned r.vwidth (x.natAbs : Int) = min (maxOf r.vsigned r.vwidth) |x| := by
    rw [Int.natCast_natAbs]
    exact max_eq_right ((minOf_le_zero _ _).trans (le_min (zero_le_maxOf _ _) (abs_nonneg x)))
  simpa only [hclamp] using
    State.givesValue_of_sat (i := .vabs r) (srcs := r.vsrcs1) h hsat (exec_vabs s r) (typ_mem_of_wf rfl (by decide))

/-- R98: without `.sat` the magnitude of the least value is the least value. -/
theorem vabs_wrapping (h : s.IssuesLanes r.sel r.neg [dv r.a] [dv r.d]) (hsat : r.sat = false) :
    s.GivesValue r (.vabs r) (fun x _ _ => if x = minOf r.vsigned r.vwidth then minOf r.vsigned r.vwidth else |x|) := by
  have hmem : (Instr.vabs r).wf = true → r.typ.toNat ∈ vintTypes := typ_mem_of_wf rfl (by decide)
  refine State.givesValue_of_vint (srcs := r.vsrcs1) h (exec_vabs s r) hmem fun {x _ _} hwf hx _ => ?_
  rw [vintResult_plain hsat, Int.natCast_natAbs]
  rw [vsigned_of_mem (typ_mem_of_wf rfl (List.Subset.refl _) hwf)] at hx ⊢
  exact hx.abs_wrapped (vwidth_pos (hmem hwf))

/-- R99: `VCMP` writes the comparison of each selected lane. -/
theorem vcmp_bits (h : s.IssuesLanes r.sel r.neg [dv r.a, dv r.b] []) (hwf : (Instr.vcmp r).wf = true) :
    ∃ p, exec (.vcmp r) s = .next (s.setP r.d p).step8 ∧ ∀ j < 32,
      p.getLsbD j = if (s.mask r.sel r.neg).getLsbD j
        then vcmpHolds r.sub.toNat (elemValue r (s.v r.a) j) (elemValue r (s.v r.b) j) else (s.p r.d).getLsbD j := by
  obtain ⟨hw, hsub⟩ := vcmp_wf hwf
  refine ⟨_, (exec_vcmp s r).trans (State.lanewise_issues s _ _ r.vsrcs2 _ _ h), fun j hj => ?_⟩
  rw [blendBits_getLsbD _ _ _ hj, bitsOf_getLsbD _ hj, Nat.mod_eq_of_lt hsub]
  unfold elemValue
  rw [hw, velem_32, velem_32]

end

/-- Settles O21: the patterns of the results are those of the operands' operations, and the typed results follow from
their classes modulo 2^w. -/
theorem vectorIntegerForms : Obligations.VectorIntegerForms :=
  ⟨fun s r => ⟨fun h => ⟨vector_wrapping s r h, vector_bitwise s r h⟩, vmad_wrapping s r⟩,
    fun s r => ⟨fun h =>
        have ⟨hmin, hmax, hmulh⟩ := vector_inType s r h
        ⟨vector_saturating s r h, hmin, hmax, hmulh, fun _ => vsra_value s r h⟩,
      vmad_saturating s r, fun h => ⟨vabs_saturating s r h, vabs_wrapping s r h⟩, vcmp_bits s r⟩⟩

end Sys2Proof.Machine
end

section
/-! PROOFS. The engine words that push a command (R119, R220, R225, R229, R232, R233): their words decode to them, what a push
leaves behind, and how a push waits or traps. -/

namespace Sys2Proof

open Machine

/-! ### The word of an F-Q instruction (R40) -/

section
variable (maj : BitVec 6) (fn : BitVec 8) (r : FQ)

/-- The word as an append of widths that add up: the library's lemmas about appends do not see one in a term of type `Word`. -/
theorem FQ.extract_word (start len : Nat) : (r.word maj fn).extractLsb' start len = BitVec.extractLsb' start len
    (maj ++ fn ++ r.sel ++ r.neg ++ r.q ++ r.a ++ r.am ++ r.b ++ r.bm ++ r.c ++ r.cm ++ r.guard ++ r.guarded ++ r.cmd) := rfl

@[simp] theorem FQ.majorOf_word : majorOf (r.word maj fn) = maj := by
  simp [majorOf, FQ.extract_word, BitVec.extractLsb'_append_eq_of_le, -Nat.reduceAdd]

@[simp] theorem FQ.functionOf_word : functionOf (r.word maj fn) = fn := by
  simp [functionOf, FQ.extract_word, BitVec.extractLsb'_append_eq_of_le, BitVec.extractLsb'_append_eq_right, -Nat.reduceAdd]

@[simp] theorem FQ.ofWord_word : FQ.ofWord (r.word maj fn) = r := by
  simp [FQ.ofWord, FQ.extract_word, BitVec.extractLsb'_append_eq_of_le, BitVec.extractLsb'_append_eq_right, -Nat.reduceAdd]

end

/-! ### The bits of a command (R44) -/

theorem getElem_of_masked {n : Nat} {x m : BitVec n} (h : x &&& ~~~m = 0) {j : Nat} {hj : j < n} (hm : m[j] = false) :
    x[j] = false := by
  simpa [hm] using congrArg (fun y : BitVec n => y[j]) h

theorem extract_two_eq_iff {n : Nat} {x : BitVec n} {k : Nat} {v : BitVec 2} :
    x.extractLsb' k 2 = v ↔ x.getLsbD k = v.getLsbD 0 ∧ x.getLsbD (k + 1) = v.getLsbD 1 := by
  refine ⟨fun h => by simp [← h], fun ⟨h0, h1⟩ => BitVec.eq_of_getLsbD_eq fun j hj => ?_⟩
  obtain rfl | rfl : j = 0 ∨ j = 1 := by omega
  · simpa using h0
  · simpa using h1

/-- A well-formed F-Q instruction sets bits of its mask only, and its variant bits are as its form says. -/
theorem fq_of_wf {i : Instr} {fn : BitVec 8} {q : BitVec 6} {r : FQ} {a b c : Cls} {mask : BitVec 15} {ill rsv : Bool}
    (hi : i.form = some (.fq fn q r a b c mask ill rsv)) (h : i.wf = true) :
    rsv = false ∧ ∀ {j : Nat} {hj : j < 15}, mask[j] = false → r.cmd[j] = false := by
  simp only [Instr.wf, hi, Form.fq, Bool.and_eq_true, Bool.not_eq_true', Bool.or_eq_false_iff, decide_eq_false_iff_not,
    not_not] at h
  obtain ⟨-, ⟨⟨⟨⟨hrsv, hcmd⟩, -⟩, -⟩, -⟩, -⟩ := h
  exact ⟨hrsv, getElem_of_masked hcmd⟩

/-! ### The engine words that push a command (R43, R118, R119, R220, R233, R251) -/

theorem judge_of_wf {i : Instr} (hi : i.form.isSome = true) (hwf : i.wf = true) : judge i = .instr i := by
  obtain ⟨f, hf⟩ := Option.isSome_iff_exists.1 hi
  simp only [Instr.wf, hf, Bool.and_eq_true, Bool.not_eq_true'] at hwf
  simp [judge, hf, hwf]

section
variable {i : Instr} {q fn : Nat} {holdable : Bool} {r : FQ}

/-- Such a word has one meaning, by itself and under `QW`. -/
theorem command_engine (h : i.command = some (q, fn, holdable, r)) :
    engineWord i = some (r, exec i) ∧ ∀ s, exec i s = s.engine q fn holdable r := by
  unfold Instr.command at h
  split at h <;> cases h <;> exact ⟨rfl, fun _ => rfl⟩

theorem command_view (h : i.command = some (q, fn, holdable, r)) : q < 12 := by
  unfold Instr.command at h
  split at h <;> cases h <;> decide

theorem command_encode (h : i.command = some (q, fn, holdable, r)) :
    i.form.isSome = true ∧ encode i = r.word 0x1D (BitVec.ofNat 8 fn) := by
  unfold Instr.command at h
  split at h <;> cases h <;> exact ⟨rfl, rfl⟩

/-- The function of the word and the variant bits of its command name the instruction. -/
theorem candidate1D_command (h : i.command = some (q, fn, holdable, r)) (hwf : i.wf = true) :
    candidate1D (r.word 0x1D (BitVec.ofNat 8 fn)) = some i := by
  unfold Instr.command at h
  split at h <;> cases h
  all_goals
    obtain ⟨hvariant, hmask⟩ := fq_of_wf rfl hwf
    simp at hvariant
    simp [candidate1D, extract_two_eq_iff, hvariant, hmask]

theorem decode_encode_command (h : i.command = some (q, fn, holdable, r)) (hwf : i.wf = true) :
    decode (encode i) = .instr i := by
  obtain ⟨hform, henc⟩ := command_encode h
  have hcand : candidate (encode i) = some i := by
    rw [henc, ← candidate1D_command h hwf]
    simp [candidate]
  rw [decode, hcand]
  exact judge_of_wf hform hwf

end

end Sys2Proof

namespace Sys2Proof.Machine

/-! ### Equal register files -/

/-- The thread's registers, modes, guards and fibres are as before where its register file is. -/
theorem State.sameRegs_of_eq {s t : State} (h : t.th.r = s.th.r) :
    s.sameX t [] ∧ s.sameV t [] ∧ s.sameP t [] ∧ s.sameModes t := by
  simp [State.sameX, State.sameV, State.sameP, State.sameModes, Ctx.getX, Ctx.getV, Ctx.getP, h]

/-! ### Waiting at issue (R225) -/

/-- The state in which an instruction waits that has changed nothing. -/
def State.stayed (s : State) : State := { s.updTh (fun c => { c with blocked := true }) with stalled := true }

theorem State.finish_stay (s : State) : s.finish (.stay s) = .next s.stayed := rfl

@[simp] theorem State.th_stayed (s : State) : s.stayed.th = { s.th with blocked := true } :=
  s.th_updTh fun c => { c with blocked := true }

theorem State.regs_stayed (s : State) : s.stayed.th.r = s.th.r := by simp

theorem State.sameOthers_stayed (s : State) : s.sameOthers s.stayed := s.sameOthers_updTh fun c => { c with blocked := true }

theorem State.sameBytes_stayed (s : State) : s.sameBytes s.stayed := s.sameBytes_updTh fun c => { c with blocked := true }

/-! ### What a push leaves behind (R119, R220, R232) -/

/-- The thread with a command last in a view. -/
def Ctx.queued (x : Ctx) (q : Nat) (c : Cmd) : Ctx := { x with cmds := vput x.cmds q (vat x.cmds q ++ [c]) }

/-- The thread with a command of a view held by its transaction (R220). -/
def Ctx.holding (x : Ctx) (q : Nat) (c : Cmd) : Ctx :=
  { x with tx := x.tx.map fun t => { t with held := t.held ++ [.cmd q c.id] } }

/-- What the thread holds after the push of a command, its pc at the next word. -/
def Ctx.pushed (x : Ctx) (q : Nat) (c : Cmd) : Ctx :=
  { x.queued q c with
    tx := if c.held then (x.holding q c).tx else x.tx
    pc := x.pc + 8
    blocked := false
    woken := false
    joined := false
    waitSince := none }

/-- The state after the push of a command: beside the thread it touches the numbers given out, the steps that are due and the
lines that are pending. -/
def State.pushed (s : State) (q : Nat) (c : Cmd) : State :=
  { s.updTh (·.pushed q c) with
    nextId := s.nextId + 1
    due := if c.held then s.due else s.due ++ [⟨.engineCommandStart, { k := s.cur, q := q }⟩]
    scratchPending := if c.held then s.scratchPending else c.destLines s.myCore s.th.claim ++ s.scratchPending }

/-- The command that an engine word leaves in its view. -/
def State.issued (s : State) (fn : Nat) (hold : Bool) (r : FQ) : Cmd := { s.cmdOf fn r with id := s.nextId, held := hold }

section
variable (s : State) (q : Nat) (holdable : Bool) (c : Cmd)

theorem State.enqueue_step8 : (s.newId.enqueue q c).step8 = s.pushed q c := by
  have hclaim : (s.updTh (·.queued q c)).th.claim = s.th.claim := by simp [Ctx.queued]
  cases hc : c.held with
  | false =>
    have hth : (s.updTh (·.queued q c)).step8 = s.updTh (·.pushed q c) := by
      rw [State.updTh_step8]
      simp only [Ctx.pushed, Ctx.queued, hc, Bool.false_eq_true, if_false]
    simp only [State.pushed, ← hth, ← hclaim, State.enqueue, hc]
    rfl
  | true =>
    have hth : ((s.updTh (·.queued q c)).updTh (·.holding q c)).step8 = s.updTh (·.pushed q c) := by
      rw [State.updTh_updTh, State.updTh_step8]
      simp only [Ctx.pushed, Ctx.queued, Ctx.holding, hc, if_true]
    simp only [State.pushed, ← hth, State.enqueue, hc]
    rfl

@[simp] theorem State.th_pushed : (s.pushed q c).th = s.th.pushed q c := s.th_updTh (·.pushed q c)

theorem State.regs_pushed : (s.pushed q c).th.r = s.th.r := by simp [Ctx.pushed, Ctx.queued]

theorem State.cmds_pushed : vat (s.pushed q c).th.cmds q = vat s.th.cmds q ++ [c] := by simp [Ctx.pushed, Ctx.queued]

theorem State.cmds_pushed_ne (hq : q < 12) {p : Nat} (hp : p < 12) (h : p ≠ q) :
    vat (s.pushed q c).th.cmds p = vat s.th.cmds p := by
  simpa [Ctx.pushed, Ctx.queued] using vat_vput_lt _ q p _ hq hp h

theorem State.pushed_free (hc : c.held = false) : (s.pushed q c).th.tx = s.th.tx ∧
    (s.pushed q c).due = s.due ++ [⟨.engineCommandStart, { k := s.cur, q := q }⟩] := by
  constructor
  · simp [Ctx.pushed, hc]
  · simp [State.pushed, hc]

theorem State.pushed_held (hc : c.held = true) : (s.pushed q c).due = s.due ∧
    (s.pushed q c).th.tx = s.th.tx.map fun x => { x with held := x.held ++ [.cmd q c.id] } := by
  constructor
  · simp [State.pushed, hc]
  · simp [Ctx.pushed, Ctx.holding, hc]

theorem State.sameButQueues_pushed : s.sameButQueues (s.pushed q c) := by simp [State.sameButQueues, Ctx.pushed, Ctx.queued]

theorem State.sameOthers_pushed : s.sameOthers (s.pushed q c) := s.sameOthers_updTh (·.pushed q c)

theorem State.sameBytes_pushed : s.sameBytes (s.pushed q c) := s.sameBytes_updTh (·.pushed q c)

/-! ### The ends of a push (R119, R184, R220, R225) -/

theorem State.push_heldBack (h : s.heldBack true = true) : s.push q holdable c = .stay s := by
  simp [State.push, h]

theorem State.push_full (h : s.heldBack true = false) (hfull : 8 ≤ (vat s.th.cmds q).length) :
    s.push q holdable c = s.pushFull q := by
  simp [State.push, h, hfull]

theorem State.push_of_room (h : s.heldBack true = false) (hroom : (vat s.th.cmds q).length < 8)
    (htx : ∀ x, s.th.tx = some x → x.held.length < 16) :
    s.push q holdable c = .next (s.newId.enqueue q { c with id := s.nextId, held := holdable && s.th.speculative }) := by
  cases hx : s.th.tx with
  | none => simp [State.push, h, hx, Nat.not_le_of_lt hroom]
  | some x => simp [State.push, h, hx, Nat.not_le_of_lt hroom, Nat.not_le_of_lt (htx x hx)]

end

section
variable {s : State} {q : Nat} {c : Cmd} {cs : List Cmd} (hq : vat s.th.cmds q = c :: cs) (hlen : 7 ≤ cs.length)
  (holdable : Bool) (d : Cmd)
include hq hlen

/-- No command leaves a full view whose oldest one waits for a pending guard (R225). -/
theorem State.push_deadlock (h : s.heldBack true = false) (hc : ∃ g, c.bound = .heldOn g) :
    s.push q holdable d = .trap .guardDeadlock (BitVec.ofNat 64 q) := by
  obtain ⟨g, hg⟩ := hc
  rw [s.push_full q holdable d h (by simp [hq, hlen])]
  simp [State.pushFull, hq, Cmd.onGuard, hg]

/-- A push waits behind an access or fence that orders it, and for a slot of a view that can move on (R184, R225). -/
theorem State.push_waits (hwait : s.heldBack true = true ∨ ∀ g, c.bound ≠ .heldOn g) : s.push q holdable d = .stay s := by
  cases hback : s.heldBack true with
  | true => exact s.push_heldBack q holdable d hback
  | false =>
    have hguard : c.onGuard = false := by
      cases hb : c.bound with
      | heldOn g => exact absurd hb (hwait.resolve_left (by simp [hback]) g)
      | free | discarded | dropped => simp [Cmd.onGuard, hb]
    rw [s.push_full q holdable d hback (by simp [hq, hlen])]
    simp [State.pushFull, hq, hguard]

end

/-- A command is bound by its guard, where its word names one (R232). -/
theorem Regs.binding_guardOf (r : Regs) (n : BitVec 3) (guarded : BitVec 1) :
    r.binding (guardOf n guarded) =
      if guarded = 0 ∨ vat r.guards n.toNat = .yes then .free
      else if vat r.guards n.toNat = .no then .discarded else .heldOn n.toNat := by
  have hbit : guarded = 0 ∨ guarded = 1 := by decide +revert
  obtain rfl | rfl := hbit
  · simp [guardOf, Regs.binding]
  · cases hg : vat r.guards n.toNat <;> simp [guardOf, Regs.binding, hg]

/-! ### Engine words (R225, R229) -/

section
variable {s : State} {i : Instr} {q fn : Nat} {holdable : Bool} {r : FQ}

theorem exec_command (h : i.command = some (q, fn, holdable, r)) (hs : s.Issues r.sel r.neg [dx r.a, dx r.b, dx r.c] []) :
    exec i s = s.finish (s.push q holdable (s.cmdOf fn r)) :=
  ((command_engine h).2 s).trans (s.whole_issues r.sel r.neg r.srcs [] _ hs)

theorem exec_command_of_room (h : i.command = some (q, fn, holdable, r))
    (hs : s.Issues r.sel r.neg [dx r.a, dx r.b, dx r.c] []) (hfree : s.heldBack true = false)
    (hroom : (vat s.th.cmds q).length < 8) (htx : ∀ x, s.th.tx = some x → x.held.length < 16) :
    exec i s = .next (s.pushed q (s.issued fn (holdable && s.th.speculative) r)) := by
  rw [exec_command h hs, s.push_of_room q holdable _ hfree hroom htx, State.finish_next, State.enqueue_step8]
  rfl

/-- A word without a predicate issues when its registers are full. -/
theorem State.Issues.of_full {srcs : List RegRef} {sel : BitVec 3} {neg : BitVec 1} (hsel : sel = 0) (hneg : neg = 0)
    (h : s.full srcs) : s.Issues sel neg srcs [] := by
  subst hsel hneg
  exact ⟨by simp [State.mask, Ctx.getP, Regs.getP_zero], h, by simp [State.free]⟩

/-- `QW` runs the word that its register holds. -/
theorem exec_qw_command (h : i.command = some (q, fn, holdable, r)) (hwf : i.wf = true) {w : FQ}
    (hw : s.Issues w.sel w.neg [dx w.a] []) (hq : w.q = r.q) (hsel : r.sel = 0) (hneg : r.neg = 0) (hx : s.x w.a = encode i) :
    exec (.qw w) s = exec i s := by
  have hgate : s.gate [sx w.a w.am] [] (fun s => .final s) = .final s := s.gate_ready _ _ _ hw.2
  have hword := (command_encode h).2
  have hmajor : (encode i).extractLsb' 58 6 = 0x1D := hword ▸ FQ.majorOf_word ..
  have hqueue : (encode i).extractLsb' 40 6 = w.q := by
    rw [hword, hq]; exact congrArg FQ.q (FQ.ofWord_word ..)
  show execQw w s = exec i s
  simp [execQw, hw.1, hgate, State.issueWord, hx, hmajor, hqueue, decode_encode_command h hwf, (command_engine h).1, hsel, hneg]

end

/-- Settles O35: an engine word and a `QW` of it end in the same push, whose end is `State.pushed`; with its view full the push
waits or traps by the command at the view's head. -/
theorem commandsAreQueued : Obligations.CommandsAreQueued := by
  refine ⟨fun s i q fn holdable r hi hwf hroom hfree htx => ?_, fun s i q fn holdable r hi hs c cs hq hlen => ⟨?_, ?_⟩⟩
  · intro g hold pushes
    have hpush (hs : s.Issues r.sel r.neg [dx r.a, dx r.b, dx r.c] []) : pushes (exec i s) := by
      obtain ⟨hx, hv, hp, hm⟩ := State.sameRegs_of_eq (s.regs_pushed q (s.issued fn hold r))
      exact ⟨s.pushed q (s.issued fn hold r), s.issued fn hold r, exec_command_of_room hi hs hfree hroom htx,
        by simp [Ctx.pushed], s.cmds_pushed q _, fun p => s.cmds_pushed_ne q _ (command_view hi), rfl, rfl, rfl, rfl, rfl, rfl, rfl,
        Regs.binding_guardOf .., s.pushed_free q (s.issued fn hold r), s.pushed_held q (s.issued fn hold r), hx, hv, hp, hm,
        s.sameButQueues_pushed q _, s.sameOthers_pushed q _, s.sameBytes_pushed q _⟩
    refine ⟨hpush, fun w hw hfull hwq hsel hneg hx => ?_⟩
    rw [exec_qw_command hi hwf hw hwq hsel hneg hx]
    exact hpush (.of_full hsel hneg hfull)
  · intro hfree hguard
    rw [exec_command hi hs, State.push_deadlock hq hlen holdable _ hfree hguard, State.finish_trap]
  · intro hwait
    obtain ⟨hx, hv, -⟩ := State.sameRegs_of_eq s.regs_stayed
    refine ⟨s.stayed, ?_, rfl, by simp, by simp, hx, hv, s.sameOthers_stayed, s.sameBytes_stayed⟩
    rw [exec_command hi hs, State.push_waits hq hlen holdable _ hwait, State.finish_stay]

end Sys2Proof.Machine
end
